-- ==== Sys2Proof/Word.lean ====
section
/-! DEFINITION. Sys2Proof/Word.lean: the sorts of number the GT440 manual uses, each with the range its tables give it
(Table I-6, Table 1-3). A range that is a plain fact about one field is put in the type, so that no value outside it can
be written down. -/
namespace Sys2Proof

/-- The eight data bits of one character (R1), and one byte of the configuration record. -/
abbrev Byte := BitVec 8

/-- A station number, 0 to 63. -/
abbrev Station := Fin 64

/-- A winder number, 0 to 3. -/
abbrev Winder := Fin 4

/-- A line segment, 0 at the top to 3 at the bottom. -/
abbrev Segment := Fin 4

/-- A depth in millimetres below the bank datum, 0 to 4,194,303. -/
abbrev Depth := Fin 4194304

/-- A permitted speed, 0 to 20,000 mm/s (R74, R82). -/
abbrev VPerm := Fin 20001

/-- A trip number, counted modulo 256 (R98). -/
abbrev TripNumber := BitVec 8

/-- A POSITION sequence, counted modulo 256 (R35, R123). -/
abbrev Sequence := BitVec 8

/-- A set of winders: bit w stands for winder w (Table 1-3). -/
abbrev WinderSet := BitVec 4

/-- A set of stations: bit n stands for station n (Table 1-3). -/
abbrev StationSet := BitVec 64

/-- The configuration digest: the CRC of the accepted record (R181). -/
abbrev Digest := BitVec 16

/-- The count of the drum encoder, a signed 32-bit number that wraps (R54). -/
abbrev Count := BitVec 32

/-- A level of the line or of an input pin: `true` is a bit of value 1, which on the line is recessive (R1). -/
abbrev Level := Bool

end Sys2Proof
end

