-- ==== Sys2Proof/Syntax.lean ====
section
/-! DEFINITION. Sys2Proof/Syntax.lean: the frames of the shaft line (Table 1-3) and the commands of the GT440: one
constructor of `Instr` for each row of spec/opcode_table.json. -/
namespace Sys2Proof

/-- The two line ports (R21): A, the upper port, and B, the lower port of a repeater. -/
inductive PortId where
  | a
  | b
  deriving DecidableEq, Repr

/-- The three station roles (Table 11-1 byte 2). -/
inductive Role where
  | drum
  | landing
  | loading
  deriving DecidableEq, Repr

/-- The eight frame kinds (Table 1-2). -/
inductive Kind where
  | halt
  | signal
  | winding
  | position
  | assent
  | mark
  | call
  | announce
  deriving DecidableEq, Repr

/-- The class of a trip. -/
inductive TripClass where
  | persons
  | material
  | ore
  | inspection
  deriving DecidableEq, Repr

/-- The word of a SIGNAL frame, less its auto flag. -/
inductive SignalWord where
  | go
  | stop
  | cancel
  deriving DecidableEq, Repr

/-- The word of a CALL frame. -/
inductive CallWord where
  | register
  | cancel
  deriving DecidableEq, Repr

/-- The states of a trip record (Table 6-1). -/
inductive TripState where
  | idle
  | armed
  | running
  | stopping
  | suspended
  deriving DecidableEq, Repr

/-- How a closed trip ended (Table 6-1). -/
inductive TripResult where
  | arrived
  | cancelled
  | expired
  | tripped
  deriving DecidableEq, Repr

/-- The refusal causes of a GO, in the order of Table 6-3. -/
inductive RefusalCause where
  | tripped
  | line
  | tripOpen
  | autoOff
  | destUnknown
  | sameLevel
  | notAtOrigin
  | unverified
  | hold
  | pathBlocked
  deriving DecidableEq, Repr

/-- Byte 2 of a WINDING frame: a trip state, or REFUSAL. -/
inductive WindingState where
  | trip (state : TripState)
  | refusal
  deriving DecidableEq, Repr

/-- Byte 9 of a WINDING frame: none, a result, or a refusal cause. -/
inductive WindingOutcome where
  | none
  | result (r : TripResult)
  | refusal (c : RefusalCause)
  deriving DecidableEq, Repr

/-- The cause byte of a HALT frame (Table 1-3); the reason of a HALT cause record (Table 9-2). -/
inductive HaltReason where
  | estopKey
  | gateForced
  | flaskDoor
  | spillage
  | skipMoved
  deriving DecidableEq, Repr

/-- The payload of a WINDING frame (Table 1-3). -/
structure WindingReport where
  winder   : Winder
  number   : TripNumber
  state    : WindingState
  cls      : TripClass
  auto     : Bool
  origin   : Station
  dest     : Station
  depth    : Depth
  outcome  : WindingOutcome
  blocking : Option Station
  deriving DecidableEq, Repr

/-- The payload of a POSITION frame (Table 1-3). `dest` is byte 14: `none` stands for 255. -/
structure PositionReport where
  winder        : Winder
  seq           : Sequence
  carrying      : Depth
  counterweight : Depth
  speed         : Int
  vPerm         : VPerm
  number        : TripNumber
  state         : TripState
  dest          : Option Station
  skip          : Bool
  verified      : Bool
  correctionOn  : Bool
  clamped       : Bool
  moving        : Bool
  tripped       : Bool
  callSet       : StationSet
  holdSet       : StationSet
  deriving DecidableEq, Repr

/-- The payload of an ASSENT frame (Table 1-3), which is also the ASSENT contents of R135. -/
structure AssentReport where
  level        : Depth
  clear        : WinderSet
  hold         : Bool
  estop        : Bool
  lineDegraded : Bool
  relayDrop    : Bool
  deriving DecidableEq, Repr

/-- Bytes 0 to 4 of an ANNOUNCE frame: the role, with a winder for a DRUM (whose level depth is 0) and a served set and a
level depth for a LANDING or LOADING. -/
inductive AnnounceBody where
  | drum (winder : Winder)
  | landing (served : WinderSet) (level : Depth)
  | loading (served : WinderSet) (level : Depth)
  deriving DecidableEq, Repr

/-- What a frame carries, by kind (Table 1-3). -/
inductive Payload where
  | halt (winders : WinderSet) (reason : HaltReason)
  | signal (winder : Winder) (dest : Station) (cls : TripClass) (word : SignalWord) (auto : Bool)
  | winding (r : WindingReport)
  | position (r : PositionReport)
  | assent (r : AssentReport)
  | mark (winder : Winder) (surveyed : Depth)
  | call (winder : Winder) (cls : TripClass) (word : CallWord)
  | announce (body : AnnounceBody) (segment : Segment) (digest : Digest)
  deriving DecidableEq, Repr

/-- A frame without its check characters, which `Machine/Frames.lean` computes (R9, R10). -/
structure Frame where
  hop     : Fin 4
  origin  : Station
  payload : Payload
  deriving DecidableEq, Repr

/-- What a taken frame tells besides its payload: the port it was received on, its hop count and its origin. -/
structure Heading where
  port   : PortId
  hop    : Fin 4
  origin : Station
  deriving DecidableEq, Repr

/-- The line levels seen at samples 7, 8 and 9 of one bit time (R2). -/
structure BitReading where
  s7 : Level
  s8 : Level
  s9 : Level
  deriving DecidableEq, Repr

/-- The readings of the 12 bit times of one character, in the order they are sent: start, D0 to D7, heading mark, parity,
stop (R1, Figure 1-1). -/
abbrev CharReading := Vector BitReading 12

/-- The recessive bit times that have ended on the line of a port (R4). -/
structure BitTimes where
  port  : PortId
  count : Nat
  deriving DecidableEq, Repr

/-- The commands of the GT440: the rows of spec/opcode_table.json, in its order. A level is `true` for closed, engaged,
active, held or on. The selectors other than the winder selector are read as levels at the press (R137), so a key's
command carries what they show. A count of bit times is that of the recessive bit times ended since the last command on the
port (R4); the levels of RECORD_READ_COMPLETE are those of the data in line, in the order sampled (R180). -/
inductive Instr where
  | powerOn
  | powerLoss
  | oscillatorStartExpiry
  | warmReset
  | resetPinRelease
  | recordReadComplete (levels : List Level)
  | listenTimerExpiry
  | characterReceived (port : PortId) (reading : CharReading)
  | lineBecomesIdle (passed : BitTimes)
  | lineBecomesBusy (port : PortId)
  | transmissionStart (port : PortId) (bitTimes : Nat)
  | collision (port : PortId) (bitTime : Nat) (reading : BitReading)
  | transmissionComplete (port : PortId)
  | errorWindowAdvance
  | haltTaken (h : Heading) (winders : WinderSet) (reason : HaltReason)
  | signalGo (h : Heading) (winder : Winder) (dest : Station) (cls : TripClass) (auto : Bool)
  | signalStop (h : Heading) (winder : Winder) (dest : Station) (cls : TripClass) (auto : Bool)
  | signalCancel (h : Heading) (winder : Winder) (dest : Station) (cls : TripClass) (auto : Bool)
  | callRegister (h : Heading) (winder : Winder) (cls : TripClass)
  | callCancel (h : Heading) (winder : Winder) (cls : TripClass)
  | positionTaken (h : Heading) (r : PositionReport)
  | conveyanceRecordExpiry (winder : Winder)
  | assentTaken (h : Heading) (r : AssentReport)
  | announceTaken (h : Heading) (body : AnnounceBody) (segment : Segment) (digest : Digest)
  | stationEntryExpiry (station : Station)
  | holdOverrideKey
  | encoderChannelChange (chA : Level) (chB : Level)
  | encoderFaultClear
  | sample (envelopeFirst : Bool)
  | markTaken (h : Heading) (winder : Winder) (surveyed : Depth)
  | correctionOffInputChange (on : Bool)
  | tableClearKey
  | armTimerExpiry
  | autoEnableInputChange (on : Bool)
  | autoStartPulseEnd
  | callLifeExpiry (origin : Station)
  | localEstopInputChange (active : Bool)
  | tripResetKey
  | gateSwitchChange (winder : Winder) (closed : Bool)
  | lockContactChange (winder : Winder) (engaged : Bool)
  | lockSettleTimerExpiry (winder : Winder)
  | assentTimerExpiry
  | acknowledgeKey
  | sendKey (dest : Station) (cls : TripClass)
  | stopKey (dest : Station) (cls : TripClass)
  | cancelKey (dest : Station) (cls : TripClass)
  | callKey (cls : TripClass)
  | windingTaken (h : Heading) (r : WindingReport)
  | replyTimerExpiry
  | holdSwitchChange (on : Bool)
  | emergencyStopKeyChange (active : Bool)
  | markerInputChange (winder : Winder) (active : Bool)
  | flaskFullChange (on : Bool)
  | flaskEmptyChange (on : Bool)
  | doorClosedChange (closed : Bool)
  | spillageChange (active : Bool)
  | doorTimerExpiry
  | autoInputChange (on : Bool)
  | autoReplyTimerExpiry
  | retryTimerExpiry
  | dwellTimerExpiry
  | flashClockHalf
  | lampTestKeyChange (held : Bool)
  | darkInputChange (on : Bool)
  | strobePulseEnd
  | winderSelectorChange (winder : Winder)
  | recessiveBitTimeAfterFraming (port : PortId)
  deriving DecidableEq, Repr

end Sys2Proof
end

