-- ==== Sys2Proof/Config.lean ====
section
/-! DEFINITION. Sys2Proof/Config.lean: what the manual fixes for every GT440 (Tables I-6, 1-1, 1-2) and the one free value
of the model. -/
namespace Sys2Proof.Config

/-- Table 1-1: the divider that follows the fixed prescaler of 2, by rate code. -/
def rateDivider (code : Fin 4) : Nat := 8 / 2 ^ code.val

/-- The deepest depth, 4,194,303 mm (Table I-6). -/
def maxDepth : Int := 4194303

/-- The greatest magnitude of a speed, 32,767 mm/s (Table I-6). -/
def maxSpeed : Int := 32767

/-- The capacity of a transmit queue, a relay queue, the call list and the cause list (Table I-6). -/
def listCapacity : Nat := 8

/-- The least speed magnitude that is motion: a conveyance at 50 mm/s or less is stationary (Table I-3). -/
def stationarySpeed : Int := 50

/-- A speed beyond this without a trip in motion is unauthorised (R115). -/
def unauthorisedSpeed : Int := 150

/-- Collisions at which a station enters LISTEN-ONLY (R7). -/
def collisionLimit : Nat := 16

/-- Deferrals at which an entry is promoted (R6). -/
def deferralLimit : Nat := 8

/-- Recessive bit times after which the line is idle (R4). -/
def idleBitTimes : Nat := 12

/-- A port is DEGRADED while its window sum exceeds this (R15). -/
def degradedSum : Nat := 8

/-- Ages and the stationary time stop here (R37, R43, R57). -/
def maxAge : Nat := 65535

/-- The time count of the Safety Trip Unit stops here (R163). -/
def maxSeconds : Nat := 16777215

/-- Times in milliseconds: the listen timer (R183). -/
def listenTime : Nat := 2000
/-- Staleness time of a moving conveyance's records (R37). -/
def stalenessMoving : Nat := 150
/-- Staleness time of a standing conveyance's records (R37). -/
def stalenessStanding : Nat := 1500
/-- Age at which a station table entry becomes STALE (R43). -/
def entryStaleness : Nat := 3000
/-- Time without an illegal change after which the encoder fault clears (R53). -/
def encoderClearTime : Nat := 10
/-- The sample interval (R55). -/
def sampleTime : Nat := 10
/-- The auto-start pulse (R119). -/
def autoStartTime : Nat := 200
/-- The lock settle time (R134). -/
def settleTime : Nat := 500
/-- The ASSENT period (R135). -/
def assentPeriod : Nat := 1000
/-- The reply time of the signal record and of the automatic record (R141, R155). -/
def replyTime : Nat := 2000
/-- The retry time (R155). -/
def retryTime : Nat := 2000
/-- The strobe pulse (R177). -/
def strobeTime : Nat := 20
/-- Half a cycle of the flash clock (R175). -/
def flashHalf : Nat := 500
/-- The interval of the error window (R14). -/
def windowTime : Nat := 1000
/-- The least stationary time for a trip reset (Table 9-3). -/
def resetRest : Nat := 1000
/-- POSITION period while moving or with a trip open (R123). -/
def positionPeriodFast : Nat := 50
/-- POSITION period otherwise (R123). -/
def positionPeriodSlow : Nat := 500

/-- FREE VALUE (log entry 3). R76 leaves open, at each sample, whether the Envelope Unit or the Trip Controller acts first.
A SAMPLE command says it in its operand; the samples that the model's own timebase places in the queue take it from this
constant, which has no body, applied to a counter of State. -/
opaque sampleOrder : Nat → Bool

end Sys2Proof.Config
end

