-- ==== Sys2Proof/Machine/State.lean ====
section
/-! DEFINITION. Sys2Proof/Machine/State.lean: every piece of state the manual gives a GT440, block by block (Figure I-1), and
the state right after power-on. A timer that can be stopped is an `Option Nat`: `none` while stopped, `some n` while
running with n milliseconds counted. A value that a rule calls absent is an `Option`. -/
namespace Sys2Proof.Machine

/-- The reasons the machine stops with a fault: none. The manual gives every command an effect or says it changes nothing. -/
inductive Fault where
  deriving DecidableEq, Repr

/-- The reasons a command is refused. -/
inductive Refusal where
  /-- Raised by `exec` alone, for a command without a meaning; no arm raises it now. Safe: the machine stops. -/
  | notModelled (mnemonic : String)
  deriving DecidableEq, Repr

/-- The station's phase (R180, R183, R185). -/
inductive Phase where
  | init
  | listen
  | run
  | listenOnly
  | configFault
  deriving DecidableEq, Repr

/-- The Configuration Loader (R180 to R183) with the supply and reset pins. `loadDue` marks that the zero offset and the
correction table have still to be loaded since power-on (R58, R59). -/
structure Loader where
  powered     : Bool
  oscillating : Bool
  pinHeld     : Bool
  reading     : Bool
  phase       : Phase
  listenMs    : Option Nat
  buffer      : List Byte
  clamped     : Bool
  loadDue     : Bool
  rate        : Fin 4
  deriving DecidableEq, Repr

/-- The fields of the accepted configuration record (Table 11-1), as applied. `role` is `none` until a record is accepted. -/
structure Params where
  station        : Station
  role           : Option Role
  winder         : Winder
  repeater       : Bool
  tipFlag        : Bool
  carriesSkip    : Bool
  inverted       : Bool
  segment        : Segment
  reach          : WinderSet
  rate           : Fin 4
  level          : Depth
  landingHw      : Nat
  markers        : Vector Depth 4
  served         : WinderSet
  tipWinder      : Winder
  tipPartner     : Station
  loadingPartner : Station
  dwell          : Nat
  doorTimeout    : Nat
  required       : StationSet
  vCreep         : Nat
  aRet           : Nat
  vMen           : Nat
  vMat           : Nat
  vOre           : Nat
  vInsp          : Nat
  vCross         : Nat
  crossHw        : Nat
  oAllow         : Nat
  pathGuard      : Nat
  disagreeLim    : Nat
  vLearn         : Nat
  armTimeout     : Nat
  callLife       : Nat
  cwSum          : Nat
  topLimit       : Nat
  bottomLimit    : Nat
  upc            : Nat
  zeroOffset     : Int
  corrections    : Vector Int 64
  digest         : Digest
  deriving DecidableEq, Repr

/-- The accepted (debounced) level of each input (R126, R149, R168) and the winder selector (R137). -/
structure Inputs where
  gateClosed     : Vector Bool 4
  lockEngaged    : Vector Bool 4
  marker         : Vector Bool 4
  hold           : Bool
  estop          : Bool
  lampTest       : Bool
  dark           : Bool
  auto           : Bool
  flaskFull      : Bool
  flaskEmpty     : Bool
  doorClosed     : Bool
  spillage       : Bool
  localEstop     : Bool
  autoEnable     : Bool
  correctionOff  : Bool
  winderSelector : Winder
  deriving DecidableEq, Repr

/-- The 1 ms timebase since the end of the last reset, and the counts that recur on it: the error window (R14), the flash
clock (R175) and the sample interval (R55). -/
structure Clock where
  now      : Nat
  windowMs : Nat
  flashMs  : Nat
  flashLit : Bool
  sampleMs : Nat
  deriving DecidableEq, Repr

/-- The receiving character engine between characters (R3). -/
inductive Engine where
  | waiting
  | afterFraming
  deriving DecidableEq, Repr

/-- The line state of a port (R4). -/
inductive LineState where
  | busy
  | idle
  deriving DecidableEq, Repr

/-- The frame assembly of a port (R11). -/
inductive Assembly where
  | wait
  | assembling (chars : List Byte)
  | skip
  deriving DecidableEq, Repr

/-- An entry of a transmit queue (R16) or of a relay queue (R26). `stamp` is the model's own: the number of the origination
that gave the entry its present contents. -/
structure Entry where
  frame      : Frame
  stamp      : Nat
  effClass   : Nat
  deferrals  : Nat
  collisions : Nat
  order      : Nat
  sending    : Bool
  replaced   : Bool
  deriving DecidableEq, Repr

/-- A transmit or relay queue, its entries in the order of R16, and the entry order the next new entry takes. -/
structure Queue where
  entries   : List Entry
  nextOrder : Nat
  deriving DecidableEq, Repr

/-- A transmission attempt in progress (R7): the entry being sent, named by its queue and entry order, and the contents the
attempt began with. -/
structure Attempt where
  relayed : Bool
  order   : Nat
  frame   : Frame
  stamp   : Nat
  deriving DecidableEq, Repr

/-- A line port (Table 1-6). `completed` is the frame whose transmission the port has completed and whose readback it has
still to assemble (R13). -/
structure Port where
  engine    : Engine
  line      : LineState
  recessive : Nat
  idleCount : Nat
  attempt   : Option Attempt
  completed : Option Frame
  assembly  : Assembly
  tx        : Queue
  buckets   : Vector Nat 10
  pointer   : Fin 10
  deriving DecidableEq, Repr

/-- The Relay Unit of a repeater (R21). -/
structure Relay where
  up       : Queue
  down     : Queue
  upDrop   : Bool
  downDrop : Bool
  deriving DecidableEq, Repr

/-- A carrying conveyance record that has been heard (Table 3-1); `current` is false in STALE. -/
structure Carrying where
  current      : Bool
  skip         : Bool
  depth        : Depth
  speed        : Int
  vPerm        : VPerm
  number       : TripNumber
  state        : TripState
  dest         : Option Station
  verified     : Bool
  correctionOn : Bool
  clamped      : Bool
  tripped      : Bool
  moving       : Bool
  callSet      : StationSet
  holdSet      : StationSet
  seq          : Sequence
  age          : Nat
  staleness    : Nat
  deriving DecidableEq, Repr

/-- A counterweight record that has been heard (Table 3-1). -/
structure Counterweight where
  current   : Bool
  depth     : Depth
  speed     : Int
  moving    : Bool
  seq       : Sequence
  age       : Nat
  staleness : Nat
  deriving DecidableEq, Repr

/-- The conveyance table (R34): record 2w is `carrying` at w and record 2w+1 is `counterweight` at w; `none` is UNHEARD. -/
structure Picture where
  carrying      : Vector (Option Carrying) 4
  counterweight : Vector (Option Counterweight) 4
  deriving DecidableEq, Repr

/-- The state of a station table entry (Table 3-2). -/
inductive EntryState where
  | unknown
  | current
  | stale
  deriving DecidableEq, Repr

/-- A station table entry (Table 3-2). -/
structure StationEntry where
  state        : EntryState
  role         : Option Role
  level        : Option Depth
  served       : Option WinderSet
  clear        : WinderSet
  hold         : Bool
  estop        : Bool
  lineDegraded : Bool
  relayDrop    : Bool
  age          : Nat
  deriving DecidableEq, Repr

/-- The station table (R40) and the hold set (R47) of a drum station. -/
structure Stations where
  entries : Vector StationEntry 64
  holdSet : StationSet
  deriving DecidableEq, Repr

/-- The sample set (R63). -/
structure SampleSet where
  count         : Count
  speed         : Int
  stationary    : Nat
  raw           : Depth
  corrected     : Depth
  counterweight : Depth
  clamped       : Bool
  verified      : Bool
  correctionOn  : Bool
  modePending   : Bool
  clearPending  : Bool
  deriving DecidableEq, Repr

/-- The Depth Unit (Table 4-3). `faultMs` is the encoder fault indication: `none` is CLEAR, `some n` is FAULTY with n ms
since the last illegal change (R53). -/
structure DepthUnit where
  count        : Count
  channel      : Option (Level × Level)
  faultMs      : Option Nat
  history      : List Count
  stationary   : Nat
  zeroOffset   : Int
  table        : Vector Int 64
  verified     : Bool
  correctionOn : Bool
  modePending  : Bool
  clearPending : Bool
  sample       : Option SampleSet
  deriving DecidableEq, Repr

/-- The Envelope Unit (R74). `outside` is the shaft-limit state. -/
structure Envelope where
  vPerm     : VPerm
  vThr      : Nat
  warning   : Bool
  count     : Nat
  outside   : Bool
  limitWord : Nat
  deriving DecidableEq, Repr

/-- The direction of a trip. -/
inductive Direction where
  | down
  | up
  deriving DecidableEq, Repr

/-- The fields of the trip record that are present from the first opening (Table 6-1). -/
structure TripDetails where
  cls       : TripClass
  auto      : Bool
  origin    : Station
  dest      : Station
  target    : Depth
  direction : Direction
  deriving DecidableEq, Repr

/-- The trip record (Table 6-1). -/
structure TripRecord where
  number    : TripNumber
  state     : TripState
  details   : Option TripDetails
  stopDepth : Option Depth
  armMs     : Option Nat
  result    : Option TripResult
  deriving DecidableEq, Repr

/-- An entry of the call list (R120). -/
structure CallEntry where
  origin     : Station
  cls        : TripClass
  registered : Nat
  deriving DecidableEq, Repr

/-- The Trip Controller (Table 6-7). `sincePosition` is the time since the last POSITION built, `none` before the first. -/
structure TripUnit where
  record        : TripRecord
  calls         : List CallEntry
  unauthorised  : Bool
  positionSeq   : Sequence
  sincePosition : Option Nat
  autoStartMs   : Option Nat
  deriving DecidableEq, Repr

/-- The kinds of cause (Table 9-1); a HALT's kind includes its reason (R162). -/
inductive CauseKind where
  | start
  | config
  | halt (reason : HaltReason)
  | estopRemote
  | estopLocal
  | encoder
  | depthDisagree
  | overspeed
  | overwind
  | gateWithdrawn
  | wrongDirection
  | unauthorisedMotion
  deriving DecidableEq, Repr

/-- A cause record (Table 9-2). Its winder is the drum's winder, held once in the configuration. -/
structure CauseRecord where
  kind   : CauseKind
  depth  : Option Depth
  speed  : Option Int
  number : TripNumber
  origin : Option Station
  time   : Nat
  deriving DecidableEq, Repr

/-- The refusal reasons of a trip reset, in the order of Table 9-3. -/
inductive ResetRefusal where
  | phase
  | motion
  | localEstop
  | remoteEstop
  | encoder
  deriving DecidableEq, Repr

/-- The Safety Trip Unit (Table 9-5). -/
structure SafetyUnit where
  causes     : List CauseRecord
  causesLost : Bool
  refusal    : Option ResetRefusal
  deriving DecidableEq, Repr

/-- The states of a gate record (Table 7-1). -/
inductive GateState where
  | locked
  | releasable
  | opened
  | forced
  deriving DecidableEq, Repr

/-- A gate record (R126), without its clear flag, which `clearFlag` computes by R134. -/
structure GateRecord where
  state    : GateState
  settleMs : Option Nat
  deriving DecidableEq, Repr

/-- The statuses of the signal record (R138). -/
inductive SignalStatus where
  | idle
  | awaiting
  | accepted
  | refused
  | noReply
  | expired
  deriving DecidableEq, Repr

/-- The signal record (R138). -/
structure SignalRecord where
  status  : SignalStatus
  winder  : Option Winder
  number  : Option TripNumber
  cause   : Option RefusalCause
  replyMs : Option Nat
  deriving DecidableEq, Repr

/-- The statuses of a call record (R142). -/
inductive CallStatus where
  | none
  | sent
  | listed
  | notRegistered
  deriving DecidableEq, Repr

/-- A call record (R142). -/
structure CallRecord where
  status : CallStatus
  misses : Nat
  deriving DecidableEq, Repr

/-- The Gate and Key Unit (Table 7-4). -/
structure GateUnit where
  records  : Vector GateRecord 4
  assentMs : Option Nat
  signal   : SignalRecord
  calls    : Vector CallRecord 4
  deriving DecidableEq, Repr

/-- The flask cycle (Table 8-1). -/
inductive FlaskCycle where
  | waitSkip
  | discharge
  | doorClosing
  | loaded
  | waitDepart
  deriving DecidableEq, Repr

/-- The tip states (Table 8-3). -/
inductive TipCycle where
  | tipWait
  | dwell
  | ready
  | returnSent
  deriving DecidableEq, Repr

/-- The statuses of the automatic signal record (R155). -/
inductive AutoStatus where
  | none
  | awaiting
  | accepted
  deriving DecidableEq, Repr

/-- The automatic signal record (R155). -/
structure AutoRecord where
  status  : AutoStatus
  number  : Option TripNumber
  replyMs : Option Nat
  retryMs : Option Nat
  deriving DecidableEq, Repr

/-- The Loading Sequencer (Table 8-4). `sendAfter` is the model's own: the least origination number an ASSENT must have to
set the send mark (R156). -/
structure Sequencer where
  cycle     : FlaskCycle
  complete  : Bool
  doorMs    : Option Nat
  skipMoved : Bool
  auto      : AutoRecord
  sendMark  : Bool
  sendAfter : Nat
  tip       : TipCycle
  dwellMs   : Option Nat
  arrival   : Option TripNumber
  deriving DecidableEq, Repr

/-- The event lines (Table 10-4): the pending event set, in which bit c stands for the event of code c (R176), the winder
set of CALL NOT REGISTERED, the refusal cause carried with REFUSED (R141), and the strobe pulse. -/
structure Panel where
  pendingEvents     : BitVec 16
  callNotRegistered : WinderSet
  refusedCause      : Option RefusalCause
  strobeMs          : Option Nat
  deriving DecidableEq, Repr

/-- The model's own counters: originations so far, and free values drawn so far. -/
structure ModelFields where
  stamp : Nat
  draws : Nat
  deriving DecidableEq, Repr

/-- The whole state of a GT440: the commands that wait, first in, first out, and its blocks. -/
structure State where
  pending  : List Instr
  loader   : Loader
  cfg      : Params
  inputs   : Inputs
  clock    : Clock
  portA    : Port
  portB    : Port
  relay    : Relay
  picture  : Picture
  stations : Stations
  depth    : DepthUnit
  env      : Envelope
  trip     : TripUnit
  safety   : SafetyUnit
  gate     : GateUnit
  seq      : Sequencer
  panel    : Panel
  model    : ModelFields
  deriving DecidableEq, Repr

/-- R180: power-on starts with the station held in reset, the oscillator starting, in INIT. That the reset pin counts as released
then, whatever its level, is the model's choice (log entry 45). -/
def Loader.reset : Loader where
  powered := true
  oscillating := true
  pinHeld := false
  reading := false
  phase := .init
  listenMs := none
  buffer := []
  clamped := false
  loadDue := true
  rate := 0

/-- The parameters before a record has been accepted. DESIGN CHOICE (log entry 4): the manual gives none; no rule but the
encoder polarity of R52 reads them before the end of INIT. The parameters of Table 11-2 stand at its defaults. -/
def Params.reset : Params where
  station := 0
  role := none
  winder := 0
  repeater := false
  tipFlag := false
  carriesSkip := false
  inverted := false
  segment := 0
  reach := 0
  rate := 0
  level := 0
  landingHw := 150
  markers := Vector.replicate 4 0
  served := 0
  tipWinder := 0
  tipPartner := 0
  loadingPartner := 0
  dwell := 8
  doorTimeout := 10
  required := 0
  vCreep := 500
  aRet := 800
  vMen := 12000
  vMat := 15000
  vOre := 18000
  vInsp := 1000
  vCross := 0
  crossHw := 20000
  oAllow := 500
  pathGuard := 2000
  disagreeLim := 1000
  vLearn := 1500
  armTimeout := 60
  callLife := 15
  cwSum := 4194303
  topLimit := 0
  bottomLimit := 4194303
  upc := 1000
  zeroOffset := 0
  corrections := Vector.replicate 64 0
  digest := 0

/-- R126: from power-on until its first acceptance, an input's accepted level is its inactive one. The winder selector, which
is a level of two pins, stands at 0: DESIGN CHOICE (log entry 4). -/
def Inputs.reset : Inputs where
  gateClosed := Vector.replicate 4 false
  lockEngaged := Vector.replicate 4 false
  marker := Vector.replicate 4 false
  hold := false
  estop := false
  lampTest := false
  dark := false
  auto := false
  flaskFull := false
  flaskEmpty := false
  doorClosed := false
  spillage := false
  localEstop := false
  autoEnable := false
  correctionOff := false
  winderSelector := 0

/-- R175: the flash clock starts its lit half at the end of a reset; the other counts start there too. -/
def Clock.reset : Clock where
  now := 0
  windowMs := 0
  flashMs := 0
  flashLit := true
  sampleMs := 0

/-- An empty queue. -/
def Queue.empty : Queue where
  entries := []
  nextOrder := 1

/-- Table 1-6. -/
def Port.reset : Port where
  engine := .waiting
  line := .busy
  recessive := 0
  idleCount := 0
  attempt := none
  completed := none
  assembly := .wait
  tx := Queue.empty
  buckets := Vector.replicate 10 0
  pointer := 0

/-- Table 2-3. -/
def Relay.reset : Relay where
  up := Queue.empty
  down := Queue.empty
  upDrop := false
  downDrop := false

/-- Table 3-3: every record UNHEARD. -/
def Picture.reset : Picture where
  carrying := Vector.replicate 4 none
  counterweight := Vector.replicate 4 none

/-- R40: an UNKNOWN entry. -/
def StationEntry.unknown : StationEntry where
  state := .unknown
  role := none
  level := none
  served := none
  clear := 0
  hold := false
  estop := false
  lineDegraded := false
  relayDrop := false
  age := 0

/-- Table 3-3. -/
def Stations.reset : Stations where
  entries := Vector.replicate 64 StationEntry.unknown
  holdSet := 0

/-- Table 4-3 after power-on. The zero offset, the table and the correction mode are set at the end of INIT; until then they
stand at 0, 0 and ON: DESIGN CHOICE (log entry 4). -/
def DepthUnit.reset : DepthUnit where
  count := 0
  channel := none
  faultMs := none
  history := []
  stationary := 0
  zeroOffset := 0
  table := Vector.replicate 64 0
  verified := false
  correctionOn := true
  modePending := false
  clearPending := false
  sample := none

/-- Table 5-5. -/
def Envelope.reset : Envelope where
  vPerm := 0
  vThr := 50
  warning := false
  count := 0
  outside := false
  limitWord := 0

/-- R93: no last trip. -/
def TripRecord.reset : TripRecord where
  number := 0
  state := .idle
  details := none
  stopDepth := none
  armMs := none
  result := none

/-- Table 6-7. -/
def TripUnit.reset : TripUnit where
  record := TripRecord.reset
  calls := []
  unauthorised := false
  positionSeq := 0
  sincePosition := none
  autoStartMs := none

/-- R169: the START record. -/
def CauseRecord.start : CauseRecord where
  kind := .start
  depth := none
  speed := none
  number := 0
  origin := none
  time := 0

/-- Table 9-5. -/
def SafetyUnit.reset : SafetyUnit where
  causes := [CauseRecord.start]
  causesLost := false
  refusal := none

/-- Table 7-4. -/
def GateRecord.reset : GateRecord where
  state := .locked
  settleMs := none

/-- Table 7-4. -/
def SignalRecord.reset : SignalRecord where
  status := .idle
  winder := none
  number := none
  cause := none
  replyMs := none

/-- Table 7-4. -/
def CallRecord.reset : CallRecord where
  status := .none
  misses := 0

/-- Table 7-4. -/
def GateUnit.reset : GateUnit where
  records := Vector.replicate 4 GateRecord.reset
  assentMs := none
  signal := SignalRecord.reset
  calls := Vector.replicate 4 CallRecord.reset

/-- Table 8-4. -/
def AutoRecord.reset : AutoRecord where
  status := .none
  number := none
  replyMs := none
  retryMs := none

/-- Table 8-4. -/
def Sequencer.reset : Sequencer where
  cycle := .waitSkip
  complete := false
  doorMs := none
  skipMoved := false
  auto := AutoRecord.reset
  sendMark := false
  sendAfter := 0
  tip := .tipWait
  dwellMs := none
  arrival := none

/-- Table 10-4. -/
def Panel.reset : Panel where
  pendingEvents := 0
  callNotRegistered := 0
  refusedCause := none
  strobeMs := none

/-- The machine right after power-on (R180): held in reset until the oscillator has started, every block at the power-on
value its chapter gives, no command waiting. -/
def State.reset : State where
  pending := []
  loader := Loader.reset
  cfg := Params.reset
  inputs := Inputs.reset
  clock := Clock.reset
  portA := Port.reset
  portB := Port.reset
  relay := Relay.reset
  picture := Picture.reset
  stations := Stations.reset
  depth := DepthUnit.reset
  env := Envelope.reset
  trip := TripUnit.reset
  safety := SafetyUnit.reset
  gate := GateUnit.reset
  seq := Sequencer.reset
  panel := Panel.reset
  model := { stamp := 0, draws := 0 }

end Sys2Proof.Machine
end

