-- ==== Sys2Proof/Machine/Arith.lean ====
section
/-! DEFINITION. Sys2Proof/Machine/Arith.lean: the exact integer arithmetic of the manual (Introduction, section 8), bytes most
significant first, and the CRC of R10. -/
namespace Sys2Proof.Machine

/-- Writes one place of a fixed table. -/
def put {α : Type} {n : Nat} (v : Vector α n) (i : Fin n) (x : α) : Vector α n := v.set i.val x i.isLt

/-- clamp of a value to a range: the value if it lies in the range, otherwise the nearer bound. -/
def clampInt (lo hi x : Int) : Int := if x < lo then lo else if hi < x then hi else x

/-- clamp to the depth range, 0 to 4,194,303 mm. -/
def clampDepth (x : Int) : Depth :=
  if x ≤ 0 then 0 else if h : x.toNat < 4194304 then ⟨x.toNat, h⟩ else ⟨4194303, by omega⟩

/-- The smaller of a speed and the absolute ceiling of 20,000 mm/s (R82). -/
def capVPerm (x : Nat) : VPerm := if h : x < 20001 then ⟨x, h⟩ else ⟨20000, by omega⟩

/-- One step of the digit-by-digit square root: keeps bit `b` of the root if the square still fits. -/
def isqrtStep (n acc b : Nat) : Nat := if (acc + 2 ^ b) ^ 2 ≤ n then acc + 2 ^ b else acc

/-- The root with the bits below `b` still to be found. -/
def isqrtFrom (n : Nat) : Nat → Nat → Nat
  | 0, acc => acc
  | b + 1, acc => isqrtFrom n b (isqrtStep n acc b)

/-- isqrt (R78): the largest integer whose square does not exceed its argument, exactly. -/
def isqrt (n : Nat) : Nat := isqrtFrom n (n.log2 / 2 + 1) 0

/-- ceil of a quotient of natural numbers. -/
def ceilDiv (a b : Nat) : Nat := (a + b - 1) / b

/-- The station n of a station set. -/
def stationIn (t : StationSet) (n : Station) : Bool := t.getLsbD n.val

/-- A station set with station n put in. -/
def stationJoin (t : StationSet) (n : Station) : StationSet := t ||| BitVec.twoPow 64 n.val

/-- A station set with station n taken out. -/
def stationLeave (t : StationSet) (n : Station) : StationSet := t &&& ~~~(BitVec.twoPow 64 n.val)

/-- The winder w of a winder set. -/
def winderIn (t : WinderSet) (w : Winder) : Bool := t.getLsbD w.val

/-- A winder set with winder w put in. -/
def winderJoin (t : WinderSet) (w : Winder) : WinderSet := t ||| BitVec.twoPow 4 w.val

/-- A winder set with winder w taken out. -/
def winderLeave (t : WinderSet) (w : Winder) : WinderSet := t &&& ~~~(BitVec.twoPow 4 w.val)

/-- The four winders. -/
def winders : List Winder := [0, 1, 2, 3]

/-- The 64 station numbers, in order. -/
def stationNumbers : List Station := List.finRange 64

/-- A number in n bytes, most significant byte first (section 8, Frames). -/
def bytesOf : Nat → Nat → List Byte
  | 0, _ => []
  | n + 1, v => BitVec.ofNat 8 (v / 256 ^ n) :: bytesOf n v

/-- The number that bytes spell, most significant byte first. -/
def natOf (bytes : List Byte) : Nat := bytes.foldl (fun acc b => acc * 256 + b.toNat) 0

/-- One bit shifted through the CRC register, generator x¹⁶ + x¹² + x⁵ + 1 (R10). -/
def crcShift (crc : BitVec 16) : BitVec 16 :=
  if crc.msb then (crc <<< 1) ^^^ 0x1021#16 else crc <<< 1

/-- `n` bits shifted through the CRC register. -/
def crcShifts : Nat → BitVec 16 → BitVec 16
  | 0, crc => crc
  | n + 1, crc => crcShifts n (crcShift crc)

/-- One byte shifted into the CRC register, most significant bit first (R10). -/
def crcByte (crc : BitVec 16) (b : Byte) : BitVec 16 :=
  crcShifts 8 (crc ^^^ (b.setWidth 16 <<< 8))

/-- The CRC of R10: register started at 0xFFFF, no final inversion. -/
def crc16 (bytes : List Byte) : BitVec 16 := bytes.foldl crcByte 0xFFFF#16

end Sys2Proof.Machine
end

