-- ==== Sys2Proof/Machine/Frames.lean ====
section
/-! DEFINITION. Sys2Proof/Machine/Frames.lean: the frames of the shaft line as bytes (R9, R10, Tables 1-2 and 1-3) and as
bits (R1). -/
namespace Sys2Proof

open Machine

/-- Table 1-2: the kind code. -/
def Kind.code : Kind → Nat
  | .halt => 0
  | .signal => 1
  | .winding => 2
  | .position => 3
  | .assent => 4
  | .mark => 5
  | .call => 6
  | .announce => 7

/-- Table 1-2: the kind of a code, the low three bits of char0. -/
def Kind.ofCode : Nat → Kind
  | 0 => .halt
  | 1 => .signal
  | 2 => .winding
  | 3 => .position
  | 4 => .assent
  | 5 => .mark
  | 6 => .call
  | _ => .announce

/-- Table 1-2: the class of a kind, its access priority. -/
def Kind.cls : Kind → Nat
  | .halt => 0
  | .signal => 1
  | .winding => 1
  | .position => 2
  | .assent => 2
  | .mark => 2
  | .call => 3
  | .announce => 3

/-- Table 1-2: the payload length in bytes. -/
def Kind.payloadLength : Kind → Nat
  | .halt => 2
  | .signal => 4
  | .winding => 11
  | .position => 32
  | .assent => 5
  | .mark => 4
  | .call => 3
  | .announce => 8

/-- Table 1-2: the length of a frame in characters. -/
def Kind.frameLength (k : Kind) : Nat := k.payloadLength + 4

/-- The kind of a payload. -/
def Payload.kind : Payload → Kind
  | .halt .. => .halt
  | .signal .. => .signal
  | .winding .. => .winding
  | .position .. => .position
  | .assent .. => .assent
  | .mark .. => .mark
  | .call .. => .call
  | .announce .. => .announce

/-- The kind of a frame. -/
def Frame.kind (f : Frame) : Kind := f.payload.kind

/-- The class of a frame's kind (R9). -/
def Frame.cls (f : Frame) : Nat := f.kind.cls

/-- A flag as a number. -/
def bit (b : Bool) : Nat := if b then 1 else 0

/-- Table 1-3: trip classes. -/
def tripClassCode : TripClass → Nat
  | .persons => 0
  | .material => 1
  | .ore => 2
  | .inspection => 3

/-- Table 1-3: trip classes. -/
def tripClassOf : Nat → Option TripClass
  | 0 => some .persons
  | 1 => some .material
  | 2 => some .ore
  | 3 => some .inspection
  | _ => none

/-- Table 1-3: trip states. -/
def tripStateCode : TripState → Nat
  | .idle => 0
  | .armed => 1
  | .running => 2
  | .stopping => 3
  | .suspended => 4

/-- Table 1-3: trip states. -/
def tripStateOf : Nat → Option TripState
  | 0 => some .idle
  | 1 => some .armed
  | 2 => some .running
  | 3 => some .stopping
  | 4 => some .suspended
  | _ => none

/-- Table 1-3: the SIGNAL word. -/
def signalWordCode : SignalWord → Nat
  | .go => 1
  | .stop => 2
  | .cancel => 3

/-- Table 1-3: the SIGNAL word. -/
def signalWordOf : Nat → Option SignalWord
  | 1 => some .go
  | 2 => some .stop
  | 3 => some .cancel
  | _ => none

/-- Table 1-3: the CALL word. -/
def callWordCode : CallWord → Nat
  | .register => 1
  | .cancel => 2

/-- Table 1-3: the CALL word. -/
def callWordOf : Nat → Option CallWord
  | 1 => some .register
  | 2 => some .cancel
  | _ => none

/-- Table 1-3: the HALT cause. -/
def haltReasonCode : HaltReason → Nat
  | .estopKey => 1
  | .gateForced => 2
  | .flaskDoor => 3
  | .spillage => 4
  | .skipMoved => 5

/-- Table 1-3: the HALT cause. -/
def haltReasonOf : Nat → Option HaltReason
  | 1 => some .estopKey
  | 2 => some .gateForced
  | 3 => some .flaskDoor
  | 4 => some .spillage
  | 5 => some .skipMoved
  | _ => none

/-- Table 1-3: WINDING byte 2. -/
def windingStateCode : WindingState → Nat
  | .trip s => tripStateCode s
  | .refusal => 5

/-- Table 1-3: WINDING byte 2. -/
def windingStateOf (n : Nat) : Option WindingState :=
  if n = 5 then some .refusal else (tripStateOf n).map .trip

/-- Table 6-3: the order of a refusal cause, 1 to 10, which is also its detail number (Table 10-2). -/
def refusalOrder : RefusalCause → Nat
  | .tripped => 1
  | .line => 2
  | .tripOpen => 3
  | .autoOff => 4
  | .destUnknown => 5
  | .sameLevel => 6
  | .notAtOrigin => 7
  | .unverified => 8
  | .hold => 9
  | .pathBlocked => 10

/-- Table 1-3: WINDING byte 9. -/
def outcomeCode : WindingOutcome → Nat
  | .none => 0
  | .result .arrived => 1
  | .result .cancelled => 2
  | .result .expired => 3
  | .result .tripped => 4
  | .refusal c => 16 + refusalOrder c

/-- Table 1-3: WINDING byte 9. -/
def outcomeOf : Nat → Option WindingOutcome
  | 0 => some .none
  | 1 => some (.result .arrived)
  | 2 => some (.result .cancelled)
  | 3 => some (.result .expired)
  | 4 => some (.result .tripped)
  | 17 => some (.refusal .tripped)
  | 18 => some (.refusal .line)
  | 19 => some (.refusal .tripOpen)
  | 20 => some (.refusal .autoOff)
  | 21 => some (.refusal .destUnknown)
  | 22 => some (.refusal .sameLevel)
  | 23 => some (.refusal .notAtOrigin)
  | 24 => some (.refusal .unverified)
  | 25 => some (.refusal .hold)
  | 26 => some (.refusal .pathBlocked)
  | _ => none

/-- A station, or 255 for none. -/
def optStationCode : Option Station → Nat
  | some n => n.val
  | none => 255

/-- A station 0 to 63. -/
def stationOf (n : Nat) : Option Station := if h : n < 64 then some ⟨n, h⟩ else none

/-- A station 0 to 63, or 255 for none. -/
def optStationOf (n : Nat) : Option (Option Station) :=
  if n = 255 then some none else (stationOf n).map some

/-- A winder 0 to 3. -/
def winderOf (n : Nat) : Option Winder := if h : n < 4 then some ⟨n, h⟩ else none

/-- A winder set, its spare bits 0. -/
def winderSetOf (n : Nat) : Option WinderSet := if n < 16 then some (BitVec.ofNat 4 n) else none

/-- A depth up to 4,194,303. -/
def depthOf (n : Nat) : Option Depth := if h : n < 4194304 then some ⟨n, h⟩ else none

/-- A permitted speed up to 20,000. -/
def vPermOf (n : Nat) : Option VPerm := if h : n < 20001 then some ⟨n, h⟩ else none

/-- A speed in two's complement, −32,768 not listed. -/
def speedOf (n : Nat) : Option Int :=
  if n < 32768 then some n else if n = 32768 then none else some (n - 65536 : Int)

/-- A speed in two's complement, as the number its two bytes spell. -/
def speedCode (v : Int) : Nat := (BitVec.ofInt 16 v).toNat

/-- Table 1-3: the payload bytes of a frame. -/
def Payload.encode : Payload → List Byte
  | .halt ws r => bytesOf 1 ws.toNat ++ bytesOf 1 (haltReasonCode r)
  | .signal w d c word auto =>
    bytesOf 1 w.val ++ bytesOf 1 d.val ++ bytesOf 1 (tripClassCode c) ++
      bytesOf 1 (signalWordCode word + 128 * bit auto)
  | .winding r =>
    bytesOf 1 r.winder.val ++ bytesOf 1 r.number.toNat ++ bytesOf 1 (windingStateCode r.state) ++
      bytesOf 1 (tripClassCode r.cls + 128 * bit r.auto) ++ bytesOf 1 r.origin.val ++ bytesOf 1 r.dest.val ++
      bytesOf 3 r.depth.val ++ bytesOf 1 (outcomeCode r.outcome) ++ bytesOf 1 (optStationCode r.blocking)
  | .position r =>
    bytesOf 1 r.winder.val ++ bytesOf 1 r.seq.toNat ++ bytesOf 3 r.carrying.val ++ bytesOf 3 r.counterweight.val ++
      bytesOf 2 (speedCode r.speed) ++ bytesOf 2 r.vPerm.val ++ bytesOf 1 r.number.toNat ++
      bytesOf 1 (tripStateCode r.state) ++ bytesOf 1 (optStationCode r.dest) ++
      bytesOf 1 (bit r.skip + 2 * bit r.verified + 4 * bit r.correctionOn + 8 * bit r.clamped + 16 * bit r.moving +
        32 * bit r.tripped) ++
      bytesOf 8 r.callSet.toNat ++ bytesOf 8 r.holdSet.toNat
  | .assent r =>
    bytesOf 3 r.level.val ++ bytesOf 1 r.clear.toNat ++
      bytesOf 1 (bit r.hold + 2 * bit r.estop + 4 * bit r.lineDegraded + 8 * bit r.relayDrop)
  | .mark w d => bytesOf 1 w.val ++ bytesOf 3 d.val
  | .call w c word => bytesOf 1 w.val ++ bytesOf 1 (tripClassCode c) ++ bytesOf 1 (callWordCode word)
  | .announce body seg dig =>
    (match body with
      | .drum w => bytesOf 1 1 ++ bytesOf 1 w.val ++ bytesOf 3 0
      | .landing ws l => bytesOf 1 2 ++ bytesOf 1 ws.toNat ++ bytesOf 3 l.val
      | .loading ws l => bytesOf 1 3 ++ bytesOf 1 ws.toNat ++ bytesOf 3 l.val) ++
      bytesOf 1 seg.val ++ bytesOf 2 dig.toNat

/-- R9: char0 and char1 of a frame. -/
def Frame.heading (f : Frame) : List Byte :=
  bytesOf 1 (f.kind.code + 8 * f.hop.val) ++ bytesOf 1 f.origin.val

/-- char0, char1 and the payload: what the CRC covers. -/
def Frame.body (f : Frame) : List Byte := f.heading ++ f.payload.encode

/-- The two check characters over some characters, high byte first (R10). -/
def checkChars (body : List Byte) : List Byte := bytesOf 2 (crc16 body).toNat

/-- Every character of a frame, in the order sent (R9, R10). -/
def Frame.chars (f : Frame) : List Byte := f.body ++ checkChars f.body

/-- A field of n bytes at place i of the payload. -/
def field (p : List Byte) (i n : Nat) : Nat := natOf ((p.drop i).take n)

/-- A field of class and auto flag: bits 0 and 1 the class, bits 2 to 6 spare, bit 7 auto. -/
def classAutoOf (n : Nat) : Option (TripClass × Bool) :=
  if n % 128 < 4 then (tripClassOf (n % 128)).map (fun c => (c, decide (128 ≤ n))) else none

/-- The SIGNAL word: bits 0 and 1 the word, bits 2 to 6 spare, bit 7 auto. -/
def wordAutoOf (n : Nat) : Option (SignalWord × Bool) :=
  (signalWordOf (n % 128)).map (fun w => (w, decide (128 ≤ n)))

/-- The payload of a WINDING frame, if every field holds a value listed for it. -/
def windingOf (p : List Byte) : Option WindingReport := do
  let winder ← winderOf (field p 0 1)
  let state ← windingStateOf (field p 2 1)
  let ca ← classAutoOf (field p 3 1)
  let origin ← stationOf (field p 4 1)
  let dest ← stationOf (field p 5 1)
  let depth ← depthOf (field p 6 3)
  let outcome ← outcomeOf (field p 9 1)
  let blocking ← optStationOf (field p 10 1)
  some { winder := winder, number := BitVec.ofNat 8 (field p 1 1), state := state, cls := ca.1, auto := ca.2,
         origin := origin, dest := dest, depth := depth, outcome := outcome, blocking := blocking }

/-- The payload of a POSITION frame, if every field holds a value listed for it. -/
def positionOf (p : List Byte) : Option PositionReport := do
  let winder ← winderOf (field p 0 1)
  let carrying ← depthOf (field p 2 3)
  let counterweight ← depthOf (field p 5 3)
  let speed ← speedOf (field p 8 2)
  let vPerm ← vPermOf (field p 10 2)
  let state ← tripStateOf (field p 13 1)
  let dest ← optStationOf (field p 14 1)
  let flags := field p 15 1
  if flags < 64 then
    some { winder := winder, seq := BitVec.ofNat 8 (field p 1 1), carrying := carrying, counterweight := counterweight,
           speed := speed, vPerm := vPerm, number := BitVec.ofNat 8 (field p 12 1), state := state, dest := dest,
           skip := flags.testBit 0, verified := flags.testBit 1, correctionOn := flags.testBit 2,
           clamped := flags.testBit 3, moving := flags.testBit 4, tripped := flags.testBit 5,
           callSet := BitVec.ofNat 64 (field p 16 8), holdSet := BitVec.ofNat 64 (field p 24 8) }
  else none

/-- The payload of an ASSENT frame, if every field holds a value listed for it. -/
def assentOf (p : List Byte) : Option AssentReport := do
  let level ← depthOf (field p 0 3)
  let clear ← winderSetOf (field p 3 1)
  let st := field p 4 1
  if st < 16 then
    some { level := level, clear := clear, hold := st.testBit 0, estop := st.testBit 1, lineDegraded := st.testBit 2,
           relayDrop := st.testBit 3 }
  else none

/-- Bytes 0 to 4 of an ANNOUNCE frame. -/
def announceBodyOf (p : List Byte) : Option AnnounceBody :=
  match field p 0 1 with
  | 1 => if field p 2 3 = 0 then (winderOf (field p 1 1)).map .drum else none
  | 2 => do
    let ws ← winderSetOf (field p 1 1)
    let l ← depthOf (field p 2 3)
    some (.landing ws l)
  | 3 => do
    let ws ← winderSetOf (field p 1 1)
    let l ← depthOf (field p 2 3)
    some (.loading ws l)
  | _ => none

/-- The format check of R12 on a payload: the payload it spells, if no spare bit is 1 and every field holds a value that
Table 1-3 lists for it. -/
def Payload.parse (k : Kind) (p : List Byte) : Option Payload :=
  match k with
  | .halt => do
    let ws ← winderSetOf (field p 0 1)
    let r ← haltReasonOf (field p 1 1)
    some (.halt ws r)
  | .signal => do
    let w ← winderOf (field p 0 1)
    let d ← stationOf (field p 1 1)
    let c ← tripClassOf (field p 2 1)
    let wa ← wordAutoOf (field p 3 1)
    some (.signal w d c wa.1 wa.2)
  | .winding => (windingOf p).map .winding
  | .position => (positionOf p).map .position
  | .assent => (assentOf p).map .assent
  | .mark => do
    let w ← winderOf (field p 0 1)
    let d ← depthOf (field p 1 3)
    some (.mark w d)
  | .call => do
    let w ← winderOf (field p 0 1)
    let c ← tripClassOf (field p 1 1)
    let word ← callWordOf (field p 2 1)
    some (.call w c word)
  | .announce => do
    let body ← announceBodyOf p
    let seg ← winderOf (field p 5 1)
    some (.announce body seg (BitVec.ofNat 16 (field p 6 2)))

/-- The kind that char0 names (R9). -/
def kindOfChar0 (c : Byte) : Kind := Kind.ofCode (c.toNat % 8)

/-- The format check of R12 on char0, char1 and the payload: the frame they spell, if it passes. -/
def Frame.parse (body : List Byte) : Option Frame := do
  let c0 := field body 0 1
  let origin ← stationOf (field body 1 1)
  let payload ← Payload.parse (Kind.ofCode (c0 % 8)) (body.drop 2)
  if h : c0 / 8 < 4 then some { hop := ⟨c0 / 8, h⟩, origin := origin, payload := payload } else none

/-- R10: the check characters of an assembled frame agree with its CRC. -/
def crcAgrees (chars : List Byte) : Bool :=
  chars.drop (chars.length - 2) == checkChars (chars.take (chars.length - 2))

/-- R1: the parity bit, 1 when the eight data bits and the heading mark hold an odd number of ones. -/
def parityBit (b : Byte) (mark : Bool) : Bool :=
  ((List.range 8).map b.getLsbD).foldl xor mark

/-- R1: the 12 bits of a character, in the order sent. -/
def charBits (b : Byte) (mark : Bool) : List Bool :=
  [false] ++ (List.range 8).map b.getLsbD ++ [mark, parityBit b mark, true]

/-- R1: the bits of a frame, its characters sent back to back, the heading mark 1 in the first alone. -/
def Frame.bits (f : Frame) : List Bool :=
  match f.chars with
  | [] => []
  | c :: cs => charBits c true ++ cs.flatMap (fun x => charBits x false)

end Sys2Proof
end

