-- ==== Sys2Proof/Machine/Views.lean ====
section
/-! DEFINITION. Sys2Proof/Machine/Views.lean: what the blocks read from one another: tests and values that follow from the
state at every moment, and so are computed and not held. -/
namespace Sys2Proof.Machine

/-! The station -/

/-- The station's phase (R180). -/
def State.phase (s : State) : Phase := s.loader.phase

/-- The station is held in reset (R180). -/
def State.inReset (s : State) : Bool := s.loader.oscillating || s.loader.pinHeld

/-- The station has power and is not held in reset. That every output that follows this is off without power, and not the permit
alone (section 11.5), is the model's choice: DEDUCED, unsafe (log entry 16). -/
def State.live (s : State) : Bool := s.loader.powered && !s.inReset

/-- LISTEN, RUN or LISTEN-ONLY: the phases in which frames are taken (R13), samples are taken (R55) and events are raised
and shown (R179). -/
def Phase.working : Phase → Bool
  | .listen => true
  | .run => true
  | .listenOnly => true
  | _ => false

def State.working (s : State) : Bool := s.phase.working

/-- RUN or LISTEN-ONLY: the phases in which gate records and the sequencer act (R147, R159) and lamps are driven (R179). -/
def Phase.serving : Phase → Bool
  | .run => true
  | .listenOnly => true
  | _ => false

def State.serving (s : State) : Bool := s.phase.serving

def State.isDrum (s : State) : Bool := s.cfg.role == some .drum

def State.isLanding (s : State) : Bool := s.cfg.role == some .landing

def State.isLoading (s : State) : Bool := s.cfg.role == some .loading

/-- A landing or loading station: one with a Gate and Key Unit (Table I-1). -/
def State.hasGates (s : State) : Bool := s.isLanding || s.isLoading

/-- A landing with the tip flag (Introduction, section 1). -/
def State.isTip (s : State) : Bool := s.isLanding && s.cfg.tipFlag

/-- R21: Port B is used by a repeater alone; R20: until a record has been accepted both ports run. -/
def State.uses (s : State) (p : PortId) : Bool :=
  match p with
  | .a => true
  | .b => s.cfg.repeater || !s.working

/-- A line port. -/
def State.port (s : State) (p : PortId) : Port :=
  match p with
  | .a => s.portA
  | .b => s.portB

/-- R26: the relay queue that feeds a port: the upward queue feeds A, the downward queue B. -/
def State.relayQueue (s : State) (p : PortId) : Queue :=
  match p with
  | .a => s.relay.up
  | .b => s.relay.down

/-! Line quality (R14, R15) -/

/-- R14: the window sum. -/
def Port.windowSum (p : Port) : Nat := p.buckets.toList.sum

/-- R15: a port is DEGRADED while the window sum exceeds 8. -/
def Port.degraded (p : Port) : Bool := decide (Config.degradedSum < p.windowSum)

/-- R15: either of the station's ports is DEGRADED. -/
def State.lineDegraded (s : State) : Bool := s.portA.degraded || (s.cfg.repeater && s.portB.degraded)

/-- R29: either drop flag of a repeater is set. -/
def State.relayDrop (s : State) : Bool := s.cfg.repeater && (s.relay.upDrop || s.relay.downDrop)

/-! The conveyance table (R39) -/

/-- The carrying record of a winder, if it is CURRENT. -/
def State.currentRecord (s : State) (w : Winder) : Option Carrying :=
  match s.picture.carrying[w] with
  | some r => if r.current then some r else none
  | none => none

/-- R39: the record stands in the window from l − hw to l + hw. -/
def Carrying.stands (r : Carrying) (l : Depth) (hw : Nat) : Bool :=
  decide (r.speed.natAbs ≤ 50) && decide ((l.val : Int) - hw ≤ r.depth.val) && decide ((r.depth.val : Int) ≤ l.val + hw)

/-- R39: the record shows a trip in motion. -/
def Carrying.inMotion (r : Carrying) : Bool :=
  r.state == .armed || r.state == .running || r.state == .stopping

/-- R39: the record shows a trip open. -/
def Carrying.tripOpen (r : Carrying) : Bool := r.inMotion || r.state == .suspended

/-- R39: the record shows the conveyance running away from depth x. -/
def Carrying.runsAway (r : Carrying) (x : Depth) : Bool :=
  r.state == .running &&
    ((decide (0 < r.speed) && decide (x < r.depth)) || (decide (r.speed < 0) && decide (r.depth < x)))

/-! The station table (R43 to R48) -/

/-- R44: a station of the required set whose entry is UNKNOWN is missing. -/
def State.missing (s : State) (n : Station) : Bool :=
  stationIn s.cfg.required n && s.stations.entries[n].state == .unknown

/-- R44: the missing set is not empty. -/
def State.anyMissing (s : State) : Bool := stationNumbers.any s.missing

/-- R48: the hold set holds a station whose entry is STALE. -/
def State.staleHolder (s : State) : Bool :=
  stationNumbers.any (fun n => stationIn s.stations.holdSet n && s.stations.entries[n].state == .stale)

/-- R45: a CURRENT entry shows LINE DEGRADED or RELAY DROP. -/
def State.shaftLine (s : State) : Bool :=
  stationNumbers.any (fun n =>
    s.stations.entries[n].state == .current && (s.stations.entries[n].lineDegraded || s.stations.entries[n].relayDrop))

/-! The drum's units -/

/-- What stands for the sample set before any sample has been taken, when it is absent (R55). Of the rules that read a sample set
only the image of a drum's lamps 7, 9 and 10 (R174, R63) can find it absent, in INIT and CONFIG_FAULT after a warm reset, where
every lamp is dark: UNVERIFIED as Table 4-3 has it, and the correction mode ON, for which it has no value then. DESIGN CHOICE (log
entry 38). -/
def SampleSet.absent : SampleSet where
  count := 0
  speed := 0
  stationary := 0
  raw := 0
  corrected := 0
  counterweight := 0
  clamped := false
  verified := false
  correctionOn := true
  modePending := false
  clearPending := false

/-- The sample set of the last sample (R63). -/
def State.lastSample (s : State) : SampleSet := s.depth.sample.getD SampleSet.absent

/-- R53: the encoder fault indication is FAULTY. -/
def State.encoderFaulty (s : State) : Bool := s.depth.faultMs.isSome

/-- R93: a trip is open. -/
def TripState.isOpen : TripState → Bool
  | .idle => false
  | _ => true

/-- R74: a trip is supervised while ARMED, RUNNING or STOPPING. -/
def TripState.supervised : TripState → Bool
  | .armed => true
  | .running => true
  | .stopping => true
  | _ => false

def State.tripState (s : State) : TripState := s.trip.record.state

def State.tripOpen (s : State) : Bool := TripState.isOpen s.tripState

def State.supervised (s : State) : Bool := TripState.supervised s.tripState

/-- R69: the mode that the correction-off input asks for. -/
def State.requestedMode (s : State) : Bool := !s.inputs.correctionOff

/-! Gates (R126 to R135, R154) -/

/-- R126: the station serves winder w. -/
def State.serves (s : State) (w : Winder) : Bool := s.hasGates && winderIn s.cfg.served w

/-- R127: the landing condition of winder w. -/
def State.landingCondition (s : State) (w : Winder) : Bool :=
  match s.currentRecord w with
  | some r => r.stands s.cfg.level s.cfg.landingHw && !r.inMotion
  | none => false

/-- R147: the landing condition as the gate records act on it: in RUN alone. -/
def State.gateCondition (s : State) (w : Winder) : Bool := s.phase == .run && s.landingCondition w

/-- R134: the clear flag of gate record w, judged in RUN and LISTEN-ONLY and 0 in every other phase (log entry 22). R147 has the
flags judged at entry to RUN, and Table 7-4 has them 0 till then; for a station that goes from LISTEN to LISTEN-ONLY without
entering RUN the manual does not say when they are judged. They are judged from its entry to LISTEN-ONLY on: DESIGN CHOICE,
unsafe (log entry 44). -/
def State.clearFlag (s : State) (w : Winder) : Bool :=
  s.serves w && s.serving &&
    match s.gate.records[w].state with
    | .releasable => true
    | .opened => false
    | .forced => false
    | .locked => s.inputs.lockEngaged[w] || s.gate.records[w].settleMs.isSome

/-- R154: at a loading station the skip winder's flag is qualified by the door, the spillage input and the flask cycle. -/
def State.qualifiedFlag (s : State) (w : Winder) : Bool :=
  s.clearFlag w &&
    (!(s.isLoading && w == s.cfg.tipWinder) ||
      (s.inputs.doorClosed && !s.inputs.spillage && !(s.seq.cycle == .discharge)))

/-- R134: the clear set. -/
def State.clearSet (s : State) : WinderSet :=
  winders.foldl (fun t w => if s.qualifiedFlag w then winderJoin t w else t) 0

/-- R135: the ASSENT contents. -/
def State.assentContents (s : State) : AssentReport where
  level := s.cfg.level
  clear := s.clearSet
  hold := s.inputs.hold
  estop := s.inputs.estop
  lineDegraded := s.lineDegraded
  relayDrop := s.relayDrop

/-- R49: the station judges its hold acknowledged. -/
def State.holdAcknowledged (s : State) : Bool :=
  winders.any (fun w => (s.currentRecord w).isSome) &&
    winders.all (fun w =>
      match s.currentRecord w with
      | some r => stationIn r.holdSet s.cfg.station
      | none => true)

/-- Table 10-2, PICTURE STALE: every served winder's carrying record is CURRENT. -/
def State.servedCurrent (s : State) : Bool :=
  winders.all (fun w => !winderIn s.cfg.served w || (s.currentRecord w).isSome)

/-! The Loading Sequencer (R149 to R153) -/

/-- R149: a LOADING station, or a LANDING with the tip flag, has a sequencer. -/
def State.hasSequencer (s : State) : Bool := s.isLoading || s.isTip

/-- R149: the skip is present at a loading station. -/
def State.skipPresent (s : State) : Bool :=
  match s.currentRecord s.cfg.tipWinder with
  | some r => r.skip && r.stands s.cfg.level s.cfg.landingHw && r.state == .idle
  | none => false

/-- R150: the discharge condition. -/
def State.dischargeCondition (s : State) : Bool :=
  s.skipPresent && s.inputs.flaskFull && !s.inputs.flaskEmpty && s.inputs.doorClosed && !s.inputs.spillage

/-- R150: the door-open output is on. -/
def State.doorOpen (s : State) : Bool := s.live && s.isLoading && s.phase == .run && s.seq.cycle == .discharge

/-- R153: the skip moves while the door does not read closed. -/
def State.skipMovesOpen (s : State) : Bool :=
  !s.inputs.doorClosed &&
    match s.currentRecord s.cfg.tipWinder with
    | some r => decide (50 < r.speed.natAbs)
    | none => false

/-- R155: the partner station of the automatic GO. -/
def State.partner (s : State) : Station := if s.isLoading then s.cfg.tipPartner else s.cfg.loadingPartner

/-- R155: the cycle is calling. -/
def State.calling (s : State) : Bool :=
  if s.isLoading then s.seq.cycle == .loaded || s.seq.cycle == .waitDepart
  else s.seq.tip == .ready || s.seq.tip == .returnSent

end Sys2Proof.Machine
end

