-- ==== Sys2Proof/Machine/Flags.lean ====
section
/-! DEFINITION. Sys2Proof/Machine/Flags.lean: the pending event set, its code and its strobe (R176, R177). -/
namespace Sys2Proof.Machine

/-- The events of Table 10-2. A drum and a landing or loading station use the same codes for events of their own. -/
inductive Event where
  | safetyTrip
  | overspeedWarning
  | resetRefused
  | causesLost
  | hold
  | staleHolder
  | requiredStation
  | tripExpired
  | correctionPending
  | shaftLine
  | gateForced
  | skipMoved
  | spillage
  | flaskDoor
  | refused
  | noReply
  | expired
  | callNotRegistered
  | holdUnacknowledged
  | pictureStale
  | lineDegraded
  | relayDrop
  | hopDrop
  | txOverflow
  | configClamped
  deriving DecidableEq, Repr

/-- Table 10-2: the code of an event, which is also its priority. -/
def Event.code : Event → Nat
  | .safetyTrip => 15
  | .gateForced => 15
  | .overspeedWarning => 14
  | .skipMoved => 14
  | .resetRefused => 13
  | .spillage => 13
  | .causesLost => 12
  | .flaskDoor => 12
  | .hold => 11
  | .refused => 11
  | .staleHolder => 10
  | .noReply => 10
  | .requiredStation => 9
  | .expired => 9
  | .tripExpired => 8
  | .callNotRegistered => 8
  | .correctionPending => 7
  | .holdUnacknowledged => 7
  | .shaftLine => 6
  | .pictureStale => 6
  | .lineDegraded => 5
  | .relayDrop => 4
  | .hopDrop => 3
  | .txOverflow => 2
  | .configClamped => 1

/-- The set that holds one event. -/
def Event.mask (e : Event) : BitVec 16 := BitVec.twoPow 16 e.code

/-- R177: the highest code of an event set, 0 when nothing is pending. -/
def highestCode (events : BitVec 16) : Nat :=
  (List.range 16).foldl (fun acc c => if events.getLsbD c then c else acc) 0

/-- R177, R179: the code that the event lines show. -/
def State.eventCode (s : State) : Nat :=
  if s.live && s.working then highestCode s.panel.pendingEvents else 0

/-- The pending event set changes; R177: a change of the code value starts the strobe pulse anew. -/
def setEvents (events : BitVec 16) (s : State) : State :=
  let t := { s with panel := { s.panel with pendingEvents := events } }
  if t.eventCode = s.eventCode then t else { t with panel := { t.panel with strobeMs := some 0 } }

/-- R176: an event is raised. R179: events are raised and held from the end of INIT. -/
def raise (e : Event) (s : State) : State :=
  if s.working then setEvents (s.panel.pendingEvents ||| e.mask) s else s

/-- An event leaves the pending set. -/
def leave (e : Event) (s : State) : State := setEvents (s.panel.pendingEvents &&& ~~~e.mask) s

/-- An event leaves the pending set where a condition holds. -/
def leaveIf (c : Bool) (e : Event) (s : State) : State := if c then leave e s else s

/-- The event is pending. -/
def State.isPending (s : State) (e : Event) : Bool := s.panel.pendingEvents.getLsbD e.code

end Sys2Proof.Machine
end

