-- ==== Sys2Proof/Machine/Operands.lean ====
section
/-! DEFINITION. Sys2Proof/Machine/Operands.lean: how a command's operands are read: the line levels of a bit time and of a
character (R2, R3), and a taken frame from its heading and payload. -/
namespace Sys2Proof.Machine

/-- R2: a bit is the majority of the levels seen at samples 7, 8 and 9 of its bit time. -/
def readBit (r : BitReading) : Bool := (r.s7 && r.s8) || (r.s7 && r.s9) || (r.s8 && r.s9)

/-- What the receiving character engine makes of one character (R3). -/
inductive CharOutcome where
  | falseStart
  | good (b : Byte) (mark : Bool)
  | parityError
  | framingError
  deriving DecidableEq, Repr

/-- R1: the byte value, D0 least significant; D0 is bit time 1. -/
def readByte (r : CharReading) : Byte :=
  BitVec.ofNat 8 (bit (readBit r[1]) + 2 * bit (readBit r[2]) + 4 * bit (readBit r[3]) + 8 * bit (readBit r[4]) +
    16 * bit (readBit r[5]) + 32 * bit (readBit r[6]) + 64 * bit (readBit r[7]) + 128 * bit (readBit r[8]))

/-- R3: a start bit read as 1 is a false start; odd parity is PARITY whatever the stop bit; even parity with stop bit 0 is
FRAMING; else the character is good. -/
def readChar (r : CharReading) : CharOutcome :=
  let b := readByte r
  let mark := readBit r[9]
  if readBit r[0] then .falseStart
  else if readBit r[10] ≠ parityBit b mark then .parityError
  else if readBit r[11] then .good b mark
  else .framingError

/-- The readings of a bit that held one level through samples 7, 8 and 9. -/
def steady (b : Bool) : BitReading := { s7 := b, s8 := b, s9 := b }

/-- The readings of a character sent as R1 lays down, over a line that disturbs none of its bits. -/
def cleanReading (b : Byte) (mark : Bool) : CharReading :=
  Vector.ofFn (fun i => steady ((charBits b mark).getD i.val true))

/-- The frame that a heading and a payload make. -/
def frameOf (h : Heading) (p : Payload) : Frame := { hop := h.hop, origin := h.origin, payload := p }

end Sys2Proof.Machine
end

