-- ==== Sys2Proof/Machine/Queues.lean ====
section
/-! DEFINITION. Sys2Proof/Machine/Queues.lean: the transmit queues (R16 to R18) and the relay queues (R26 to R28), which are
built alike and differ only in which frames replace one another. -/
namespace Sys2Proof.Machine

/-- R16: entries are ordered by effective class, lowest first, and within a class by entry order, oldest first. -/
def Entry.before (x y : Entry) : Bool :=
  x.effClass < y.effClass || (x.effClass == y.effClass && x.order < y.order)

/-- Puts an entry at its place. -/
def insertEntry (e : Entry) : List Entry → List Entry
  | [] => [e]
  | x :: xs => if e.before x then e :: x :: xs else x :: insertEntry e xs

/-- R16: the head is the first entry in the order. -/
def Queue.head (q : Queue) : Option Entry := q.entries.head?

/-- R5: the gap of an entry: its effective class times 64 plus its frame's origin. -/
def Entry.gap (e : Entry) : Nat := e.effClass * 64 + e.frame.origin.val

/-- A new entry for a frame (R16). -/
def Entry.new (f : Frame) (stamp order : Nat) : Entry where
  frame := f
  stamp := stamp
  effClass := f.cls
  deferrals := 0
  collisions := 0
  order := order
  sending := false
  replaced := false

/-- A frame joins a queue as a new entry. -/
def Queue.join (q : Queue) (f : Frame) (stamp : Nat) : Queue where
  entries := insertEntry (Entry.new f stamp q.nextOrder) q.entries
  nextOrder := q.nextOrder + 1

/-- R17, R27: a frame replaces an entry's contents. Place, entry order, effective class and counts are kept; the replaced
flag is set if the entry is sending. -/
def Entry.replace (e : Entry) (f : Frame) (stamp : Nat) : Entry :=
  { e with frame := f, stamp := stamp, replaced := e.replaced || e.sending }

/-- R18, R28: the entries that may be removed for a frame of class c: not sending, of greater effective class. -/
def Entry.removable (c : Nat) (e : Entry) : Bool := !e.sending && decide (c < e.effClass)

/-- The newest of some entries: the one of latest entry order. -/
def newest : List Entry → Option Entry
  | [] => none
  | e :: es =>
    match newest es with
    | none => some e
    | some x => if x.order < e.order then some e else some x

/-- A queue without the entry of an order. -/
def Queue.remove (q : Queue) (order : Nat) : Queue :=
  { q with entries := q.entries.filter (fun e => e.order != order) }

/-- A queue with one entry changed in its place. -/
def Queue.update (q : Queue) (order : Nat) (f : Entry → Entry) : Queue :=
  { q with entries := q.entries.map (fun e => if e.order = order then f e else e) }

/-- R17 and R18, R27 and R28: a frame is put to a queue. `same` says which frames it replaces. The Bool tells whether a
frame was lost, the removed entry or the frame itself. -/
def Queue.takeIn (q : Queue) (same : Frame → Bool) (f : Frame) (stamp : Nat) : Queue × Bool :=
  if q.entries.any (fun e => same e.frame) then
    ({ q with entries := q.entries.map (fun e => if same e.frame then e.replace f stamp else e) }, false)
  else if q.entries.length < Config.listCapacity then (q.join f stamp, false)
  else
    match newest (q.entries.filter (Entry.removable f.cls)) with
    | some v => ((q.remove v.order).join f stamp, true)
    | none => (q, true)

/-- R17: a POSITION, ASSENT or WINDING replaces an entry of its kind; no other kind replaces. -/
def sameReport (f g : Frame) : Bool :=
  match f.kind with
  | .position => g.kind == .position
  | .assent => g.kind == .assent
  | .winding => g.kind == .winding
  | _ => false

/-- R27: in a relay queue a POSITION replaces the POSITION of its winder and an ASSENT the ASSENT of its origin. -/
def sameRelayed (f g : Frame) : Bool :=
  match f.payload, g.payload with
  | .position r, .position r' => r.winder == r'.winder
  | .assent _, .assent _ => f.origin == g.origin
  | _, _ => false

/-- R6: an entry deferred once more: at 8 deferrals it is promoted, unless its class is 0 or 1, and the count returns to 0. -/
def Entry.defer (e : Entry) : Entry :=
  if e.deferrals + 1 < Config.deferralLimit then { e with deferrals := e.deferrals + 1 }
  else { e with deferrals := 0, effClass := if 2 ≤ e.effClass then e.effClass - 1 else e.effClass }

/-- R6: the entry of an order is deferred, and put at its place among the entries of its class. -/
def Queue.defer (q : Queue) (order : Nat) : Queue :=
  match q.entries.find? (fun e => e.order == order) with
  | none => q
  | some e => { q with entries := insertEntry e.defer (q.remove order).entries }

/-- R8: no entry of the queue is sending any more; nothing else changes. -/
def Queue.endAttempts (q : Queue) : Queue :=
  { q with entries := q.entries.map (fun e => { e with sending := false }) }

end Sys2Proof.Machine
end

