-- ==== Sys2Proof/Machine/Ops.lean ====
section
/-! DEFINITION. Sys2Proof/Machine/Ops.lean: the operations that commands of every family share: changing one block, counting
an errored frame, originating a frame (R16), the judgements at the end of a step, and when a command acts at all. -/
namespace Sys2Proof.Machine

/-! Changing one block -/

def State.setLoader (s : State) (x : Loader) : State := { s with loader := x }
def State.setInputs (s : State) (x : Inputs) : State := { s with inputs := x }
def State.setClock (s : State) (x : Clock) : State := { s with clock := x }
def State.setRelay (s : State) (x : Relay) : State := { s with relay := x }
def State.setPicture (s : State) (x : Picture) : State := { s with picture := x }
def State.setStations (s : State) (x : Stations) : State := { s with stations := x }
def State.setDepth (s : State) (x : DepthUnit) : State := { s with depth := x }
def State.setEnv (s : State) (x : Envelope) : State := { s with env := x }
def State.setTrip (s : State) (x : TripUnit) : State := { s with trip := x }
def State.setRecord (s : State) (x : TripRecord) : State := { s with trip := { s.trip with record := x } }
def State.setSafety (s : State) (x : SafetyUnit) : State := { s with safety := x }
def State.setGate (s : State) (x : GateUnit) : State := { s with gate := x }
def State.setSeq (s : State) (x : Sequencer) : State := { s with seq := x }

/-- A line port changes. -/
def State.setPort (s : State) (p : PortId) (x : Port) : State :=
  match p with
  | .a => { s with portA := x }
  | .b => { s with portB := x }

/-- The relay queue that feeds a port changes. -/
def State.setRelayQueue (s : State) (p : PortId) (q : Queue) : State :=
  match p with
  | .a => { s with relay := { s.relay with up := q } }
  | .b => { s with relay := { s.relay with down := q } }

/-- A gate record changes. -/
def State.setGateRecord (s : State) (w : Winder) (g : GateRecord) : State :=
  { s with gate := { s.gate with records := put s.gate.records w g } }

/-! Line quality -/

/-- R14: a discarded frame adds one to the current bucket; a bucket at 255 stays. R15: a port that goes DEGRADED raises
LINE DEGRADED. -/
def countError (p : PortId) (s : State) : State :=
  let port := s.port p
  let port' := { port with buckets := put port.buckets port.pointer (min 255 (port.buckets[port.pointer] + 1)) }
  let s' := s.setPort p port'
  if port'.degraded && !port.degraded then raise .lineDegraded s' else s'

/-! Originating frames (R16 to R18) -/

/-- R16: a frame is offered to the transmit queue of one port; R18: a loss raises TX OVERFLOW. -/
def offer (p : PortId) (f : Frame) (stamp : Nat) (s : State) : State :=
  let r := (s.port p).tx.takeIn (sameReport f) f stamp
  let s' := s.setPort p { s.port p with tx := r.1 }
  if r.2 then raise .txOverflow s' else s'

/-- R16: a frame the station originates is offered, in RUN alone, with hop count 0, to Port A and in a repeater to Port B. -/
def originate (payload : Payload) (s : State) : State :=
  if s.phase = .run then
    let f : Frame := { hop := 0, origin := s.cfg.station, payload := payload }
    let stamp := s.model.stamp
    let s1 := offer .a f stamp { s with model := { s.model with stamp := stamp + 1 } }
    if s.cfg.repeater then offer .b f stamp s1 else s1
  else s

/-- R135, R136: an ASSENT is originated with the present contents, and the ASSENT timer restarts from 0. -/
def originateAssent (s : State) : State :=
  if s.hasGates && s.phase == .run then
    originate (.assent s.assentContents) (s.setGate { s.gate with assentMs := some 0 })
  else s

/-! The end of a step -/

/-- R135: any field of the ASSENT contents took a new value during a step taken in RUN, so an ASSENT is originated. -/
def assentOnChange (before s : State) : State :=
  if before.phase = .run ∧ before.assentContents ≠ s.assentContents then originateAssent s else s

/-- Table 10-2: lamp 14 of a drum going ON raises SHAFT LINE. -/
def shaftLineOnChange (before s : State) : State :=
  if s.isDrum && s.shaftLine && !before.shaftLine then raise .shaftLine s else s

/-- Table 10-2: the events that leave the pending set while a condition holds, at a drum. -/
def drumLeaving (s : State) : BitVec 16 :=
  let m (c : Bool) (e : Event) : BitVec 16 := if c then e.mask else 0
  m (!s.env.warning) .overspeedWarning ||| m (!s.safety.causesLost) .causesLost |||
    m (s.stations.holdSet == 0) .hold ||| m (!s.staleHolder) .staleHolder ||| m (!s.anyMissing) .requiredStation |||
    m (!s.depth.modePending && !s.depth.clearPending) .correctionPending ||| m (!s.shaftLine) .shaftLine

/-- Table 10-2: the events that leave the pending set while a condition holds, at a landing or loading station. -/
def gateLeaving (s : State) : BitVec 16 :=
  let m (c : Bool) (e : Event) : BitVec 16 := if c then e.mask else 0
  m (s.panel.callNotRegistered == 0) .callNotRegistered |||
    m (!s.inputs.hold || s.holdAcknowledged) .holdUnacknowledged ||| m s.servedCurrent .pictureStale

/-- Table 10-2: the events that leave the pending set while a condition holds, at any station. -/
def commonLeaving (s : State) : BitVec 16 :=
  let m (c : Bool) (e : Event) : BitVec 16 := if c then e.mask else 0
  m (!s.lineDegraded) .lineDegraded ||| m (!s.relayDrop) .relayDrop

/-- Table 10-2: the events whose leaving condition holds. -/
def leavingMask (s : State) : BitVec 16 :=
  commonLeaving s ||| (if s.isDrum then drumLeaving s else 0) ||| (if s.hasGates then gateLeaving s else 0)

/-- Table 10-2: the events whose leaving condition holds leave the pending set. -/
def judgeLeaving (s : State) : State := setEvents (s.panel.pendingEvents &&& ~~~leavingMask s) s

/-- What a step ends with, judged on the state before it and the state it has made. -/
def finish (before s : State) : State := judgeLeaving (assentOnChange before (shaftLineOnChange before s))

/-! When a command acts -/

/-- What a command answers. -/
abbrev Answer := Host.Outcome State Fault Refusal

/-- A command acts on a station that has power and is not held in reset, and changes nothing otherwise. -/
def act (f : State → State) (s : State) : Answer :=
  if s.live then .next (finish s (f s)) else .next s

/-- A debounced input takes a new level (R126): `set` from the end of power-on, through a warm reset too; `f` acts on the
change unless the station is held in reset. An input that already has the level does not change. -/
def onInput (changes : Bool) (set f : State → State) (s : State) : Answer :=
  if s.loader.powered && !s.loader.oscillating && changes then
    if s.inReset then .next (set s) else .next (finish s (f (set s)))
  else .next s

end Sys2Proof.Machine
end

