-- ==== Sys2Proof/Machine/Envelope.lean ====
section
/-! DEFINITION. Sys2Proof/Machine/Envelope.lean: the Envelope Unit's computation (R74 to R89): remaining distance, envelope,
crossing zone, class caps, stop point, threshold, limit word, and the partial evaluation of R76. The full evaluation, which
delivers causes, stands in Machine/SafetyTrip.lean. -/
namespace Sys2Proof.Machine

/-- R77: the remaining distance from D to the supervision depth, in the direction of the trip. -/
def remaining (dir : Direction) (supervision d : Depth) : Int :=
  match dir with
  | .down => (supervision.val : Int) - d.val
  | .up => (d.val : Int) - supervision.val

/-- R83: a stop depth is adopted if it lies nearer than the target in the direction of travel. -/
def adopts (dir : Direction) (stop target : Depth) : Bool :=
  match dir with
  | .down => decide (stop < target)
  | .up => decide (target < stop)

/-- R77: the supervision depth of a supervised trip. -/
def supervisionDepth (r : TripRecord) (t : TripDetails) : Depth :=
  match r.state, r.stopDepth with
  | .stopping, some sd => if adopts t.direction sd t.target then sd else t.target
  | _, _ => t.target

/-- R79, Table 5-1: the distance envelope. -/
def distanceEnvelope (c : Params) (dRem : Int) : Nat :=
  if 0 ≤ dRem then isqrt (c.vCreep ^ 2 + 2 * c.aRet * dRem.toNat) else c.vCreep

/-- R80: the crossing-zone centre. -/
def zoneCentre (c : Params) : Int := (c.cwSum / 2 : Nat)

/-- R80: a depth lies within the crossing zone. -/
def inZone (c : Params) (d : Depth) : Bool :=
  decide (zoneCentre c - c.crossHw ≤ d.val) && decide ((d.val : Int) ≤ zoneCentre c + c.crossHw)

/-- Table 5-2: how far a depth moving in a direction is from the near edge of the zone, if it approaches. -/
def approach (c : Params) (dir : Direction) (d : Depth) : Option Nat :=
  match dir with
  | .down => if (d.val : Int) < zoneCentre c - c.crossHw then some (zoneCentre c - c.crossHw - d.val).toNat else none
  | .up => if zoneCentre c + c.crossHw < d.val then some (d.val - (zoneCentre c + c.crossHw)).toNat else none

/-- The opposite direction, in which the counterweight moves. -/
def Direction.opposite : Direction → Direction
  | .down => .up
  | .up => .down

/-- The smaller of the distances that are present (R81). -/
def nearer : Option Nat → Option Nat → Option Nat
  | some a, some b => some (min a b)
  | some a, none => some a
  | none, b => b

/-- R80, R81: the zone limit, if one applies, for the carrying depth and the counterweight depth. -/
def zoneLimit (c : Params) (dir : Direction) (d cw : Depth) : Option Nat :=
  if c.vCross = 0 then none
  else if inZone c d || inZone c cw then some c.vCross
  else (nearer (approach c dir d) (approach c dir.opposite cw)).map
    (fun dZone => isqrt (c.vCross ^ 2 + 2 * c.aRet * dZone))

/-- Table 5-3: the class cap. -/
def classCap (c : Params) : TripClass → Nat
  | .persons => c.vMen
  | .material => c.vMat
  | .ore => c.vOre
  | .inspection => c.vInsp

/-- R82: v_perm of a supervised trip: the smallest of the envelope, the zone limit, the class cap and the ceiling. -/
def permittedSpeed (c : Params) (r : TripRecord) (t : TripDetails) (x : SampleSet) : VPerm :=
  let env := distanceEnvelope c (remaining t.direction (supervisionDepth r t) x.corrected)
  let capped := min env (classCap c t.cls)
  match zoneLimit c t.direction x.corrected x.counterweight with
  | some z => capVPerm (min capped z)
  | none => capVPerm capped

/-- R74, R82: v_perm as the trip record and the last sample set stand; 0 while no trip is supervised. -/
def State.permitted (s : State) : VPerm :=
  match s.supervised, s.trip.record.details, s.depth.sample with
  | true, some t, some x => permittedSpeed s.cfg s.trip.record t x
  | _, _, _ => 0

/-- R85: the overspeed threshold. -/
def threshold (v : VPerm) : Nat := v.val + v.val / 16 + 50

/-- R82, R85, R89: v_perm, the threshold and the limit word are computed anew. -/
def recompute (s : State) : State :=
  let v := s.permitted
  s.setEnv { s.env with vPerm := v, vThr := threshold v, limitWord := v.val / 10 }

/-- R86, R87: with no trip supervised the overspeed warning is OFF and the overspeed count 0. -/
def clearOverspeed (s : State) : State := s.setEnv { s.env with warning := false, count := 0 }

/-- R76: the partial evaluation at a change of the trip record. -/
def partialEvaluation (s : State) : State :=
  let s := recompute s
  if s.supervised then s else clearOverspeed s

/-- R83: the stop distance for a speed. -/
def stopDistance (c : Params) (v : Int) : Nat :=
  if c.vCreep < v.natAbs then ceilDiv (v.natAbs ^ 2 - c.vCreep ^ 2) (2 * c.aRet) else 0

/-- R83: the stop depth, clamped to the depth range. -/
def stopPoint (c : Params) (dir : Direction) (x : SampleSet) : Depth :=
  match dir with
  | .down => clampDepth ((x.corrected.val : Int) + stopDistance c x.speed)
  | .up => clampDepth ((x.corrected.val : Int) - stopDistance c x.speed)

end Sys2Proof.Machine
end

