-- ==== Sys2Proof/Machine/Trips.lean ====
section
/-! DEFINITION. Sys2Proof/Machine/Trips.lean: the trip record (R93 to R113): its reports, its transitions and its closing. -/
namespace Sys2Proof.Machine

/-- R96: a depth lies in the window of half-width hw about l, its ends included. -/
def inWindow (l : Depth) (hw : Nat) (d : Depth) : Bool :=
  decide ((l.val : Int) - hw ≤ d.val) && decide ((d.val : Int) ≤ l.val + hw)

/-- Table I-3: stationary, with a speed whose magnitude is 50 mm/s or less. -/
def stationary (v : Int) : Bool := decide (v.natAbs ≤ 50)

/-- R96: at the last sample the conveyance stands in the window of half-width landing_hw about l. -/
def State.standsAt (s : State) (l : Depth) : Bool :=
  match s.depth.sample with
  | some x => stationary x.speed && inWindow l s.cfg.landingHw x.corrected
  | none => false

/-- R122, Table 6-6: a WINDING frame reports the trip record. -/
def reportTrip (depth : Depth) (outcome : WindingOutcome) (s : State) : State :=
  match s.trip.record.details with
  | none => s
  | some t =>
    originate (.winding { winder := s.cfg.winder, number := s.trip.record.number, state := .trip s.trip.record.state,
                          cls := t.cls, auto := t.auto, origin := t.origin, dest := t.dest, depth := depth,
                          outcome := outcome, blocking := none }) s

/-- The target depth of the trip record (R93), 0 before the first trip, when no trip is reported. -/
def TripRecord.target (r : TripRecord) : Depth :=
  match r.details with
  | some t => t.target
  | none => 0

/-- R70: a PENDING table clear sets every entry to 0; R69: a PENDING mode request puts the requested mode in force. -/
def takePending (s : State) : State :=
  let d := s.depth
  let d := if d.clearPending then { d with table := Vector.replicate 64 0, clearPending := false } else d
  let d := if d.modePending then { d with correctionOn := s.requestedMode, modePending := false } else d
  s.setDepth d

/-- R121: the entry of an origin leaves the call list. -/
def removeCall (origin : Station) (calls : List CallEntry) : List CallEntry := calls.filter (fun e => e.origin != origin)

/-- R113: the call list after a closing: an arrival removes the destination's entry. -/
def callsAfter (result : TripResult) (r : TripRecord) (calls : List CallEntry) : List CallEntry :=
  match result, r.details with
  | .arrived, some t => removeCall t.dest calls
  | _, _ => calls

/-- R113: the trip record after a closing. -/
def TripRecord.closed (r : TripRecord) (result : TripResult) : TripRecord :=
  { r with state := .idle, stopDepth := none, armMs := none, result := some result }

/-- R113: an open trip closes. -/
def closeTrip (result : TripResult) (s : State) : State :=
  let t := s.trip
  let s := s.setTrip { t with record := t.record.closed result, calls := callsAfter result t.record t.calls,
                              autoStartMs := none }
  let s := takePending (partialEvaluation s)
  let s := if result = .expired then raise .tripExpired s else s
  reportTrip s.trip.record.target (.result result) s

/-- R109: a RUNNING trip enters STOPPING, with the stop depth of R83 for the sample set `x`. -/
def enterStoppingOn (x : SampleSet) (s : State) : State :=
  match s.trip.record.details with
  | none => s
  | some t =>
    let sd := stopPoint s.cfg t.direction x
    let s := partialEvaluation (s.setRecord { s.trip.record with state := .stopping, stopDepth := some sd })
    reportTrip sd .none s

/-- R109, R83: a RUNNING trip enters STOPPING between samples, with the stop depth for the last sample set. -/
def enterStopping (s : State) : State := enterStoppingOn s.lastSample s

/-- R103: an ARMED trip becomes RUNNING; the arm timer stops, and a pulse in progress ends (R119). -/
def enterRunning (s : State) : State :=
  let t := s.trip
  let s := partialEvaluation
    (s.setTrip { t with record := { t.record with state := .running, armMs := none }, autoStartMs := none })
  reportTrip s.trip.record.target .none s

/-- R111: a STOPPING trip becomes SUSPENDED. -/
def enterSuspended (s : State) : State :=
  let s := partialEvaluation (s.setRecord { s.trip.record with state := .suspended, stopDepth := none })
  reportTrip s.trip.record.target .none s

/-- R98: DOWN if the target is not less than D, UP if it is less. -/
def directionTo (target d : Depth) : Direction := if target < d then .up else .down

/-- The trip record of an accepted GO with the number it is to have (R98, R112). -/
def armedRecord (number : TripNumber) (t : TripDetails) : TripRecord where
  number := number
  state := .armed
  details := some t
  stopDepth := none
  armMs := some 0
  result := none

/-- R98, R112: what follows an opening and a re-arm alike: the pulse of R119 if the auto flag is set, the partial evaluation,
the report. -/
def arm (number : TripNumber) (t : TripDetails) (s : State) : State :=
  let s := partialEvaluation
    (s.setTrip { s.trip with record := armedRecord number t, autoStartMs := if t.auto then some 0 else none })
  reportTrip t.target .none s

/-- R98: an accepted GO opens a trip with the next trip number. TRIP EXPIRED leaves at the next opening (Table 10-2). -/
def openTrip (t : TripDetails) (s : State) : State :=
  arm (s.trip.record.number + 1) t (leave .tripExpired s)

/-- R112: an accepted GO re-arms the SUSPENDED trip, its number unchanged. -/
def rearmTrip (t : TripDetails) (s : State) : State := arm s.trip.record.number t s

/-- R172: the recovery trip, SUSPENDED at the depth D of the last sample. -/
def openRecovery (s : State) : State :=
  let d := s.lastSample.corrected
  let r : TripRecord :=
    { number := s.trip.record.number + 1, state := .suspended,
      details := some { cls := .inspection, auto := false, origin := s.cfg.station, dest := s.cfg.station, target := d,
                        direction := .down },
      stopDepth := none, armMs := none, result := none }
  reportTrip d .none (partialEvaluation ((leave .tripExpired s).setRecord r))

end Sys2Proof.Machine
end

