-- ==== Sys2Proof/Machine/SafetyTrip.lean ====
section
/-! DEFINITION. Sys2Proof/Machine/SafetyTrip.lean: the cause list (R162 to R165), the Envelope Unit's full evaluation (R75),
and the Trip Controller's judgement of the path (R100 to R102), which all deliver causes; HALT_TAKEN's delivery,
LOCAL_ESTOP_INPUT_CHANGE and TRIP_RESET_KEY. -/
namespace Sys2Proof.Machine

/-- A cause as it is delivered: its kind and, for HALT and ESTOP_REMOTE, its origin (Table 9-1). -/
structure Cause where
  kind   : CauseKind
  origin : Option Station
  deriving DecidableEq, Repr

/-- A cause without an origin. -/
def Cause.plain (k : CauseKind) : Cause := { kind := k, origin := none }

/-- R163: whole seconds since the end of the last reset, stopping at 16,777,215. -/
def State.seconds (s : State) : Nat := min (s.clock.now / 1000) Config.maxSeconds

/-- R163: the record of a cause, its measured fields taken from the last sample set and the trip record as they stand. -/
def causeRecord (c : Cause) (s : State) : CauseRecord where
  kind := c.kind
  depth := s.depth.sample.map (·.corrected)
  speed := s.depth.sample.map (·.speed)
  number := s.trip.record.number
  origin := c.origin
  time := s.seconds

/-- R164: a record of the same kind and origin is on the list. -/
def listed (c : Cause) (causes : List CauseRecord) : Bool :=
  causes.any (fun r => r.kind == c.kind && r.origin == c.origin)

/-- R114: a recording closes an open trip TRIPPED. -/
def tripTold (s : State) : State := if s.tripOpen then closeTrip .tripped s else s

/-- R164, R165: a delivered cause is recorded, or is on the list already, or finds the list full and sets CAUSES LOST. -/
def deliver (c : Cause) (s : State) : State :=
  if listed c s.safety.causes then s
  else if s.safety.causes.length < Config.listCapacity then
    let first := s.safety.causes.isEmpty
    let s' := s.setSafety { s.safety with causes := s.safety.causes ++ [causeRecord c s] }
    let s' := if first then raise .safetyTrip s' else s'
    tripTold s'
  else if s.safety.causesLost then s
  else raise .causesLost (s.setSafety { s.safety with causesLost := true })

/-- Causes delivered one after another. -/
def deliverAll (cs : List Cause) (s : State) : State := cs.foldl (fun s c => deliver c s) s

/-! The full evaluation (R75) -/

/-- R86: the overspeed warning at a full evaluation with a trip supervised; OFF to ON raises OVERSPEED WARNING. -/
def judgeWarning (v : Int) (s : State) : State :=
  let on := decide (s.env.vPerm.val < v.natAbs)
  let s' := s.setEnv { s.env with warning := on }
  if on && !s.env.warning then raise .overspeedWarning s' else s'

/-- R87: the overspeed count at a full evaluation with a trip supervised. -/
def nextCount (v : Int) (e : Envelope) : Nat := if e.vThr < v.natAbs then min 2 (e.count + 1) else 0

/-- R77: a supervised trip has overrun its supervision depth by more than o_allow. -/
def State.overrun (s : State) (x : SampleSet) : Bool :=
  match s.supervised, s.trip.record.details with
  | true, some t => decide (remaining t.direction (supervisionDepth s.trip.record t) x.corrected < -(s.cfg.oAllow : Int))
  | _, _ => false

/-- R88: the corrected depth lies outside the shaft limits. -/
def outsideShaft (c : Params) (d : Depth) : Bool := decide (d.val < c.topLimit) || decide (c.bottomLimit < d.val)

/-- R75: the full evaluation at a sample. The causes that arise are delivered at its end. R164 lets either of two causes
delivered together be first: that OVERSPEED comes before OVERWIND, in the order of the steps of R75, is a DESIGN CHOICE, unsafe
(log entry 37). -/
def fullEvaluation (s : State) : State :=
  let x := s.lastSample
  let s := recompute s
  let overspeed := s.supervised && s.env.count == 1 && nextCount x.speed s.env == 2
  let s :=
    if s.supervised then
      let s := judgeWarning x.speed s
      s.setEnv { s.env with count := nextCount x.speed s.env }
    else clearOverspeed s
  let overrun := s.overrun x
  let out := outsideShaft s.cfg x.corrected
  let crossed := out && !s.env.outside
  let s := s.setEnv { s.env with outside := out }
  deliverAll ((if overspeed then [Cause.plain .overspeed] else []) ++ (if overrun then [Cause.plain .overwind] else []) ++
    (if crossed then [Cause.plain .overwind] else [])) s

/-! The path (R100 to R102) -/

/-- A depth lies in a range of signed ends. -/
def inRange (lo hi : Int) (d : Depth) : Bool := decide (lo ≤ d.val) && decide ((d.val : Int) ≤ hi)

/-- The entry has a level and it lies in the range. -/
def StationEntry.levelIn (e : StationEntry) (lo hi : Int) : Bool :=
  match e.level with
  | some l => inRange lo hi l
  | none => false

/-- A landing or loading role. -/
def isLandingRole : Option Role → Bool
  | some .landing => true
  | some .loading => true
  | _ => false

/-- R46, R97, R100: the served set of an entry is unstated or names a winder. -/
def StationEntry.mayServe (e : StationEntry) (w : Winder) : Bool :=
  match e.served with
  | some ws => winderIn ws w
  | none => true

/-- R100: the station is withdrawn for a range. -/
def State.withdrawn (s : State) (lo hi : Int) (n : Station) : Bool :=
  let e := s.stations.entries[n]
  e.state == .current && isLandingRole e.role && e.levelIn lo hi && e.mayServe s.cfg.winder &&
    !winderIn e.clear s.cfg.winder

/-- R100: the station is silent for a range. -/
def State.silent (s : State) (lo hi : Int) (n : Station) : Bool :=
  (s.stations.entries[n].state == .stale && s.stations.entries[n].levelIn lo hi) || s.missing n

/-- R100: the station blocks a range. -/
def State.blocks (s : State) (lo hi : Int) (n : Station) : Bool := s.withdrawn lo hi n || s.silent lo hi n

/-- R99: the lowest-numbered station that blocks a range. -/
def State.firstBlocking (s : State) (lo hi : Int) : Option Station := stationNumbers.find? (s.blocks lo hi)

/-- R100: the ends of the path from d0 to d1, widened by path_guard. -/
def pathRange (guardMm : Nat) (d0 d1 : Depth) : Int × Int :=
  ((min d0.val d1.val : Nat) - (guardMm : Int), (max d0.val d1.val : Nat) + (guardMm : Int))

/-- R101: the range judged for the open trip. -/
def State.judgedRange (s : State) : Option (Int × Int) :=
  let r := s.trip.record
  let d := s.lastSample.corrected
  let ahead (t : TripDetails) (far : Depth) : Int × Int :=
    match t.direction with
    | .down => ((d.val : Int), (far.val : Int) + s.cfg.pathGuard)
    | .up => ((far.val : Int) - s.cfg.pathGuard, (d.val : Int))
  match r.state, r.details with
  | .armed, some t => some (pathRange s.cfg.pathGuard d t.target)
  | .running, some t => some (ahead t t.target)
  | .stopping, some t => some (ahead t (supervisionDepth r t))
  | _, _ => none

/-- R102, Table 6-4: the open trip's range is evaluated. A trip that it brings to STOPPING takes its stop distance from the
sample set `x` (R83, R84). -/
def evaluatePathOn (x : SampleSet) (s : State) : State :=
  match s.judgedRange with
  | none => s
  | some (lo, hi) =>
    let someWithdrawn := stationNumbers.any (s.withdrawn lo hi)
    let someSilent := stationNumbers.any (s.silent lo hi)
    match s.tripState with
    | .armed => if someWithdrawn || someSilent then closeTrip .cancelled s else s
    | .running =>
      if someWithdrawn then deliver (Cause.plain .gateWithdrawn) s
      else if someSilent then enterStoppingOn x s
      else s
    | .stopping => if someWithdrawn then deliver (Cause.plain .gateWithdrawn) s else s
    | _ => s

/-- R102: the open trip's range is evaluated at a report of the Picture Store, the last sample set standing. -/
def evaluatePath (s : State) : State := evaluatePathOn s.lastSample s

/-! HALT and the local emergency stop -/

/-- R166: the Safety Trip Unit takes a HALT that names the drum's winder. -/
def takeHalt (origin : Station) (reason : HaltReason) (s : State) : State :=
  deliver { kind := .halt reason, origin := some origin } s

/-- LOCAL_ESTOP_INPUT_CHANGE (R168): a change to active in LISTEN, RUN or LISTEN-ONLY delivers ESTOP_LOCAL. -/
def execLocalEstopInputChange (active : Bool) (s : State) : Answer :=
  onInput (s.inputs.localEstop != active) (fun s => s.setInputs { s.inputs with localEstop := active })
    (fun s => if active && s.isDrum && s.working then deliver (Cause.plain .estopLocal) s else s) s

/-! Trip reset (R170 to R172) -/

/-- Table 9-3: the first condition that fails, in the order of judgement. -/
def resetRefusal (s : State) : Option ResetRefusal :=
  if s.phase ≠ .run then some .phase
  else if s.depth.stationary < Config.resetRest then some .motion
  else if s.inputs.localEstop then some .localEstop
  else if stationNumbers.any (fun n => s.stations.entries[n].state == .current && s.stations.entries[n].estop) then
    some .remoteEstop
  else if s.encoderFaulty then some .encoder
  else none

/-- R172: the conveyance stands at a level of the station table, in any state of the entry. -/
def State.atLevel (s : State) : Bool :=
  stationNumbers.any (fun n =>
    let e := s.stations.entries[n]
    isLandingRole e.role &&
      match e.level with
      | some l => inWindow l s.cfg.landingHw s.lastSample.corrected
      | none => false)

/-- R170: an accepted press. -/
def acceptReset (s : State) : State :=
  let s := s.setSafety { causes := [], causesLost := false, refusal := none }
  let s := leave .resetRefused (leave .safetyTrip s)
  if s.atLevel then s else openRecovery s

/-- R170, R171: a press of the trip reset key. With an empty list R170 has it not acted on in any phase, and Table 9-4 has it
refused PHASE in LISTEN-ONLY, where the list may be empty; the model follows R170 there, and raises nothing: DESIGN CHOICE, unsafe
(log entry 47). -/
def pressReset (s : State) : State :=
  if s.safety.causes.isEmpty then s
  else
    match resetRefusal s with
    | some r => raise .resetRefused (s.setSafety { s.safety with refusal := some r })
    | none => acceptReset s

/-- TRIP_RESET_KEY (R170). The key is a drum's: a landing or loading station has no Safety Trip Unit. -/
def execTripResetKey (s : State) : Answer := act (fun s => if s.hasGates then s else pressReset s) s

end Sys2Proof.Machine
end

