-- ==== Sys2Proof/Machine/TripControl.lean ====
section
/-! DEFINITION. Sys2Proof/Machine/TripControl.lean: the Trip Controller's answers to signals and calls (R95 to R99, R105 to
R112, R120, R121), to a hold and to the loss of the line (R116, R118), its sample tests (R103 to R115), and its timers. -/
namespace Sys2Proof.Machine

/-- R96: the conveyance is at the origin of a GO. -/
def State.atOrigin (s : State) (origin : Station) : Bool :=
  match s.stations.entries[origin].level with
  | some l => s.standsAt l
  | none => false

/-- Table 6-3 order 5: the destination's entry is UNKNOWN, or a DRUM's, or states a served set without the drum's winder.
An entry without a level depth has none to go to and is refused alike. -/
def State.destUnknown (s : State) (dest : Station) : Bool :=
  let e := s.stations.entries[dest]
  e.state == .unknown || e.role == some .drum || !e.mayServe s.cfg.winder || e.level.isNone

/-- The level depth of a station's entry, or 0 if it has none (Table 6-6). -/
def State.levelOf (s : State) (n : Station) : Depth := (s.stations.entries[n].level).getD 0

/-- R97 order 10: the station that blocks the path from D to the destination's level. -/
def State.pathBlocker (s : State) (dest : Station) : Option Station :=
  let r := pathRange s.cfg.pathGuard s.lastSample.corrected (s.levelOf dest)
  s.firstBlocking r.1 r.2

/-- R97, Table 6-3: the cause of the first test that fails, in the order given. -/
def refusalOf (s : State) (origin dest : Station) (cls : TripClass) (auto : Bool) : Option RefusalCause :=
  if !s.safety.causes.isEmpty then some .tripped
  else if s.phase ≠ .run then some .line
  else if s.tripState = .armed ∨ s.tripState = .running ∨ s.tripState = .stopping then some .tripOpen
  else if auto && !s.inputs.autoEnable then some .autoOff
  else if s.destUnknown dest then some .destUnknown
  else if dest = origin then some .sameLevel
  else if s.tripState ≠ .suspended ∧ s.atOrigin origin = false then some .notAtOrigin
  else if s.lastSample.verified = false ∧ cls ≠ .inspection then some .unverified
  else if s.stations.holdSet ≠ 0 ∧ cls ≠ .inspection then some .hold
  else if (s.pathBlocker dest).isSome then some .pathBlocked
  else none

/-- R99, Table 6-6: the WINDING that reports a refused GO. -/
def reportRefusal (origin dest : Station) (cls : TripClass) (auto : Bool) (c : RefusalCause) (s : State) : State :=
  originate (.winding { winder := s.cfg.winder, number := s.trip.record.number, state := .refusal, cls := cls, auto := auto,
                        origin := origin, dest := dest, depth := s.levelOf dest, outcome := .refusal c,
                        blocking := if c = .pathBlocked then s.pathBlocker dest else none }) s

/-- The trip record's fields that an accepted GO gives (R98, R112). -/
def State.goDetails (s : State) (origin dest : Station) (cls : TripClass) (auto : Bool) : TripDetails where
  cls := cls
  auto := auto
  origin := origin
  dest := dest
  target := s.levelOf dest
  direction := directionTo (s.levelOf dest) s.lastSample.corrected

/-- R97: a GO is refused and reported, or opens a trip from IDLE, or re-arms the SUSPENDED trip. -/
def takeGo (origin dest : Station) (cls : TripClass) (auto : Bool) (s : State) : State :=
  match refusalOf s origin dest cls auto with
  | some c => reportRefusal origin dest cls auto c s
  | none =>
    let t := s.goDetails origin dest cls auto
    if s.tripState = .suspended then rearmTrip t s else openTrip t s

/-- R95, R105, R108: a STOP, from any station. -/
def takeStop (s : State) : State :=
  match s.tripState with
  | .armed => closeTrip .cancelled s
  | .running => enterStopping s
  | _ => s

/-- The origin of the trip record. -/
def State.tripOrigin (s : State) : Option Station := s.trip.record.details.map (·.origin)

/-- R95, R105, R108, R111: a CANCEL. -/
def takeCancel (origin : Station) (s : State) : State :=
  match s.tripState with
  | .armed => if s.tripOrigin = some origin then closeTrip .cancelled s else s
  | .running => if s.tripOrigin = some origin then enterStopping s else s
  | .suspended => closeTrip .cancelled s
  | _ => s

/-- R120: the order INSPECTION < ORE < MATERIAL < PERSONS. -/
def classRank : TripClass → Nat
  | .inspection => 0
  | .ore => 1
  | .material => 2
  | .persons => 3

/-- R120: the higher of two classes. -/
def higherClass (a b : TripClass) : TripClass := if classRank a < classRank b then b else a

/-- R120: a CALL REGISTER merges into its origin's entry, joins at the end, or is dropped by a full list. -/
def registerCall (origin : Station) (cls : TripClass) (now : Nat) (calls : List CallEntry) : List CallEntry :=
  if calls.any (fun e => e.origin == origin) then
    calls.map (fun e => if e.origin == origin then { e with cls := higherClass e.cls cls } else e)
  else if calls.length < Config.listCapacity then calls ++ [{ origin := origin, cls := cls, registered := now }]
  else calls

/-- R120: the Trip Controller takes a CALL REGISTER. -/
def takeRegister (origin : Station) (cls : TripClass) (s : State) : State :=
  s.setTrip { s.trip with calls := registerCall origin cls s.clock.now s.trip.calls }

/-- R121: the Trip Controller takes a CALL CANCEL. -/
def takeCallCancel (origin : Station) (s : State) : State :=
  s.setTrip { s.trip with calls := removeCall origin s.trip.calls }

/-- The class of the trip record. -/
def State.tripClass (s : State) : Option TripClass := s.trip.record.details.map (·.cls)

/-- R116: a station has joined the hold set. -/
def holdJoined (s : State) : State :=
  if s.tripClass = some .inspection then s
  else
    match s.tripState with
    | .armed => closeTrip .cancelled s
    | .running => enterStopping s
    | _ => s

/-- R118: the station has entered LISTEN-ONLY. -/
def lineLost (s : State) : State :=
  match s.tripState with
  | .armed => closeTrip .cancelled s
  | .running => enterStopping s
  | _ => s

/-! The sample tests. A trip that one of them brings to STOPPING takes its stop distance from the sample set `x`, which is the
new one where the Envelope Unit has acted on the sample before the Trip Controller, and the one before where it has not (R84). -/

/-- R103: motion in a direction. -/
def movesIn (dir : Direction) (v : Int) : Bool :=
  match dir with
  | .down => decide (50 < v)
  | .up => decide (v < -50)

/-- R103: the sample test of an ARMED trip. -/
def armedTest (x : SampleSet) (t : TripDetails) (v : Int) (s : State) : State :=
  evaluatePathOn x
    (if movesIn t.direction v then enterRunning s
     else if movesIn t.direction.opposite v then deliver (Cause.plain .wrongDirection) s
     else s)

/-- R107: the sample test of a RUNNING trip. -/
def runningTest (x : SampleSet) (t : TripDetails) (s : State) : State :=
  if s.standsAt t.target then closeTrip .arrived s else evaluatePathOn x s

/-- R110: the sample test of a STOPPING trip. -/
def stoppingTest (x : SampleSet) (t : TripDetails) (v : Int) (s : State) : State :=
  if s.standsAt t.target then closeTrip .arrived s
  else if stationary v then enterSuspended s
  else evaluatePathOn x s

/-- R103, R107, R110: the state rules at a sample. -/
def stateTest (x : SampleSet) (s : State) : State :=
  match s.tripState, s.trip.record.details with
  | .armed, some t => armedTest x t s.lastSample.speed s
  | .running, some t => runningTest x t s
  | .stopping, some t => stoppingTest x t s.lastSample.speed s
  | _, _ => s

/-- R115: the unauthorised-motion indication as a sample finds it. -/
def State.unauthorisedNow (s : State) : Bool :=
  (s.tripState == .idle || s.tripState == .suspended) && s.safety.causes.isEmpty &&
    decide (150 < s.lastSample.speed.natAbs)

/-- R115: the unauthorised-motion test; each change to true delivers the cause. -/
def motionTest (s : State) : State :=
  let now := s.unauthorisedNow
  let s' := s.setTrip { s.trip with unauthorised := now }
  if now && !s.trip.unauthorised then deliver (Cause.plain .unauthorisedMotion) s' else s'

/-- The Trip Controller's own tests at a sample. -/
def tripSample (x : SampleSet) (s : State) : State := motionTest (stateTest x s)

/-! Timers and the auto-enable input -/

/-- A running timer has reached its time. -/
def reached (timer : Option Nat) (limit : Nat) : Bool :=
  match timer with
  | some n => decide (limit ≤ n)
  | none => false

/-- ARM_TIMER_EXPIRY (R104): the arm timer has reached arm_timeout, so the ARMED trip closes EXPIRED. -/
def execArmTimerExpiry (s : State) : Answer :=
  act (fun s =>
    if s.tripState = .armed ∧ reached s.trip.record.armMs (s.cfg.armTimeout * 1000) then closeTrip .expired s else s) s

/-- AUTO_ENABLE_INPUT_CHANGE (R105, R119): a change to off closes an ARMED trip whose auto flag is set CANCELLED. -/
def execAutoEnableInputChange (on : Bool) (s : State) : Answer :=
  onInput (s.inputs.autoEnable != on) (fun s => s.setInputs { s.inputs with autoEnable := on })
    (fun s =>
      if !on && s.tripState == .armed && s.trip.record.details.any (·.auto) then closeTrip .cancelled s else s) s

/-- AUTO_START_PULSE_END (R119): the 200 ms have passed, so the auto-start output turns off. -/
def execAutoStartPulseEnd (s : State) : Answer :=
  act (fun s =>
    if reached s.trip.autoStartMs Config.autoStartTime then s.setTrip { s.trip with autoStartMs := none } else s) s

/-- R121: a call has been registered for call_life. -/
def State.callOver (s : State) (e : CallEntry) : Bool :=
  decide (s.cfg.callLife * 60000 ≤ s.clock.now - e.registered)

/-- CALL_LIFE_EXPIRY (R121): the origin's entry has been registered for call_life, so it leaves the call list. -/
def execCallLifeExpiry (origin : Station) (s : State) : Answer :=
  act (fun s =>
    s.setTrip { s.trip with calls := s.trip.calls.filter (fun e => !(e.origin == origin && s.callOver e)) }) s

end Sys2Proof.Machine
end

