-- ==== Sys2Proof/Machine/Sequencer.lean ====
section
/-! DEFINITION. Sys2Proof/Machine/Sequencer.lean: the shared operations of the Loading Sequencer (R149 to R159): the automatic
GO, the flask cycle, the interlocks and the tip dwell. -/
namespace Sys2Proof.Machine

/-! The automatic GO (R155, R156, R158) -/

/-- R155: the contents of an automatic GO. -/
def State.autoGo (s : State) : Payload := .signal s.cfg.tipWinder s.partner .ore .go true

/-- R155: an automatic GO is originated; the status is AWAITING with trip number none, the reply timer starting from 0. -/
def originateGo (s : State) : State :=
  let s := originate s.autoGo s
  s.setSeq { s.seq with auto := { s.seq.auto with status := .awaiting, number := none, replyMs := some 0 } }

/-- R156, R158: the phase is RUN, the auto input is on and the retry timer is not running. -/
def State.mayGo (s : State) : Bool := s.phase == .run && s.inputs.auto && s.seq.auto.retryMs.isNone

/-- R156: in LOADED the loading station originates the automatic GO when its conditions hold, and enters WAIT_DEPART. -/
def judgeLoadGo (s : State) : State :=
  if s.isLoading && s.seq.cycle == .loaded && s.seq.sendMark && s.mayGo then
    let s := originateGo s
    s.setSeq { s.seq with cycle := .waitDepart }
  else s

/-- R158: in READY the tip station originates the automatic GO when its conditions hold, and enters RETURN_SENT. -/
def judgeTipGo (s : State) : State :=
  if s.isTip && s.seq.tip == .ready && s.clearFlag s.cfg.tipWinder && s.mayGo then
    let s := originateGo s
    s.setSeq { s.seq with tip := .returnSent }
  else s

/-- R156, R158: the conditions of the automatic GO are judged, whichever form the sequencer has. -/
def judgeGo (s : State) : State := judgeTipGo (judgeLoadGo s)

/-- R155: a cycle told refused or closed while calling returns to LOADED or READY, and the retry timer starts from 0. R156:
the send mark is set at entry to LOADED from WAIT_DEPART. -/
def tellCycle (s : State) : State :=
  if s.calling then
    let q := s.seq
    let q := { q with auto := { q.auto with retryMs := some 0 } }
    if s.isLoading then
      s.setSeq { q with cycle := .loaded, sendMark := q.sendMark || q.cycle == .waitDepart }
    else s.setSeq { q with tip := .ready }
  else s

/-- R155: the automatic signal record becomes NONE, its reply timer stops, and the cycle is told. -/
def autoEnds (s : State) : State :=
  tellCycle (s.setSeq { s.seq with auto := { s.seq.auto with status := .none, replyMs := none } })

/-- R155: the automatic signal record becomes ACCEPTED with a trip number, its reply timer stopped. -/
def autoAccepts (n : TripNumber) (s : State) : State :=
  s.setSeq { s.seq with auto := { s.seq.auto with status := .accepted, number := some n, replyMs := none } }

/-- R155: a WINDING frame matches the automatic signal record. -/
def State.matchesAuto (s : State) (r : WindingReport) : Bool :=
  r.winder == s.cfg.tipWinder && r.origin == s.cfg.station && r.auto

/-- R155, Table 8-2: a matching frame acts on the automatic signal record. -/
def autoReport (r : WindingReport) (s : State) : State :=
  match r.state, s.seq.auto.status with
  | .refusal, .awaiting => autoEnds s
  | .refusal, _ => s
  | .trip .idle, .awaiting => autoEnds s
  | .trip .idle, .accepted => if s.seq.auto.number = some r.number then autoEnds s else s
  | .trip .idle, .none => s
  | .trip _, .none => if s.calling then autoAccepts r.number s else s
  | .trip _, .awaiting => autoAccepts r.number s
  | .trip _, .accepted => autoAccepts r.number s

/-- R155: an accepted POSITION of the skip winder is judged while the status is ACCEPTED. -/
def autoPosition (r : PositionReport) (s : State) : State :=
  if s.serving && s.hasSequencer && r.winder == s.cfg.tipWinder && s.seq.auto.status == .accepted &&
      (r.state == .idle || s.seq.auto.number != some r.number) then autoEnds s
  else s

/-! The flask cycle (R150 to R152) -/

/-- R150: in WAIT_SKIP, in RUN, the discharge condition begins a discharge. -/
def judgeDischarge (s : State) : State :=
  if s.isLoading && s.phase == .run && s.seq.cycle == .waitSkip && s.dischargeCondition then
    s.setSeq { s.seq with cycle := .discharge, complete := false }
  else s

/-- R150, R156: the cycle enters WAIT_SKIP, and the discharge condition is judged. -/
def enterWaitSkip (s : State) : State := judgeDischarge (s.setSeq { s.seq with cycle := .waitSkip })

/-- R152: in DOOR_CLOSING the door reads closed. R156: at entry to LOADED the send mark is cleared; an ASSENT originated from
now on sets it. -/
def doorReadsClosed (s : State) : State :=
  if s.seq.cycle = .doorClosing then
    if s.seq.complete then
      s.setSeq { s.seq with doorMs := none, cycle := .loaded, sendMark := false, sendAfter := s.model.stamp }
    else enterWaitSkip (s.setSeq { s.seq with doorMs := none })
  else s

/-- R151, R152: a discharge ends, complete or aborted. A door that already reads closed takes its case at once. -/
def endDischarge (complete : Bool) (s : State) : State :=
  if s.seq.cycle = .discharge then
    let s := s.setSeq { s.seq with cycle := .doorClosing, complete := complete, doorMs := some 0 }
    if s.inputs.doorClosed then doorReadsClosed s else s
  else s

/-! The interlocks (R153) -/

/-- The skip winder as a winder set. -/
def State.skipSet (s : State) : WinderSet := winderJoin 0 s.cfg.tipWinder

/-- R153: an interlock originates its HALT, and its event is raised. -/
def interlock (reason : HaltReason) (e : Event) (s : State) : State :=
  raise e (originate (.halt s.skipSet reason) s)

/-- R153: the skip-movement indication is judged again; its change from false to true originates the HALT. -/
def judgeSkipMoved (s : State) : State :=
  let now := s.skipMovesOpen
  let s' := s.setSeq { s.seq with skipMoved := now }
  if now && !s.seq.skipMoved then interlock .skipMoved .skipMoved s' else s'

/-! The departure of a loaded skip (R156) -/

/-- R156: record 2w shows the skip running away, or shows it CURRENT with a depth outside the window. -/
def State.skipDeparted (s : State) : Bool :=
  match s.currentRecord s.cfg.tipWinder with
  | some r =>
    r.runsAway s.cfg.level ||
      !(decide ((s.cfg.level.val : Int) - s.cfg.landingHw ≤ r.depth.val) &&
        decide ((r.depth.val : Int) ≤ s.cfg.level.val + s.cfg.landingHw))
  | none => false

/-- R156: the skip has departed: the automatic signal record becomes NONE with its timers stopped, and the cycle enters
WAIT_SKIP. R156 does not name the record's trip number, which is kept: DEDUCED (log entry 25). -/
def skipDeparts (s : State) : State :=
  enterWaitSkip (s.setSeq { s.seq with auto := { s.seq.auto with status := .none, replyMs := none, retryMs := none } })

/-! The tip dwell (R157) -/

/-- R157: record 2w is CURRENT, stands in the window, shows trip state IDLE and carries the arrival number. -/
def State.arrivalStands (s : State) : Bool :=
  match s.currentRecord s.cfg.tipWinder with
  | some r => r.stands s.cfg.level s.cfg.landingHw && r.state == .idle && s.seq.arrival == some r.number
  | none => false

/-- R157: in TIP_WAIT the automatic arrival seen standing enters DWELL. -/
def judgeDwell (s : State) : State :=
  if s.isTip && s.serving && s.seq.tip == .tipWait && s.arrivalStands then
    s.setSeq { s.seq with tip := .dwell, dwellMs := some 0, arrival := none }
  else s

/-- R157: the skip leaves: record 2w is CURRENT and does not stand in the window. -/
def State.skipLeaves (s : State) : Bool :=
  match s.currentRecord s.cfg.tipWinder with
  | some r => !r.stands s.cfg.level s.cfg.landingHw
  | none => false

/-- R157: the cycle enters TIP_WAIT; the dwell timer and the automatic signal record return to their reset values. -/
def tipLeaves (s : State) : State :=
  s.setSeq { s.seq with tip := .tipWait, dwellMs := none, auto := AutoRecord.reset }

/-- R157: the WINDING reports an automatic ORE arrival at this station, or a trip on its way to one. -/
def State.reportsArrival (s : State) (r : WindingReport) : Bool :=
  r.dest == s.cfg.station && r.cls == .ore && r.auto &&
    match r.state with
    | .refusal => false
    | .trip .idle => r.outcome == .result .arrived
    | .trip _ => true

/-- R157: in TIP_WAIT a WINDING of the skip winder other than a refusal sets the arrival number or sets it to none. -/
def arrivalReport (r : WindingReport) (s : State) : State :=
  if s.isTip && s.seq.tip == .tipWait && r.winder == s.cfg.tipWinder && r.state != .refusal then
    if s.reportsArrival r then judgeDwell (s.setSeq { s.seq with arrival := some r.number })
    else if s.seq.arrival = some r.number then s.setSeq { s.seq with arrival := none }
    else s
  else s

/-! What the sequencer makes of a record and of a WINDING -/

/-- R149 to R157: record 2w of the skip winder has changed. -/
def skipRecordChange (s : State) : State :=
  if s.serving then
    if s.isLoading then
      judgeSkipMoved
        (match s.seq.cycle with
          | .waitSkip => judgeDischarge s
          | .discharge => if s.skipPresent then s else endDischarge false s
          | .doorClosing => s
          | .loaded => if s.skipDeparted then skipDeparts s else s
          | .waitDepart => if s.skipDeparted then skipDeparts s else s)
    else if s.isTip then
      match s.seq.tip with
      | .tipWait => judgeDwell s
      | .dwell => if s.skipLeaves then tipLeaves s else s
      | .ready => if s.skipLeaves then tipLeaves s else s
      | .returnSent => if s.skipLeaves then tipLeaves s else s
    else s
  else s

/-- R155, R157: the Loading Sequencer takes a WINDING. -/
def sequencerReport (r : WindingReport) (s : State) : State :=
  if s.serving && s.hasSequencer then
    let s := arrivalReport r s
    if s.matchesAuto r then autoReport r s else s
  else s

/-! Phases (R159) -/

/-- R159: an interlock condition found standing at entry to RUN originates its HALT once. -/
def standingHalt (stands : Bool) (reason : HaltReason) (s : State) : State :=
  if stands then originate (.halt s.skipSet reason) s else s

/-- R159: the sequencer at entry to RUN. The HALTs of several interlocks found standing, which are of one class, join the queue
in the order SPILLAGE, FLASK_DOOR, SKIP_MOVED; R159 and R184 give none: DESIGN CHOICE, unsafe (log entry 40). -/
def sequencerEntersRun (s : State) : State :=
  if s.isLoading then
    let s := judgeDischarge s
    let moved := s.skipMovesOpen
    let s := s.setSeq { s.seq with skipMoved := moved }
    let s := standingHalt s.inputs.spillage .spillage s
    let s := standingHalt (!s.inputs.doorClosed) .flaskDoor s
    standingHalt moved .skipMoved s
  else judgeDwell s

end Sys2Proof.Machine
end

