-- ==== Sys2Proof/Machine/Gates.lean ====
section
/-! DEFINITION. Sys2Proof/Machine/Gates.lean: the shared operations of the Gate and Key Unit: gate records (R128 to R134, R147),
the signal record (R138 to R141) and the call records (R142, R143). -/
namespace Sys2Proof.Machine

/-! Gate records -/

/-- R128 to R131: a gate record in LOCKED, its settle timer as given. -/
def GateRecord.locked (settle : Option Nat) : GateRecord where
  state := .locked
  settleMs := settle

/-- A gate record in a state other than LOCKED, in which the settle timer does not run (R134). -/
def GateRecord.inState (st : GateState) : GateRecord where
  state := st
  settleMs := none

/-- The gate record of winder w takes a value. -/
def setGate (w : Winder) (g : GateRecord) (s : State) : State := s.setGateRecord w g

/-- The state of gate record w. -/
def State.gateState (s : State) (w : Winder) : GateState := s.gate.records[w].state

/-- R130: an OPEN record is judged again. -/
def judgeOpen (w : Winder) (s : State) : State :=
  if s.inputs.gateClosed[w] then
    if s.gateCondition w then setGate w (GateRecord.inState .releasable) s
    else if s.inputs.lockEngaged[w] then setGate w (GateRecord.locked none) s
    else s
  else s

/-- R128 to R131, R147: the landing condition of winder w was as given and has been judged again; only a change is handed to
the gate record, and in RUN alone. -/
def conditionJudged (was : Bool) (w : Winder) (s : State) : State :=
  if s.serves w && s.phase == .run && s.landingCondition w != was then
    match s.gateState w with
    | .locked => if s.landingCondition w then setGate w (GateRecord.inState .releasable) s else s
    | .releasable => if s.landingCondition w then s else setGate w (GateRecord.locked (some 0)) s
    | .opened => judgeOpen w s
    | .forced => s
  else s

/-- R131: a gate opened under a LOCKED record: FORCED, a GATE_FORCED HALT, and the event. -/
def forceGate (w : Winder) (s : State) : State :=
  raise .gateForced (originate (.halt (winderJoin 0 w) .gateForced) (setGate w (GateRecord.inState .forced) s))

/-- R128 to R131: the gate of winder w has opened. -/
def gateOpens (w : Winder) (s : State) : State :=
  match s.gateState w with
  | .locked => forceGate w s
  | .releasable => setGate w (GateRecord.inState .opened) s
  | .opened => s
  | .forced => s

/-- R128 to R131: the gate of winder w has closed. -/
def gateCloses (w : Winder) (s : State) : State :=
  match s.gateState w with
  | .opened => judgeOpen w s
  | .locked => s
  | .releasable => s
  | .forced => s

/-- R128 to R131, R134: the lock contact of winder w has changed; the settle timer stops when the lock engages. -/
def lockChanges (engaged : Bool) (w : Winder) (s : State) : State :=
  match s.gateState w with
  | .locked => if engaged then setGate w (GateRecord.locked none) s else s
  | .opened => judgeOpen w s
  | .releasable => s
  | .forced => s

/-- R131: an acknowledgement judged against gate record w. -/
def acknowledgeGate (s : State) (w : Winder) : State :=
  if s.gateState w = .forced ∧ s.inputs.gateClosed[w] ∧ s.inputs.lockEngaged[w] then
    setGate w (GateRecord.locked none) s
  else s

/-- R131: an acknowledgement is judged against each FORCED record of a served winder. -/
def acknowledgeGates (s : State) : State :=
  if s.hasGates && s.serving then winders.foldl (fun s w => if s.serves w then acknowledgeGate s w else s) s else s

/-- R147: gate record w at entry to RUN. -/
def gateEntersRun (s : State) (w : Winder) : State :=
  if s.serves w then
    if s.inputs.gateClosed[w] then
      if s.landingCondition w then setGate w (GateRecord.inState .releasable) s
      else setGate w (GateRecord.locked none) s
    else setGate w (GateRecord.inState .opened) s
  else s

/-- R147: the gate records at entry to RUN. -/
def gatesEnterRun (s : State) : State := winders.foldl gateEntersRun s

/-- R147: gate record w at entry to LISTEN-ONLY. -/
def gateLosesLine (s : State) (w : Winder) : State :=
  if s.gateState w = .releasable then setGate w (GateRecord.locked (some 0)) s else s

/-- R136, R147: the gate records and the ASSENT timer at entry to LISTEN-ONLY. -/
def gatesLoseLine (s : State) : State :=
  let s := winders.foldl gateLosesLine s
  s.setGate { s.gate with assentMs := none }

/-! The signal record -/

/-- The signal record takes a value. -/
def setSignal (r : SignalRecord) (s : State) : State := s.setGate { s.gate with signal := r }

/-- Table 7-2: REFUSED with the cause of the frame; the event is raised with the cause (R141). A frame that carries none is log
entry 43 (`causeOf`). -/
def signalRefused (cause : Option RefusalCause) (s : State) : State :=
  let s := setSignal { s.gate.signal with status := .refused, cause := cause, replyMs := none } s
  raise .refused { s with panel := { s.panel with refusedCause := cause } }

/-- Table 7-2: the status becomes one other than REFUSED; the timer stops and no cause is held. -/
def signalBecomes (st : SignalStatus) (n : Option TripNumber) (s : State) : State :=
  setSignal { s.gate.signal with status := st, number := n, cause := none, replyMs := none } s

/-- Table 7-2: EXPIRED, with its event. -/
def signalExpires (n : TripNumber) (s : State) : State := raise .expired (signalBecomes .expired (some n) s)

/-- The refusal cause that an outcome carries. R140's Table 7-2 has a WINDING in state REFUSAL "with cause" and does not speak of
one whose byte 9 holds none or a result, which R12 lets pass. Such a frame makes the record REFUSED with no cause, and the event
is raised with detail 0: DESIGN CHOICE, unsafe (log entry 43). -/
def causeOf : WindingOutcome → Option RefusalCause
  | .refusal c => some c
  | _ => none

/-- R140, Table 7-2: a matching frame. -/
def matchingReport (r : WindingReport) (s : State) : State :=
  let g := s.gate.signal
  let same := g.number == some r.number
  match r.state with
  | .refusal => signalRefused (causeOf r.outcome) s
  | .trip .idle =>
    let expired := r.outcome == .result .expired
    match g.status with
    | .awaiting => if expired then signalExpires r.number s else signalBecomes .idle (some r.number) s
    | .noReply => if expired then signalExpires r.number s else signalBecomes .idle (some r.number) s
    | .accepted =>
      if same then if expired then signalExpires r.number s else signalBecomes .idle (some r.number) s else s
    | .idle => if same && expired then signalExpires r.number s else s
    | .refused => s
    | .expired => s
  | .trip _ => signalBecomes .accepted (some r.number) s

/-- R140: the Gate and Key Unit takes a WINDING. -/
def signalReport (r : WindingReport) (s : State) : State :=
  let g := s.gate.signal
  if g.winder = some r.winder then
    if r.origin = s.cfg.station then matchingReport r s
    else if g.status = .accepted ∧ g.number = some r.number then signalBecomes .idle g.number s
    else s
  else s

/-- R141: an accepted POSITION of the record's winder is judged while the status is ACCEPTED. -/
def signalPosition (r : PositionReport) (s : State) : State :=
  let g := s.gate.signal
  if g.winder = some r.winder ∧ g.status = .accepted ∧ (r.state = .idle ∨ g.number ≠ some r.number) then
    signalBecomes .idle g.number s
  else s

/-! The call records -/

/-- Call record w takes a value. -/
def setCall (w : Winder) (r : CallRecord) (s : State) : State := s.setGate { s.gate with calls := put s.gate.calls w r }

/-- Table 10-2: the winder set of CALL NOT REGISTERED changes. The event leaves when it is empty (`gateLeaving`). -/
def setNotRegistered (ws : WinderSet) (s : State) : State := { s with panel := { s.panel with callNotRegistered := ws } }

/-- R143: the call record of a winder is NOT REGISTERED, and the event is raised for it. -/
def callMissed (w : Winder) (s : State) : State :=
  raise .callNotRegistered
    (setNotRegistered (winderJoin s.panel.callNotRegistered w) (setCall w { status := .notRegistered, misses := 2 } s))

/-- R143, Table 7-3: the call record of the POSITION's winder is judged against its call set. -/
def callPosition (r : PositionReport) (s : State) : State :=
  let c := s.gate.calls[r.winder]
  let listed := stationIn r.callSet s.cfg.station
  match c.status with
  | .none => s
  | .sent =>
    if listed then setCall r.winder { c with status := .listed } s
    else if c.misses + 1 < 2 then setCall r.winder { c with misses := c.misses + 1 } s
    else callMissed r.winder s
  | .listed => if listed then s else setCall r.winder { c with status := .none } s
  | .notRegistered =>
    if listed then
      setNotRegistered (winderLeave s.panel.callNotRegistered r.winder) (setCall r.winder { c with status := .listed } s)
    else s

end Sys2Proof.Machine
end

