-- ==== Sys2Proof/Machine/Lamps.lean ====
section
/-! DEFINITION. Sys2Proof/Machine/Lamps.lean: the commands of the Lamp Driver and Event Lines (R175 to R178). What the pins
show follows from the state (Machine/Outputs.lean). -/
namespace Sys2Proof.Machine

/-- FLASH_CLOCK_HALF (R175): a half cycle of the flash clock ends. -/
def execFlashClockHalf (s : State) : Answer :=
  act (fun s => s.setClock { s.clock with flashLit := !s.clock.flashLit, flashMs := 0 }) s

/-- LAMP_TEST_KEY_CHANGE (R175). -/
def execLampTestKeyChange (held : Bool) (s : State) : Answer :=
  onInput (s.inputs.lampTest != held) (fun s => s.setInputs { s.inputs with lampTest := held }) (fun s => s) s

/-- DARK_INPUT_CHANGE (R175). -/
def execDarkInputChange (on : Bool) (s : State) : Answer :=
  onInput (s.inputs.dark != on) (fun s => s.setInputs { s.inputs with dark := on }) (fun s => s) s

/-- STROBE_PULSE_END (R177): 20 ms have passed since the last change of the code. -/
def execStrobePulseEnd (s : State) : Answer :=
  act (fun s =>
    if reached s.panel.strobeMs Config.strobeTime then { s with panel := { s.panel with strobeMs := none } } else s) s

/-- R176: an acknowledgement that removes CALL NOT REGISTERED empties its winder set. -/
def emptyNotRegistered (code : Nat) (s : State) : State :=
  if s.hasGates && code == 8 then setNotRegistered 0 s else s

/-- R178: the displayed event leaves the pending set. -/
def acknowledgeEvent (s : State) : State :=
  if s.eventCode = 0 then s
  else emptyNotRegistered s.eventCode (setEvents (s.panel.pendingEvents &&& ~~~BitVec.twoPow 16 s.eventCode) s)

/-- R30: both drop flags clear. -/
def clearDropFlags (s : State) : State := s.setRelay { s.relay with upDrop := false, downDrop := false }

/-- ACKNOWLEDGE_KEY (R178, R30, R131). R158: a gate record leaving FORCED may change the clear flag. -/
def execAcknowledgeKey (s : State) : Answer :=
  act (fun s => judgeGo (acknowledgeGates (clearDropFlags (acknowledgeEvent s)))) s

end Sys2Proof.Machine
end

