-- ==== Sys2Proof/Machine/Landing.lean ====
section
/-! DEFINITION. Sys2Proof/Machine/Landing.lean: the commands of the Gate and Key Unit (R126 to R147): gate switches, lock
contacts, timers, keys, switches and markers. -/
namespace Sys2Proof.Machine

/-! Gates -/

/-- R126, R147: an input of gate record w is acted on. -/
def State.gateActs (s : State) (w : Winder) : Bool := s.serves w && s.serving

/-- GATE_SWITCH_CHANGE (R128 to R131). R158: the clear flag may have changed, so a tip judges its automatic GO. -/
def execGateSwitchChange (w : Winder) (closed : Bool) (s : State) : Answer :=
  onInput (s.inputs.gateClosed[w] != closed)
    (fun s => s.setInputs { s.inputs with gateClosed := put s.inputs.gateClosed w closed })
    (fun s => if s.gateActs w then judgeGo (if closed then gateCloses w s else gateOpens w s) else s) s

/-- LOCK_CONTACT_CHANGE (R128 to R131, R134). -/
def execLockContactChange (w : Winder) (engaged : Bool) (s : State) : Answer :=
  onInput (s.inputs.lockEngaged[w] != engaged)
    (fun s => s.setInputs { s.inputs with lockEngaged := put s.inputs.lockEngaged w engaged })
    (fun s => if s.gateActs w then judgeGo (lockChanges engaged w s) else s) s

/-- LOCK_SETTLE_TIMER_EXPIRY (R134): the settle timer stops on reaching 500 ms. -/
def execLockSettleTimerExpiry (w : Winder) (s : State) : Answer :=
  act (fun s =>
    if s.gateState w = .locked ∧ reached s.gate.records[w].settleMs Config.settleTime then
      judgeGo (setGate w (GateRecord.locked none) s)
    else s) s

/-- ASSENT_TIMER_EXPIRY (R135): the ASSENT timer reaches 1,000 ms. -/
def execAssentTimerExpiry (s : State) : Answer :=
  act (fun s => if reached s.gate.assentMs Config.assentPeriod then originateAssent s else s) s

/-! Signals and calls -/

/-- R137: the signal and call keys are acted on in RUN, at a station with a Gate and Key Unit. -/
def State.keysAct (s : State) : Bool := s.hasGates && s.phase == .run

/-- The winder that the winder selector shows (R137). -/
def State.selected (s : State) : Winder := s.inputs.winderSelector

/-- R138: what a press of SEND makes of the signal record. -/
def sentSignal (w : Winder) : SignalRecord where
  status := .awaiting
  winder := some w
  number := none
  cause := none
  replyMs := some 0

/-- R138: a press of SEND. -/
def pressSend (dest : Station) (cls : TripClass) (s : State) : State :=
  let s := originate (.signal s.selected dest cls .go false) s
  leave .noReply (leave .expired (leave .refused (setSignal (sentSignal s.selected) s)))

/-- SEND_KEY (R138). -/
def execSendKey (dest : Station) (cls : TripClass) (s : State) : Answer :=
  act (fun s => if s.keysAct then pressSend dest cls s else s) s

/-- STOP_KEY (R139). -/
def execStopKey (dest : Station) (cls : TripClass) (s : State) : Answer :=
  act (fun s => if s.keysAct then originate (.signal s.selected dest cls .stop false) s else s) s

/-- CANCEL_KEY (R139). -/
def execCancelKey (dest : Station) (cls : TripClass) (s : State) : Answer :=
  act (fun s => if s.keysAct then originate (.signal s.selected dest cls .cancel false) s else s) s

/-- R142: a press of CALL on the call record of the selected winder. -/
def pressCall (cls : TripClass) (s : State) : State :=
  let w := s.selected
  let c := s.gate.calls[w]
  match c.status with
  | .none => setCall w { status := .sent, misses := 0 } (originate (.call w cls .register) s)
  | .sent => setCall w { c with status := .none } (originate (.call w cls .cancel) s)
  | .listed => setCall w { c with status := .none } (originate (.call w cls .cancel) s)
  | .notRegistered =>
    let s := setCall w { c with status := .none } (originate (.call w cls .cancel) s)
    setNotRegistered (winderLeave s.panel.callNotRegistered w) s

/-- CALL_KEY (R142). -/
def execCallKey (cls : TripClass) (s : State) : Answer :=
  act (fun s => if s.keysAct then pressCall cls s else s) s

/-- REPLY_TIMER_EXPIRY (R141): 2,000 ms in AWAITING: NO REPLY, with its event. -/
def execReplyTimerExpiry (s : State) : Answer :=
  act (fun s =>
    if s.gate.signal.status = .awaiting ∧ reached s.gate.signal.replyMs Config.replyTime then
      raise .noReply (setSignal { s.gate.signal with status := .noReply, replyMs := none } s)
    else s) s

/-- WINDER_SELECTOR_CHANGE (R137, R174). -/
def execWinderSelectorChange (w : Winder) (s : State) : Answer :=
  onInput (s.inputs.winderSelector != w) (fun s => s.setInputs { s.inputs with winderSelector := w }) (fun s => s) s

/-! Hold, emergency stop and markers -/

/-- HOLD_SWITCH_CHANGE (R144): the ASSENT follows from the change of its contents (R135). -/
def execHoldSwitchChange (on : Bool) (s : State) : Answer :=
  onInput (s.inputs.hold != on) (fun s => s.setInputs { s.inputs with hold := on })
    (fun s => if on && s.hasGates then raise .holdUnacknowledged s else s) s

/-- EMERGENCY_STOP_KEY_CHANGE (R145): a press in RUN originates a HALT; the ASSENT follows from the change of its contents. -/
def execEmergencyStopKeyChange (active : Bool) (s : State) : Answer :=
  onInput (s.inputs.estop != active) (fun s => s.setInputs { s.inputs with estop := active })
    (fun s => if active && s.hasGates then originate (.halt s.cfg.served .estopKey) s else s) s

/-- MARKER_INPUT_CHANGE (R146): a change to active at a served compartment originates a MARK. -/
def execMarkerInputChange (w : Winder) (active : Bool) (s : State) : Answer :=
  onInput (s.inputs.marker[w] != active)
    (fun s => s.setInputs { s.inputs with marker := put s.inputs.marker w active })
    (fun s => if active && s.serves w then originate (.mark w s.cfg.markers[w]) s else s) s

end Sys2Proof.Machine
end

