-- ==== Sys2Proof/Machine/Loading.lean ====
section
/-! DEFINITION. Sys2Proof/Machine/Loading.lean: the commands of the Loading Sequencer: the flask inputs, the auto input and the
door, reply, retry and dwell timers (R150 to R158). -/
namespace Sys2Proof.Machine

/-- The station has a flask and its sequencer acts (R159). -/
def State.flaskActs (s : State) : Bool := s.isLoading && s.serving

/-- FLASK_FULL_CHANGE (R150, R151). -/
def execFlaskFullChange (on : Bool) (s : State) : Answer :=
  onInput (s.inputs.flaskFull != on) (fun s => s.setInputs { s.inputs with flaskFull := on })
    (fun s => if s.flaskActs then judgeDischarge s else s) s

/-- R151: the flask empty input has changed. -/
def flaskEmptyChanged (on : Bool) (s : State) : State :=
  if s.flaskActs then
    if s.seq.cycle = .discharge then if on then endDischarge true s else s
    else judgeDischarge s
  else s

/-- FLASK_EMPTY_CHANGE (R150, R151): a change to on in DISCHARGE completes the discharge. -/
def execFlaskEmptyChange (on : Bool) (s : State) : Answer :=
  onInput (s.inputs.flaskEmpty != on) (fun s => s.setInputs { s.inputs with flaskEmpty := on }) (flaskEmptyChanged on) s

/-- R152, R153: the door closed input has changed. One opening that is both a door opened without command and a skip moved with
the door open originates both HALTs, FLASK_DOOR first: DESIGN CHOICE, unsafe (log entry 36). -/
def doorChanged (closed : Bool) (s : State) : State :=
  if s.flaskActs then
    judgeSkipMoved
      (if closed then judgeDischarge (doorReadsClosed s)
       else if s.doorOpen then s
       else interlock .flaskDoor .flaskDoor s)
  else s

/-- DOOR_CLOSED_CHANGE (R150, R152, R153). -/
def execDoorClosedChange (closed : Bool) (s : State) : Answer :=
  onInput (s.inputs.doorClosed != closed) (fun s => s.setInputs { s.inputs with doorClosed := closed }) (doorChanged closed) s

/-- R151, R153: the spillage input has changed. -/
def spillageChanged (active : Bool) (s : State) : State :=
  if s.flaskActs then
    if active then interlock .spillage .spillage (endDischarge false s) else judgeDischarge s
  else s

/-- SPILLAGE_CHANGE (R150, R151, R153). -/
def execSpillageChange (active : Bool) (s : State) : Answer :=
  onInput (s.inputs.spillage != active) (fun s => s.setInputs { s.inputs with spillage := active }) (spillageChanged active) s

/-- DOOR_TIMER_EXPIRY (R152): door_timeout has passed in DOOR_CLOSING: a FLASK_DOOR HALT, its event, and the timer stops. -/
def execDoorTimerExpiry (s : State) : Answer :=
  act (fun s =>
    if s.seq.cycle = .doorClosing ∧ reached s.seq.doorMs (s.cfg.doorTimeout * 1000) then
      interlock .flaskDoor .flaskDoor (s.setSeq { s.seq with doorMs := none })
    else s) s

/-- AUTO_INPUT_CHANGE (R156, R158): the conditions of the automatic GO are judged. -/
def execAutoInputChange (on : Bool) (s : State) : Answer :=
  onInput (s.inputs.auto != on) (fun s => s.setInputs { s.inputs with auto := on }) judgeGo s

/-- AUTO_REPLY_TIMER_EXPIRY (R155): 2,000 ms in AWAITING: the GO is originated again and the timer restarts. -/
def execAutoReplyTimerExpiry (s : State) : Answer :=
  act (fun s =>
    if s.seq.auto.status = .awaiting ∧ reached s.seq.auto.replyMs Config.replyTime then originateGo s else s) s

/-- RETRY_TIMER_EXPIRY (R155): the retry timer stops at 2,000 ms, and the conditions of the automatic GO are judged. -/
def execRetryTimerExpiry (s : State) : Answer :=
  act (fun s =>
    if reached s.seq.auto.retryMs Config.retryTime then
      judgeGo (s.setSeq { s.seq with auto := { s.seq.auto with retryMs := none } })
    else s) s

/-- DWELL_TIMER_EXPIRY (R158): dwell has passed in DWELL: READY, and the conditions of the automatic GO are judged. -/
def execDwellTimerExpiry (s : State) : Answer :=
  act (fun s =>
    if s.seq.tip = .dwell ∧ reached s.seq.dwellMs (s.cfg.dwell * 1000) then
      judgeGo (s.setSeq { s.seq with tip := .ready, dwellMs := none })
    else s) s

end Sys2Proof.Machine
end

