-- ==== Sys2Proof/Machine/Depth.lean ====
section
/-! DEFINITION. Sys2Proof/Machine/Depth.lean: the Depth Unit (R52 to R73): quadrature counting, the sample set, the correction
table, MARK and the maintenance requests; and the sample itself (R55, R38, R123). -/
namespace Sys2Proof.Machine

/-! Counting (R52, R53) -/

/-- Table 4-1: what a change of the channel state is. -/
inductive Turn where
  | same
  | forward
  | reverse
  | illegal
  deriving DecidableEq, Repr

/-- The place of a channel state in the cycle 00, 01, 11, 10. -/
def cyclePlace (ch : Level × Level) : Nat :=
  match ch with
  | (false, false) => 0
  | (false, true) => 1
  | (true, true) => 2
  | (true, false) => 3

/-- R52, Table 4-1. -/
def turnOf (old new : Level × Level) : Turn :=
  match (cyclePlace new + 4 - cyclePlace old) % 4 with
  | 0 => .same
  | 1 => .forward
  | 2 => .illegal
  | _ => .reverse

/-- R63, R64: the position becomes UNVERIFIED; the last sample set shows it at once. -/
def unverify (s : State) : State :=
  s.setDepth { s.depth with verified := false, sample := s.depth.sample.map (fun x => { x with verified := false }) }

/-- R53: an illegal change: FAULTY, UNVERIFIED, and one ENCODER cause at the change from CLEAR. -/
def illegalChange (s : State) : State :=
  let wasClear := !s.encoderFaulty
  let s := unverify (s.setDepth { s.depth with faultMs := some 0 })
  if wasClear && s.isDrum && s.live && s.working then deliver (Cause.plain .encoder) s else s

/-- R52, R54: one count forward or back; INVERTED exchanges the signs. -/
def stepCount (up : Bool) (s : State) : State :=
  s.setDepth { s.depth with count := if up != s.cfg.inverted then s.depth.count + 1 else s.depth.count - 1 }

/-- R52: the decoder's channel state changes. The levels first accepted since power-on make the channel state (Table 4-3). -/
def channelChange (ch : Level × Level) (s : State) : State :=
  let turn := match s.depth.channel with
    | some old => turnOf old ch
    | none => .same
  let s := s.setDepth { s.depth with channel := some ch }
  match turn with
  | .same => s
  | .forward => stepCount true s
  | .reverse => stepCount false s
  | .illegal => illegalChange s

/-- ENCODER_CHANNEL_CHANGE (R52): counted from the end of power-on in every phase and through a warm reset (R54, R72). That the
count, the fault indication and the verification follow the channels at a landing or loading station too, where Table I-1 has no
Depth Unit in use, is a DESIGN CHOICE, unsafe (log entry 39). -/
def execEncoderChannelChange (chA chB : Level) (s : State) : Answer :=
  if s.loader.powered && !s.loader.oscillating then
    if s.inReset then .next (channelChange (chA, chB) s) else .next (finish s (channelChange (chA, chB) s))
  else .next s

/-- ENCODER_FAULT_CLEAR (R53): 10 ms have passed since the last illegal change, in every phase and through a warm reset; in every
role, as ENCODER_CHANNEL_CHANGE (log entry 39). -/
def execEncoderFaultClear (s : State) : Answer :=
  if s.loader.powered && !s.loader.oscillating && reached s.depth.faultMs Config.encoderClearTime then
    .next (s.setDepth { s.depth with faultMs := none })
  else .next s

/-! The computations of a sample (R56 to R62) -/

/-- R56: the difference of two counts, taken modulo 2^32 into the signed range. -/
def countDifference (c h : Count) : Int := (c - h).toInt

/-- R56: the speed of a count difference, clamped. -/
def speedOfDifference (diff : Int) (upc : Nat) : Int := clampInt (-Config.maxSpeed) Config.maxSpeed ((diff * upc).tdiv 100)

/-- R56: the history is full. -/
def historyFull (history : List Count) : Bool := decide (10 ≤ history.length)

/-- R56: the speed at a sample, from the history before it. -/
def sampleSpeed (history : List Count) (c : Count) (upc : Nat) : Int :=
  match history with
  | h :: _ => if historyFull history then speedOfDifference (countDifference c h) upc else 0
  | [] => 0

/-- R56: the history after a sample. -/
def nextHistory (history : List Count) (c : Count) : List Count :=
  if historyFull history then history.tail ++ [c] else history ++ [c]

/-- R57: the stationary time after a sample. -/
def nextStationary (full : Bool) (v : Int) (t : Nat) : Nat :=
  if full then if v.natAbs ≤ 50 then min Config.maxAge (t + 10) else 0 else t

/-- R58: the raw depth before its clamp. -/
def rawUnclamped (c : Count) (upc : Nat) (z : Int) : Int := (c.toInt * upc) / 1000 + z

/-- R59: the page of a raw depth, 0 to 63. -/
def pageOf (r : Depth) : Fin 64 := ⟨r.val / 65536, by omega⟩

/-- R59: the offset within the page. -/
def offsetOf (r : Depth) : Nat := r.val % 65536

/-- R59: the interpolated correction. -/
def correctionAt (table : Vector Int 64) (r : Depth) : Int :=
  let p := pageOf r
  if h : p.val + 1 < 64 then
    table[p] + ((table[p.val + 1] - table[p]) * offsetOf r) / 65536
  else table[p]

/-- R60: the corrected depth before its clamp. -/
def correctedUnclamped (on : Bool) (table : Vector Int 64) (r : Depth) : Int :=
  if on then (r.val : Int) + correctionAt table r else r.val

/-- R55 to R63: the Depth Unit reads the count and computes the sample set. -/
def takeSample (s : State) : State :=
  let d := s.depth
  let full := historyFull d.history
  let v := sampleSpeed d.history d.count s.cfg.upc
  let rawU := rawUnclamped d.count s.cfg.upc d.zeroOffset
  let raw := clampDepth rawU
  let corU := correctedUnclamped d.correctionOn d.table raw
  let cwU := (s.cfg.cwSum : Int) - raw.val
  let st := nextStationary full v d.stationary
  let clamped := (rawU != (raw.val : Int)) || (corU != ((clampDepth corU).val : Int)) || (cwU != ((clampDepth cwU).val : Int))
  s.setDepth { d with
    history := nextHistory d.history d.count
    stationary := st
    sample := some { count := d.count, speed := v, stationary := st, raw := raw, corrected := clampDepth corU,
                     counterweight := clampDepth cwU, clamped := clamped, verified := d.verified,
                     correctionOn := d.correctionOn, modePending := d.modePending, clearPending := d.clearPending } }

/-! The drum's own records and POSITION (R38, R123) -/

/-- R36: MOVING, the magnitude of the speed exceeding 50 mm/s. -/
def moving (v : Int) : Bool := decide (50 < v.natAbs)

/-- R34, R38: the destination while a trip is open, else the next call. -/
def State.destOrCall (s : State) : Option Station :=
  if s.tripOpen then s.trip.record.details.map (·.dest) else s.trip.calls.head?.map (·.origin)

/-- R120: the call set, the origins listed. -/
def callSet (calls : List CallEntry) : StationSet := calls.foldl (fun t e => stationJoin t e.origin) 0

/-- R38: the own carrying record. -/
def State.ownCarrying (s : State) : Carrying :=
  let x := s.lastSample
  { current := true, skip := s.cfg.carriesSkip, depth := x.corrected, speed := x.speed, vPerm := s.env.vPerm,
    number := s.trip.record.number, state := s.tripState, dest := s.destOrCall, verified := x.verified,
    correctionOn := x.correctionOn, clamped := x.clamped, tripped := !s.safety.causes.isEmpty, moving := moving x.speed,
    callSet := callSet s.trip.calls, holdSet := s.stations.holdSet, seq := s.trip.positionSeq, age := 0,
    staleness := if moving x.speed then Config.stalenessMoving else Config.stalenessStanding }

/-- R38: the own counterweight record. -/
def State.ownCounterweight (s : State) : Counterweight :=
  let x := s.lastSample
  { current := true, depth := x.counterweight, speed := -x.speed, moving := moving x.speed, seq := s.trip.positionSeq,
    age := 0, staleness := if moving x.speed then Config.stalenessMoving else Config.stalenessStanding }

/-- R38: the two records of the drum's own winder are written. -/
def writeOwnRecords (s : State) : State :=
  s.setPicture { carrying := put s.picture.carrying s.cfg.winder (some s.ownCarrying),
                 counterweight := put s.picture.counterweight s.cfg.winder (some s.ownCounterweight) }

/-- R123: the contents of a POSITION, taken from the drum's own records. -/
def positionReport (w : Winder) (seq : Sequence) (r : Carrying) (cw : Counterweight) : PositionReport where
  winder := w
  seq := seq
  carrying := r.depth
  counterweight := cw.depth
  speed := r.speed
  vPerm := r.vPerm
  number := r.number
  state := r.state
  dest := r.dest
  skip := r.skip
  verified := r.verified
  correctionOn := r.correctionOn
  clamped := r.clamped
  moving := r.moving
  tripped := r.tripped
  callSet := r.callSet
  holdSet := r.holdSet

/-- R123: the POSITION period. -/
def State.positionPeriod (s : State) : Nat :=
  if moving s.lastSample.speed || s.tripOpen then Config.positionPeriodFast else Config.positionPeriodSlow

/-- R123: at least the POSITION period has passed since the last POSITION built, or none has been built. -/
def positionDue (since : Option Nat) (period : Nat) : Bool :=
  match since with
  | some t => decide (period ≤ t)
  | none => true

/-- R123: a POSITION is built and originated in RUN, if its period has passed. -/
def buildPosition (s : State) : State :=
  if s.phase = .run ∧ positionDue s.trip.sincePosition s.positionPeriod then
    let seq := s.trip.positionSeq + 1
    let s := writeOwnRecords (s.setTrip { s.trip with positionSeq := seq, sincePosition := some 0 })
    originate (.position (positionReport s.cfg.winder seq s.ownCarrying s.ownCounterweight)) s
  else s

/-- A sample is 10 ms after the one before it (R55). -/
def countSampleTime (s : State) : State :=
  (s.setTrip { s.trip with sincePosition := s.trip.sincePosition.map (· + Config.sampleTime) }).setClock
    { s.clock with sampleMs := 0 }

/-- R75, R107, R123: a sample whole. R76 leaves open which of the Envelope Unit and the Trip Controller acts first on it;
where the Trip Controller does, an entry to STOPPING finds the sample set before it (R84). The own records and the POSITION
follow both. -/
def sampleStep (envelopeFirst : Bool) (s : State) : State :=
  let before := s.lastSample
  let s := takeSample (countSampleTime s)
  let s := if envelopeFirst then tripSample s.lastSample (fullEvaluation s) else fullEvaluation (tripSample before s)
  buildPosition (writeOwnRecords s)

/-- SAMPLE (R55): at a drum, in LISTEN, RUN and LISTEN-ONLY. -/
def execSample (envelopeFirst : Bool) (s : State) : Answer :=
  act (fun s => if s.isDrum && s.working then sampleStep envelopeFirst s else s) s

/-! MARK (R65 to R68) -/

/-- R66, R58: the working zero offset changed, clamped to its range. -/
def moveZero (z change : Int) : Int := clampInt (-8388608) 8388607 (z + change)

/-- R68: the entry that learning adjusts. -/
def learnedEntry (raw : Depth) : Fin 64 :=
  let p := pageOf raw
  if h : p.val + 1 < 64 then if offsetOf raw < 32768 then p else ⟨p.val + 1, h⟩ else p

/-- R68: an entry after learning. -/
def learned (c e : Int) : Int := clampInt (-4095) 4095 (c + clampInt (-50) 50 e)

/-- R66: a MARK while UNVERIFIED re-zeroes the depth. -/
def rezero (e : Int) (s : State) : State :=
  s.setDepth { s.depth with zeroOffset := moveZero s.depth.zeroOffset e, verified := true }

/-- R68: an agreeing MARK is learned. -/
def learn (raw : Depth) (e : Int) (s : State) : State :=
  s.setDepth { s.depth with table := put s.depth.table (learnedEntry raw) (learned s.depth.table[learnedEntry raw] e) }

/-- R65 to R68: the Depth Unit takes a MARK. -/
def takeMark (surveyed : Depth) (s : State) : State :=
  match s.depth.sample with
  | none => s
  | some x =>
    let e : Int := (surveyed.val : Int) - x.corrected.val
    if s.encoderFaulty then s
    else if s.depth.verified = false then rezero e s
    else if s.cfg.disagreeLim < e.natAbs then deliver (Cause.plain .depthDisagree) (unverify s)
    else if s.depth.correctionOn ∧ x.speed.natAbs ≤ s.cfg.vLearn then learn x.raw e s
    else s

/-! Maintenance requests (R69 to R71) -/

/-- R69: the correction-off input has changed. -/
def requestMode (s : State) : State :=
  if s.requestedMode = s.depth.correctionOn then s.setDepth { s.depth with modePending := false }
  else if s.tripOpen then raise .correctionPending (s.setDepth { s.depth with modePending := true })
  else s.setDepth { s.depth with correctionOn := s.requestedMode, modePending := false }

/-- CORRECTION_OFF_INPUT_CHANGE (R69), acted on in the phases of samples (R72). -/
def execCorrectionOffInputChange (on : Bool) (s : State) : Answer :=
  onInput (s.inputs.correctionOff != on) (fun s => s.setInputs { s.inputs with correctionOff := on })
    (fun s => if s.isDrum && s.working then requestMode s else s) s

/-- R70: the table-clear key is pressed. -/
def requestClear (s : State) : State :=
  if s.tripOpen then
    if s.depth.clearPending then s else raise .correctionPending (s.setDepth { s.depth with clearPending := true })
  else s.setDepth { s.depth with table := Vector.replicate 64 0 }

/-- TABLE_CLEAR_KEY (R70), acted on in the phases of samples (R72). -/
def execTableClearKey (s : State) : Answer :=
  act (fun s => if s.isDrum && s.working then requestClear s else s) s

end Sys2Proof.Machine
end

