-- ==== Sys2Proof/Machine/Picture.lean ====
section
/-! DEFINITION. Sys2Proof/Machine/Picture.lean: the Picture Store (R34 to R50): what it makes of a POSITION, an ASSENT and an
ANNOUNCE, the expiry of records and entries, and the hold override. -/
namespace Sys2Proof.Machine

/-! The conveyance table -/

/-- R35: a POSITION of a sequence succeeds a record of another. -/
def succeeds (new old : Sequence) : Bool :=
  decide (1 ≤ (new - old).toNat) && decide ((new - old).toNat ≤ 127)

/-- R35: a POSITION is accepted. -/
def State.acceptsPosition (s : State) (r : PositionReport) : Bool :=
  !(s.isDrum && r.winder == s.cfg.winder) &&
    match s.picture.carrying[r.winder] with
    | none => true
    | some x => !x.current || succeeds r.seq x.seq

/-- R37: the staleness time that a MOVING flag fixes. -/
def stalenessOf (moves : Bool) : Nat := if moves then Config.stalenessMoving else Config.stalenessStanding

/-- R36: the carrying record that a POSITION writes. -/
def carryingOf (r : PositionReport) : Carrying where
  current := true
  skip := r.skip
  depth := r.carrying
  speed := r.speed
  vPerm := r.vPerm
  number := r.number
  state := r.state
  dest := r.dest
  verified := r.verified
  correctionOn := r.correctionOn
  clamped := r.clamped
  tripped := r.tripped
  moving := r.moving
  callSet := r.callSet
  holdSet := r.holdSet
  seq := r.seq
  age := 0
  staleness := stalenessOf r.moving

/-- R36: the counterweight record that a POSITION writes. -/
def counterweightOf (r : PositionReport) : Counterweight where
  current := true
  depth := r.counterweight
  speed := -r.speed
  moving := r.moving
  seq := r.seq
  age := 0
  staleness := stalenessOf r.moving

/-- The two records of a winder are written at once (R36, R39). -/
def writeRecords (w : Winder) (x : Option Carrying) (y : Option Counterweight) (s : State) : State :=
  s.setPicture { carrying := put s.picture.carrying w x, counterweight := put s.picture.counterweight w y }

/-- R39: a change of record 2w is announced to the blocks that read it; `was` is the landing condition before it. -/
def recordChange (was : Bool) (w : Winder) (s : State) : State :=
  let s := conditionJudged was w s
  let s := if s.hasSequencer && w == s.cfg.tipWinder then skipRecordChange s else s
  judgeGo s

/-- R36: an accepted POSITION is written, and each block acts on it: the gate record, the flask or tip cycle and the conditions of
the automatic GO by the record, then the signal, call and automatic signal records by the frame. The manual gives no order:
DESIGN CHOICE, unsafe (log entry 41). -/
def acceptPosition (r : PositionReport) (s : State) : State :=
  let was := s.landingCondition r.winder
  let s := writeRecords r.winder (some (carryingOf r)) (some (counterweightOf r)) s
  let s := recordChange was r.winder s
  if s.hasGates then autoPosition r (callPosition r (signalPosition r s)) else s

/-- R35: the Picture Store takes a POSITION. -/
def takePosition (r : PositionReport) (s : State) : State := if s.acceptsPosition r then acceptPosition r s else s

/-- R37: the record is CURRENT and its age has reached its staleness time. -/
def Carrying.over (r : Carrying) : Bool := r.current && decide (r.staleness ≤ r.age)

/-- A carrying record gone STALE keeps its fields (R34). -/
def Carrying.stale (r : Carrying) : Carrying := { r with current := false }

/-- A counterweight record gone STALE keeps its fields (R34). -/
def Counterweight.stale (r : Counterweight) : Counterweight := { r with current := false }

/-- R37: the two records of a winder expire together, and each block acts on it. Table 10-2: a served winder's carrying
record going STALE raises PICTURE STALE. -/
def expireRecord (w : Winder) (s : State) : State :=
  let was := s.landingCondition w
  let s := writeRecords w (s.picture.carrying[w].map Carrying.stale) (s.picture.counterweight[w].map Counterweight.stale) s
  let s := if s.serves w then raise .pictureStale s else s
  recordChange was w s

/-- CONVEYANCE_RECORD_EXPIRY (R37). -/
def execConveyanceRecordExpiry (w : Winder) (s : State) : Answer :=
  act (fun s => if s.working && s.picture.carrying[w].any Carrying.over then expireRecord w s else s) s

/-! The station table (R40 to R45) -/

/-- The entry of a station takes a value. -/
def setEntry (n : Station) (e : StationEntry) (s : State) : State :=
  s.setStations { s.stations with entries := put s.stations.entries n e }

/-- R42: the entry that an ASSENT writes. -/
def assentEntry (r : AssentReport) (e : StationEntry) : StationEntry :=
  { state := .current
    role := if isLandingRole e.role then e.role else some .landing
    level := some r.level
    served := if isLandingRole e.role then e.served else none
    clear := r.clear
    hold := r.hold
    estop := r.estop
    lineDegraded := r.lineDegraded
    relayDrop := r.relayDrop
    age := 0 }

/-- R41: the role, level depth and served set that an ANNOUNCE writes. -/
def announceFields (body : AnnounceBody) (e : StationEntry) : StationEntry :=
  match body with
  | .drum _ => { e with role := some .drum, level := none, served := none }
  | .landing ws l => { e with role := some .landing, level := some l, served := some ws }
  | .loading ws l => { e with role := some .loading, level := some l, served := some ws }

/-- R41: the entry that an ANNOUNCE writes. -/
def announceEntry (body : AnnounceBody) (e : StationEntry) : StationEntry :=
  let e := announceFields body e
  if e.state = .unknown then { e with state := .stale } else e

/-- The hold set of the drum changes. -/
def setHoldSet (t : StationSet) (s : State) : State := s.setStations { s.stations with holdSet := t }

/-- R47: the origin of an ASSENT joins the hold set: HOLD is raised if the set was empty (Table 10-2), and the trip acts by
R116. -/
def joinHold (n : Station) (s : State) : State :=
  let empty := s.stations.holdSet == 0
  let s := setHoldSet (stationJoin s.stations.holdSet n) s
  holdJoined (if empty then raise .hold s else s)

/-- R47: the hold set after an ASSENT. -/
def judgeHold (n : Station) (hold : Bool) (s : State) : State :=
  if hold then if stationIn s.stations.holdSet n then s else joinHold n s
  else if stationIn s.stations.holdSet n then setHoldSet (stationLeave s.stations.holdSet n) s
  else s

/-- R46: an ASSENT showing ESTOP delivers ESTOP_REMOTE, unless the served set is stated and does not name the drum's winder. -/
def judgeEstop (n : Station) (s : State) : State :=
  let e := s.stations.entries[n]
  if e.estop && e.mayServe s.cfg.winder then deliver { kind := .estopRemote, origin := some n } s else s

/-- R42, R46, R47, R45: the Picture Store of a drum takes an ASSENT: the entry, the hold set, the ESTOP flag, the path. -/
def takeAssent (n : Station) (r : AssentReport) (s : State) : State :=
  evaluatePath (judgeEstop n (judgeHold n r.hold (setEntry n (assentEntry r s.stations.entries[n]) s)))

/-- R41, R45: the Picture Store of a drum takes an ANNOUNCE. -/
def takeAnnounce (n : Station) (body : AnnounceBody) (s : State) : State :=
  evaluatePath (setEntry n (announceEntry body s.stations.entries[n]) s)

/-- R43: the entry is CURRENT and its age has reached 3,000 ms. -/
def StationEntry.over (e : StationEntry) : Bool := e.state == .current && decide (Config.entryStaleness ≤ e.age)

/-- R43, R45: an entry becomes STALE. Table 10-2: a holder's entry going STALE raises STALE HOLDER. -/
def expireEntry (n : Station) (s : State) : State :=
  let s := setEntry n { s.stations.entries[n] with state := .stale } s
  evaluatePath (if stationIn s.stations.holdSet n then raise .staleHolder s else s)

/-- STATION_ENTRY_EXPIRY (R43). -/
def execStationEntryExpiry (n : Station) (s : State) : Answer :=
  act (fun s => if s.isDrum && s.working && s.stations.entries[n].over then expireEntry n s else s) s

/-- R48: the hold set without the stations whose entries are STALE. -/
def State.withoutStale (s : State) : StationSet :=
  stationNumbers.foldl (fun t n => if s.stations.entries[n].state = .stale then stationLeave t n else t) s.stations.holdSet

/-- R48, R45: a press of the hold-override key. -/
def overrideHolds (s : State) : State :=
  if s.staleHolder then evaluatePath (setHoldSet s.withoutStale s) else s

/-- HOLD_OVERRIDE_KEY (R48). -/
def execHoldOverrideKey (s : State) : Answer := act (fun s => if s.isDrum && s.working then overrideHolds s else s) s

end Sys2Proof.Machine
end

