-- ==== Sys2Proof/WellFormed.lean ====
section
/-! DEFINITION. Sys2Proof/WellFormed.lean: what a command must hold beyond what its type says. -/
namespace Sys2Proof

/-- A POSITION speed is −32,767 to +32,767 mm/s; −32,768 is not listed in Table 1-3 (R12). -/
def PositionReport.wellFormed (r : PositionReport) : Bool :=
  decide (-32767 ≤ r.speed) && decide (r.speed ≤ 32767)

/-- A payload whose fields all hold values that Table 1-3 lists. -/
def Payload.wellFormed : Payload → Bool
  | .position r => r.wellFormed
  | _ => true

/-- A frame whose fields all hold values that Table 1-3 lists. -/
def Frame.wellFormed (f : Frame) : Bool := f.payload.wellFormed

/-- A command the outside can give: the record read is 256 bytes, so 2,048 levels (R180); a bit time of a COLLISION lies within the longest
frame, 432 bit times (Table 1-2); a POSITION's speed is one the frame can carry. -/
def Instr.wellFormed : Instr → Bool
  | .recordReadComplete levels => levels.length == 2048
  | .collision _ bitTime _ => decide (bitTime < 432)
  | .positionTaken _ r => r.wellFormed
  | _ => true

end Sys2Proof
end

