-- ==== Sys2Proof/Machine/Line.lean ====
section
/-! DEFINITION. Sys2Proof/Machine/Line.lean: the line ports, the Frame Handler and the Relay Unit (R1 to R33), and the entry to
LISTEN-ONLY (R185). -/
namespace Sys2Proof.Machine

/-! Entry to LISTEN-ONLY (R185) -/

/-- R8, R16: a port's attempt ends with the line released, and its transmit queue is emptied. -/
def Port.emptied (x : Port) : Port := { x with attempt := none, tx := { x.tx with entries := [] } }

/-- R8, R16, R32: every attempt ends and every transmit and relay queue is emptied; the drop flags stand. -/
def emptyQueues (s : State) : State :=
  let s := (s.setPort .a s.portA.emptied).setPort .b s.portB.emptied
  s.setRelay { s.relay with up := { s.relay.up with entries := [] }, down := { s.relay.down with entries := [] } }

/-- R185: the station enters LISTEN-ONLY from LISTEN or RUN, and the blocks act on the entry. -/
def enterListenOnly (s : State) : State :=
  if s.phase = .listen ∨ s.phase = .run then
    let s := emptyQueues (s.setLoader { s.loader with phase := .listenOnly, listenMs := none })
    endDischarge false (gatesLoseLine (lineLost s))
  else s

/-! The Relay Unit (R22 to R29) -/

/-- The port on the far segment. -/
def farPort : PortId → PortId
  | .a => .b
  | .b => .a

/-- R23, Table 2-1: the downward forwarding set. -/
def forwardedDown (reach : WinderSet) : Payload → Bool
  | .halt .. => true
  | .position r => winderIn reach r.winder
  | .winding r => winderIn reach r.winder
  | .announce (.drum _) _ _ => true
  | _ => false

/-- R22, R23: a frame that arrived on a port lies in the forwarding set of its direction. -/
def State.inForwardingSet (s : State) (p : PortId) (f : Frame) : Bool :=
  match p with
  | .a => forwardedDown s.cfg.reach f.payload
  | .b => true

/-- R24: the forwarded copy. -/
def Frame.forwarded (f : Frame) : Frame := { f with hop := f.hop + 1 }

/-- R29: the drop flag of the direction that feeds a port. -/
def State.dropFlag (s : State) (p : PortId) : Bool :=
  match p with
  | .a => s.relay.upDrop
  | .b => s.relay.downDrop

/-- The drop flag of the direction that feeds a port is set. -/
def setDropFlag (p : PortId) (s : State) : State :=
  match p with
  | .a => s.setRelay { s.relay with upDrop := true }
  | .b => s.setRelay { s.relay with downDrop := true }

/-- R29: a loss latches the drop flag of its direction; the latching raises RELAY DROP (Table 10-2). -/
def latchDrop (p : PortId) (s : State) : State :=
  if s.dropFlag p then s else raise .relayDrop (setDropFlag p s)

/-- R26 to R28: a copy is placed in the relay queue that feeds a port. -/
def placeCopy (p : PortId) (f : Frame) (s : State) : State :=
  let r := (s.relayQueue p).takeIn (sameRelayed f) f 0
  let s' := s.setRelayQueue p r.1
  if r.2 then latchDrop p s' else s'

/-- R22 to R25: the Relay Unit of a repeater takes a frame that arrived on port p. -/
def relayFrame (p : PortId) (f : Frame) (s : State) : State :=
  if s.cfg.repeater && (s.phase == .listen || s.phase == .run) && s.inForwardingSet p f then
    if f.hop < 3 then placeCopy (farPort p) (Frame.forwarded f) s else raise .hopDrop s
  else s

/-! Taking a frame (R13) -/

/-- Table 1-5, the SIGNAL row: the word says what the Trip Controller does. -/
def takeSignal (origin dest : Station) (cls : TripClass) (word : SignalWord) (auto : Bool) (s : State) : State :=
  match word with
  | .go => takeGo origin dest cls auto s
  | .stop => takeStop s
  | .cancel => takeCancel origin s

/-- Table 1-5, the CALL row. -/
def takeCall (origin : Station) (cls : TripClass) (word : CallWord) (s : State) : State :=
  match word with
  | .register => takeRegister origin cls s
  | .cancel => takeCallCancel origin s

/-- Table 1-5, the DRUM column. -/
def deliverToDrum (f : Frame) (s : State) : State :=
  match f.payload with
  | .halt ws reason => if winderIn ws s.cfg.winder then takeHalt f.origin reason s else s
  | .signal w dest cls word auto => if w = s.cfg.winder then takeSignal f.origin dest cls word auto s else s
  | .winding _ => s
  | .position r => takePosition r s
  | .assent r => takeAssent f.origin r s
  | .mark w d => if w = s.cfg.winder then takeMark d s else s
  | .call w cls word => if w = s.cfg.winder then takeCall f.origin cls word s else s
  | .announce body _ _ => takeAnnounce f.origin body s

/-- Table 1-5, the LANDING and LOADING columns. -/
def deliverToLanding (f : Frame) (s : State) : State :=
  match f.payload with
  | .winding r => sequencerReport r (signalReport r s)
  | .position r => takePosition r s
  | _ => s

/-- Table 1-5: the Frame Handler delivers a frame taken to the blocks of the station's role. -/
def deliverFrame (f : Frame) (s : State) : State :=
  if s.isDrum then deliverToDrum f s else if s.hasGates then deliverToLanding f s else s

/-- R13: the port completed the transmission of this very frame, or is reading back its last bits. -/
def Port.ownReadback (x : Port) (f : Frame) : Bool :=
  x.completed == some f || x.attempt.any (fun a => a.frame == f)

/-- R13: a good frame received on a port. -/
def receiveGood (p : PortId) (f : Frame) (s : State) : State :=
  let x := s.port p
  if x.ownReadback f then s.setPort p { x with completed := none }
  else if !s.working then s
  else if f.origin = s.cfg.station then enterListenOnly s
  else deliverFrame f (relayFrame p f s)

/-- R12, R13: a frame whose check characters agree, received on a port in use: taken if it passes the format check, counted as
FORMAT if not. -/
def receiveFrame (h : Heading) (payload : Payload) (s : State) : State :=
  if s.uses h.port then
    if (frameOf h payload).wellFormed then receiveGood h.port (frameOf h payload) s else countError h.port s
  else s

/-- The commands that give a frame received, by kind: what each does is `receiveFrame` of that kind's payload. -/
def frameTaken (h : Heading) (payload : Payload) (s : State) : Answer := act (receiveFrame h payload) s

/-- HALT_TAKEN (R13, R22, R166). -/
def execHaltTaken (h : Heading) (ws : WinderSet) (reason : HaltReason) (s : State) : Answer :=
  frameTaken h (.halt ws reason) s

/-- SIGNAL_GO (R13, R22, R97). -/
def execSignalGo (h : Heading) (w : Winder) (dest : Station) (cls : TripClass) (auto : Bool) (s : State) : Answer :=
  frameTaken h (.signal w dest cls .go auto) s

/-- SIGNAL_STOP (R13, R22, R95). -/
def execSignalStop (h : Heading) (w : Winder) (dest : Station) (cls : TripClass) (auto : Bool) (s : State) : Answer :=
  frameTaken h (.signal w dest cls .stop auto) s

/-- SIGNAL_CANCEL (R13, R22, R95). -/
def execSignalCancel (h : Heading) (w : Winder) (dest : Station) (cls : TripClass) (auto : Bool) (s : State) : Answer :=
  frameTaken h (.signal w dest cls .cancel auto) s

/-- CALL_REGISTER (R13, R22, R120). -/
def execCallRegister (h : Heading) (w : Winder) (cls : TripClass) (s : State) : Answer :=
  frameTaken h (.call w cls .register) s

/-- CALL_CANCEL (R13, R22, R121). -/
def execCallCancel (h : Heading) (w : Winder) (cls : TripClass) (s : State) : Answer :=
  frameTaken h (.call w cls .cancel) s

/-- POSITION_TAKEN (R13, R22, R35). -/
def execPositionTaken (h : Heading) (r : PositionReport) (s : State) : Answer := frameTaken h (.position r) s

/-- ASSENT_TAKEN (R13, R22, R42). -/
def execAssentTaken (h : Heading) (r : AssentReport) (s : State) : Answer := frameTaken h (.assent r) s

/-- ANNOUNCE_TAKEN (R13, R22, R41). -/
def execAnnounceTaken (h : Heading) (body : AnnounceBody) (segment : Segment) (digest : Digest) (s : State) : Answer :=
  frameTaken h (.announce body segment digest) s

/-- MARK_TAKEN (R13, R22, R65). -/
def execMarkTaken (h : Heading) (w : Winder) (surveyed : Depth) (s : State) : Answer := frameTaken h (.mark w surveyed) s

/-- WINDING_TAKEN (R13, R22, R140, R155, R157). -/
def execWindingTaken (h : Heading) (r : WindingReport) (s : State) : Answer := frameTaken h (.winding r) s

/-! The candidate (R5, R6) -/

/-- R5: the candidate of a port: whether it stands in the relay queue, and the entry. -/
def State.candidate (s : State) (p : PortId) : Option (Bool × Entry) :=
  match (s.port p).tx.head, (s.relayQueue p).head with
  | some t, some r => if r.gap < t.gap then some (true, r) else some (false, t)
  | some t, none => some (false, t)
  | none, some r => some (true, r)
  | none, none => none

/-- The queue in which an entry of a port stands changes. -/
def changeQueue (p : PortId) (relayed : Bool) (f : Queue → Queue) (s : State) : State :=
  if relayed then s.setRelayQueue p (f (s.relayQueue p))
  else s.setPort p { s.port p with tx := f (s.port p).tx }

/-- R6: the line became BUSY by a dominant level that the port did not drive: its candidate is deferred. -/
def deferCandidate (p : PortId) (s : State) : State :=
  match s.candidate p with
  | some (relayed, e) => changeQueue p relayed (fun q => q.defer e.order) s
  | none => s

/-- The line of a port shows a dominant level: BUSY, the count of recessive bit times cleared (R4). -/
def Port.dominant (x : Port) : Port := { x with line := .busy, recessive := 0 }

/-- R4, R6: a dominant level has been seen on the line of a port. The candidate of an IDLE line is deferred, unless the port
itself is sending. -/
def lineBusy (p : PortId) (s : State) : State :=
  let x := s.port p
  let s := if x.line = .idle ∧ x.attempt = none then deferCandidate p s else s
  s.setPort p (s.port p).dominant

/-! Frame assembly (R11, R12) -/

/-- The assembly of a port takes a state. -/
def setAssembly (p : PortId) (a : Assembly) (s : State) : State := s.setPort p { s.port p with assembly := a }

/-- R11: the length due of a frame whose first character is held. -/
def lengthDue (chars : List Byte) : Nat :=
  match chars with
  | [] => 0
  | c :: _ => (kindOfChar0 c).frameLength

/-- R12: a frame of its due length is checked: its CRC, then its format. -/
def checkFrame (p : PortId) (chars : List Byte) (s : State) : State :=
  if crcAgrees chars then
    match Frame.parse (chars.take (chars.length - 2)) with
    | some f => receiveGood p f s
    | none => countError p s
  else countError p s

/-- Table 1-4: a good character whose heading mark is 0, in ASSEMBLING. -/
def appendChar (p : PortId) (chars : List Byte) (b : Byte) (s : State) : State :=
  let chars := chars ++ [b]
  if lengthDue chars ≤ chars.length then checkFrame p chars (setAssembly p .wait s)
  else setAssembly p (.assembling chars) s

/-- Table 1-4: the frame assembly takes a character. -/
def assemble (p : PortId) (o : CharOutcome) (s : State) : State :=
  match o, (s.port p).assembly with
  | .falseStart, _ => s
  | .good b true, .assembling _ => setAssembly p (.assembling [b]) (countError p s)
  | .good b true, _ => setAssembly p (.assembling [b]) s
  | .good _ false, .wait => setAssembly p .skip (countError p s)
  | .good b false, .assembling chars => appendChar p chars b s
  | .good _ false, .skip => s
  | .parityError, .skip => s
  | .parityError, _ => setAssembly p .skip (countError p s)
  | .framingError, .skip => s
  | .framingError, _ => setAssembly p .skip (countError p s)

/-- R3: the character engine reads one character's 12 bit times, while it waits for a start bit. A dominant level opened it,
so the line is BUSY, and its stop bit or that level begins the recessive count anew (R4). -/
def receiveChar (p : PortId) (r : CharReading) (s : State) : State :=
  let o := readChar r
  let s := lineBusy p s
  let s := s.setPort p { s.port p with engine := if o = .framingError then .afterFraming else .waiting }
  assemble p o s

/-- CHARACTER_RECEIVED (R3, R11). After FRAMING the engine reads nothing until a whole recessive bit time has passed. -/
def execCharacterReceived (p : PortId) (r : CharReading) (s : State) : Answer :=
  act (fun s => if s.uses p ∧ (s.port p).engine = .waiting then receiveChar p r s else s) s

/-! Line state and access (R4 to R8) -/

/-- R4: the line of a port becomes IDLE, `surplus` bit times ago. -/
def Port.becomesIdle (x : Port) (surplus : Nat) : Port :=
  { x with line := .idle, recessive := Config.idleBitTimes, idleCount := surplus, completed := none }

/-- R4, Table 1-4: the line becomes IDLE; a frame in assembly is discarded as TRUNCATED. -/
def lineIdle (p : PortId) (surplus : Nat) (s : State) : State :=
  let a := (s.port p).assembly
  let s := setAssembly p .wait (s.setPort p ((s.port p).becomesIdle surplus))
  match a with
  | .assembling _ => countError p s
  | _ => s

/-- R4: `n` recessive bit times have ended on a port that is not sending. A BUSY line counts them, and is IDLE from the
twelfth, with an idle count of those after it; an IDLE line adds them to its idle count. -/
def countRecessive (p : PortId) (n : Nat) (s : State) : State :=
  let x := s.port p
  match x.line with
  | .busy =>
    if x.recessive + n < Config.idleBitTimes then s.setPort p { x with recessive := x.recessive + n }
    else lineIdle p (x.recessive + n - Config.idleBitTimes) s
  | .idle => s.setPort p { x with idleCount := x.idleCount + n }

/-- R3, R4: `n` recessive bit times have ended on the line of a port. One of them lets the character engine wait for a start
bit again. A port that is sending counts none: its line stays BUSY to the end of the attempt. -/
def passBitTimes (p : PortId) (n : Nat) (s : State) : State :=
  let s := if 0 < n then s.setPort p { s.port p with engine := .waiting } else s
  if (s.port p).attempt = none then countRecessive p n s else s

/-- LINE_BECOMES_IDLE (R4, R11): the recessive bit times that have ended on a port since the last command there. -/
def execLineBecomesIdle (passed : BitTimes) (s : State) : Answer :=
  act (fun s => if s.uses passed.port then passBitTimes passed.port passed.count s else s) s

/-- RECESSIVE_BIT_TIME_AFTER_FRAMING (R3, R4): one recessive bit time has ended. -/
def execRecessiveBitTimeAfterFraming (p : PortId) (s : State) : Answer :=
  act (fun s => if s.uses p ∧ (s.port p).engine = .afterFraming then passBitTimes p 1 s else s) s

/-- LINE_BECOMES_BUSY (R4, R6). -/
def execLineBecomesBusy (p : PortId) (s : State) : Answer :=
  act (fun s => if s.uses p then lineBusy p s else s) s

/-- R7, R17: an attempt begins: the entry is sending, its replaced flag cleared. -/
def Entry.beginsSending (e : Entry) : Entry := { e with sending := true, replaced := false }

/-- The attempt that sends an entry. -/
def attemptOf (relayed : Bool) (e : Entry) : Attempt where
  relayed := relayed
  order := e.order
  frame := e.frame
  stamp := e.stamp

/-- R5: the port may begin to transmit: in LISTEN or RUN, the line IDLE, no attempt in progress. -/
def State.maySend (s : State) (p : PortId) : Bool :=
  (s.phase == .listen || s.phase == .run) && (s.port p).line == .idle && (s.port p).attempt.isNone

/-- R5: the port begins to transmit its candidate once the idle count is not less than its gap. -/
def startSending (p : PortId) (s : State) : State :=
  match s.candidate p with
  | some (relayed, e) =>
    if s.maySend p ∧ e.gap ≤ (s.port p).idleCount then
      let s := changeQueue p relayed (fun q => q.update e.order Entry.beginsSending) s
      s.setPort p { (s.port p).dominant with attempt := some (attemptOf relayed e), completed := none }
    else s
  | none => s

/-- TRANSMISSION_START (R4, R5): `bitTimes` recessive bit times have ended since the last command on this port; at this bit
boundary the port begins its candidate, if R5 lets it. -/
def execTransmissionStart (p : PortId) (bitTimes : Nat) (s : State) : Answer :=
  act (fun s => if s.uses p then startSending p (passBitTimes p bitTimes s) else s) s

/-- R7: an attempt has ended in collision for the entry. -/
def Entry.collides (e : Entry) : Entry := { e with sending := false, collisions := e.collisions + 1 }

/-- R7: the collision count of the entry of an order. -/
def Queue.collisionsOf (q : Queue) (order : Nat) : Nat :=
  match q.entries.find? (fun e => e.order == order) with
  | some e => e.collisions
  | none => 0

/-- The queue of an attempt. -/
def State.queueOf (s : State) (p : PortId) (relayed : Bool) : Queue :=
  if relayed then s.relayQueue p else (s.port p).tx

/-- R7: a collision ends the attempt; at 16 collisions the station enters LISTEN-ONLY. -/
def collide (p : PortId) (a : Attempt) (s : State) : State :=
  let s := s.setPort p { s.port p with attempt := none }
  let s := changeQueue p a.relayed (fun q => q.update a.order Entry.collides) s
  if Config.collisionLimit ≤ (s.queueOf p a.relayed).collisionsOf a.order then enterListenOnly s else s

/-- R7: a bit of the frame being sent has been read back; a bit that differs is a collision. -/
def readBack (p : PortId) (bitTime : Nat) (r : BitReading) (s : State) : State :=
  match (s.port p).attempt with
  | some a =>
    match a.frame.bits[bitTime]? with
    | some sent => if readBit r ≠ sent then collide p a s else s
    | none => s
  | none => s

/-- COLLISION (R7): the bit read back at a bit time of the frame differs from the bit sent. -/
def execCollision (p : PortId) (bitTime : Nat) (r : BitReading) (s : State) : Answer :=
  act (fun s => if s.uses p then readBack p bitTime r s else s) s

/-- R8: the entry after its attempt completed, if it was replaced meanwhile. -/
def Entry.completes (e : Entry) : Entry := { e with sending := false, collisions := 0 }

/-- R8: a completed transmission removes the entry, unless it was replaced during the attempt. -/
def Queue.complete (q : Queue) (order : Nat) : Queue :=
  if q.entries.any (fun e => e.order == order && e.replaced) then q.update order Entry.completes else q.remove order

/-- R156: the first completed transmission on Port A of an ASSENT originated at or after the entry to LOADED sets the send
mark; then the conditions of the automatic GO are judged. -/
def markSent (p : PortId) (a : Attempt) (s : State) : State :=
  if p = .a ∧ a.relayed = false ∧ a.frame.kind = .assent ∧ s.seq.cycle = .loaded ∧ s.seq.sendAfter ≤ a.stamp then
    judgeGo (s.setSeq { s.seq with sendMark := true })
  else s

/-- R8: the attempt of a port completes. -/
def completeAttempt (p : PortId) (a : Attempt) (s : State) : State :=
  let s := s.setPort p { s.port p with attempt := none, completed := some a.frame }
  markSent p a (changeQueue p a.relayed (fun q => q.complete a.order) s)

/-- TRANSMISSION_COMPLETE (R8): the last check character has been read back as sent. -/
def execTransmissionComplete (p : PortId) (s : State) : Answer :=
  act (fun s =>
    match (s.port p).attempt with
    | some a => completeAttempt p a s
    | none => s) s

/-! The error window (R14) -/

/-- R14: the pointer moves to the next bucket, which is cleared. -/
def Port.advance (x : Port) : Port := { x with pointer := x.pointer + 1, buckets := put x.buckets (x.pointer + 1) 0 }

/-- ERROR_WINDOW_ADVANCE (R14): 1,000 ms of the timebase; each port's window moves on. -/
def execErrorWindowAdvance (s : State) : Answer :=
  act (fun s =>
    ((s.setPort .a s.portA.advance).setPort .b s.portB.advance).setClock { s.clock with windowMs := 0 }) s

end Sys2Proof.Machine
end

