-- ==== Sys2Proof/Machine/Record.lean ====
section
/-! DEFINITION. Sys2Proof/Machine/Record.lean: the configuration record (Table 11-1): the checks of R181 and the defaults and
clamps of R182. A field that the station's role does not use keeps the value of `Params.reset`; no rule reads it. -/
namespace Sys2Proof.Machine

/-- A field brought into range, and whether it was clamped (R182). -/
abbrev Ranged (α : Type) := α × Bool

/-- A numeric field clamped to the nearer bound of its range. -/
def clampField (lo hi v : Nat) : Ranged Nat :=
  if v < lo then (lo, true) else if hi < v then (hi, true) else (v, false)

/-- R182: the bytes of a field all hold 0xFF. -/
def erased (b : List Byte) (i n : Nat) : Bool := ((b.drop i).take n).all (fun x => x == 0xFF#8)

/-- R182: a parameter of Table 11-2: its default if erased, else clamped. -/
def paramField (b : List Byte) (i n lo hi dflt : Nat) : Ranged Nat :=
  if erased b i n then (dflt, false) else clampField lo hi (field b i n)

/-- A field used by some roles alone. -/
def usedField {α : Type} (used : Bool) (x : Ranged α) (ignored : α) : Ranged α := if used then x else (ignored, false)

/-- A depth field of three bytes. -/
def depthField (b : List Byte) (i : Nat) : Ranged Depth :=
  (clampDepth (field b i 3), decide (4194303 < field b i 3))

/-- A winder or line rate code of one byte. -/
def smallField (b : List Byte) (i : Nat) : Ranged (Fin 4) :=
  if h : field b i 1 < 4 then (⟨field b i 1, h⟩, false) else (3, true)

/-- R21, R182: the segment, at most 2 in a repeater. -/
def segmentField (repeater : Bool) (b : List Byte) : Ranged Segment :=
  if repeater && decide (2 < field b 5 1) then (2, true) else smallField b 5

/-- A partner station of one byte. -/
def stationField (b : List Byte) (i : Nat) : Ranged Station :=
  if h : field b i 1 < 64 then (⟨field b i 1, h⟩, false) else (63, true)

/-- A winder set of one byte, its spare bits ignored. -/
def winderSetField (b : List Byte) (i : Nat) : WinderSet := BitVec.ofNat 4 (field b i 1)

/-- A two's complement field of 8n bits. -/
def signedField (b : List Byte) (i n : Nat) : Int := (BitVec.ofNat (8 * n) (field b i n)).toInt

/-- Correction entry k, clamped to −4,095 to +4,095. -/
def correctionField (b : List Byte) (k : Nat) : Ranged Int :=
  let v := signedField b (126 + 2 * k) 2
  (clampInt (-4095) 4095 v, decide (v < -4095) || decide (4095 < v))

/-- A bit of the straps byte. -/
def strap (b : List Byte) (k : Nat) : Bool := (field b 4 1).testBit k

/-- Table 11-1 byte 2. -/
def recordRole (b : List Byte) : Option Role :=
  match field b 2 1 with
  | 1 => some .drum
  | 2 => some .landing
  | 3 => some .loading
  | _ => none

/-- R181: the CRC over bytes 0 to 253 is the one held in bytes 254 and 255. -/
def recordCrcAgrees (b : List Byte) : Bool := (crc16 (b.take 254)).toNat == field b 254 2

/-- R182: the fields of a record of a station number and role, brought into range, and whether any was clamped. -/
def recordParams (b : List Byte) (station : Station) (role : Role) : Ranged Params :=
  let d := Params.reset
  let repeater := strap b 0
  let drum := role == .drum
  let gates := !drum
  let loading := role == .loading
  let tip := role == .landing && strap b 1
  let drumParam (i n lo hi dflt : Nat) : Ranged Nat := usedField drum (paramField b i n lo hi dflt) dflt
  let winder := usedField drum (smallField b 3) d.winder
  let segment := segmentField repeater b
  let rate := smallField b 7
  let level := usedField gates (depthField b 8) d.level
  let landingHw := paramField b 11 2 10 1000 150
  let m0 := usedField gates (depthField b 13) 0
  let m1 := usedField gates (depthField b 16) 0
  let m2 := usedField gates (depthField b 19) 0
  let m3 := usedField gates (depthField b 22) 0
  let tipWinder := usedField (loading || tip) (smallField b 26) d.tipWinder
  let tipPartner := usedField loading (stationField b 27) d.tipPartner
  let loadingPartner := usedField tip (stationField b 28) d.loadingPartner
  let dwell := usedField tip (paramField b 29 1 2 30 8) d.dwell
  let doorTimeout := usedField loading (paramField b 30 1 2 60 10) d.doorTimeout
  let vCreep := drumParam 39 2 50 2000 500
  let aRet := drumParam 41 2 100 2000 800
  let vMen := drumParam 43 2 100 18000 12000
  let vMat := drumParam 45 2 100 18000 15000
  let vOre := drumParam 47 2 100 20000 18000
  let vInsp := drumParam 49 2 100 2000 1000
  let vCross := drumParam 51 2 0 20000 0
  let crossHw := drumParam 53 3 0 200000 20000
  let oAllow := drumParam 56 2 0 5000 500
  let pathGuard := drumParam 58 2 0 20000 2000
  let disagreeLim := drumParam 60 2 200 2000 1000
  let vLearn := drumParam 62 2 0 5000 1500
  let armTimeout := drumParam 64 2 10 300 60
  let callLife := drumParam 66 1 1 60 15
  let cwSum := drumParam 67 3 0 8388607 4194303
  let topLimit := drumParam 70 3 0 4194303 0
  let bottomLimit := drumParam 73 3 0 4194303 4194303
  let upc := drumParam 76 2 10 10000 1000
  let corrections := Vector.ofFn (fun k : Fin 64 => usedField drum (correctionField b k.val) 0)
  let clamped :=
    winder.2 || segment.2 || rate.2 || level.2 || landingHw.2 || m0.2 || m1.2 || m2.2 || m3.2 || tipWinder.2 ||
      tipPartner.2 || loadingPartner.2 || dwell.2 || doorTimeout.2 || vCreep.2 || aRet.2 || vMen.2 || vMat.2 || vOre.2 ||
      vInsp.2 || vCross.2 || crossHw.2 || oAllow.2 || pathGuard.2 || disagreeLim.2 || vLearn.2 || armTimeout.2 ||
      callLife.2 || cwSum.2 || topLimit.2 || bottomLimit.2 || upc.2 || corrections.toList.any (·.2)
  ({ station := station
     role := some role
     winder := winder.1
     repeater := repeater
     tipFlag := strap b 1
     carriesSkip := strap b 2
     inverted := strap b 3
     segment := segment.1
     reach := if repeater then winderSetField b 6 else d.reach
     rate := rate.1
     level := level.1
     landingHw := landingHw.1
     markers := #v[m0.1, m1.1, m2.1, m3.1]
     served := if gates then winderSetField b 25 else d.served
     tipWinder := tipWinder.1
     tipPartner := tipPartner.1
     loadingPartner := loadingPartner.1
     dwell := dwell.1
     doorTimeout := doorTimeout.1
     required := if drum then BitVec.ofNat 64 (field b 31 8) else d.required
     vCreep := vCreep.1
     aRet := aRet.1
     vMen := vMen.1
     vMat := vMat.1
     vOre := vOre.1
     vInsp := vInsp.1
     vCross := vCross.1
     crossHw := crossHw.1
     oAllow := oAllow.1
     pathGuard := pathGuard.1
     disagreeLim := disagreeLim.1
     vLearn := vLearn.1
     armTimeout := armTimeout.1
     callLife := callLife.1
     cwSum := cwSum.1
     topLimit := topLimit.1
     bottomLimit := bottomLimit.1
     upc := upc.1
     zeroOffset := if drum then signedField b 78 3 else d.zeroOffset
     corrections := corrections.map (·.1)
     digest := BitVec.ofNat 16 (field b 254 2) }, clamped)

/-- R181: the last two grounds of refusal, judged on the fields as brought into range. -/
def paramsRefused (c : Params) : Bool :=
  match c.role with
  | some .drum => decide (c.bottomLimit ≤ c.topLimit)
  | _ => c.served == 0

/-- R181: the record is accepted, with its fields and whether any was clamped, or refused. -/
def judgeRecord (b : List Byte) : Option (Ranged Params) :=
  if recordCrcAgrees b && field b 0 1 == 1 then
    match stationOf (field b 1 1), recordRole b with
    | some n, some role =>
      let x := recordParams b n role
      if paramsRefused x.1 then none else some x
    | _, _ => none
  else none

/-! The read over SPI (R180) -/

/-- R180: the levels of a byte on an SPI data line, most significant bit first; a bit of value 1 is the level `true`. -/
def spiLevels (b : Byte) : List Level :=
  [b.getLsbD 7, b.getLsbD 6, b.getLsbD 5, b.getLsbD 4, b.getLsbD 3, b.getLsbD 2, b.getLsbD 1, b.getLsbD 0]

/-- R180: the read command byte and the two address bytes, in the order sent. -/
def readCommand : List Byte := [0x03#8, 0x00#8, 0x00#8]

/-- The byte of a list of levels, the first the most significant. -/
def byteOfLevels (levels : List Level) : Byte := BitVec.ofNat 8 (levels.foldl (fun n b => 2 * n + bit b) 0)

/-- R180: `n` bytes clocked in from the data in line. -/
def clockIn : Nat → List Level → List Byte
  | 0, _ => []
  | n + 1, levels => byteOfLevels (levels.take 8) :: clockIn n (levels.drop 8)

/-- R180: the 256 bytes that the levels of the data in line make; a memory that answers no more delivers bytes of 0xFF. -/
def recordBuffer (levels : List Level) : List Byte := clockIn 256 (levels ++ List.replicate 2048 true)

end Sys2Proof.Machine
end

