-- ==== Sys2Proof/Machine/Start.lean ====
section
/-! DEFINITION. Sys2Proof/Machine/Start.lean: power, reset, the record, and the phases (R180 to R185). -/
namespace Sys2Proof.Machine

/-- POWER_ON (R180): every piece of state takes its power-on value; the station is held in reset while the oscillator starts. The
manual does not say what follows where the reset pin is already held, or still held, as power comes on: the pin counts as
released from POWER_ON until a WARM_RESET, so that the oscillator's start alone holds the station: DESIGN CHOICE, unsafe (log entry
45). -/
def powerOnState (s : State) : State :=
  { State.reset with pending := s.pending, model := { State.reset.model with draws := s.model.draws } }

/-- POWER_ON (R180). -/
def execPowerOn (s : State) : Answer := .next (powerOnState s)

/-- R8: a port's attempt ends with the line released; its queue entry is kept. -/
def Port.released (x : Port) : Port := { x with attempt := none, tx := x.tx.endAttempts }

/-- R8: every attempt ends and no entry is sending. -/
def endAttempts (s : State) : State :=
  let s := (s.setPort .a s.portA.released).setPort .b s.portB.released
  s.setRelay { s.relay with up := s.relay.up.endAttempts, down := s.relay.down.endAttempts }

/-- POWER_LOSS (R8, section 11.5): attempts end, and the outputs stand as without power until the next power-on. -/
def execPowerLoss (s : State) : Answer :=
  let s := endAttempts s
  .next (s.setLoader { s.loader with powered := false, reading := false })

/-- R180, R163, R175: a reset ends: the read of the record begins, and the counts that start at the end of a reset start. -/
def endReset (s : State) : State :=
  (s.setLoader { s.loader with reading := true, buffer := [] }).setClock Clock.reset

/-- OSCILLATOR_START_EXPIRY (R180): the oscillator has run for 16,384 cycles. -/
def execOscillatorStartExpiry (s : State) : Answer :=
  if s.loader.powered && s.loader.oscillating then
    let s := s.setLoader { s.loader with oscillating := false }
    .next (if s.loader.pinHeld then s else endReset s)
  else .next s

/-- R72, R73, R126, Table 4-3: what a warm reset keeps: the accepted levels, the count and its channel state, the encoder
fault indication, the working zero offset and the table. The fields of the record accepted before stand until the next is
accepted, and with them the polarity by which R52 counts while the pin is held, through INIT, and in CONFIG_FAULT: DESIGN
CHOICE, unsafe (log entry 35). -/
def warmReset (s : State) : State :=
  { powerOnState s with
    cfg := s.cfg
    inputs := s.inputs
    loader := { Loader.reset with oscillating := s.loader.oscillating, pinHeld := true, loadDue := s.loader.loadDue }
    depth := { DepthUnit.reset with count := s.depth.count, channel := s.depth.channel, faultMs := s.depth.faultMs,
                                    zeroOffset := s.depth.zeroOffset, table := s.depth.table } }

/-- WARM_RESET (R180): the reset pin is held. -/
def execWarmReset (s : State) : Answer := if s.loader.powered then .next (warmReset s) else .next s

/-- RESET_PIN_RELEASE (R180). -/
def execResetPinRelease (s : State) : Answer :=
  if s.loader.powered && s.loader.pinHeld then
    let s := s.setLoader { s.loader with pinHeld := false }
    .next (if s.loader.oscillating then s else endReset s)
  else .next s

/-! The end of INIT (R181 to R183) -/

/-- R40: the drum's own entry at the end of INIT. -/
def ownEntry : StationEntry := { StationEntry.unknown with state := .stale, role := some .drum }

/-- R73: the zero offset and the correction table are loaded after a power-on; R69: the correction mode follows its input. -/
def depthEndsInit (s : State) : State :=
  let d := { s.depth with correctionOn := s.requestedMode }
  if s.loader.loadDue then
    (s.setDepth { d with zeroOffset := s.cfg.zeroOffset, table := s.cfg.corrections }).setLoader
      { s.loader with loadDue := false }
  else s.setDepth d

/-- R183: the drum's blocks at the end of INIT: the depth, the own entry, the first sample, the local emergency stop. R183 gives no
order: that the sample comes before the stop's cause is a DESIGN CHOICE, unsafe (log entry 42). -/
def drumEndsInit (s : State) : State :=
  let s := setEntry s.cfg.station ownEntry (depthEndsInit s)
  let s := sampleStep true s
  if s.inputs.localEstop then deliver (Cause.plain .estopLocal) s else s

/-- R183: the record is accepted: every block takes its fields, the rate changes, and the station enters LISTEN. -/
def acceptRecord (x : Ranged Params) (s : State) : State :=
  let s := { s with cfg := x.1 }
  let s := s.setLoader { s.loader with phase := .listen, listenMs := some 0, reading := false, clamped := x.2,
                                       rate := x.1.rate }
  let s := if s.isDrum then drumEndsInit s else s
  if x.2 then raise .configClamped s else s

/-- R181, R185, R169: the record is refused: CONFIG_FAULT, no field applied, CONFIG recorded after START. -/
def refuseRecord (s : State) : State :=
  let s := s.setLoader { s.loader with phase := .configFault, reading := false, clamped := false }
  deliver (Cause.plain .config) (emptyQueues s)

/-- R181: the record in the buffer is judged. -/
def readComplete (levels : List Level) (s : State) : State :=
  let b := recordBuffer levels
  let s := s.setLoader { s.loader with buffer := b }
  match judgeRecord b with
  | some x => acceptRecord x s
  | none => refuseRecord s

/-- RECORD_READ_COMPLETE (R180, R181), while the read is in progress: the levels sampled on the data in line. -/
def execRecordReadComplete (levels : List Level) (s : State) : Answer :=
  act (fun s => if s.loader.reading then readComplete levels s else s) s

/-! Entry to RUN (R183, R184) -/

/-- R184: the role with its winder, or its served set and level depth. -/
def State.announceBody (s : State) : AnnounceBody :=
  if s.isDrum then .drum s.cfg.winder
  else if s.isLoading then .loading s.cfg.served s.cfg.level
  else .landing s.cfg.served s.cfg.level

/-- R183, R184: the station enters RUN: ANNOUNCE, the gate records, the sequencer, the first ASSENT, REQUIRED STATION. -/
def enterRun (s : State) : State :=
  let s := s.setLoader { s.loader with phase := .run, listenMs := none }
  let s := originate (.announce s.announceBody s.cfg.segment s.cfg.digest) s
  let s := gatesEnterRun s
  let s := if s.hasSequencer then sequencerEntersRun s else s
  let s := originateAssent s
  if s.isDrum && s.anyMissing then raise .requiredStation s else s

/-- LISTEN_TIMER_EXPIRY (R183): the listen timer reaches 2,000 ms. -/
def execListenTimerExpiry (s : State) : Answer :=
  act (fun s => if s.phase = .listen ∧ reached s.loader.listenMs Config.listenTime then enterRun s else s) s

end Sys2Proof.Machine
end

