-- ==== Sys2Proof/Machine/Dispatch.lean ====
section
/-! DEFINITION. Sys2Proof/Machine/Dispatch.lean: what each command does to everything but the queue: one arm per row of
spec/opcode_table.json. -/
namespace Sys2Proof.Machine

def exec (i : Instr) (s : State) : Host.Outcome State Fault Refusal :=
  match i with
  | .powerOn => Sys2Proof.Machine.execPowerOn s
  | .powerLoss => Sys2Proof.Machine.execPowerLoss s
  | .oscillatorStartExpiry => Sys2Proof.Machine.execOscillatorStartExpiry s
  | .warmReset => Sys2Proof.Machine.execWarmReset s
  | .resetPinRelease => Sys2Proof.Machine.execResetPinRelease s
  | .recordReadComplete levels => Sys2Proof.Machine.execRecordReadComplete levels s
  | .listenTimerExpiry => Sys2Proof.Machine.execListenTimerExpiry s
  | .characterReceived p r => Sys2Proof.Machine.execCharacterReceived p r s
  | .lineBecomesIdle p => Sys2Proof.Machine.execLineBecomesIdle p s
  | .lineBecomesBusy p => Sys2Proof.Machine.execLineBecomesBusy p s
  | .transmissionStart p n => Sys2Proof.Machine.execTransmissionStart p n s
  | .collision p n r => Sys2Proof.Machine.execCollision p n r s
  | .transmissionComplete p => Sys2Proof.Machine.execTransmissionComplete p s
  | .errorWindowAdvance => Sys2Proof.Machine.execErrorWindowAdvance s
  | .haltTaken h ws reason => Sys2Proof.Machine.execHaltTaken h ws reason s
  | .signalGo h w dest cls auto => Sys2Proof.Machine.execSignalGo h w dest cls auto s
  | .signalStop h w dest cls auto => Sys2Proof.Machine.execSignalStop h w dest cls auto s
  | .signalCancel h w dest cls auto => Sys2Proof.Machine.execSignalCancel h w dest cls auto s
  | .callRegister h w cls => Sys2Proof.Machine.execCallRegister h w cls s
  | .callCancel h w cls => Sys2Proof.Machine.execCallCancel h w cls s
  | .positionTaken h r => Sys2Proof.Machine.execPositionTaken h r s
  | .conveyanceRecordExpiry w => Sys2Proof.Machine.execConveyanceRecordExpiry w s
  | .assentTaken h r => Sys2Proof.Machine.execAssentTaken h r s
  | .announceTaken h body seg dig => Sys2Proof.Machine.execAnnounceTaken h body seg dig s
  | .stationEntryExpiry n => Sys2Proof.Machine.execStationEntryExpiry n s
  | .holdOverrideKey => Sys2Proof.Machine.execHoldOverrideKey s
  | .encoderChannelChange a b => Sys2Proof.Machine.execEncoderChannelChange a b s
  | .encoderFaultClear => Sys2Proof.Machine.execEncoderFaultClear s
  | .sample first => Sys2Proof.Machine.execSample first s
  | .markTaken h w d => Sys2Proof.Machine.execMarkTaken h w d s
  | .correctionOffInputChange on => Sys2Proof.Machine.execCorrectionOffInputChange on s
  | .tableClearKey => Sys2Proof.Machine.execTableClearKey s
  | .armTimerExpiry => Sys2Proof.Machine.execArmTimerExpiry s
  | .autoEnableInputChange on => Sys2Proof.Machine.execAutoEnableInputChange on s
  | .autoStartPulseEnd => Sys2Proof.Machine.execAutoStartPulseEnd s
  | .callLifeExpiry n => Sys2Proof.Machine.execCallLifeExpiry n s
  | .localEstopInputChange on => Sys2Proof.Machine.execLocalEstopInputChange on s
  | .tripResetKey => Sys2Proof.Machine.execTripResetKey s
  | .gateSwitchChange w on => Sys2Proof.Machine.execGateSwitchChange w on s
  | .lockContactChange w on => Sys2Proof.Machine.execLockContactChange w on s
  | .lockSettleTimerExpiry w => Sys2Proof.Machine.execLockSettleTimerExpiry w s
  | .assentTimerExpiry => Sys2Proof.Machine.execAssentTimerExpiry s
  | .acknowledgeKey => Sys2Proof.Machine.execAcknowledgeKey s
  | .sendKey dest cls => Sys2Proof.Machine.execSendKey dest cls s
  | .stopKey dest cls => Sys2Proof.Machine.execStopKey dest cls s
  | .cancelKey dest cls => Sys2Proof.Machine.execCancelKey dest cls s
  | .callKey cls => Sys2Proof.Machine.execCallKey cls s
  | .windingTaken h r => Sys2Proof.Machine.execWindingTaken h r s
  | .replyTimerExpiry => Sys2Proof.Machine.execReplyTimerExpiry s
  | .holdSwitchChange on => Sys2Proof.Machine.execHoldSwitchChange on s
  | .emergencyStopKeyChange on => Sys2Proof.Machine.execEmergencyStopKeyChange on s
  | .markerInputChange w on => Sys2Proof.Machine.execMarkerInputChange w on s
  | .flaskFullChange on => Sys2Proof.Machine.execFlaskFullChange on s
  | .flaskEmptyChange on => Sys2Proof.Machine.execFlaskEmptyChange on s
  | .doorClosedChange on => Sys2Proof.Machine.execDoorClosedChange on s
  | .spillageChange on => Sys2Proof.Machine.execSpillageChange on s
  | .doorTimerExpiry => Sys2Proof.Machine.execDoorTimerExpiry s
  | .autoInputChange on => Sys2Proof.Machine.execAutoInputChange on s
  | .autoReplyTimerExpiry => Sys2Proof.Machine.execAutoReplyTimerExpiry s
  | .retryTimerExpiry => Sys2Proof.Machine.execRetryTimerExpiry s
  | .dwellTimerExpiry => Sys2Proof.Machine.execDwellTimerExpiry s
  | .flashClockHalf => Sys2Proof.Machine.execFlashClockHalf s
  | .lampTestKeyChange on => Sys2Proof.Machine.execLampTestKeyChange on s
  | .darkInputChange on => Sys2Proof.Machine.execDarkInputChange on s
  | .strobePulseEnd => Sys2Proof.Machine.execStrobePulseEnd s
  | .winderSelectorChange w => Sys2Proof.Machine.execWinderSelectorChange w s
  | .recessiveBitTimeAfterFraming p => Sys2Proof.Machine.execRecessiveBitTimeAfterFraming p s

end Sys2Proof.Machine
end

