-- ==== Sys2Proof/Machine/Tick.lean ====
section
/-! DEFINITION. Sys2Proof/Machine/Tick.lean: one millisecond of the timebase: what the model does on an empty queue (log entry 1).
Every count of the manual that keeps the 1 ms timebase moves on; then the commands whose time has come join the queue. -/
namespace Sys2Proof.Machine

/-- A running timer counts one millisecond; a stopped one stays stopped. -/
def count (t : Option Nat) : Option Nat := t.map (· + 1)

/-- R37, R43: an age counts one millisecond, and stops at 65,535 ms. -/
def countAge (n : Nat) : Nat := min Config.maxAge (n + 1)

/-! What counts -/

/-- R37: the age of a heard carrying record. -/
def Carrying.tick (r : Carrying) : Carrying := { r with age := countAge r.age }

/-- R37: the age of a heard counterweight record. -/
def Counterweight.tick (r : Counterweight) : Counterweight := { r with age := countAge r.age }

/-- R38: a drum's own records keep age 0. -/
def State.ownRecord (s : State) (w : Fin 4) : Bool := s.isDrum && w == s.cfg.winder

/-- R37: the ages of the conveyance table. -/
def tickPicture (s : State) : Picture where
  carrying := Vector.ofFn (fun w => if s.ownRecord w then s.picture.carrying[w] else s.picture.carrying[w].map Carrying.tick)
  counterweight :=
    Vector.ofFn (fun w => if s.ownRecord w then s.picture.counterweight[w] else s.picture.counterweight[w].map Counterweight.tick)

/-- R43: the age of a station table entry; R40: the drum's own entry keeps its values. R43 counts from the last ASSENT and does
not say from when where none was taken: an entry made STALE by an ANNOUNCE counts from 0 at that ANNOUNCE on: DESIGN CHOICE, unsafe
(log entry 46). -/
def tickEntry (own : Station) (n : Station) (e : StationEntry) : StationEntry :=
  if e.state = .unknown ∨ n = own then e else { e with age := countAge e.age }

/-- R43: the ages of the station table. -/
def tickStations (s : State) : Stations :=
  { s.stations with entries := Vector.ofFn (fun n => tickEntry s.cfg.station n s.stations.entries[n]) }

/-- R50: the ages count in LISTEN, RUN and LISTEN-ONLY. -/
def tickAges (s : State) : State :=
  if s.working then (s.setPicture (tickPicture s)).setStations (tickStations s) else s

/-- The counts of the timebase itself (R14, R55, R163, R175). -/
def tickClock (s : State) : State :=
  s.setClock { s.clock with now := s.clock.now + 1, windowMs := s.clock.windowMs + 1, flashMs := s.clock.flashMs + 1,
                            sampleMs := s.clock.sampleMs + 1 }

/-- R53: the time since the last illegal change. -/
def tickEncoder (s : State) : State := s.setDepth { s.depth with faultMs := count s.depth.faultMs }

/-- The timers of the gate and key unit (R134, R135, R138). -/
def tickGate (g : GateUnit) : GateUnit :=
  { g with
    records := g.records.map (fun r => { r with settleMs := count r.settleMs })
    assentMs := count g.assentMs
    signal := { g.signal with replyMs := count g.signal.replyMs } }

/-- The timers of the Loading Sequencer (R152, R155, R158). -/
def tickSeq (q : Sequencer) : Sequencer :=
  { q with
    doorMs := count q.doorMs
    dwellMs := count q.dwellMs
    auto := { q.auto with replyMs := count q.auto.replyMs, retryMs := count q.auto.retryMs } }

/-- The timers of the Trip Controller (R104, R119). -/
def tickTrip (t : TripUnit) : TripUnit :=
  { t with record := { t.record with armMs := count t.record.armMs }, autoStartMs := count t.autoStartMs }

/-- Every timer that can be stopped, but the encoder's. -/
def tickTimers (s : State) : State :=
  let s := s.setLoader { s.loader with listenMs := count s.loader.listenMs }
  let s := ((s.setTrip (tickTrip s.trip)).setGate (tickGate s.gate)).setSeq (tickSeq s.seq)
  { s with panel := { s.panel with strobeMs := count s.panel.strobeMs } }

/-! What is due -/

/-- A command that joins the queue while a condition holds. -/
def due (c : Bool) (i : Instr) : List Instr := if c then [i] else []

/-- The encoder fault's clearing is due, through a warm reset too (R53). -/
def dueEncoder (s : State) : List Instr := due (reached s.depth.faultMs Config.encoderClearTime) .encoderFaultClear

/-- A sample is due at a drum (R55). -/
def State.sampleDue (s : State) : Bool := s.isDrum && s.working && decide (Config.sampleTime ≤ s.clock.sampleMs)

/-- The expiries of the picture that are due (R37, R43), in order of number. -/
def duePicture (s : State) : List Instr :=
  if s.working then
    winders.flatMap (fun w => due (s.picture.carrying[w].any Carrying.over) (.conveyanceRecordExpiry w)) ++
      (if s.isDrum then stationNumbers.flatMap (fun n => due s.stations.entries[n].over (.stationEntryExpiry n)) else [])
  else []

/-- The timers of a drum that are due (R104, R119, R121). -/
def dueDrum (s : State) : List Instr :=
  due (reached s.trip.record.armMs (s.cfg.armTimeout * 1000)) .armTimerExpiry ++
    due (reached s.trip.autoStartMs Config.autoStartTime) .autoStartPulseEnd ++
    (s.trip.calls.filter s.callOver).map (fun e => Instr.callLifeExpiry e.origin)

/-- The timers of a landing or loading station that are due (R134, R135, R141, R152, R155, R158). -/
def dueGates (s : State) : List Instr :=
  winders.flatMap (fun w => due (reached s.gate.records[w].settleMs Config.settleTime) (.lockSettleTimerExpiry w)) ++
    due (reached s.gate.assentMs Config.assentPeriod) .assentTimerExpiry ++
    due (reached s.gate.signal.replyMs Config.replyTime) .replyTimerExpiry ++
    due (reached s.seq.doorMs (s.cfg.doorTimeout * 1000)) .doorTimerExpiry ++
    due (reached s.seq.auto.replyMs Config.replyTime) .autoReplyTimerExpiry ++
    due (reached s.seq.auto.retryMs Config.retryTime) .retryTimerExpiry ++
    due (reached s.seq.dwellMs (s.cfg.dwell * 1000)) .dwellTimerExpiry

/-- The counts of the timebase that are due (R14, R175, R177, R183). -/
def dueClock (s : State) : List Instr :=
  due (decide (Config.windowTime ≤ s.clock.windowMs)) .errorWindowAdvance ++
    due (decide (Config.flashHalf ≤ s.clock.flashMs)) .flashClockHalf ++
    due (reached s.panel.strobeMs Config.strobeTime) .strobePulseEnd ++
    due (reached s.loader.listenMs Config.listenTime) .listenTimerExpiry

/-- R76 leaves open the order of two blocks at a sample: the sample that falls due takes it from the free value, drawn anew
each time (log entry 3). -/
def drawSample (s : State) : State :=
  if s.sampleDue then
    { s with pending := s.pending ++ [.sample (Config.sampleOrder s.model.draws)],
             model := { s.model with draws := s.model.draws + 1 } }
  else s

/-- Commands join the end of the queue. -/
def enqueue (is : List Instr) (s : State) : State := { s with pending := s.pending ++ is }

/-- One millisecond of the timebase. Nothing counts without power or while the oscillator starts; through a warm reset the
encoder fault alone counts (R53, R72). -/
def tick (s : State) : State :=
  if s.live then
    let s := tickTimers (tickEncoder (tickClock (tickAges s)))
    drawSample (enqueue (dueEncoder s ++ dueClock s ++ duePicture s ++ dueDrum s ++ dueGates s) s)
  else if s.loader.powered && !s.loader.oscillating then
    let s := tickEncoder s
    enqueue (dueEncoder s) s
  else s

end Sys2Proof.Machine
end

