-- ==== Sys2Proof/Machine/Outputs.lean ====
section
/-! DEFINITION. Sys2Proof/Machine/Outputs.lean: the output pins (Table 11-3), which follow from the state at every moment: the
drive, the locks, the flask door, the lamps and the event lines. -/
namespace Sys2Proof.Machine

/-! The drive -/

/-- R161: the brake trip output; asserted without power too (section 11.5). -/
def State.brakeTrip (s : State) : Bool := !s.live || s.phase != .run || !s.safety.causes.isEmpty

/-- R124: the permit output. -/
def State.permit (s : State) : Bool := s.live && s.phase != .init && (s.tripState == .armed || s.tripState == .running)

/-- R119, R124: the auto-start output. -/
def State.autoStart (s : State) : Bool := s.live && s.phase != .init && s.trip.autoStartMs.isSome

/-- R89: the 16 lines of the limit word. -/
def State.limitLines (s : State) : BitVec 16 := if s.live then BitVec.ofNat 16 s.env.limitWord else 0

/-- R180, Table 11-4: the SPI select output, asserted for the read of the record alone. -/
def State.spiSelect (s : State) : Bool := s.live && s.loader.reading

/-- R180: the levels that the loader puts on the SPI data out line at the first falling edges of the clock after the select:
the read command and the address, each byte most significant bit first. What the line shows while the bytes are clocked in
is not said. -/
def State.spiDataOut (s : State) : List Level := if s.spiSelect then readCommand.flatMap spiLevels else []

/-! Locks and the flask door -/

/-- R133: the lock-release output of winder w. -/
def State.lockRelease (s : State) (w : Winder) : Bool :=
  s.live && s.serves w && s.phase == .run &&
    (s.gateState w == .releasable || (s.gateState w == .opened && s.landingCondition w))

/-! The event lines -/

/-- Table 9-3: the order of a refusal reason. -/
def resetRefusalOrder : ResetRefusal → Nat
  | .phase => 1
  | .motion => 2
  | .localEstop => 3
  | .remoteEstop => 4
  | .encoder => 5

/-- R174: the first-up number of a cause, in the order of Table 9-1. -/
def causeNumber : CauseKind → Nat
  | .start => 1
  | .config => 2
  | .halt _ => 3
  | .estopRemote => 4
  | .estopLocal => 5
  | .encoder => 6
  | .depthDisagree => 7
  | .overspeed => 8
  | .overwind => 9
  | .gateWithdrawn => 10
  | .wrongDirection => 11
  | .unauthorisedMotion => 12

/-- R174: the number of the first-up cause, 0 with an empty list. -/
def State.firstUp (s : State) : Nat :=
  match s.safety.causes with
  | [] => 0
  | c :: _ => causeNumber c.kind

/-- Table 10-2: the lowest winder of the CALL NOT REGISTERED set, plus 1. -/
def lowestWinder (t : WinderSet) : Nat :=
  match winders.find? (winderIn t) with
  | some w => w.val + 1
  | none => 0

/-- R174: the detail of the displayed event at a drum: its own where Table 10-2 gives one, else the first-up. -/
def State.drumDetail (s : State) : Nat :=
  if s.eventCode = 13 then (s.safety.refusal.map resetRefusalOrder).getD 0 else s.firstUp

/-- R174: the detail of the displayed event at a landing or loading station. -/
def State.gateDetail (s : State) : Nat :=
  if s.eventCode = 11 then (s.panel.refusedCause.map refusalOrder).getD 0
  else if s.eventCode = 8 then lowestWinder s.panel.callNotRegistered
  else 0

/-- R174: the detail number, 0 to 15. Table 10-4 gives 0 after both resets, where R174 would give a drum that has been warm
reset the 1 of START: the number is 0 until a record has been accepted and the role is known. DESIGN CHOICE (log entry 38);
the lamps are dark until RUN. -/
def State.detail (s : State) : Nat :=
  if s.working then if s.isDrum then s.drumDetail else if s.hasGates then s.gateDetail else 0 else 0

/-- R177, R179: the strobe output. -/
def State.strobe (s : State) : Bool := s.live && s.working && s.panel.strobeMs.isSome

/-! The primary image (R174, Table 10-1) -/

/-- A lamp of the primary image, with its place in the flash mask. -/
inductive Lamp where
  | off
  | on
  | flash
  deriving DecidableEq, Repr

/-- A lamp that is ON while a condition holds. -/
def lampIf (c : Bool) : Lamp := if c then .on else .off

/-- A lamp that flashes while one condition holds, and is otherwise ON while another does. -/
def lampFlash (flash on : Bool) : Lamp := if flash then .flash else lampIf on

/-- Table 10-1, lamp 0: RUN. -/
def State.runLamp (s : State) : Lamp := lampFlash (s.phase == .listenOnly) (s.phase == .run)

/-- Table 10-1, lamps 20 to 23: the bits of the detail number. -/
def State.detailLamps (s : State) : List Lamp := (List.range 4).map (fun k => lampIf (s.detail.testBit k))

/-- Table 10-1, lamps 16 and 17 of a drum: the class of the head of the call list. -/
def State.callLamp (s : State) (on flash : TripClass) : Lamp :=
  match s.trip.calls with
  | [] => .off
  | e :: _ => lampFlash (e.cls == flash) (e.cls == on)

/-- Table 10-1, the DRUM column. Lamps 7, 9 and 10 show the sample set, as R63 has the Lamp Driver read it; the encoder fault
is no part of that set. -/
def State.drumImage (s : State) : List Lamp :=
  [s.runLamp, lampIf s.brakeTrip, lampIf s.permit, lampIf s.safety.causesLost,
    lampFlash (s.tripState == .suspended) (s.tripState == .armed),
    lampFlash (s.tripState == .stopping) (s.tripState == .running),
    lampIf s.env.warning, lampIf (!s.lastSample.verified), lampIf s.encoderFaulty,
    lampFlash s.lastSample.modePending (!s.lastSample.correctionOn), lampIf s.lastSample.clearPending,
    lampFlash s.staleHolder (s.stations.holdSet != 0), lampIf s.anyMissing, lampIf s.lineDegraded, lampIf s.shaftLine,
    lampIf s.relayDrop, s.callLamp .persons .material, s.callLamp .ore .inspection, lampIf s.env.outside,
    lampFlash s.autoStart s.inputs.autoEnable] ++ s.detailLamps

/-- Table 10-1, lamps 1 to 4 of a landing: GATE w, OFF outside the served set. -/
def State.gateLamp (s : State) (w : Winder) : Lamp :=
  if s.serves w then lampFlash (s.gateState w == .opened || s.gateState w == .forced) (s.gateState w == .releasable) else .off

/-- Table 10-1, lamp 6 of a landing, by R49. -/
def State.holdLamp (s : State) : Lamp := if s.inputs.hold then if s.holdAcknowledged then .on else .flash else .off

/-- Table 10-1, lamp 10 of a landing: the call record of the selected winder. -/
def State.callRecordLamp (s : State) : Lamp :=
  match s.gate.calls[s.inputs.winderSelector].status with
  | .none => .off
  | .sent => .flash
  | .notRegistered => .flash
  | .listed => .on

/-- Table 10-1, lamp 12 of a landing: the carrying record of the selected winder. -/
def State.pictureLamp (s : State) : Lamp :=
  match s.picture.carrying[s.inputs.winderSelector] with
  | none => .off
  | some r => if r.current then .on else .flash

/-- Table 10-1, lamp 13 of a landing: the selected winder's record is CURRENT with TRIPPED 1. -/
def State.winderTripped (s : State) : Bool := (s.currentRecord s.inputs.winderSelector).any (·.tripped)

/-- Table 10-1, lamp 19 of a tip or loading station: the automatic signal record. -/
def State.autoLamp (s : State) : Lamp := lampFlash (s.seq.auto.status == .awaiting) (s.seq.auto.status == .accepted)

/-- Table 10-1, lamps 16 to 19 of a landing or loading station. An INTERLOCK lamp that both conditions of its cell name is ON
and marked in the mask. -/
def State.sequencerLamps (s : State) : List Lamp :=
  if s.isLoading then
    [lampFlash (s.seq.cycle == .doorClosing) (s.seq.cycle == .discharge),
      lampFlash (s.seq.cycle == .waitDepart) (s.seq.cycle == .loaded),
      lampFlash (!s.inputs.doorClosed && !s.doorOpen) s.inputs.spillage, s.autoLamp]
  else if s.isTip then
    [lampIf (s.seq.tip == .dwell), lampFlash (s.seq.tip == .returnSent) (s.seq.tip == .ready), .off, s.autoLamp]
  else [.off, .off, .off, .off]

/-- Table 10-1, the LANDING and LOADING columns. -/
def State.gateImage (s : State) : List Lamp :=
  [s.runLamp, s.gateLamp 0, s.gateLamp 1, s.gateLamp 2, s.gateLamp 3, lampIf (s.clearSet == s.cfg.served), s.holdLamp,
    lampIf s.inputs.estop,
    lampFlash (s.gate.signal.status == .awaiting) (s.gate.signal.status == .accepted),
    lampFlash (s.gate.signal.status == .noReply) (s.gate.signal.status == .refused || s.gate.signal.status == .expired),
    s.callRecordLamp,
    lampIf (s.serves s.inputs.winderSelector && s.landingCondition s.inputs.winderSelector),
    s.pictureLamp, lampIf s.winderTripped, lampIf s.lineDegraded, lampIf s.relayDrop] ++ s.sequencerLamps ++ s.detailLamps

/-- R174: the primary image with its flash mask, lamp 0 first. From a warm reset to the end of INIT, and in CONFIG_FAULT, it is
that of the role of the record accepted before (log entry 38); the lamps are dark then. -/
def State.lampImage (s : State) : List Lamp :=
  if s.isDrum then s.drumImage else if s.hasGates then s.gateImage else List.replicate 24 .off

/-! Panel modes and lamp outputs (R175, R179) -/

/-- Table 10-3: the panel modes. -/
inductive PanelMode where
  | alert
  | test
  | dark
  | normal
  deriving DecidableEq, Repr

/-- Table 10-3: ALERT is in force. -/
def State.alert (s : State) : Bool :=
  if s.isDrum then !s.safety.causes.isEmpty else winders.any (fun w => s.serves w && s.gateState w == .forced)

/-- Table 10-3: the panel mode, by precedence. -/
def State.panelMode (s : State) : PanelMode :=
  if s.alert then .alert else if s.inputs.lampTest then .test else if s.inputs.dark then .dark else .normal

/-- Table 10-3: one lamp output in a panel mode, in the lit or the dark half of the flash clock. -/
def lampOutput (m : PanelMode) (lit : Bool) (l : Lamp) : Bool :=
  match m with
  | .alert => lit && l != .off
  | .test => (l != .off) == lit
  | .dark => false
  | .normal => l == .on || (lit && l == .flash)

/-- R175, R179: the 24 lamp outputs, lamp 0 first. -/
def State.lampOutputs (s : State) : List Bool :=
  if s.live && s.serving then s.lampImage.map (lampOutput s.panelMode s.clock.flashLit) else List.replicate 24 false

end Sys2Proof.Machine
end

