-- ==== Sys2Proof/Safety.lean ====
section
/-! DEFINITION. Sys2Proof/Safety.lean: the terms in which statements about the machine are made: what a command leaves as it
was, and the invariants that every step keeps. -/
namespace Sys2Proof.Machine

/-! What a step leaves as it was -/

/-- `t` is `e` in everything but what the end of a step may change beside its command's own effect: the transmit queues, the
ASSENT timer and the origination count (R135), and the event lines (R176). -/
structure Agrees (e t : State) : Prop where
  pending  : t.pending = e.pending
  loader   : t.loader = e.loader
  cfg      : t.cfg = e.cfg
  inputs   : t.inputs = e.inputs
  clock    : t.clock = e.clock
  portA    : t.portA = { e.portA with tx := t.portA.tx }
  portB    : t.portB = { e.portB with tx := t.portB.tx }
  relay    : t.relay = e.relay
  picture  : t.picture = e.picture
  stations : t.stations = e.stations
  depth    : t.depth = e.depth
  env      : t.env = e.env
  trip     : t.trip = e.trip
  safety   : t.safety = e.safety
  records  : t.gate.records = e.gate.records
  signal   : t.gate.signal = e.gate.signal
  calls    : t.gate.calls = e.gate.calls
  seq      : t.seq = e.seq
  draws    : t.model.draws = e.model.draws

/-- Only events of the set `b` are in the set `a`. -/
def EventsWithin (a b : BitVec 16) : Prop := a &&& ~~~b = 0

/-- The ASSENT a station would originate as it stands (R135). -/
def State.assentFrame (s : State) : Frame := { hop := 0, origin := s.cfg.station, payload := .assent s.assentContents }

/-- A transmit queue is as it was, or has had one ASSENT offered to it (R17, R18). -/
def QueueEnds (f : Frame) (q q' : Queue) : Prop := q' = q ∨ ∃ n, q' = (q.takeIn (sameReport f) f n).1

/-- `t` is what the end of a step may make of `e`: at most an ASSENT with the contents of `e` is originated; the events whose
leaving condition holds have left; SHAFT LINE and TX OVERFLOW alone may have been raised; the strobe is as it was or anew. -/
structure Ends (e t : State) : Prop extends Agrees e t where
  txA     : QueueEnds e.assentFrame e.portA.tx t.portA.tx
  txB     : QueueEnds e.assentFrame e.portB.tx t.portB.tx
  events  : ∃ more, EventsWithin more (Event.shaftLine.mask ||| Event.txOverflow.mask) ∧
              t.panel.pendingEvents = (e.panel.pendingEvents ||| more) &&& ~~~leavingMask e
  missed  : t.panel.callNotRegistered = e.panel.callNotRegistered
  refused : t.panel.refusedCause = e.panel.refusedCause
  strobe  : t.panel.strobeMs = e.panel.strobeMs ∨ t.panel.strobeMs = some 0

/-- `t` is `e` with nothing originated: only events whose leaving condition holds have left. -/
structure Quiet (e t : State) : Prop extends Agrees e t where
  portA'  : t.portA = e.portA
  portB'  : t.portB = e.portB
  gate    : t.gate = e.gate
  model   : t.model = e.model
  events  : t.panel.pendingEvents = e.panel.pendingEvents &&& ~~~leavingMask e
  missed  : t.panel.callNotRegistered = e.panel.callNotRegistered
  refused : t.panel.refusedCause = e.panel.refusedCause
  strobe  : t.panel.strobeMs = e.panel.strobeMs ∨ t.panel.strobeMs = some 0

/-- A frame that the station originates with a payload (R16). -/
def State.own (s : State) (p : Payload) : Frame := { hop := 0, origin := s.cfg.station, payload := p }

/-- A transmit queue holds a frame. -/
def Queue.holds (q : Queue) (f : Frame) : Prop := ∃ e ∈ q.entries, e.frame = f

/-- There is room in the station's transmit queue for `n` frames more (R17). -/
def State.room (s : State) (n : Nat) : Prop := s.portA.tx.entries.length + n ≤ Config.listCapacity

/-- `t` is `e` in everything that no command of a gate, a key or the sequencer changes. The gate unit, the sequencer, the
transmit queues, the event lines and the origination count are not spoken of. -/
structure BesideGates (e t : State) : Prop where
  pending  : t.pending = e.pending
  loader   : t.loader = e.loader
  cfg      : t.cfg = e.cfg
  inputs   : t.inputs = e.inputs
  clock    : t.clock = e.clock
  portA    : t.portA = { e.portA with tx := t.portA.tx }
  portB    : t.portB = { e.portB with tx := t.portB.tx }
  relay    : t.relay = e.relay
  picture  : t.picture = e.picture
  stations : t.stations = e.stations
  depth    : t.depth = e.depth
  env      : t.env = e.env
  trip     : t.trip = e.trip
  safety   : t.safety = e.safety
  draws    : t.model.draws = e.model.draws

/-- `t` is `e` in everything that no change of a trip and no recording of a cause changes. The depth unit, the envelope, the
trip, the cause list, the transmit queues, the event lines and the origination count are not spoken of. -/
structure BesideTrip (e t : State) : Prop where
  pending  : t.pending = e.pending
  loader   : t.loader = e.loader
  cfg      : t.cfg = e.cfg
  inputs   : t.inputs = e.inputs
  clock    : t.clock = e.clock
  portA    : t.portA = { e.portA with tx := t.portA.tx }
  portB    : t.portB = { e.portB with tx := t.portB.tx }
  relay    : t.relay = e.relay
  picture  : t.picture = e.picture
  stations : t.stations = e.stations
  gate     : t.gate = e.gate
  seq      : t.seq = e.seq
  draws    : t.model.draws = e.model.draws

/-- A frame stands in the transmit queue of Port A, and of Port B in a repeater, each unless it may have had no room (R16 to
R18). -/
def Offered (e t : State) (f : Frame) : Prop :=
  (e.portA.tx.entries.length + 2 ≤ Config.listCapacity → t.portA.tx.holds f) ∧
    (e.cfg.repeater = true → e.portB.tx.entries.length + 2 ≤ Config.listCapacity → t.portB.tx.holds f)

/-- R13: a good frame received on a port in use is taken: the phase takes frames, the port did not send it itself, and it does
not bear the station's own number. -/
structure Taken (h : Heading) (p : Payload) (s : State) : Prop where
  live    : s.live = true
  working : s.working = true
  uses    : s.uses h.port = true
  format  : (frameOf h p).wellFormed = true
  foreign : (s.port h.port).ownReadback (frameOf h p) = false
  number  : h.origin ≠ s.cfg.station

/-- The command that gives a frame received, by its payload (Table 1-3): a SIGNAL or a CALL by its word. -/
def takenCommand (h : Heading) : Payload → Instr
  | .halt ws r => .haltTaken h ws r
  | .signal w d c .go auto => .signalGo h w d c auto
  | .signal w d c .stop auto => .signalStop h w d c auto
  | .signal w d c .cancel auto => .signalCancel h w d c auto
  | .winding r => .windingTaken h r
  | .position r => .positionTaken h r
  | .assent r => .assentTaken h r
  | .mark w d => .markTaken h w d
  | .call w c .register => .callRegister h w c
  | .call w c .cancel => .callCancel h w c
  | .announce b seg dig => .announceTaken h b seg dig

/-- R14: one errored frame more in the current bucket; a bucket at 255 stays. -/
def Port.counted (x : Port) : Port :=
  { x with buckets := put x.buckets x.pointer (min 255 (x.buckets[x.pointer] + 1)) }

/-- The state once the Relay Unit has acted on a frame taken (R22), before the station's own blocks act on it. -/
def State.relayed (s : State) (h : Heading) (p : Payload) : State := relayFrame h.port (frameOf h p) s

/-- What power-on and warm reset set alike: the phase, the reset and the outputs (R180, R161, R124), Tables 1-6, 2-3, 3-3, 5-5,
6-7, 7-4, 8-4, 9-5 and 10-4, and the rows of Table 4-3 that a warm reset does not keep. -/
structure AfterReset (t : State) : Prop where
  phase    : t.phase = .init ∧ t.inReset = true
  outputs  : t.brakeTrip = true ∧ t.permit = false ∧ t.autoStart = false ∧ t.limitLines = 0 ∧ t.doorOpen = false ∧
               t.spiSelect = false ∧ ∀ w : Winder, t.lockRelease w = false
  ports    : ∀ p : PortId, (t.port p).line = .busy ∧ (t.port p).recessive = 0 ∧ (t.port p).idleCount = 0 ∧
               (t.port p).attempt = none ∧ (t.port p).engine = .waiting ∧ (t.port p).assembly = .wait ∧
               (t.port p).degraded = false ∧ t.candidate p = none ∧ (t.port p).tx.entries = [] ∧ (∀ i : Fin 10, (t.port p).buckets[i] = 0) ∧ (t.port p).pointer = 0
  relay    : t.relay.up.entries = [] ∧ t.relay.down.entries = [] ∧ t.relay.upDrop = false ∧ t.relay.downDrop = false
  records  : ∀ w : Winder, t.picture.carrying[w] = none ∧ t.picture.counterweight[w] = none
  entries  : ∀ n : Station, t.stations.entries[n] = StationEntry.unknown
  holdSet  : t.stations.holdSet = 0
  depth    : t.depth.history = [] ∧ t.depth.stationary = 0 ∧ t.depth.verified = false ∧ t.depth.modePending = false ∧
               t.depth.clearPending = false ∧ t.depth.sample = none
  env      : t.env.vPerm = 0 ∧ t.env.vThr = 50 ∧ t.env.warning = false ∧ t.env.count = 0 ∧ t.env.outside = false ∧
               t.env.limitWord = 0
  trip     : t.trip.record = { number := 0, state := .idle, details := none, stopDepth := none, armMs := none, result := none } ∧
               t.trip.calls = [] ∧ t.trip.unauthorised = false ∧ t.trip.positionSeq = 0 ∧ t.trip.sincePosition = none
  causes   : t.safety.causes = [{ kind := .start, depth := none, speed := none, number := 0, origin := none, time := 0 }] ∧
               t.safety.causesLost = false ∧ t.safety.refusal = none
  gates    : ∀ w : Winder, t.gate.records[w] = { state := .locked, settleMs := none } ∧
               t.gate.calls[w] = { status := .none, misses := 0 }
  signal   : t.gate.signal = { status := .idle, winder := none, number := none, cause := none, replyMs := none } ∧
               t.gate.assentMs = none
  seq      : t.seq.cycle = .waitSkip ∧ t.seq.tip = .tipWait ∧ t.seq.complete = false ∧ t.seq.doorMs = none ∧
               t.seq.skipMoved = false ∧ t.seq.auto = { status := .none, number := none, replyMs := none, retryMs := none } ∧
               t.seq.sendMark = false ∧ t.seq.dwellMs = none ∧ t.seq.arrival = none
  events   : t.panel.pendingEvents = 0 ∧ t.panel.callNotRegistered = 0 ∧ t.eventCode = 0 ∧ t.strobe = false
  lamps    : t.lampOutputs = List.replicate 24 false ∧ t.detail = 0

/-- R113: between `u` and `t` the open trip has closed with a result: the record, the outputs and the envelope (R76, R82, R87),
the maintenance requests (R69, R70), the call list (R121), and the WINDING that reports it (R122). -/
structure Closed (result : TripResult) (u t : State) : Prop where
  record   : t.trip.record = { u.trip.record with state := .idle, stopDepth := none, armMs := none, result := some result }
  outputs  : t.permit = false ∧ t.trip.autoStartMs = none
  env      : t.env = { u.env with vPerm := 0, vThr := 50, warning := false, count := 0, limitWord := 0 }
  table    : t.depth.table = if u.depth.clearPending then Vector.replicate 64 0 else u.depth.table
  mode     : t.depth.correctionOn = if u.depth.modePending then !u.inputs.correctionOff else u.depth.correctionOn
  requests : t.depth.clearPending = false ∧ t.depth.modePending = false
  verified : t.depth.verified = u.depth.verified ∧ t.depth.sample = u.depth.sample
  calls    : t.trip.calls =
               match result, u.trip.record.details with
               | .arrived, some d => u.trip.calls.filter (fun e => e.origin != d.dest)
               | _, _ => u.trip.calls
  report   : u.phase = .run → ∀ d : TripDetails, u.trip.record.details = some d →
               Offered u t (u.own (.winding { winder := u.cfg.winder, number := u.trip.record.number, state := .trip .idle,
                                              cls := d.cls, auto := d.auto, origin := d.origin, dest := d.dest,
                                              depth := d.target, outcome := .result result, blocking := none }))

/-- R83: the stop depth of a trip in a direction at a speed and depth. -/
def stopDepthOf (c : Params) (dir : Direction) (v : Int) (d : Depth) : Depth :=
  let s : Nat := if c.vCreep < v.natAbs then (v.natAbs ^ 2 - c.vCreep ^ 2 + 2 * c.aRet - 1) / (2 * c.aRet) else 0
  match dir with
  | .down => clampDepth ((d.val : Int) + s)
  | .up => clampDepth ((d.val : Int) - s)

/-- R76, R82, R85, R89: a partial evaluation with a trip supervised: v_perm is that of the trip record of `t` on the sample set `x`,
and the threshold and the limit word follow it; the warning, the count and the shaft-limit state stand. -/
def PartlyEvaluated (x : SampleSet) (u t : State) (d : TripDetails) : Prop :=
  let v := permittedSpeed u.cfg t.trip.record d x
  t.env = { u.env with vPerm := v, vThr := v.val + v.val / 16 + 50, limitWord := v.val / 10 }

/-- R109: between `u` and `t` the RUNNING trip has entered STOPPING, with the stop depth of R83 for the sample set `x`, its
WINDING, and the partial evaluation of R76 on the last sample. -/
structure Stopping (x : SampleSet) (u t : State) (d : TripDetails) : Prop where
  record  : t.trip.record = { u.trip.record with
              state := .stopping
              stopDepth := some (stopDepthOf u.cfg d.direction x.speed x.corrected) }
  permit  : t.permit = false
  calls   : t.trip.calls = u.trip.calls
  report  : u.phase = .run →
              Offered u t (u.own (.winding { winder := u.cfg.winder, number := u.trip.record.number, state := .trip .stopping,
                                             cls := d.cls, auto := d.auto, origin := d.origin, dest := d.dest,
                                             depth := stopDepthOf u.cfg d.direction x.speed x.corrected,
                                             outcome := .none, blocking := none }))
  safety  : t.safety = u.safety
  depth   : t.depth = u.depth
  env     : ∀ y, u.depth.sample = some y → PartlyEvaluated y u t d

/-- R164: between `u` and `t` a cause has been delivered: it was on the list, or is recorded at its end with the values of the
last sample set, the trip number and the time, or finds the list full and sets CAUSES LOST. Table 10-2: the first record raises
SAFETY TRIP, and the flag's setting CAUSES LOST. -/
structure Delivered (k : CauseKind) (origin : Option Station) (u t : State) : Prop where
  stood    : (∃ r ∈ u.safety.causes, r.kind = k ∧ r.origin = origin) → t.safety = u.safety
  recorded : (¬∃ r ∈ u.safety.causes, r.kind = k ∧ r.origin = origin) → u.safety.causes.length < 8 →
               t.safety.causes = u.safety.causes ++
                 [{ kind := k, depth := u.depth.sample.map (·.corrected), speed := u.depth.sample.map (·.speed),
                    number := u.trip.record.number, origin := origin, time := min (u.clock.now / 1000) 16777215 }] ∧
               t.brakeTrip = true ∧ t.tripState = .idle ∧
               (u.working = true → u.safety.causes = [] → t.isPending .safetyTrip = true)
  lost     : (¬∃ r ∈ u.safety.causes, r.kind = k ∧ r.origin = origin) → u.safety.causes.length = 8 →
               t.safety.causes = u.safety.causes ∧ t.safety.causesLost = true ∧
               (u.working = true → u.safety.causesLost = false → t.isPending .causesLost = true)

/-- R77: the supervision depth: in STOPPING the stop depth, if it lies nearer than the target in the direction of travel. -/
def supervision (r : TripRecord) (d : TripDetails) : Depth :=
  match r.state, r.stopDepth, d.direction with
  | .stopping, some x, .down => if x.val < d.target.val then x else d.target
  | .stopping, some x, .up => if d.target.val < x.val then x else d.target
  | _, _, _ => d.target

/-- R101: the range judged for the open trip, its ends included. -/
def judgedOver (s : State) (d : TripDetails) : Option (Int × Int) :=
  let here : Int := s.lastSample.corrected.val
  let far : Int := (supervision s.trip.record d).val
  let ahead : Int × Int :=
    match d.direction with
    | .down => (here, far + s.cfg.pathGuard)
    | .up => (far - s.cfg.pathGuard, here)
  match s.tripState with
  | .armed => some (min here far - s.cfg.pathGuard, max here far + s.cfg.pathGuard)
  | .running => some ahead
  | .stopping => some ahead
  | .suspended => none
  | .idle => none

/-- R100: station n is withdrawn for a range. -/
def Withdrawn (s : State) (lo hi : Int) (n : Station) : Prop :=
  let e := s.stations.entries[n]
  e.state = .current ∧ (e.role = some .landing ∨ e.role = some .loading) ∧
    (∃ l, e.level = some l ∧ lo ≤ l.val ∧ (l.val : Int) ≤ hi) ∧
    (∀ ws, e.served = some ws → winderIn ws s.cfg.winder = true) ∧ winderIn e.clear s.cfg.winder = false

/-- R100: station n is silent for a range: STALE in it, or missing (R44). -/
def Silent (s : State) (lo hi : Int) (n : Station) : Prop :=
  let e := s.stations.entries[n]
  (e.state = .stale ∧ ∃ l, e.level = some l ∧ lo ≤ l.val ∧ (l.val : Int) ≤ hi) ∨
    (stationIn s.cfg.required n = true ∧ e.state = .unknown)

/-- R102, Table 6-4: between `u` and `t` the open trip's range has been evaluated; `x` is the sample set that an entry to
STOPPING finds. -/
structure PathJudged (x : SampleSet) (u t : State) (d : TripDetails) : Prop where
  armed     : ∀ lo hi, u.tripState = .armed → judgedOver u d = some (lo, hi) →
                (∃ n, Withdrawn u lo hi n ∨ Silent u lo hi n) → Closed .cancelled u t
  withdrawn : ∀ lo hi, u.tripState = .running ∨ u.tripState = .stopping → judgedOver u d = some (lo, hi) →
                (∃ n, Withdrawn u lo hi n) → Delivered .gateWithdrawn none u t
  silent    : ∀ lo hi, u.tripState = .running → judgedOver u d = some (lo, hi) → (¬∃ n, Withdrawn u lo hi n) →
                (∃ n, Silent u lo hi n) → Stopping x u t d
  still     : (∀ lo hi, judgedOver u d = some (lo, hi) → (¬∃ n, Withdrawn u lo hi n) ∧
                (u.tripState = .stopping ∨ ¬∃ n, Silent u lo hi n)) →
                t.trip.record = u.trip.record ∧ t.safety = u.safety

/-- Table 6-3: the ten tests of a GO in their order, each with the condition that refuses it. -/
def goTests (s : State) (origin dest : Station) (cls : TripClass) (auto : Bool) : List (Bool × RefusalCause) :=
  let e := s.stations.entries[dest]
  let d := s.lastSample.corrected
  let target := e.level.getD 0
  let lo : Int := (min d.val target.val : Nat) - s.cfg.pathGuard
  let hi : Int := (max d.val target.val : Nat) + s.cfg.pathGuard
  [(s.safety.causes != [], .tripped),
    (s.phase != .run, .line),
    (s.tripState == .armed || s.tripState == .running || s.tripState == .stopping, .tripOpen),
    (auto && !s.inputs.autoEnable, .autoOff),
    (e.state == .unknown || e.role == some .drum || e.level == none ||
      e.served.any (fun ws => !winderIn ws s.cfg.winder), .destUnknown),
    (dest == origin, .sameLevel),
    (s.tripState != .suspended && !(s.stations.entries[origin].level.any (fun l => s.standsAt l)), .notAtOrigin),
    (!s.lastSample.verified && cls != .inspection, .unverified),
    (s.stations.holdSet != 0 && cls != .inspection, .hold),
    (stationNumbers.any (fun n => s.blocks lo hi n), .pathBlocked)]

/-- The first test that fails, if any. -/
def firstRefusal (tests : List (Bool × RefusalCause)) : Option RefusalCause := (tests.find? (·.1)).map (·.2)

/-- Table 9-3: the five conditions of a trip reset in their order, each as the failure that refuses the press. -/
def resetTests (s : State) : List (Bool × ResetRefusal) :=
  [(s.phase != .run, .phase),
    (decide (s.depth.stationary < 1000), .motion),
    (s.inputs.localEstop, .localEstop),
    (stationNumbers.any (fun n => s.stations.entries[n].state == .current && s.stations.entries[n].estop), .remoteEstop),
    (s.encoderFaulty, .encoder)]

/-! The record (Tables 11-1 and 11-2) -/

/-- A row of Table 11-2: where a parameter's bytes stand in the record, its range, its default, and its name. -/
structure ParamRow where
  at_   : Nat
  bytes : Nat
  lo    : Nat
  hi    : Nat
  dflt  : Nat
  value : Params → Nat

/-- Table 11-2, with the places of Table 11-1: the parameters that a station of a role uses. -/
def paramRows (role : Role) (tip : Bool) : List ParamRow :=
  [⟨11, 2, 10, 1000, 150, (·.landingHw)⟩] ++
  (if tip then [⟨29, 1, 2, 30, 8, (·.dwell)⟩] else []) ++
  (match role with
    | .loading => [⟨30, 1, 2, 60, 10, (·.doorTimeout)⟩]
    | .landing => []
    | .drum =>
      [⟨39, 2, 50, 2000, 500, (·.vCreep)⟩, ⟨41, 2, 100, 2000, 800, (·.aRet)⟩, ⟨43, 2, 100, 18000, 12000, (·.vMen)⟩,
        ⟨45, 2, 100, 18000, 15000, (·.vMat)⟩, ⟨47, 2, 100, 20000, 18000, (·.vOre)⟩, ⟨49, 2, 100, 2000, 1000, (·.vInsp)⟩,
        ⟨51, 2, 0, 20000, 0, (·.vCross)⟩, ⟨53, 3, 0, 200000, 20000, (·.crossHw)⟩, ⟨56, 2, 0, 5000, 500, (·.oAllow)⟩,
        ⟨58, 2, 0, 20000, 2000, (·.pathGuard)⟩, ⟨60, 2, 200, 2000, 1000, (·.disagreeLim)⟩,
        ⟨62, 2, 0, 5000, 1500, (·.vLearn)⟩, ⟨64, 2, 10, 300, 60, (·.armTimeout)⟩, ⟨66, 1, 1, 60, 15, (·.callLife)⟩,
        ⟨67, 3, 0, 8388607, 4194303, (·.cwSum)⟩, ⟨70, 3, 0, 4194303, 0, (·.topLimit)⟩,
        ⟨73, 3, 0, 4194303, 4194303, (·.bottomLimit)⟩, ⟨76, 2, 10, 10000, 1000, (·.upc)⟩])

/-- R182: the bytes of a row all hold 0xFF. -/
def ParamRow.isErased (r : ParamRow) (b : List Byte) : Prop := ∀ i, i < r.bytes → b.getD (r.at_ + i) 0 = 0xFF#8

/-- The 16-bit two's complement number at a place of the record. -/
def signed16 (b : List Byte) (i : Nat) : Int := if field b i 2 < 32768 then field b i 2 else (field b i 2 : Int) - 65536

/-! The lamps (Table 10-1) -/

/-- Lamp k of the primary image is ON while one condition or the other holds, and marked in the flash mask while the second
does (R174). -/
def LampShows (s : State) (k : Nat) (on flash : Prop) : Prop :=
  ∃ l, s.lampImage[k]? = some l ∧ (l ≠ .off ↔ on ∨ flash) ∧ (l = .flash ↔ flash)

/-! Start-up (R180 to R185) -/

/-- What holds of the phase: the station is in INIT while it is held in reset or reads its record; the listen timer runs in
LISTEN alone; a station that has accepted a record has a role. -/
structure StartInv (s : State) : Prop where
  inReset : s.inReset = true → s.phase = .init
  reading : s.loader.reading = true → s.phase = .init
  listen  : s.loader.listenMs ≠ none → s.phase = .listen
  role    : s.working = true → s.cfg.role ≠ none

/-! The trip (R93 to R118) and the safety trip (R161 to R165) -/

/-- The laws of the trip: no trip is open while the cause list holds a record (R114); a trip is open at a drum in RUN or
LISTEN-ONLY alone; while the position is UNVERIFIED or the hold set is not empty, a trip in ARMED or RUNNING has class
INSPECTION (R117). The last two clauses say how the verification state is seen (R63, R53). -/
structure TripInv (s : State) : Prop where
  start     : StartInv s
  tripped   : s.safety.causes ≠ [] → s.tripState = .idle
  drum      : s.tripOpen = true → s.isDrum = true ∧ (s.phase = .run ∨ s.phase = .listenOnly)
  details   : s.tripOpen = true → s.trip.record.details ≠ none
  law       : s.depth.verified = false ∨ s.stations.holdSet ≠ 0 → s.tripState = .armed ∨ s.tripState = .running →
                s.tripClass = some .inspection
  presented : s.lastSample.verified = true → s.depth.verified = true
  faulty    : s.encoderFaulty = true → s.depth.verified = false

/-- The laws of the envelope: the threshold and the limit word follow v_perm (R85, R89); with no trip supervised v_perm is 0,
the warning OFF and the count 0 (R74, R86, R87). -/
structure EnvelopeInv (s : State) : Prop where
  threshold    : s.env.vThr = s.env.vPerm.val + s.env.vPerm.val / 16 + 50
  limitWord    : s.env.limitWord = s.env.vPerm.val / 10
  unsupervised : s.supervised = false → s.env.vPerm = 0 ∧ s.env.warning = false ∧ s.env.count = 0
  count        : s.env.count ≤ 2

/-- R164: the cause list holds at most 8 records, no two of the same kind and origin; CAUSES LOST stands with a full list. -/
structure CauseInv (s : State) : Prop where
  atMost   : s.safety.causes.length ≤ 8
  distinct : (s.safety.causes.map (fun r => (r.kind, r.origin))).Nodup
  lost     : s.safety.causesLost = true → s.safety.causes.length = 8

/-- R120: the call list holds at most 8 entries and at most one per origin. -/
structure CallInv (s : State) : Prop where
  atMost   : s.trip.calls.length ≤ 8
  distinct : (s.trip.calls.map (·.origin)).Nodup

/-! The line (R16 to R28) -/

/-- A queue is in order (R16, R26): at most 8 entries, by effective class and entry order, no two frames of which one would
replace the other (R17, R27). -/
structure QueueInv (same : Frame → Frame → Bool) (q : Queue) : Prop where
  atMost   : q.entries.length ≤ 8
  ordered  : q.entries.Pairwise (fun x y => x.before y = true)
  orders   : (q.entries.map (·.order)).Nodup
  fresh    : ∀ e ∈ q.entries, e.order < q.nextOrder
  distinct : q.entries.Pairwise (fun x y => same x.frame y.frame = false)

/-- The laws of the queues: every queue is in order; a station in no phase but RUN holds a frame of its own (R16), and in no
phase but LISTEN or RUN a relayed one (R32). -/
structure LineInv (s : State) : Prop where
  start  : StartInv s
  txA    : QueueInv sameReport s.portA.tx
  txB    : QueueInv sameReport s.portB.tx
  up     : QueueInv sameRelayed s.relay.up
  down   : QueueInv sameRelayed s.relay.down
  silent : s.phase ≠ .run → s.portA.tx.entries = [] ∧ s.portB.tx.entries = []
  still  : s.phase ≠ .run → s.phase ≠ .listen → s.relay.up.entries = [] ∧ s.relay.down.entries = []

/-! The picture (R34 to R48) -/

/-- The laws of the picture: the two records of a winder are always in the same state (R37); an UNKNOWN entry holds nothing
(R40). -/
structure PictureInv (s : State) : Prop where
  together : ∀ w : Winder, s.picture.carrying[w].map (·.current) = s.picture.counterweight[w].map (·.current)
  unknown  : ∀ n : Station, s.stations.entries[n].state = .unknown → s.stations.entries[n] = StationEntry.unknown

/-! The landing and the loading station (R126 to R160) -/

/-- The laws of the gate and key unit: the settle timer runs in LOCKED alone (R134); a gate is RELEASABLE in RUN alone (R147);
the ASSENT timer runs in RUN alone (R136); the reply timer runs in AWAITING alone and a refusal cause is present in REFUSED
alone (R138); a miss count is 0 to 2 (R142). -/
structure GateInv (s : State) : Prop where
  start      : StartInv s
  settle     : ∀ w : Winder, s.gate.records[w].settleMs ≠ none → s.gateState w = .locked
  releasable : ∀ w : Winder, s.gateState w = .releasable → s.phase = .run
  assent     : s.gate.assentMs ≠ none → s.phase = .run
  reply      : s.gate.signal.replyMs ≠ none → s.gate.signal.status = .awaiting
  cause      : s.gate.signal.cause ≠ none → s.gate.signal.status = .refused
  misses     : ∀ w : Winder, s.gate.calls[w].misses ≤ 2

/-- The laws of the Loading Sequencer: DISCHARGE stands at a loading station in RUN alone (R150, R159); the door, dwell and
reply timers run in DOOR_CLOSING, DWELL and AWAITING alone (R152, R158, R155); an arrival number is held in TIP_WAIT alone
(R157). -/
structure SequencerInv (s : State) : Prop where
  start     : StartInv s
  discharge : s.seq.cycle = .discharge → s.isLoading = true ∧ s.phase = .run
  door      : s.seq.doorMs ≠ none → s.seq.cycle = .doorClosing
  dwell     : s.seq.dwellMs ≠ none → s.seq.tip = .dwell
  reply     : s.seq.auto.replyMs ≠ none → s.seq.auto.status = .awaiting
  arrival   : s.seq.arrival ≠ none → s.seq.tip = .tipWait

end Sys2Proof.Machine
end

