-- ==== Sys2Proof/Certificates/Slice0/Obligations.lean ====
section
/-! DEFINITION. Sys2Proof/Certificates/Slice0/Obligations.lean: the statements for the provers, by chapter of the manual. A
statement about a frame taken speaks of the state once the Relay Unit has acted on it (`State.relayed`), since a repeater
relays and takes at one moment (R22). -/

open Sys2Proof Sys2Proof.Machine

/-! The queue of commands -/

/-- A step takes the command at the front of the queue and runs it on the state with the queue's rest. -/
def Obligations.StepRunsTheFrontCommand : Prop :=
  ∀ (c : Instr) (rest : List Instr) (s : State), step { s with pending := c :: rest } = exec c { s with pending := rest }

/-- Every command answers a next state, in every state: none faults or is refused. No command touches the queue. That none
faults or is refused in any state is the MODEL'S CHOICE (log entry 5). -/
def Obligations.EveryCommandCompletes : Prop :=
  ∀ (c : Instr) (s : State), ∃ t, exec c s = .next t ∧ t.pending = s.pending

/-- MODEL'S CHOICE (log entry 1): on an empty queue a step is one millisecond of the timebase. The station changes in its counts
and ages alone: the clock (R14, R55, R163, R175), the ages of the records and entries but the drum's own (R37, R38, R43), and every
timer that runs (R53, R104, R119, R134, R135, R138, R152, R155, R158, R175, R177, R183); and the commands that join the queue are
those whose timer then stands at its limit or above. MODEL'S CHOICES: what counts when (log entry 10), the age of an entry made
STALE by an ANNOUNCE, no ASSENT taken, which counts from the ANNOUNCE on (log entry 46), the order of the units that a sample which
falls due carries (log entry 3), and that nothing changes without power (log entry 16). The order in which the commands join (log
entry 8) is not spoken of. -/
def Obligations.IdleStepIsOneMillisecond : Prop :=
  ∀ s : State, s.pending = [] →
    let older (n : Nat) : Nat := min 65535 (n + 1)
    let next (timer : Option Nat) : Option Nat := timer.map (· + 1)
    let due (timer : Option Nat) (limit : Nat) : Prop := ∃ n, timer = some n ∧ limit ≤ n + 1
    let foreign (w : Winder) : Prop := s.working = true ∧ ¬(s.isDrum = true ∧ w = s.cfg.winder)
    ∃ t, step s = .next t ∧ t.cfg = s.cfg ∧ t.inputs = s.inputs ∧ t.portA = s.portA ∧ t.portB = s.portB ∧
      t.relay = s.relay ∧ t.env = s.env ∧ t.safety = s.safety ∧ t.stations.holdSet = s.stations.holdSet ∧
      t.model.stamp = s.model.stamp ∧
      (s.loader.powered = false ∨ s.loader.oscillating = true → t = s) ∧
      (s.loader.powered = true → s.loader.oscillating = false →
        t.depth = { s.depth with faultMs := next s.depth.faultMs } ∧
        (Instr.encoderFaultClear ∈ t.pending ↔ due s.depth.faultMs 10)) ∧
      (s.live = false → t = { s with depth := t.depth, pending := t.pending } ∧
        ∀ c ∈ t.pending, c = Instr.encoderFaultClear) ∧
      (s.live = true →
        t.clock = { s.clock with
          now := s.clock.now + 1, windowMs := s.clock.windowMs + 1, flashMs := s.clock.flashMs + 1
          sampleMs := s.clock.sampleMs + 1 } ∧
        t.loader = { s.loader with listenMs := next s.loader.listenMs } ∧
        t.trip = { s.trip with
          record := { s.trip.record with armMs := next s.trip.record.armMs }
          autoStartMs := next s.trip.autoStartMs } ∧
        t.gate.calls = s.gate.calls ∧ t.gate.assentMs = next s.gate.assentMs ∧
        t.gate.signal = { s.gate.signal with replyMs := next s.gate.signal.replyMs } ∧
        (∀ w : Winder, t.gate.records[w] = { s.gate.records[w] with settleMs := next s.gate.records[w].settleMs }) ∧
        t.seq = { s.seq with
          doorMs := next s.seq.doorMs
          dwellMs := next s.seq.dwellMs
          auto := { s.seq.auto with replyMs := next s.seq.auto.replyMs, retryMs := next s.seq.auto.retryMs } } ∧
        t.panel = { s.panel with strobeMs := next s.panel.strobeMs } ∧
        (∀ w : Winder,
          (foreign w →
            t.picture.carrying[w] = s.picture.carrying[w].map (fun x => { x with age := older x.age }) ∧
            t.picture.counterweight[w] = s.picture.counterweight[w].map (fun x => { x with age := older x.age })) ∧
          (¬foreign w → t.picture.carrying[w] = s.picture.carrying[w] ∧
            t.picture.counterweight[w] = s.picture.counterweight[w])) ∧
        (∀ n : Station, t.stations.entries[n] =
          if s.working = true ∧ s.stations.entries[n].state ≠ .unknown ∧ n ≠ s.cfg.station then
            { s.stations.entries[n] with age := older s.stations.entries[n].age }
          else s.stations.entries[n]) ∧
        (∀ c : Instr, c ∈ t.pending ↔
          (c = .encoderFaultClear ∧ due s.depth.faultMs 10) ∨
          (c = .errorWindowAdvance ∧ 1000 ≤ s.clock.windowMs + 1) ∨ (c = .flashClockHalf ∧ 500 ≤ s.clock.flashMs + 1) ∨
          (c = .strobePulseEnd ∧ due s.panel.strobeMs 20) ∨ (c = .listenTimerExpiry ∧ due s.loader.listenMs 2000) ∨
          (s.working = true ∧ ∃ w : Winder, c = .conveyanceRecordExpiry w ∧
            ∃ x, t.picture.carrying[w] = some x ∧ x.current = true ∧ x.staleness ≤ x.age) ∨
          (s.working = true ∧ s.isDrum = true ∧ ∃ n : Station, c = .stationEntryExpiry n ∧
            t.stations.entries[n].state = .current ∧ 3000 ≤ t.stations.entries[n].age) ∨
          (c = .armTimerExpiry ∧ due s.trip.record.armMs (s.cfg.armTimeout * 1000)) ∨
          (c = .autoStartPulseEnd ∧ due s.trip.autoStartMs 200) ∨
          (∃ e ∈ s.trip.calls, c = .callLifeExpiry e.origin ∧ s.cfg.callLife * 60000 ≤ s.clock.now + 1 - e.registered) ∨
          (∃ w : Winder, c = .lockSettleTimerExpiry w ∧ due s.gate.records[w].settleMs 500) ∨
          (c = .assentTimerExpiry ∧ due s.gate.assentMs 1000) ∨ (c = .replyTimerExpiry ∧ due s.gate.signal.replyMs 2000) ∨
          (c = .doorTimerExpiry ∧ due s.seq.doorMs (s.cfg.doorTimeout * 1000)) ∨
          (c = .autoReplyTimerExpiry ∧ due s.seq.auto.replyMs 2000) ∨ (c = .retryTimerExpiry ∧ due s.seq.auto.retryMs 2000) ∨
          (c = .dwellTimerExpiry ∧ due s.seq.dwellMs (s.cfg.dwell * 1000)) ∨
          (c = .sample (Config.sampleOrder s.model.draws) ∧ s.isDrum = true ∧ s.working = true ∧
            10 ≤ s.clock.sampleMs + 1)))

/-! Start-up (chapter 11) -/

/-- POWER_ON: the values of the reset tables; the station is held while the oscillator starts. WARM_RESET with power: the same
values, but the count, its channel state, the fault indication, the working zero offset, the correction table and the accepted
input levels stand. Without power WARM_RESET changes nothing. After POWER_ON the zero offset and the table have still to be loaded
(R73), and WARM_RESET leaves that as it stands. MODEL'S CHOICES: the winder selector's 0 (log entry 4), POWER_ON taken with power
and WARM_RESET without (log entry 16), the mark `loadDue` (log entry 17), and the detail number after a warm reset (log entry
38). -/
def Obligations.PowerOnAndWarmReset : Prop :=
  ∀ s : State,
    (∃ t, exec .powerOn s = .next t ∧ AfterReset t ∧ t.loader.oscillating = true ∧ t.depth.count = 0 ∧
      t.depth.channel = none ∧ t.depth.faultMs = none ∧ t.inputs = Inputs.reset ∧ t.loader.loadDue = true) ∧
    (s.loader.powered = true →
      ∃ t, exec .warmReset s = .next t ∧ AfterReset t ∧ t.loader.pinHeld = true ∧ t.depth.count = s.depth.count ∧
        t.depth.channel = s.depth.channel ∧ t.depth.faultMs = s.depth.faultMs ∧ t.depth.zeroOffset = s.depth.zeroOffset ∧
        t.depth.table = s.depth.table ∧ t.inputs = s.inputs ∧ t.loader.loadDue = s.loader.loadDue) ∧
    (s.loader.powered = false → exec .warmReset s = .next s)

/-- R180: at the end of the reset the read of the record begins with an empty buffer and the counts of the timebase start;
nothing else changes. The select output is then on, and the data out line carries 0x03, 0x00, 0x00, each most significant bit
first. MODEL'S CHOICE (log entry 34): a warm reset during the oscillator's start holds until both the start and the pin have
ended, so that OSCILLATOR_START_EXPIRY and RESET_PIN_RELEASE each end the reset only where the other no longer holds it. -/
def Obligations.ResetEndsAndTheReadBegins : Prop :=
  ∀ s : State, s.loader.powered = true →
    (s.loader.oscillating = true → s.loader.pinHeld = false →
      exec .oscillatorStartExpiry s = .next { s with
        loader := { s.loader with oscillating := false, reading := true, buffer := [] }
        clock := { now := 0, windowMs := 0, flashMs := 0, flashLit := true, sampleMs := 0 } }) ∧
    (s.loader.oscillating = true → s.loader.pinHeld = true →
      exec .oscillatorStartExpiry s = .next { s with loader := { s.loader with oscillating := false } }) ∧
    (s.loader.pinHeld = true → s.loader.oscillating = false →
      exec .resetPinRelease s = .next { s with
        loader := { s.loader with pinHeld := false, reading := true, buffer := [] }
        clock := { now := 0, windowMs := 0, flashMs := 0, flashLit := true, sampleMs := 0 } }) ∧
    (s.loader.pinHeld = true → s.loader.oscillating = true →
      exec .resetPinRelease s = .next { s with loader := { s.loader with pinHeld := false } }) ∧
    (s.loader.oscillating = false ∨ s.loader.pinHeld = false → s.inReset = true →
      ∃ t, exec (if s.loader.oscillating then .oscillatorStartExpiry else .resetPinRelease) s = .next t ∧
        t.spiSelect = true ∧
        t.spiDataOut = [false, false, false, false, false, false, true, true] ++ List.replicate 16 false)

/-- POWER_LOSS: attempts end with the line released and no count changed, and every output stands as without power. Section 11.5
gives the brake trip and the permit without power; that every other output is off then is the MODEL'S CHOICE (log entry 16). -/
def Obligations.PowerLossReleasesEverything : Prop :=
  ∀ s : State, ∃ t, exec .powerLoss s = .next t ∧
    (∀ p : PortId, (t.port p).attempt = none ∧
      (t.port p).tx.entries = (s.port p).tx.entries.map (fun e => { e with sending := false }) ∧
      (t.relayQueue p).entries = (s.relayQueue p).entries.map (fun e => { e with sending := false })) ∧
    t.brakeTrip = true ∧ t.permit = false ∧ t.autoStart = false ∧ t.limitLines = 0 ∧
    (∀ w : Winder, t.lockRelease w = false) ∧ t.doorOpen = false ∧ t.eventCode = 0 ∧ t.strobe = false ∧
    t.spiSelect = false ∧ t.spiDataOut = [] ∧ t.lampOutputs = List.replicate 24 false

/-- RECORD_READ_COMPLETE with a refused record (R181): the six grounds of refusal, and what a refusal does. A record of fewer
or more bytes than 256 cannot be read, so its length is a premise. MODEL'S CHOICES (log entry 19): the fields of the record
accepted before stand, and the list of a station of any role takes CONFIG. -/
def Obligations.RefusedRecord : Prop :=
  ∀ (b : List Byte) (s : State), b.length = 256 → s.live = true → s.loader.reading = true →
    (judgeRecord b = none ↔
      (crc16 (b.take 254)).toNat ≠ field b 254 2 ∨ field b 0 1 ≠ 1 ∨ 63 < field b 1 1 ∨
      ¬(field b 2 1 = 1 ∨ field b 2 1 = 2 ∨ field b 2 1 = 3) ∨
      (field b 2 1 = 1 ∧ (paramField b 73 3 0 4194303 4194303).1 ≤ (paramField b 70 3 0 4194303 0).1) ∨
      ((field b 2 1 = 2 ∨ field b 2 1 = 3) ∧ BitVec.ofNat 4 (field b 25 1) = 0)) ∧
    (judgeRecord b = none →
      ∃ t, exec (.recordReadComplete (b.flatMap spiLevels)) s = .next t ∧ t.phase = .configFault ∧ t.cfg = s.cfg ∧
        t.loader.rate = s.loader.rate ∧ t.picture = s.picture ∧ t.stations = s.stations ∧ t.inputs = s.inputs ∧
        t.depth.count = s.depth.count ∧ t.brakeTrip = true ∧
        (∀ p : PortId, (t.port p).attempt = none ∧ (t.port p).tx.entries = [] ∧ (t.relayQueue p).entries = []) ∧
        (s.safety.causes = [CauseRecord.start] → s.depth.sample = none → s.trip.record.number = 0 →
          t.safety.causes = [CauseRecord.start,
            { kind := .config, depth := none, speed := none, number := 0, origin := none, time := s.seconds }])) ∧
    (∀ x, judgeRecord b = some x → x.1.digest.toNat = field b 254 2)

/-- RECORD_READ_COMPLETE with an accepted record (R183): LISTEN with the listen timer from 0, the fields applied, the line rate
changed, CONFIG CLAMPED for a clamped record. A drum takes its first sample, its own entry becomes STALE with role DRUM, its
correction mode follows its input, its zero offset and table are the record's where they have still to be loaded since power-on
and its own where they have not, and a local emergency stop found active is recorded. MODEL'S CHOICE (log entry 17): the first
record a drum accepts after a power-on loads them, also where a warm reset or a refused record came between; `loadDue`, which
PowerOnAndWarmReset ties to both resets, says that it has not come yet. What the fields `x.1` are, RecordFields says. -/
def Obligations.AcceptedRecord : Prop :=
  ∀ (b : List Byte) (s : State) (x : Ranged Params), b.length = 256 → s.live = true → s.loader.reading = true →
    s.tripState = .idle → judgeRecord b = some x →
      ∃ t, exec (.recordReadComplete (b.flatMap spiLevels)) s = .next t ∧ t.phase = .listen ∧ t.loader.listenMs = some 0 ∧
        t.loader.reading = false ∧ t.loader.rate = x.1.rate ∧ t.cfg = x.1 ∧ t.loader.clamped = x.2 ∧
        (x.2 = true → t.isPending .configClamped = true) ∧ t.inputs = s.inputs ∧
        t.portA.tx.entries = s.portA.tx.entries ∧ t.portB.tx.entries = s.portB.tx.entries ∧ t.relay = s.relay ∧
        t.loader.loadDue = (if x.1.role = some .drum then false else s.loader.loadDue) ∧
        (x.1.role = some .drum →
          t.stations.entries[x.1.station] = { StationEntry.unknown with state := .stale, role := some .drum } ∧
          t.depth.sample.isSome = true ∧ t.depth.correctionOn = !s.inputs.correctionOff ∧
          t.depth.zeroOffset = (if s.loader.loadDue then x.1.zeroOffset else s.depth.zeroOffset) ∧
          t.depth.table = (if s.loader.loadDue then x.1.corrections else s.depth.table) ∧
          (s.inputs.localEstop = true → s.safety.causes.length < 7 →
            ∃ r ∈ t.safety.causes, r.kind = .estopLocal))

/-- Table 11-1, R182: the fields of an accepted record, from its bytes: each parameter of Table 11-2 that the role uses is its
default where its bytes all hold 0xFF, and else clamped to its range; every other field used is clamped, its spare bits ignored;
and the record is marked clamped exactly if a field it uses lay outside its range. -/
def Obligations.RecordFields : Prop :=
  ∀ (b : List Byte) (c : Params) (clamped : Bool), b.length = 256 → judgeRecord b = some (c, clamped) →
    let drum := field b 2 1 = 1
    let loading := field b 2 1 = 3
    let tip := field b 2 1 = 2 ∧ (field b 4 1).testBit 1 = true
    (c.role = some .drum ↔ drum) ∧ (c.role = some .loading ↔ loading) ∧ (c.role = some .landing ↔ field b 2 1 = 2) ∧
    c.station.val = field b 1 1 ∧ c.digest.toNat = field b 254 2 ∧
    c.repeater = (field b 4 1).testBit 0 ∧ c.tipFlag = (field b 4 1).testBit 1 ∧
    c.carriesSkip = (field b 4 1).testBit 2 ∧ c.inverted = (field b 4 1).testBit 3 ∧
    c.segment.val = min (if c.repeater then 2 else 3) (field b 5 1) ∧ c.rate.val = min 3 (field b 7 1) ∧
    (c.repeater = true → c.reach.toNat = field b 6 1 % 16) ∧
    (∀ role r, c.role = some role → r ∈ paramRows role (role == .landing && c.tipFlag) →
      (r.isErased b → r.value c = r.dflt) ∧
      (¬r.isErased b → r.value c = max r.lo (min r.hi (field b r.at_ r.bytes)))) ∧
    (drum → c.winder.val = min 3 (field b 3 1) ∧ c.required.toNat = field b 31 8 ∧
      c.zeroOffset = (if field b 78 3 < 8388608 then (field b 78 3 : Int) else field b 78 3 - 16777216) ∧
      ∀ k : Fin 64, c.corrections[k] = max (-4095) (min 4095 (signed16 b (126 + 2 * k.val)))) ∧
    (¬drum → c.served.toNat = field b 25 1 % 16 ∧ c.level.val = min 4194303 (field b 8 3) ∧
      ∀ w : Winder, c.markers[w].val = min 4194303 (field b (13 + 3 * w.val) 3)) ∧
    (loading → c.tipPartner.val = min 63 (field b 27 1)) ∧ (tip → c.loadingPartner.val = min 63 (field b 28 1)) ∧
    (loading ∨ tip → c.tipWinder.val = min 3 (field b 26 1)) ∧
    (clamped = false ↔
      field b 5 1 ≤ (if c.repeater then 2 else 3) ∧ field b 7 1 ≤ 3 ∧
      (∀ role r, c.role = some role → r ∈ paramRows role (role == .landing && c.tipFlag) → ¬r.isErased b →
        r.lo ≤ field b r.at_ r.bytes ∧ field b r.at_ r.bytes ≤ r.hi) ∧
      (drum → field b 3 1 ≤ 3 ∧ ∀ k : Fin 64, -4095 ≤ signed16 b (126 + 2 * k.val) ∧ signed16 b (126 + 2 * k.val) ≤ 4095) ∧
      (¬drum → field b 8 3 ≤ 4194303 ∧ ∀ w : Winder, field b (13 + 3 * w.val) 3 ≤ 4194303) ∧
      (loading → field b 27 1 ≤ 63) ∧ (tip → field b 28 1 ≤ 63) ∧ (loading ∨ tip → field b 26 1 ≤ 3))

/-- LISTEN_TIMER_EXPIRY (R183, R184, R136, R147, R159): at 2,000 ms in LISTEN the station enters RUN with its timer stopped, one
ANNOUNCE and, with gates, one ASSENT offered, and each served gate record set from its contacts and landing condition; at a
loading station each interlock condition found standing originates its HALT, and the discharge condition found holding begins
a discharge. MODEL'S CHOICE (log entry 9): an expiry before 2,000 ms changes nothing. -/
def Obligations.ListenTimerEntersRun : Prop :=
  ∀ (s : State) (n : Nat), s.live = true → s.loader.listenMs = some n →
    (2000 ≤ n → s.phase = .listen → s.portA.tx.entries = [] → s.portB.tx.entries = [] →
      ∃ t, exec .listenTimerExpiry s = .next t ∧ t.phase = .run ∧ t.loader.listenMs = none ∧
        Offered s t (s.own (.announce
          (if s.isDrum then .drum s.cfg.winder
           else if s.isLoading then .loading s.cfg.served s.cfg.level else .landing s.cfg.served s.cfg.level)
          s.cfg.segment s.cfg.digest)) ∧
        (s.hasGates = true → t.gate.assentMs = some 0 ∧ Offered s t t.assentFrame) ∧
        (∀ w : Winder, s.serves w = true → t.gate.records[w] =
          { state := if s.inputs.gateClosed[w] then if s.landingCondition w then .releasable else .locked else .opened
            settleMs := none }) ∧
        (s.isDrum = true → (t.isPending .requiredStation = true ↔
          ∃ n : Station, stationIn s.cfg.required n = true ∧ s.stations.entries[n].state = .unknown)) ∧
        (s.isLoading = true →
          let halt (reason : HaltReason) : Frame := s.own (.halt (BitVec.twoPow 4 s.cfg.tipWinder.val) reason)
          let moves := ∃ x, s.currentRecord s.cfg.tipWinder = some x ∧ 50 < x.speed.natAbs
          (s.inputs.spillage = true → Offered s t (halt .spillage)) ∧
          (s.inputs.doorClosed = false → Offered s t (halt .flaskDoor)) ∧
          (s.inputs.doorClosed = false → moves → Offered s t (halt .skipMoved)) ∧
          (t.seq.skipMoved = true ↔ s.inputs.doorClosed = false ∧ moves) ∧
          (s.seq.cycle = .waitSkip → t.seq.cycle = if s.dischargeCondition then .discharge else .waitSkip)) ∧
        t.picture = s.picture ∧ t.stations = s.stations ∧ t.trip = s.trip ∧ t.safety = s.safety ∧ t.depth = s.depth) ∧
    (¬(2000 ≤ n ∧ s.phase = .listen) → ∃ t, exec .listenTimerExpiry s = .next t ∧ Quiet s t)

/-! The shaft line (chapter 1) -/

/-- R1, R3: a character sent over a line that disturbs none of its bits is read as sent. Its 12 bits are start, D0 to D7,
heading mark, parity, stop, and the ten from D0 to parity hold an even number of ones. R9, R10, R12: the characters of every
frame whose fields Table 1-3 lists have the length of Table 1-2, their check characters agree, and they are read back as that
frame. -/
def Obligations.CharactersAndFramesRoundTrip : Prop :=
  (∀ (b : Byte) (mark : Bool), readChar (cleanReading b mark) = .good b mark ∧
    ∃ parity, charBits b mark = [false, b[0], b[1], b[2], b[3], b[4], b[5], b[6], b[7], mark, parity, true] ∧
      (([b[0], b[1], b[2], b[3], b[4], b[5], b[6], b[7], mark, parity].filter id).length) % 2 = 0) ∧
  (∀ f : Frame, f.wellFormed = true →
    f.chars.length = f.kind.frameLength ∧ crcAgrees f.chars = true ∧ Frame.parse f.body = some f)

/-- R11 to R13: the last character of a well-formed frame in assembly does what the command of that frame taken does, on the
state that the character's dominant level leaves (`lineBusy`, R4) with the assembly in WAIT. That a _TAKEN command stands for
the good frame received, with the checks of R13, is the MODEL'S CHOICE (log entry 6). -/
def Obligations.LastCharacterIsTheFrameTaken : Prop :=
  ∀ (s : State) (p : PortId) (f : Frame) (b : Byte), f.wellFormed = true → s.live = true → s.uses p = true →
    (s.port p).engine = .waiting → (s.port p).assembly = .assembling f.chars.dropLast → f.chars.getLast? = some b →
      exec (.characterReceived p (cleanReading b false)) s =
        exec (takenCommand { port := p, hop := f.hop, origin := f.origin } f.payload)
          ((lineBusy p s).setPort p { (lineBusy p s).port p with assembly := .wait })

/-- R3, R4, R11, R12 (Table 1-4): what a character does that does not complete a good frame. Its opening level does to the line
what a dominant level does (`lineBusy`, of which LineIdleAndBusy speaks). After FRAMING the engine reads none until
RECESSIVE_BIT_TIME_AFTER_FRAMING, which makes it wait for a start bit again and counts one recessive bit time. MODEL'S CHOICES
(log entry 12): that command does what LINE_BECOMES_IDLE does with one bit time, and it, or a character after FRAMING, changes
nothing otherwise. -/
def Obligations.FrameAssembly : Prop :=
  ∀ (s : State) (p : PortId) (r : CharReading), s.live = true → s.uses p = true →
    ((s.port p).engine = .afterFraming →
      (∃ t, exec (.characterReceived p r) s = .next t ∧ Quiet s t) ∧
      (∃ t, exec (.recessiveBitTimeAfterFraming p) s = .next t ∧ exec (.lineBecomesIdle ⟨p, 1⟩) s = .next t ∧
        (t.port p).engine = .waiting)) ∧
    ((s.port p).engine = .waiting → (∃ t, exec (.recessiveBitTimeAfterFraming p) s = .next t ∧ Quiet s t) ∧
      let u := lineBusy p s
      let x := u.port p
      ∃ t, exec (.characterReceived p r) s = .next t ∧
      match readChar r, (s.port p).assembly with
      | .falseStart, _ => Quiet u t
      | .good b true, .assembling _ => Agrees (u.setPort p { x.counted with assembly := .assembling [b] }) t
      | .good b true, _ => Agrees (u.setPort p { x with assembly := .assembling [b] }) t
      | .good _ false, .wait => Agrees (u.setPort p { x.counted with assembly := .skip }) t
      | .good _ false, .skip => Quiet u t
      | .good b false, .assembling chars =>
        (chars.length + 1 < lengthDue (chars ++ [b]) →
          Agrees (u.setPort p { x with assembly := .assembling (chars ++ [b]) }) t) ∧
        (lengthDue (chars ++ [b]) ≤ chars.length + 1 →
          crcAgrees (chars ++ [b]) = false ∨ Frame.parse ((chars ++ [b]).take (chars.length - 1)) = none →
            Agrees (u.setPort p { x.counted with assembly := .wait }) t)
      | .parityError, .skip => Quiet u t
      | .parityError, _ => Agrees (u.setPort p { x.counted with assembly := .skip }) t
      | .framingError, .skip => Agrees (u.setPort p { x with engine := .afterFraming }) t
      | .framingError, _ => Agrees (u.setPort p { x.counted with assembly := .skip, engine := .afterFraming }) t)

/-- R4, R6, R11: the recessive bit times of LINE_BECOMES_IDLE are counted by a BUSY line, which is IDLE from the twelfth, with an
idle count of those after it, and discards a frame in assembly as TRUNCATED; an IDLE line adds them to its idle count.
LINE_BECOMES_BUSY, like the opening level of a character, makes the line BUSY with recessive count 0, and an IDLE line's
candidate is deferred: one deferral more, or at the eighth the count back to 0 and the effective class one less, but never below
1 and never for a HALT. MODEL'S CHOICES: the operand of LINE_BECOMES_IDLE and that a sending port counts none (log entry 12), and
that a class-0 or class-1 entry's count returns to 0 at the eighth (log entry 13). -/
def Obligations.LineIdleAndBusy : Prop :=
  ∀ (s : State) (p : PortId), s.live = true → s.uses p = true →
    (∀ n : Nat, (s.port p).attempt ≠ none → ∃ t, exec (.lineBecomesIdle ⟨p, n⟩) s = .next t ∧
      Quiet (if n = 0 then s else s.setPort p { s.port p with engine := .waiting }) t) ∧
    ((s.port p).attempt ≠ none → ∃ t, exec (.lineBecomesBusy p) s = .next t ∧
      Quiet (s.setPort p { s.port p with line := .busy, recessive := 0 }) t) ∧
    ((s.port p).attempt = none →
    (∀ n : Nat, (s.port p).line = .idle → ∃ t, exec (.lineBecomesIdle ⟨p, n⟩) s = .next t ∧
      Quiet (s.setPort p { s.port p with
        idleCount := (s.port p).idleCount + n
        engine := if n = 0 then (s.port p).engine else .waiting }) t) ∧
    (∀ n : Nat, (s.port p).line = .busy → (s.port p).recessive + n < 12 → ∃ t, exec (.lineBecomesIdle ⟨p, n⟩) s = .next t ∧
      Quiet (s.setPort p { s.port p with
        recessive := (s.port p).recessive + n
        engine := if n = 0 then (s.port p).engine else .waiting }) t) ∧
    (∀ n : Nat, (s.port p).line = .busy → 12 ≤ (s.port p).recessive + n →
      ∃ t, exec (.lineBecomesIdle ⟨p, n⟩) s = .next t ∧ (t.port p).line = .idle ∧
        (t.port p).idleCount = (s.port p).recessive + n - 12 ∧ (t.port p).assembly = .wait ∧
        (t.port p).buckets =
          (match (s.port p).assembly with
            | .assembling _ => (s.port p).counted.buckets
            | _ => (s.port p).buckets)) ∧
    (∃ t, exec (.lineBecomesBusy p) s = .next t ∧ (t.port p).line = .busy ∧ (t.port p).recessive = 0 ∧
      (t.port p).assembly = (s.port p).assembly ∧ (t.port p).buckets = (s.port p).buckets ∧
      (∀ q, (t.port q).tx = ((lineBusy p s).port q).tx ∧ t.relayQueue q = (lineBusy p s).relayQueue q) ∧
      ((s.port p).line = .busy → ∀ q, (t.port q).tx = (s.port q).tx ∧ t.relayQueue q = s.relayQueue q) ∧
      ((s.port p).line = .idle → ∀ relayed e, s.candidate p = some (relayed, e) →
        { e with
            deferrals := if e.deferrals + 1 < 8 then e.deferrals + 1 else 0
            effClass := if e.deferrals + 1 < 8 ∨ e.effClass ≤ 1 then e.effClass else e.effClass - 1 } ∈
          (t.queueOf p relayed).entries ∧
        ∀ x ∈ (s.queueOf p relayed).entries, x.order ≠ e.order → x ∈ (t.queueOf p relayed).entries)))

/-- R4, R5, R7: TRANSMISSION_START begins the candidate once the idle count is not less than its gap, and only then; the line is
then BUSY and the entry sending. On a BUSY line the idle count begins after 12 recessive bit times. MODEL'S CHOICE (log entry
12): the command carries the bit times n that have ended since the last command on the port, and without a start it does what
LINE_BECOMES_IDLE does with them. (A frame cut off as the line goes IDLE may degrade the line, and the ASSENT of that change may
replace the entry; the entry is spoken of where the line quality stands.) -/
def Obligations.TransmissionStart : Prop :=
  ∀ (s : State) (p : PortId) (n : Nat) (relayed : Bool) (e : Entry), s.live = true → s.uses p = true →
    (s.port p).attempt = none → s.candidate p = some (relayed, e) →
      let reached :=
        ((s.port p).line = .idle ∧ e.effClass * 64 + e.frame.origin.val ≤ (s.port p).idleCount + n) ∨
        ((s.port p).line = .busy ∧ 12 + e.effClass * 64 + e.frame.origin.val ≤ (s.port p).recessive + n)
      ((s.phase = .listen ∨ s.phase = .run) → reached →
        ∃ t, exec (.transmissionStart p n) s = .next t ∧
          (t.port p).attempt = some { relayed := relayed, order := e.order, frame := e.frame, stamp := e.stamp } ∧
          (t.port p).line = .busy ∧
          (t.lineDegraded = s.lineDegraded →
            { e with sending := true, replaced := false } ∈ (t.queueOf p relayed).entries)) ∧
      (¬((s.phase = .listen ∨ s.phase = .run) ∧ reached) →
        ∃ t, exec (.transmissionStart p n) s = .next t ∧ exec (.lineBecomesIdle ⟨p, n⟩) s = .next t ∧
          (t.port p).attempt = none)

/-- R7, R185: a bit read back that differs from the bit sent ends the attempt and counts one collision on its entry; at 16 the
station enters LISTEN-ONLY with every queue empty. MODEL'S CHOICE (log entry 12): a COLLISION whose bit agrees changes nothing.
R8: TRANSMISSION_COMPLETE removes the entry sent, or keeps it in its place with its collision count 0 if it was replaced
meanwhile. Every other entry stands. R156: in LOADED, an ASSENT originated since then and completed on Port A sets the send
mark, and where the conditions of the automatic GO then hold, the GO is put to the queue that the entry has left. MODEL'S CHOICE
(log entry 26): originations are numbered; each takes the next number, and an ASSENT counts as originated since the entry to
LOADED where its number is not below the one that FlaskInputs has the entry to LOADED note. -/
def Obligations.AttemptEnds : Prop :=
  (∀ (s : State) (p : PortId) (k : Nat) (r : BitReading) (a : Attempt) (e : Entry) (sent : Bool), s.live = true →
    s.uses p = true → s.phase = .listen ∨ s.phase = .run → (s.port p).attempt = some a → a.frame.bits[k]? = some sent →
    (s.queueOf p a.relayed).entries.find? (fun x => x.order == a.order) = some e →
      (readBit r = sent → ∃ t, exec (.collision p k r) s = .next t ∧ Quiet s t) ∧
      (readBit r ≠ sent → e.collisions + 1 < 16 →
        ∃ t, exec (.collision p k r) s = .next t ∧ (t.port p).attempt = none ∧ t.phase = s.phase ∧
          { e with sending := false, collisions := e.collisions + 1 } ∈ (t.queueOf p a.relayed).entries ∧
          (t.port p).buckets = (s.port p).buckets) ∧
      (readBit r ≠ sent → 16 ≤ e.collisions + 1 →
        ∃ t, exec (.collision p k r) s = .next t ∧ t.phase = .listenOnly ∧
          ∀ q, (t.port q).attempt = none ∧ (t.port q).tx.entries = [] ∧ (t.relayQueue q).entries = [])) ∧
  (∀ (s : State) (p : PortId) (a : Attempt) (e : Entry), s.live = true → (s.port p).attempt = some a →
    e ∈ (s.queueOf p a.relayed).entries → e.order = a.order → ((s.queueOf p a.relayed).entries.map (·.order)).Nodup →
      let left : List Entry := if e.replaced then
          (s.queueOf p a.relayed).entries.map
            (fun x => if x.order = a.order then { x with sending := false, collisions := 0 } else x)
        else (s.queueOf p a.relayed).entries.filter (fun x => x.order != a.order)
      let marks := p = .a ∧ a.relayed = false ∧ a.frame.kind = .assent ∧ s.seq.cycle = .loaded ∧ s.seq.sendAfter ≤ a.stamp
      let goes := s.phase = .run ∧ s.inputs.auto = true ∧ s.seq.auto.retryMs = none
      let go := s.own (.signal s.cfg.tipWinder s.cfg.tipPartner .ore .go true)
      ∃ t, exec (.transmissionComplete p) s = .next t ∧ (t.port p).attempt = none ∧ (t.port p).completed = some a.frame ∧
        (¬marks → (t.queueOf p a.relayed).entries = left ∧ t.seq = s.seq) ∧
        (marks → ¬goes → t.portA.tx.entries = left ∧ t.seq = { s.seq with sendMark := true }) ∧
        (marks → goes → s.isLoading = true →
          t.portA.tx = (({ s.portA.tx with entries := left } : Queue).takeIn (sameReport go) go s.model.stamp).1 ∧
          t.seq.sendMark = true ∧ t.seq.cycle = .waitDepart ∧
          t.seq.auto = { s.seq.auto with status := .awaiting, number := none, replyMs := some 0 })) ∧
  (∀ (s : State) (p : Payload), s.phase = .run →
    (originate p s).portA.tx = (s.portA.tx.takeIn (sameReport (s.own p)) (s.own p) s.model.stamp).1 ∧
    (s.cfg.repeater = true →
      (originate p s).portB.tx = (s.portB.tx.takeIn (sameReport (s.own p)) (s.own p) s.model.stamp).1) ∧
    (originate p s).model.stamp = s.model.stamp + 1)

/-- R14, R15: the error window and the line quality. ERROR_WINDOW_ADVANCE moves each port's pointer to the next bucket, the
first after the tenth, and clears it; a discarded frame adds one to the current bucket, up to 255, and touches no other; the
window sum is the sum of the ten; a port is DEGRADED at 9 errored frames or more; a port going DEGRADED raises LINE DEGRADED,
which leaves when no port of the station is; a reset clears every bucket. MODEL'S CHOICES: the 1,000 ms are counted by the tick
(log entry 1), the advance acts whenever it is given (log entry 9), Port B's window moves in every station (log entry 14), and a
_TAKEN command with a field that no frame can carry is a frame discarded as FORMAT (log entry 6). -/
def Obligations.ErrorWindow : Prop :=
  (∀ s : State, s.live = true → ∃ t, exec .errorWindowAdvance s = .next t ∧ t.clock.windowMs = 0 ∧
    ∀ p : PortId, (t.port p).pointer.val = ((s.port p).pointer.val + 1) % 10 ∧
      ∀ i : Fin 10, (t.port p).buckets[i] =
        if i.val = ((s.port p).pointer.val + 1) % 10 then 0 else (s.port p).buckets[i]) ∧
  (∀ (s : State) (p : PortId), ((countError p s).port p).pointer = (s.port p).pointer ∧
    ∀ i : Fin 10, ((countError p s).port p).buckets[i] =
      if i = (s.port p).pointer then min 255 ((s.port p).buckets[i] + 1) else (s.port p).buckets[i]) ∧
  (∀ x : Port, x.windowSum = x.buckets[0] + x.buckets[1] + x.buckets[2] + x.buckets[3] + x.buckets[4] + x.buckets[5] +
    x.buckets[6] + x.buckets[7] + x.buckets[8] + x.buckets[9]) ∧
  (∀ x : Port, x.degraded = true ↔ 9 ≤ x.windowSum) ∧
  (∀ s : State, s.lineDegraded = true ↔ 9 ≤ s.portA.windowSum ∨ (s.cfg.repeater = true ∧ 9 ≤ s.portB.windowSum)) ∧
  (∀ (s : State) (p : PortId), s.working = true → (s.port p).windowSum = 8 → (s.port p).buckets[(s.port p).pointer] < 255 →
    (countError p s).isPending .lineDegraded = true ∧ ((countError p s).port p).windowSum = 9) ∧
  (∀ (s : State) (h : Heading) (r : PositionReport), s.live = true → s.working = true → s.uses h.port = true →
    r.wellFormed = false → (s.port h.port).windowSum = 8 → (s.port h.port).buckets[(s.port h.port).pointer] < 255 →
      ∃ t, exec (.positionTaken h r) s = .next t ∧ t.isPending .lineDegraded = true) ∧
  (∀ s : State, s.live = true → ∃ t, exec .errorWindowAdvance s = .next t ∧
    (t.lineDegraded = false → t.isPending .lineDegraded = false)) ∧
  (∀ s : State, s.pending = [] → s.live = true → s.clock.windowMs = 999 →
    ∃ t, step s = .next t ∧ Instr.errorWindowAdvance ∈ t.pending) ∧
  (∀ (s : State) (c : Instr), c = .powerOn ∨ (c = .warmReset ∧ s.loader.powered = true) →
    ∃ t, exec c s = .next t ∧ ∀ p : PortId, (t.port p).pointer = 0 ∧ ∀ i : Fin 10, (t.port p).buckets[i] = 0)

/-- R16 to R18, with R26 and R27 for the relay queues, which are built alike: what a frame put to a queue does. An entry whose
contents it replaces keeps its place, order, class and counts, and is marked replaced while it is sending; a transmit queue holds
one entry each of the kinds POSITION, ASSENT and WINDING, a relay queue one POSITION a winder and one ASSENT an origin. A frame
that replaces none joins a queue with room as a new entry of its class, its counts 0, behind the entries of its class and before
those of a greater one; and put to a full queue it takes the place of the newest entry of greater class that is not sending, or is
dropped, either of which raises TX OVERFLOW at a transmit queue. -/
def Obligations.FullTransmitQueue : Prop :=
  (∀ (q : Queue) (f : Frame) (n : Nat), q.entries.length = 8 → (q.entries.map (·.order)).Nodup →
    (∀ e ∈ q.entries, sameReport f e.frame = false) →
      (∀ v ∈ q.entries, v.sending = false → f.cls < v.effClass →
        (∀ x ∈ q.entries, x.sending = false → f.cls < x.effClass → x.order ≤ v.order) →
          (q.takeIn (sameReport f) f n).1.entries.Perm
            (Entry.new f n q.nextOrder :: q.entries.filter (fun x => x.order != v.order))) ∧
      ((∀ v ∈ q.entries, v.sending = true ∨ v.effClass ≤ f.cls) → (q.takeIn (sameReport f) f n).1 = q) ∧
      (∀ v ∈ q.entries, v.sending = true → v ∈ (q.takeIn (sameReport f) f n).1.entries) ∧
      (∀ (s : State) (p : PortId), s.working = true → (s.port p).tx = q →
        ((offer p f n s).port p).tx = (q.takeIn (sameReport f) f n).1 ∧ (offer p f n s).isPending .txOverflow = true)) ∧
  (∀ (s : State) (p : PortId) (f : Frame) (n : Nat),
    (offer p f n s).port p = { s.port p with tx := ((s.port p).tx.takeIn (sameReport f) f n).1 }) ∧
  (∀ f g : Frame, sameReport f g = true ↔
    f.kind = g.kind ∧ (f.kind = .position ∨ f.kind = .assent ∨ f.kind = .winding)) ∧
  (∀ f g : Frame, (sameRelayed f g = true → f.kind = g.kind ∧ (f.kind = .position ∨ f.kind = .assent)) ∧
    (f.kind = .assent → g.kind = .assent → (sameRelayed f g = true ↔ f.origin = g.origin)) ∧
    (∀ r r' : PositionReport, f.payload = .position r → g.payload = .position r' →
      (sameRelayed f g = true ↔ r.winder = r'.winder))) ∧
  (∀ (q : Queue) (f : Frame) (n : Nat) (same : Frame → Frame → Bool), same = sameReport ∨ same = sameRelayed →
    let u := q.takeIn (same f) f n
    ((∃ e ∈ q.entries, same f e.frame = true) →
      u = ({ q with entries := q.entries.map (fun e =>
        if same f e.frame then { e with frame := f, stamp := n, replaced := e.replaced || e.sending } else e) }, false)) ∧
    (QueueInv same q → (∀ e ∈ q.entries, same f e.frame = false) → q.entries.length < 8 →
      let new : Entry :=
        { frame := f, stamp := n, effClass := f.cls, deferrals := 0, collisions := 0, order := q.nextOrder, sending := false,
          replaced := false }
      let k := (q.entries.takeWhile (fun x => decide (x.effClass ≤ f.cls))).length
      u = ({ entries := q.entries.take k ++ new :: q.entries.drop k, nextOrder := q.nextOrder + 1 }, false) ∧
        (∀ x ∈ q.entries.take k, x.effClass ≤ f.cls) ∧ (∀ x ∈ q.entries.drop k, f.cls < x.effClass)))

/-- R13, R185: a good frame that bears the station's own number and is not its readback puts a station in LISTEN or RUN in
LISTEN-ONLY: the attempts end, the queues empty, a RELEASABLE gate locks with its settle timer started, the ASSENT timer stops,
a discharge ends, an ARMED trip closes CANCELLED and a RUNNING one enters STOPPING. The drop flags stand. The other conditions of
R13: a readback of the port's own frame, whatever the phase, and in INIT and CONFIG_FAULT any good frame, is not taken, not
relayed and not counted. MODEL'S CHOICE (log entry 11): a frame is a readback too while the attempt that sends it is still in
progress, and a readback clears the mark of the frame completed. -/
def Obligations.DuplicateNumberEntersListenOnly : Prop :=
  (∀ (s : State) (h : Heading) (p : Payload), s.live = true → s.uses h.port = true → (frameOf h p).wellFormed = true →
    let readback := (s.port h.port).completed = some (frameOf h p) ∨
      ∃ a, (s.port h.port).attempt = some a ∧ a.frame = frameOf h p
    (readback → ∃ t, exec (takenCommand h p) s = .next t ∧
      Quiet (s.setPort h.port { s.port h.port with completed := none }) t) ∧
    (¬readback → s.phase = .init ∨ s.phase = .configFault → ∃ t, exec (takenCommand h p) s = .next t ∧ Quiet s t)) ∧
  (∀ (s : State) (h : Heading) (p : Payload), s.live = true → (s.phase = .listen ∨ s.phase = .run) →
    s.uses h.port = true → (frameOf h p).wellFormed = true → (s.port h.port).ownReadback (frameOf h p) = false →
    h.origin = s.cfg.station →
      ∃ t, exec (takenCommand h p) s = .next t ∧ t.phase = .listenOnly ∧ t.loader.listenMs = none ∧
        (∀ q, (t.port q).attempt = none ∧ (t.port q).tx.entries = [] ∧ (t.relayQueue q).entries = []) ∧
        t.relay.upDrop = s.relay.upDrop ∧ t.relay.downDrop = s.relay.downDrop ∧ t.gate.assentMs = none ∧
        (∀ w : Winder, t.gate.records[w] =
          if s.gateState w = .releasable then { state := .locked, settleMs := some 0 } else s.gate.records[w]) ∧
        t.seq.cycle ≠ .discharge ∧ t.picture = s.picture ∧ t.stations = s.stations ∧ t.safety = s.safety ∧
        (s.tripState = .armed → t.tripState = .idle ∧ t.trip.record.result = some .cancelled) ∧
        (∀ d, s.trip.record.details = some d → s.tripState = .running → t.tripState = .stopping) ∧
        (s.tripState ≠ .armed → s.tripState ≠ .running → t.trip = s.trip))

/-- R185, R180: LISTEN-ONLY and CONFIG_FAULT are left only by a power-on or a warm reset. -/
def Obligations.OnlyAResetLeavesListenOnly : Prop :=
  ∀ (c : Instr) (s t : State), StartInv s → s.phase = .listenOnly ∨ s.phase = .configFault → exec c s = .next t →
    c ≠ .powerOn → c ≠ .warmReset → t.phase = s.phase

/-! Relaying (chapter 2) -/

/-- R24, R25, with R22, R23, R28 and R29: a repeater in LISTEN or RUN that takes a frame of the forwarding set places a copy with
one hop more and nothing else changed in the relay queue of the far port, or latches the drop flag where the queue is full; at
three hops it places nothing and raises HOP DROP. A frame outside the set leaves the Relay Unit as it was and raises no HOP
DROP. The latching of a flag that was clear raises RELAY DROP (R29). What `takeIn` makes of a queue, FullTransmitQueue says. -/
def Obligations.RepeaterForwards : Prop :=
  ∀ (s : State) (h : Heading) (p : Payload), Taken h p s → s.cfg.repeater = true → s.phase = .listen ∨ s.phase = .run →
    ∃ t, exec (takenCommand h p) s = .next t ∧
      ((h.port = .b ∨ (match p with
          | .halt .. => True
          | .position r => winderIn s.cfg.reach r.winder = true
          | .winding r => winderIn s.cfg.reach r.winder = true
          | .announce (.drum _) _ _ => True
          | _ => False)) →
        (h.hop.val < 3 →
          ((s.relayQueue (farPort h.port)).entries.length < 8 ∨
              (∃ v ∈ (s.relayQueue (farPort h.port)).entries, v.sending = false ∧ (frameOf h p).cls < v.effClass) →
            ∃ e ∈ (t.relayQueue (farPort h.port)).entries,
              e.frame = { hop := h.hop + 1, origin := h.origin, payload := p } ∧
              e.frame.chars = e.frame.body ++ bytesOf 2 (crc16 e.frame.body).toNat ∧
              e.gap = e.effClass * 64 + h.origin.val) ∧
          (((s.relayQueue (farPort h.port)).takeIn (sameRelayed (Frame.forwarded (frameOf h p)))
              (Frame.forwarded (frameOf h p)) 0).2 = true → t.dropFlag (farPort h.port) = true ∧
            (s.dropFlag (farPort h.port) = false → t.isPending .relayDrop = true)) ∧
          t.relayQueue (farPort h.port) = ((s.relayQueue (farPort h.port)).takeIn
            (sameRelayed (Frame.forwarded (frameOf h p))) (Frame.forwarded (frameOf h p)) 0).1) ∧
        (h.hop = 3 → t.relay = s.relay ∧ t.isPending .hopDrop = true)) ∧
      (¬(h.port = .b ∨ (match p with
          | .halt .. => True
          | .position r => winderIn s.cfg.reach r.winder = true
          | .winding r => winderIn s.cfg.reach r.winder = true
          | .announce (.drum _) _ _ => True
          | _ => False)) → t.relay = s.relay ∧ (s.isPending .hopDrop = false → t.isPending .hopDrop = false))

/-! The picture (chapter 3) -/

/-- R35, R36: an accepted POSITION writes both records of its winder and nothing of any other. One that is not accepted, by its
sequence or because a drum takes it for its own winder, changes nothing. R37: a CURRENT record whose age has reached its
staleness time becomes STALE, its counterweight with it, both with their fields as they were; PICTURE STALE is raised for a
served winder, and a RELEASABLE gate of it locks (R129). MODEL'S CHOICE (log entry 9): the expiry of a younger record, or of a
STALE one, changes nothing. -/
def Obligations.ConveyanceRecords : Prop :=
  (∀ (s : State) (h : Heading) (r : PositionReport), StartInv s → Taken h (.position r) s →
    ∃ t, exec (.positionTaken h r) s = .next t ∧
      let accepted := ¬(s.isDrum = true ∧ r.winder = s.cfg.winder) ∧
        ∀ x, s.picture.carrying[r.winder] = some x → x.current = true →
          1 ≤ (r.seq - x.seq).toNat ∧ (r.seq - x.seq).toNat ≤ 127
      (accepted → BesideGates { s.relayed h (.position r) with
        picture :=
          { carrying := put s.picture.carrying r.winder (some
              { current := true, skip := r.skip, depth := r.carrying, speed := r.speed, vPerm := r.vPerm,
                number := r.number, state := r.state, dest := r.dest, verified := r.verified,
                correctionOn := r.correctionOn, clamped := r.clamped, tripped := r.tripped, moving := r.moving,
                callSet := r.callSet, holdSet := r.holdSet, seq := r.seq, age := 0,
                staleness := if r.moving then 150 else 1500 })
            counterweight := put s.picture.counterweight r.winder (some
              { current := true, depth := r.counterweight, speed := -r.speed, moving := r.moving, seq := r.seq, age := 0,
                staleness := if r.moving then 150 else 1500 }) } } t) ∧
      (¬accepted → Ends (s.relayed h (.position r)) t)) ∧
  (∀ (s : State) (w : Winder) (r : Carrying), s.live = true → s.working = true → s.picture.carrying[w] = some r →
    (r.current = true → r.staleness ≤ r.age →
      ∃ t, exec (.conveyanceRecordExpiry w) s = .next t ∧
        BesideGates { s with picture :=
          { carrying := put s.picture.carrying w (some { r with current := false })
            counterweight := put s.picture.counterweight w
              (s.picture.counterweight[w].map (fun x => { x with current := false })) } } t ∧
        (s.serves w = true → t.isPending .pictureStale = true) ∧
        (s.serves w = true → s.phase = .run → s.landingCondition w = true → s.gateState w = .releasable →
          t.gate.records[w] = { state := .locked, settleMs := some 0 })) ∧
    (r.current = false ∨ r.age < r.staleness → ∃ t, exec (.conveyanceRecordExpiry w) s = .next t ∧ Quiet s t))

/-- R42, R46, R47, R102: an ASSENT writes the entry of its origin; the origin joins or leaves the hold set by its HOLD flag; its
ESTOP flag delivers ESTOP_REMOTE unless a stated served set leaves the drum's winder out; no cause leaves the list. R116: a
station joining the hold set closes an ARMED trip and stops a RUNNING one, unless of class INSPECTION. Table 6-4: where no hold
joins such a trip and no ESTOP is delivered, the trip's range is judged on the table so written. Table 10-2: HOLD is raised where
the hold set is no longer empty, and SHAFT LINE where the entry is the first CURRENT one to show LINE DEGRADED or RELAY DROP. -/
def Obligations.AssentWritesTheEntry : Prop :=
  ∀ (s : State) (h : Heading) (r : AssentReport), Taken h (.assent r) s → s.isDrum = true →
    let e := s.stations.entries[h.origin]
    let stays := e.role = some .landing ∨ e.role = some .loading
    let e' : StationEntry :=
      { state := .current, role := if stays then e.role else some .landing, level := some r.level,
        served := if stays then e.served else none, clear := r.clear, hold := r.hold, estop := r.estop,
        lineDegraded := r.lineDegraded, relayDrop := r.relayDrop, age := 0 }
    let names := ∀ ws, e'.served = some ws → winderIn ws s.cfg.winder = true
    let u := { s.relayed h (.assent r) with stations :=
      { entries := put s.stations.entries h.origin e'
        holdSet := if r.hold then stationJoin s.stations.holdSet h.origin else stationLeave s.stations.holdSet h.origin } }
    ∃ t, exec (.assentTaken h r) s = .next t ∧ BesideTrip u t ∧
      s.safety.causes <+: t.safety.causes ∧
      (r.estop = true → names → s.safety.causes.length < 8 →
        ∃ c ∈ t.safety.causes, c.kind = .estopRemote ∧ c.origin = some h.origin) ∧
      (r.hold = true → s.stations.holdSet = 0 → t.isPending .hold = true) ∧
      (r.lineDegraded = true ∨ r.relayDrop = true →
        (∀ n : Station, s.stations.entries[n].state = .current →
          s.stations.entries[n].lineDegraded = false ∧ s.stations.entries[n].relayDrop = false) →
        t.isPending .shaftLine = true) ∧
      (∀ d : TripDetails, s.trip.record.details = some d → ¬(r.estop = true ∧ names) →
        let joins := r.hold = true ∧ stationIn s.stations.holdSet h.origin = false
        (¬joins ∨ d.cls = .inspection → PathJudged s.lastSample u t d) ∧
        (joins → d.cls ≠ .inspection → s.tripState = .armed → Closed .cancelled u t) ∧
        (joins → d.cls ≠ .inspection → s.tripState = .running →
          (∀ lo hi n, judgedOver u d = some (lo, hi) → ¬Withdrawn u lo hi n) → Stopping s.lastSample u t d))

/-- R41: an ANNOUNCE writes the role, the level depth and the served set of its origin's entry; an UNKNOWN entry becomes STALE,
and any other keeps its state, age, clear set and flags. R43, R48: a CURRENT entry of age 3,000 ms becomes STALE and nothing else
of the table changes; a holder stays in the hold set and STALE HOLDER is raised. The hold-override key takes every station
whose entry is STALE out of the hold set, and no other; without a STALE holder it changes nothing. After each the open trip's
range is judged by Table 6-4. MODEL'S CHOICE (log entry 9): the expiry of an entry below 3,000 ms, or not CURRENT, changes
nothing. -/
def Obligations.StationTableChanges : Prop :=
  (∀ (s : State) (h : Heading) (body : AnnounceBody) (seg : Segment) (dig : Digest),
    Taken h (.announce body seg dig) s → s.isDrum = true →
      let e := s.stations.entries[h.origin]
      let u := { s.relayed h (.announce body seg dig) with stations :=
        { entries := put s.stations.entries h.origin
            { e with
              state := if e.state = .unknown then .stale else e.state
              role := some (match body with | .drum _ => .drum | .landing _ _ => .landing | .loading _ _ => .loading)
              level := (match body with | .drum _ => none | .landing _ l => some l | .loading _ l => some l)
              served := (match body with | .drum _ => none | .landing ws _ => some ws | .loading ws _ => some ws) }
          holdSet := s.stations.holdSet } }
      ∃ t, exec (.announceTaken h body seg dig) s = .next t ∧ BesideTrip u t ∧
        ∀ d, s.trip.record.details = some d → PathJudged s.lastSample u t d) ∧
  (∀ s : State, s.live = true → s.isDrum = true → s.working = true →
    (∀ n : Station, s.stations.entries[n].state = .current → 3000 ≤ s.stations.entries[n].age →
      let u := { s with stations :=
        { entries := put s.stations.entries n { s.stations.entries[n] with state := .stale }
          holdSet := s.stations.holdSet } }
      ∃ t, exec (.stationEntryExpiry n) s = .next t ∧ BesideTrip u t ∧
        (stationIn s.stations.holdSet n = true → t.isPending .staleHolder = true) ∧
        ∀ d, s.trip.record.details = some d → PathJudged s.lastSample u t d) ∧
    (∀ n : Station, s.stations.entries[n].state ≠ .current ∨ s.stations.entries[n].age < 3000 →
      ∃ t, exec (.stationEntryExpiry n) s = .next t ∧ Quiet s t) ∧
    (s.staleHolder = true →
      ∃ t, exec .holdOverrideKey s = .next t ∧
        BesideTrip { s with stations := { s.stations with holdSet := t.stations.holdSet } } t ∧
        (∀ d, s.trip.record.details = some d → PathJudged s.lastSample s t d) ∧
        ∀ n : Station, stationIn t.stations.holdSet n =
          (stationIn s.stations.holdSet n && s.stations.entries[n].state != .stale)) ∧
    (s.staleHolder = false → ∃ t, exec .holdOverrideKey s = .next t ∧ Quiet s t))

/-! Position and depth (chapter 4) -/

/-- R54, with R52: the count follows the channels in every phase from the end of power-on, one up or down at a legal change by
the polarity, and wraps as a signed 32-bit number; power-on sets it to 0 and a warm reset leaves it. The levels first accepted
since power-on make the channel state and count nothing (Table 4-3). MODEL'S CHOICES: before the first record since power-on the
polarity is 0 (log entry 4); from a warm reset to the next accepted record it is that of the record before (log entry 35); and
the count follows the channels in every role (log entry 39). -/
def Obligations.CountFollowsTheChannels : Prop :=
  (∀ (s : State) (a' b' : Bool), s.loader.powered = true → s.loader.oscillating = false → s.depth.channel = none →
    ∃ t, exec (.encoderChannelChange a' b') s = .next t ∧
      Agrees { s with depth := { s.depth with channel := some (a', b') } } t) ∧
  (∀ (s : State) (a b a' b' : Bool), s.loader.powered = true → s.loader.oscillating = false →
    s.depth.channel = some (a, b) →
      ∃ t, exec (.encoderChannelChange a' b') s = .next t ∧ t.depth.channel = some (a', b') ∧
        t.depth.count =
          (if (a', b') = (b, !a) then if s.cfg.inverted then s.depth.count - 1 else s.depth.count + 1
           else if (a', b') = (!b, a) then if s.cfg.inverted then s.depth.count + 1 else s.depth.count - 1
           else s.depth.count) ∧
        ((a', b') ≠ (!a, !b) →
          Agrees { s with depth := { s.depth with channel := some (a', b'), count := t.depth.count } } t)) ∧
  ((0x7FFFFFFF#32 : Count) + 1).toInt = -2147483648 ∧ ((0x80000000#32 : Count) - 1).toInt = 2147483647 ∧
  (∀ s : State, ∃ t, exec .powerOn s = .next t ∧ t.depth.count = 0) ∧
  (∀ s : State, ∃ t, exec .warmReset s = .next t ∧ t.depth.count = s.depth.count)

/-- R53, R64: an illegal change of the channels sets FAULTY and UNVERIFIED, seen in the last sample set at once, and delivers one
ENCODER cause at a change from CLEAR in LISTEN, RUN or LISTEN-ONLY. The fault clears when 10 ms have passed since the last.
In every other case the causes stand. MODEL'S CHOICES: ENCODER_FAULT_CLEAR before then changes nothing (log entry 9), and the
indication and the verification act in every role, though the cause is a drum's alone (log entry 39). -/
def Obligations.EncoderFault : Prop :=
  (∀ (s : State) (a b : Bool), s.loader.powered = true → s.loader.oscillating = false → s.depth.channel = some (a, b) →
    ∃ t, exec (.encoderChannelChange (!a) (!b)) s = .next t ∧ t.depth.faultMs = some 0 ∧ t.depth.verified = false ∧
      t.lastSample.verified = false ∧ t.depth.count = s.depth.count ∧ BesideTrip s t ∧
      (s.live = true → s.isDrum = true → s.working = true → s.depth.faultMs = none → Delivered .encoder none s t) ∧
      (s.live = false ∨ s.isDrum = false ∨ s.working = false ∨ s.depth.faultMs ≠ none → t.safety = s.safety)) ∧
  (∀ (s : State) (n : Nat), s.loader.powered = true → s.loader.oscillating = false → s.depth.faultMs = some n →
    exec .encoderFaultClear s =
      .next (if 10 ≤ n then { s with depth := { s.depth with faultMs := none } } else s))

/-- R56 to R63, R38, R123: what a sample computes, in either order of R76, the correction interpolated by R59; the drum's own two
records, with the trip, the calls, the causes and the hold set as they stand after the sample; and the POSITION of the same
contents that it builds in RUN once its period has passed, and only then. -/
def Obligations.SampleSetAndPosition : Prop :=
  ∀ (s : State) (first : Bool), s.live = true → s.isDrum = true → s.working = true → s.depth.history.length ≤ 10 →
    let full := s.depth.history.length = 10
    let v : Int := if full then clampInt (-32767) 32767
      (((s.depth.count - s.depth.history.headD 0).toInt * s.cfg.upc).tdiv 100) else 0
    let rawU : Int := (s.depth.count.toInt * s.cfg.upc) / 1000 + s.depth.zeroOffset
    let raw := clampDepth rawU
    let c (page : Nat) : Int := s.depth.table.toList.getD page 0
    let p := raw.val / 65536
    let k : Int := if p < 63 then c p + ((c (p + 1) - c p) * (raw.val % 65536 : Nat)) / 65536 else c 63
    let corU : Int := if s.depth.correctionOn then raw.val + k else raw.val
    let cwU : Int := (s.cfg.cwSum : Int) - raw.val
    let still := if full then if v.natAbs ≤ 50 then min 65535 (s.depth.stationary + 10) else 0 else s.depth.stationary
    ∃ t, exec (.sample first) s = .next t ∧
      t.depth.sample = some
        { count := s.depth.count, speed := v, stationary := still, raw := raw, corrected := clampDepth corU,
          counterweight := clampDepth cwU,
          clamped := rawU != raw.val || corU != (clampDepth corU).val || cwU != (clampDepth cwU).val,
          verified := s.depth.verified, correctionOn := s.depth.correctionOn, modePending := s.depth.modePending,
          clearPending := s.depth.clearPending } ∧
      t.depth.history = (if full then s.depth.history.tail else s.depth.history) ++ [s.depth.count] ∧
      t.depth.stationary = still ∧ t.depth.count = s.depth.count ∧ t.depth.zeroOffset = s.depth.zeroOffset ∧
      t.depth.verified = s.depth.verified ∧ t.stations = s.stations ∧ t.gate = s.gate ∧ t.seq = s.seq ∧
      t.inputs = s.inputs ∧ t.cfg = s.cfg ∧ t.relay = s.relay ∧
      (∀ w, w ≠ s.cfg.winder → t.picture.carrying[w] = s.picture.carrying[w] ∧
        t.picture.counterweight[w] = s.picture.counterweight[w]) ∧
      t.picture.counterweight[s.cfg.winder] = some
        { current := true, depth := clampDepth cwU, speed := -v, moving := decide (50 < v.natAbs), seq := t.trip.positionSeq,
          age := 0, staleness := if 50 < v.natAbs then 150 else 1500 } ∧
      let built := s.phase = .run ∧
        ∀ n, s.trip.sincePosition = some n → (if 50 < v.natAbs ∨ t.tripOpen = true then 50 else 500) ≤ n + 10
      t.trip.positionSeq = (if built then s.trip.positionSeq + 1 else s.trip.positionSeq) ∧
      t.trip.sincePosition = (if built then some 0 else s.trip.sincePosition.map (· + 10)) ∧
      ∃ r, t.picture.carrying[s.cfg.winder] = some r ∧
        r = { current := true, skip := s.cfg.carriesSkip, depth := clampDepth corU, speed := v, vPerm := t.env.vPerm,
              number := t.trip.record.number, state := t.tripState,
              dest := if t.tripOpen then t.trip.record.details.map (·.dest) else t.trip.calls.head?.map (·.origin)
              verified := s.depth.verified, correctionOn := s.depth.correctionOn
              clamped := rawU != raw.val || corU != (clampDepth corU).val || cwU != (clampDepth cwU).val
              tripped := !t.safety.causes.isEmpty, moving := decide (50 < v.natAbs), callSet := r.callSet,
              holdSet := s.stations.holdSet, seq := t.trip.positionSeq, age := 0,
              staleness := if 50 < v.natAbs then 150 else 1500 } ∧
        (∀ n : Station, stationIn r.callSet n = true ↔ ∃ e ∈ t.trip.calls, e.origin = n) ∧
        (built → Offered s t (s.own (.position
          { winder := s.cfg.winder, seq := s.trip.positionSeq + 1, carrying := r.depth, counterweight := clampDepth cwU,
            speed := v, vPerm := r.vPerm, number := r.number, state := r.state, dest := r.dest, skip := r.skip,
            verified := r.verified, correctionOn := r.correctionOn, clamped := r.clamped, moving := r.moving,
            tripped := r.tripped, callSet := r.callSet, holdSet := r.holdSet })))

/-- R65 to R68: what the drum makes of a MARK. -/
def Obligations.MarkTaken : Prop :=
  ∀ (s : State) (h : Heading) (w : Winder) (d : Depth), Taken h (.mark w d) s → s.isDrum = true →
    let u := s.relayed h (.mark w d)
    ∃ t, exec (.markTaken h w d) s = .next t ∧
      (w ≠ s.cfg.winder ∨ s.depth.sample = none ∨ s.depth.faultMs ≠ none → Ends u t) ∧
      (∀ x, w = s.cfg.winder → s.depth.sample = some x → s.depth.faultMs = none →
        let e : Int := (d.val : Int) - x.corrected.val
        let p := pageOf x.raw
        let k : Fin 64 := if h63 : p.val < 63 then if x.raw.val % 65536 < 32768 then p else ⟨p.val + 1, by omega⟩ else p
        (s.depth.verified = false →
          Ends { u with depth := { s.depth with
            zeroOffset := clampInt (-8388608) 8388607 (s.depth.zeroOffset + e)
            verified := true } } t) ∧
        (s.depth.verified = true → s.cfg.disagreeLim < e.natAbs →
          Delivered .depthDisagree none u t ∧ BesideTrip u t ∧ t.depth.verified = false ∧
            t.lastSample.verified = false ∧ t.depth.zeroOffset = s.depth.zeroOffset) ∧
        (s.depth.verified = true → e.natAbs ≤ s.cfg.disagreeLim →
          (s.depth.correctionOn = true → x.speed.natAbs ≤ s.cfg.vLearn →
            let c : Int := clampInt (-4095) 4095 (s.depth.table[k] + clampInt (-50) 50 e)
            Ends { u with depth := { s.depth with table := put s.depth.table k c } } t) ∧
          (s.depth.correctionOn = false ∨ s.cfg.vLearn < x.speed.natAbs → Ends u t)))

/-- R69, R70: a change of the correction-off input and a press of the table-clear key act at once with no trip open, and are held
PENDING, with CORRECTION PENDING raised, while one is. -/
def Obligations.MaintenanceRequests : Prop :=
  ∀ s : State, s.live = true → s.isDrum = true → s.working = true →
    (∀ on, s.inputs.correctionOff ≠ on →
      let e := { s with inputs := { s.inputs with correctionOff := on } }
      ∃ t, exec (.correctionOffInputChange on) s = .next t ∧
        (s.depth.correctionOn = (!on) → Agrees { e with depth := { s.depth with modePending := false } } t) ∧
        (s.depth.correctionOn ≠ (!on) → s.tripOpen = false →
          Agrees { e with depth := { s.depth with correctionOn := !on, modePending := false } } t) ∧
        (s.depth.correctionOn ≠ (!on) → s.tripOpen = true →
          Agrees { e with depth := { s.depth with modePending := true } } t ∧ t.isPending .correctionPending = true)) ∧
    (∃ t, exec .tableClearKey s = .next t ∧
      (s.tripOpen = false → Agrees { s with depth := { s.depth with table := Vector.replicate 64 0 } } t) ∧
      (s.tripOpen = true → Agrees { s with depth := { s.depth with clearPending := true } } t ∧
        (s.depth.clearPending = false → t.isPending .correctionPending = true)))

/-! The envelope (chapter 5) -/

/-- R77 to R82, R85, R89: isqrt is exact; v_perm is the smallest of the class cap, 20,000 mm/s, the distance envelope and the zone
limit: a speed is not above it exactly if it is above none of them. The envelope and the zone approach are put as squares, and
a depth approaches the zone by Table 5-2. The threshold and the limit word follow v_perm, and it is 0 with no trip supervised. The
16 limit-word lines carry floor(v_perm / 10), lines 11 to 15 being 0 at every value; that they are 0 without power and in reset is
the MODEL'S CHOICE (log entry 16). -/
def Obligations.PermittedSpeed : Prop :=
  (∀ n, isqrt n ^ 2 ≤ n ∧ n < (isqrt n + 1) ^ 2) ∧
  (∀ (c : Params) (r : TripRecord) (t : TripDetails) (x : SampleSet),
    let here : Int := x.corrected.val
    let other : Int := x.counterweight.val
    let goal : Int := (supervision r t).val
    let rem : Int := match t.direction with | .down => goal - here | .up => here - goal
    let upper : Int := (c.cwSum / 2 : Nat) - (c.crossHw : Int)
    let lower : Int := (c.cwSum / 2 : Nat) + (c.crossHw : Int)
    let inside := (upper ≤ here ∧ here ≤ lower) ∨ (upper ≤ other ∧ other ≤ lower)
    let approaches (distance : Int) : Prop :=
      (t.direction = .down ∧ ((here < upper ∧ distance = upper - here) ∨ (lower < other ∧ distance = other - lower))) ∨
      (t.direction = .up ∧ ((lower < here ∧ distance = here - lower) ∨ (other < upper ∧ distance = upper - other)))
    ∀ n : Nat, n ≤ (permittedSpeed c r t x).val ↔
      n ≤ 20000 ∧ n ≤ (match t.cls with | .persons => c.vMen | .material => c.vMat | .ore => c.vOre | .inspection => c.vInsp) ∧
      (0 ≤ rem → (n : Int) ^ 2 ≤ c.vCreep ^ 2 + 2 * c.aRet * rem) ∧ (rem < 0 → n ≤ c.vCreep) ∧
      (c.vCross ≠ 0 → inside → n ≤ c.vCross) ∧
      (c.vCross ≠ 0 → ¬inside → ∀ distance, approaches distance → (n : Int) ^ 2 ≤ c.vCross ^ 2 + 2 * c.aRet * distance)) ∧
  (∀ (s : State) (d : TripDetails) (x : SampleSet), s.supervised = true → s.trip.record.details = some d →
    s.depth.sample = some x → (recompute s).env.vPerm = permittedSpeed s.cfg s.trip.record d x) ∧
  (∀ s : State, let e := (recompute s).env
    e.vThr = e.vPerm.val + e.vPerm.val / 16 + 50 ∧ e.limitWord = e.vPerm.val / 10 ∧
    (s.tripState = .idle ∨ s.tripState = .suspended → e.vPerm = 0)) ∧
  (∀ s : State, EnvelopeInv s → s.live = true → s.limitLines.toNat = s.env.vPerm.val / 10 ∧
    ∀ k : Nat, 11 ≤ k → s.limitLines.getLsbD k = false) ∧
  (∀ s : State, s.live = false → s.limitLines = 0)

/-- R77, R86 to R88: the full evaluation. With a trip supervised OVERSPEED is delivered at the second sample in a row beyond the
threshold, and OVERWIND at an overrun of more than o_allow; without a cause the warning and the count are as the speed says. With
no trip supervised the warning is OFF and the count 0. In both cases, whatever causes are listed, the shaft-limit state is as the
depth says, and its change from INSIDE to OUTSIDE delivers OVERWIND. What `permittedSpeed` is, PermittedSpeed says. R75, R76: a
SAMPLE takes the new sample set and makes this evaluation on it, before or after the Trip Controller's tests of TripTestsAtASample
and UnauthorisedMotion; in either order v_perm ends as that of the new set and the trip as it then stands. -/
def Obligations.FullEvaluation : Prop :=
  (∀ (s : State) (x : SampleSet), s.depth.sample = some x →
    let v := x.speed.natAbs
    let out := x.corrected.val < s.cfg.topLimit ∨ s.cfg.bottomLimit < x.corrected.val
    let crossed := out ∧ s.env.outside = false
    let t := fullEvaluation s
    (t.env.outside = true ↔ out) ∧ s.safety.causes <+: t.safety.causes ∧
    (s.supervised = false →
      t.env.warning = false ∧ t.env.count = 0 ∧ t.env.vPerm = 0 ∧ t.env.vThr = 50 ∧ t.env.limitWord = 0 ∧
      (crossed → Delivered .overwind none s t) ∧ (¬crossed → t.safety = s.safety ∧ t.trip = s.trip)) ∧
    (∀ d : TripDetails, s.supervised = true → s.trip.record.details = some d →
      let p := permittedSpeed s.cfg s.trip.record d x
      let beyond := p.val + p.val / 16 + 50 < v
      let goal : Int := (supervision s.trip.record d).val
      let overrun := (match d.direction with
        | .down => goal - x.corrected.val
        | .up => x.corrected.val - goal) < -(s.cfg.oAllow : Int)
      let overspeed := s.env.count = 1 ∧ beyond
      let overwind := overrun ∨ crossed
      (overwind → ¬overspeed → Delivered .overwind none s t) ∧ (overspeed → ¬overwind → Delivered .overspeed none s t) ∧
      (s.safety.causes = [] →
        ((∃ c ∈ t.safety.causes, c.kind = .overspeed) ↔ overspeed) ∧
        ((∃ c ∈ t.safety.causes, c.kind = .overwind) ↔ overwind) ∧
        (overspeed ∨ overwind → t.tripState = .idle ∧ t.env.vPerm = 0 ∧ t.env.warning = false)) ∧
      (¬(overspeed ∨ overwind) →
        t.env.vPerm = p ∧ (t.env.warning = true ↔ p.val < v) ∧
        (s.working = true → p.val < v → s.env.warning = false → t.isPending .overspeedWarning = true) ∧
        t.env.count = (if beyond then min 2 (s.env.count + 1) else 0) ∧ t.safety = s.safety ∧ t.trip = s.trip))) ∧
  (∀ (s : State) (first : Bool), s.live = true → s.isDrum = true → s.working = true →
    let u := takeSample s
    let m := if first then tripSample u.lastSample (fullEvaluation u) else fullEvaluation (tripSample s.lastSample u)
    ∃ t, exec (.sample first) s = .next t ∧ t.depth = m.depth ∧ t.env = m.env ∧ t.safety = m.safety ∧
      t.trip = { m.trip with positionSeq := t.trip.positionSeq, sincePosition := t.trip.sincePosition } ∧
      (∀ d x, t.supervised = true → t.trip.record.details = some d → t.depth.sample = some x →
        t.env.vPerm = permittedSpeed s.cfg t.trip.record d x) ∧
      t.env.vThr = t.env.vPerm.val + t.env.vPerm.val / 16 + 50 ∧ t.env.limitWord = t.env.vPerm.val / 10 ∧
      (t.supervised = false → t.env.vPerm = 0 ∧ t.env.warning = false ∧ t.env.count = 0))

/-! Trips (chapter 6) -/

/-- R97, R98, R112: a GO that passes every test opens a trip from IDLE with the next number, or re-arms the SUSPENDED one with its
number: ARMED, the permit on, the arm timer from 0, the WINDING offered, the auto-start pulse if the auto flag is set, and the
partial evaluation of R76. R124, R119: the permit output is on in ARMED and RUNNING alone, and the auto-start output during its
pulse alone, neither in reset nor in INIT; that they are off without power too is the MODEL'S CHOICE for the second (log entry
16). -/
def Obligations.AcceptedGo : Prop :=
  (∀ s : State,
    (s.permit = true ↔ s.live = true ∧ s.phase ≠ .init ∧ (s.tripState = .armed ∨ s.tripState = .running)) ∧
    (s.autoStart = true ↔ s.live = true ∧ s.phase ≠ .init ∧ s.trip.autoStartMs ≠ none)) ∧
  ∀ (s : State) (h : Heading) (w : Winder) (dest : Station) (cls : TripClass) (auto : Bool),
    Taken h (.signal w dest cls .go auto) s → s.isDrum = true → w = s.cfg.winder →
    firstRefusal (goTests s h.origin dest cls auto) = none →
      let u := s.relayed h (.signal w dest cls .go auto)
      let target := s.stations.entries[dest].level.getD 0
      let number := if s.tripState = .suspended then s.trip.record.number else s.trip.record.number + 1
      ∃ t, exec (.signalGo h w dest cls auto) s = .next t ∧
        t.trip.record =
          { number := number, state := .armed,
            details := some { cls := cls, auto := auto, origin := h.origin, dest := dest, target := target,
                              direction := if target < s.lastSample.corrected then .up else .down },
            stopDepth := none, armMs := some 0, result := none } ∧
        t.trip.calls = s.trip.calls ∧ t.trip.autoStartMs = (if auto then some 0 else none) ∧ t.permit = true ∧
        (∀ d x, t.trip.record.details = some d → s.depth.sample = some x → PartlyEvaluated x s t d) ∧
        t.safety = s.safety ∧ t.depth = s.depth ∧ BesideTrip u t ∧
        Offered u t (s.own (.winding
          { winder := w, number := number, state := .trip .armed, cls := cls, auto := auto, origin := h.origin, dest := dest,
            depth := target, outcome := .none, blocking := none }))

/-- R97, R99: a GO is refused with the cause of the first test of Table 6-3 that fails: the trip record, the call list and every
output stand, and the refusal is offered in RUN, with the lowest station that blocks the path for PATH_BLOCKED. A GO for
another winder is not the drum's. MODEL'S CHOICE (log entry 31): `goTests` refuses DEST_UNKNOWN also a destination whose entry
has no level depth, which no run reaches. -/
def Obligations.RefusedGo : Prop :=
  ∀ (s : State) (h : Heading) (w : Winder) (dest : Station) (cls : TripClass) (auto : Bool),
    Taken h (.signal w dest cls .go auto) s → s.isDrum = true →
      let u := s.relayed h (.signal w dest cls .go auto)
      let target := s.stations.entries[dest].level.getD 0
      let lo : Int := (min s.lastSample.corrected.val target.val : Nat) - s.cfg.pathGuard
      let hi : Int := (max s.lastSample.corrected.val target.val : Nat) + s.cfg.pathGuard
      (∀ c, w = s.cfg.winder → firstRefusal (goTests s h.origin dest cls auto) = some c →
        ∃ t, exec (.signalGo h w dest cls auto) s = .next t ∧ t.trip = s.trip ∧ t.env = s.env ∧ t.safety = s.safety ∧
          t.depth = s.depth ∧ BesideTrip u t ∧
          (s.phase = .run → Offered u t (s.own (.winding
            { winder := w, number := s.trip.record.number, state := .refusal, cls := cls, auto := auto, origin := h.origin,
              dest := dest, depth := target, outcome := .refusal c,
              blocking := if c = .pathBlocked then stationNumbers.find? (fun n => s.blocks lo hi n) else none }))) ∧
          (s.phase ≠ .run → t.portA.tx = s.portA.tx ∧ t.portB.tx = s.portB.tx)) ∧
      (w ≠ s.cfg.winder → ∃ t, exec (.signalGo h w dest cls auto) s = .next t ∧ Ends u t)

/-- R95, R105, R108, R111: a STOP from any station and a CANCEL from the trip's origin close an ARMED trip CANCELLED and bring a
RUNNING one to STOPPING; a CANCEL from any station closes a SUSPENDED one; every other STOP and CANCEL is ignored, those in IDLE
before the first trip after a reset among them. The destination and class bytes and the auto flag are not read. -/
def Obligations.StopAndCancel : Prop :=
  ∀ (s : State) (h : Heading) (w : Winder) (dest : Station) (cls : TripClass) (auto : Bool), s.isDrum = true →
      (Taken h (.signal w dest cls .stop auto) s →
        let u := s.relayed h (.signal w dest cls .stop auto)
        ∃ t, exec (.signalStop h w dest cls auto) s = .next t ∧ BesideTrip u t ∧
          (w = s.cfg.winder → s.tripState = .armed → Closed .cancelled u t) ∧
          (∀ d, s.trip.record.details = some d → w = s.cfg.winder → s.tripState = .running →
            Stopping u.lastSample u t d) ∧
          (w ≠ s.cfg.winder ∨ s.tripState = .idle ∨ s.tripState = .stopping ∨ s.tripState = .suspended → Ends u t)) ∧
      (Taken h (.signal w dest cls .cancel auto) s →
        let u := s.relayed h (.signal w dest cls .cancel auto)
        ∃ t, exec (.signalCancel h w dest cls auto) s = .next t ∧ BesideTrip u t ∧
          (∀ d, s.trip.record.details = some d → w = s.cfg.winder → h.origin = d.origin →
            (s.tripState = .armed → Closed .cancelled u t) ∧
            (s.tripState = .running → Stopping u.lastSample u t d)) ∧
          (w = s.cfg.winder → s.tripState = .suspended → Closed .cancelled u t) ∧
          (w ≠ s.cfg.winder ∨ s.tripState = .idle ∨ s.tripState = .stopping ∨
            (s.tripState ≠ .suspended ∧ ∀ d, s.trip.record.details = some d → h.origin ≠ d.origin) → Ends u t))

/-- R104, R105, R119: the arm timer's expiry closes an ARMED trip EXPIRED; the auto-enable input going off closes an ARMED trip
whose auto flag is set CANCELLED and no other, also before the first trip after a reset, and going on it changes no trip; the
auto-start output goes off after its 200 ms. MODEL'S CHOICE (log entry 9): an expiry before its time changes nothing. -/
def Obligations.TripTimersAndAutoEnable : Prop :=
  ∀ s : State, s.live = true → s.isDrum = true → s.working = true →
    (∀ n, s.tripState = .armed → s.trip.record.armMs = some n →
      ∃ t, exec .armTimerExpiry s = .next t ∧
        (s.cfg.armTimeout * 1000 ≤ n → Closed .expired s t ∧ BesideTrip s t ∧ t.isPending .tripExpired = true) ∧
        (n < s.cfg.armTimeout * 1000 → Quiet s t)) ∧
    (s.inputs.autoEnable = true →
      let e := { s with inputs := { s.inputs with autoEnable := false } }
      ∃ t, exec (.autoEnableInputChange false) s = .next t ∧
        (∀ d, s.trip.record.details = some d → s.tripState = .armed → d.auto = true →
          Closed .cancelled e t ∧ BesideTrip e t) ∧
        (s.tripState ≠ .armed ∨ (∀ d, s.trip.record.details = some d → d.auto = false) → Quiet e t)) ∧
    (s.inputs.autoEnable = false → ∃ t, exec (.autoEnableInputChange true) s = .next t ∧
      Quiet { s with inputs := { s.inputs with autoEnable := true } } t) ∧
    (∀ n, s.trip.autoStartMs = some n →
      ∃ t, exec .autoStartPulseEnd s = .next t ∧
        (200 ≤ n → Quiet { s with trip := { s.trip with autoStartMs := none } } t ∧ t.autoStart = false) ∧
        (n < 200 → Quiet s t))

/-- R120, R121: a CALL REGISTER raises the class of its origin's entry, or joins a list that has room, or is dropped; a CALL
CANCEL removes its origin's entry; an entry leaves when it has been registered for call_life. Order is kept. The classes rise in
the order INSPECTION, ORE, MATERIAL, PERSONS. MODEL'S CHOICE (log entry 9): a CALL_LIFE_EXPIRY before call_life changes
nothing. -/
def Obligations.CallList : Prop :=
  (classRank .inspection < classRank .ore ∧ classRank .ore < classRank .material ∧
    classRank .material < classRank .persons) ∧
  ∀ s : State, s.isDrum = true →
    (∀ (h : Heading) (cls : TripClass), Taken h (.call s.cfg.winder cls .register) s →
      let u := s.relayed h (.call s.cfg.winder cls .register)
      ∃ t, exec (.callRegister h s.cfg.winder cls) s = .next t ∧
        ((∃ e ∈ s.trip.calls, e.origin = h.origin) →
          Ends { u with trip := { s.trip with calls := s.trip.calls.map (fun e =>
            if e.origin = h.origin ∧ classRank e.cls < classRank cls then { e with cls := cls } else e) } } t) ∧
        ((¬∃ e ∈ s.trip.calls, e.origin = h.origin) → s.trip.calls.length < 8 →
          Ends { u with trip := { s.trip with calls := s.trip.calls ++
            [{ origin := h.origin, cls := cls, registered := s.clock.now }] } } t) ∧
        ((¬∃ e ∈ s.trip.calls, e.origin = h.origin) → 8 ≤ s.trip.calls.length → Ends u t)) ∧
    (∀ (h : Heading) (cls : TripClass), Taken h (.call s.cfg.winder cls .cancel) s →
      ∃ t, exec (.callCancel h s.cfg.winder cls) s = .next t ∧
        Ends { s.relayed h (.call s.cfg.winder cls .cancel) with
          trip := { s.trip with calls := s.trip.calls.filter (fun e => e.origin != h.origin) } } t) ∧
    (∀ n : Station, s.live = true →
      ∃ t, exec (.callLifeExpiry n) s = .next t ∧
        Quiet { s with trip := { s.trip with calls := s.trip.calls.filter (fun e =>
          !(e.origin == n && decide (s.cfg.callLife * 60000 ≤ s.clock.now - e.registered))) } } t)

/-- R103, R107, R110: the Trip Controller's tests at a sample: ARMED to RUNNING at motion in the trip's direction, the trip just
become RUNNING judged by Table 6-4 on its region ahead, and left RUNNING with its WINDING where no station blocks that region;
WRONG_DIRECTION at motion against it; arrival in the destination window from RUNNING and STOPPING; SUSPENDED at rest elsewhere
from STOPPING; and otherwise the trip's range judged by Table 6-4. R76: each change of the state brings the partial evaluation.
R84: at a SAMPLE an entry to STOPPING takes its stop depth from the new sample set where the Envelope Unit acts first, and from
the one before where the Trip Controller does. -/
def Obligations.TripTestsAtASample : Prop :=
  (∀ (s : State) (x before : SampleSet) (d : TripDetails), TripInv s → s.depth.sample = some x →
    s.trip.record.details = some d →
      let t := tripSample before s
      let toward := (d.direction = .down ∧ 50 < x.speed) ∨ (d.direction = .up ∧ x.speed < -50)
      let stands := x.speed.natAbs ≤ 50 ∧ (d.target.val : Int) - s.cfg.landingHw ≤ x.corrected.val ∧
        x.corrected.val ≤ d.target.val + s.cfg.landingHw
      (s.tripState = .armed → toward →
        let u := { s with trip := { s.trip with
          record := { s.trip.record with state := .running, armMs := none }
          autoStartMs := none } }
        t.trip.autoStartMs = none ∧ PathJudged before u t d ∧
          (∀ lo hi, judgedOver u d = some (lo, hi) → (∀ n, ¬Withdrawn u lo hi n ∧ ¬Silent u lo hi n) →
            t.trip.record = u.trip.record ∧ PartlyEvaluated x u t d ∧ (s.phase = .run →
              Offered u t (u.own (.winding { winder := u.cfg.winder, number := u.trip.record.number,
                                             state := .trip .running, cls := d.cls, auto := d.auto, origin := d.origin,
                                             dest := d.dest, depth := d.target, outcome := .none, blocking := none }))))) ∧
      (s.tripState = .armed → 50 < x.speed.natAbs → ¬toward → Delivered .wrongDirection none s t) ∧
      (s.tripState = .armed → x.speed.natAbs ≤ 50 → PathJudged before s t d) ∧
      (s.tripState = .running → stands → Closed .arrived s t) ∧
      (s.tripState = .running → ¬stands → PathJudged before s t d) ∧
      (s.tripState = .stopping → stands → Closed .arrived s t) ∧
      (s.tripState = .stopping → ¬stands → x.speed.natAbs ≤ 50 →
        t.trip.record = { s.trip.record with state := .suspended, stopDepth := none } ∧
        t.env = { s.env with vPerm := 0, vThr := 50, limitWord := 0, warning := false, count := 0 }) ∧
      (s.tripState = .stopping → 50 < x.speed.natAbs → PathJudged before s t d)) ∧
  (∀ (s t : State) (first : Bool) (d : TripDetails), TripInv s → exec (.sample first) s = .next t →
    s.tripState = .armed ∨ s.tripState = .running → s.trip.record.details = some d → t.tripState = .stopping →
      ∀ old new, s.depth.sample = some old → t.depth.sample = some new →
        let x := if first then new else old
        t.trip.record.stopDepth = some (stopDepthOf s.cfg d.direction x.speed x.corrected))

/-- R115: the unauthorised-motion indication at a sample, and the cause that its change to true delivers, with the sample's
corrected depth and speed and the trip number. A SAMPLE leaves it as this test last found it. -/
def Obligations.UnauthorisedMotion : Prop :=
  (∀ (s : State) (x : SampleSet), s.depth.sample = some x →
    let now := (s.tripState = .idle ∨ s.tripState = .suspended) ∧ s.safety.causes = [] ∧ 150 < x.speed.natAbs
    let t := motionTest s
    (t.trip.unauthorised = true ↔ now) ∧
    (now → s.trip.unauthorised = false → Delivered .unauthorisedMotion none s t ∧
      t.safety.causes.map (fun c => (c.kind, c.depth, c.speed, c.number)) =
        [(.unauthorisedMotion, some x.corrected, some x.speed, s.trip.record.number)]) ∧
    (¬now ∨ s.trip.unauthorised = true → t.safety = s.safety)) ∧
  (∀ (s : State) (x : SampleSet), s.live = true → s.isDrum = true → s.working = true → s.safety.causes = [] →
    s.tripState = .idle → s.trip.unauthorised = false → s.cfg.topLimit = 0 → 4194303 ≤ s.cfg.bottomLimit →
    (takeSample s).depth.sample = some x →
      ∀ first, ∃ t, exec (.sample first) s = .next t ∧ (t.trip.unauthorised = true ↔ 150 < x.speed.natAbs) ∧
        ((∃ c ∈ t.safety.causes, c.kind = .unauthorisedMotion) ↔ 150 < x.speed.natAbs))

/-! The safety trip (chapter 9) -/

/-- R164 to R168: a HALT that names the drum's winder, and the local emergency stop going active, are delivered and recorded,
close an open trip, and assert the brake trip. A HALT that does not name it, and the key turned back, change nothing. R161 and
section 11.5: the brake trip output is released in RUN with an empty cause list alone, and asserted in every other phase, in reset
and without power. -/
def Obligations.HaltAndLocalStop : Prop :=
  (∀ s : State, s.brakeTrip = false ↔ s.live = true ∧ s.phase = .run ∧ s.safety.causes = []) ∧
  ∀ s : State, s.isDrum = true →
    (∀ (h : Heading) (ws : WinderSet) (reason : HaltReason), Taken h (.halt ws reason) s →
      let u := s.relayed h (.halt ws reason)
      ∃ t, exec (.haltTaken h ws reason) s = .next t ∧
        (winderIn ws s.cfg.winder = true → Delivered (.halt reason) (some h.origin) u t ∧ BesideTrip u t) ∧
        (winderIn ws s.cfg.winder = false → Ends u t)) ∧
    (∀ active, s.live = true → s.working = true → s.inputs.localEstop ≠ active →
      let e := { s with inputs := { s.inputs with localEstop := active } }
      ∃ t, exec (.localEstopInputChange active) s = .next t ∧
        (active = true → Delivered .estopLocal none e t ∧ BesideTrip e t) ∧ (active = false → Quiet e t))

/-- R170 to R172: a press of the trip reset key with causes listed is refused with the first condition of Table 9-3 that fails,
which leaves the list and the brake trip, or empties the list and releases the brake trip, and opens a SUSPENDED INSPECTION
trip where the conveyance stands at no level; SAFETY TRIP and RESET REFUSED leave at an accepted press (Table 10-2). With an
empty list it changes nothing; that this holds in LISTEN-ONLY too, where Table 9-4 has the press refused PHASE, is the MODEL'S
CHOICE (log entry 47). -/
def Obligations.TripReset : Prop :=
  ∀ s : State, s.live = true → s.isDrum = true → s.working = true →
    (s.safety.causes = [] → ∃ t, exec .tripResetKey s = .next t ∧ Quiet s t) ∧
    (∀ r, s.safety.causes ≠ [] → ((resetTests s).find? (·.1)).map (·.2) = some r →
      ∃ t, exec .tripResetKey s = .next t ∧ Agrees { s with safety := { s.safety with refusal := some r } } t ∧
        t.isPending .resetRefused = true ∧ t.brakeTrip = true) ∧
    (s.safety.causes ≠ [] → s.tripState = .idle → (resetTests s).find? (·.1) = none →
      let d := s.lastSample.corrected
      let standing := ∃ n : Station, ∃ l,
        (s.stations.entries[n].role = some .landing ∨ s.stations.entries[n].role = some .loading) ∧
        s.stations.entries[n].level = some l ∧ (l.val : Int) - s.cfg.landingHw ≤ d.val ∧ d.val ≤ l.val + s.cfg.landingHw
      ∃ t, exec .tripResetKey s = .next t ∧ BesideTrip s t ∧
        t.safety = { causes := [], causesLost := false, refusal := none } ∧ t.brakeTrip = false ∧ t.depth = s.depth ∧
        t.isPending .safetyTrip = false ∧ t.isPending .resetRefused = false ∧
        (standing → t.trip = s.trip) ∧
        (¬standing → t.trip.record =
            { number := s.trip.record.number + 1, state := .suspended,
              details := some { cls := .inspection, auto := false, origin := s.cfg.station, dest := s.cfg.station,
                                target := d, direction := .down },
              stopDepth := none, armMs := none, result := none } ∧
          Offered s t (s.own (.winding
            { winder := s.cfg.winder, number := s.trip.record.number + 1, state := .trip .suspended, cls := .inspection,
              auto := false, origin := s.cfg.station, dest := s.cfg.station, depth := d, outcome := .none,
              blocking := none }))))

/-! The landing station (chapter 7) -/

/-- R128 to R131: what a change of a gate switch or of a lock contact makes of its gate record, in RUN and LISTEN-ONLY. A gate
opened under a LOCKED record is FORCED, with its HALT and its event. A closed gate of an OPEN record becomes RELEASABLE under
the landing condition in RUN, LOCKED under an engaged lock, and stays OPEN otherwise. MODEL'S CHOICE (log entry 22): in
LISTEN-ONLY the landing condition counts as not holding, so a closed gate locks though a conveyance stands there. R127 to R130,
R147: in RUN the landing condition of a served winder is judged again at an accepted POSITION of the winder and at its record's
expiry, and where it has changed, a LOCKED record becomes RELEASABLE as it comes to hold, a RELEASABLE one LOCKED with its settle
timer from 0 as it ends, an OPEN one is judged again, and a FORCED one stands; in any other phase, and where the condition is as
it was, no record changes. -/
def Obligations.GateSwitchAndLock : Prop :=
  (∀ (s : State) (w : Winder), s.hasGates = true →
    let g := s.gate.records[w]
    let closed := s.inputs.gateClosed[w] = true
    let judged (holds : Bool) (t : State) : Prop :=
      let changed := s.serves w = true ∧ s.phase = .run ∧ holds ≠ s.landingCondition w
      (∀ v, v ≠ w → t.gate.records[v] = s.gate.records[v]) ∧ (¬changed → t.gate.records[w] = g) ∧
      (changed → t.gate.records[w] =
        match g.state with
        | .locked => if holds then { state := .releasable, settleMs := none } else g
        | .releasable => if holds then g else { state := .locked, settleMs := some 0 }
        | .opened =>
          if closed ∧ holds = true then { state := .releasable, settleMs := none }
          else if closed ∧ s.inputs.lockEngaged[w] = true then { state := .locked, settleMs := none }
          else g
        | .forced => g)
    (∀ (h : Heading) (r : PositionReport), Taken h (.position r) s → s.acceptsPosition r = true → r.winder = w →
      ∃ t, exec (.positionTaken h r) s = .next t ∧
        judged (decide (r.speed.natAbs ≤ 50 ∧ (s.cfg.level.val : Int) - s.cfg.landingHw ≤ r.carrying.val ∧
          r.carrying.val ≤ s.cfg.level.val + s.cfg.landingHw ∧ (r.state = .idle ∨ r.state = .suspended))) t) ∧
    (∀ x, s.live = true → s.working = true → s.picture.carrying[w] = some x → x.current = true → x.staleness ≤ x.age →
      ∃ t, exec (.conveyanceRecordExpiry w) s = .next t ∧ judged false t)) ∧
  ∀ (s : State) (w : Winder), s.live = true → s.serves w = true → s.working = true → s.phase ≠ .listen →
    let g := s.gate.records[w]
    let judged (closed engaged : Bool) : GateRecord :=
      if closed = true ∧ s.phase = .run ∧ s.landingCondition w = true then { state := .releasable, settleMs := none }
      else if closed = true ∧ engaged = true then { state := .locked, settleMs := none }
      else g
    (∀ closed, s.inputs.gateClosed[w] ≠ closed →
      ∃ t, exec (.gateSwitchChange w closed) s = .next t ∧
        BesideGates { s with inputs := { s.inputs with gateClosed := put s.inputs.gateClosed w closed } } t ∧
        t.gate.signal = s.gate.signal ∧ t.gate.calls = s.gate.calls ∧
        t.gate.records = put s.gate.records w
          (match g.state with
            | .locked => if closed then g else { state := .forced, settleMs := none }
            | .releasable => if closed then g else { state := .opened, settleMs := none }
            | .opened => judged closed s.inputs.lockEngaged[w]
            | .forced => g) ∧
        (g.state = .locked → closed = false → t.isPending .gateForced = true ∧
          (s.phase = .run → Offered s t (s.own (.halt (BitVec.twoPow 4 w.val) .gateForced))))) ∧
    (∀ engaged, s.inputs.lockEngaged[w] ≠ engaged →
      ∃ t, exec (.lockContactChange w engaged) s = .next t ∧
        BesideGates { s with inputs := { s.inputs with lockEngaged := put s.inputs.lockEngaged w engaged } } t ∧
        t.gate.signal = s.gate.signal ∧ t.gate.calls = s.gate.calls ∧
        t.gate.records = put s.gate.records w
          (match g.state with
            | .locked => if engaged then { state := .locked, settleMs := none } else g
            | .releasable => g
            | .opened => judged s.inputs.gateClosed[w] engaged
            | .forced => g))

/-- R133, R134, R154: the lock-release outputs, the clear flags, the qualified flag and the clear set, from the records and the
inputs. R135: a change of the ASSENT contents in RUN originates an ASSENT. R134, R135: the lock settle timer stops at 500 ms and
the record stays LOCKED; the ASSENT timer at 1,000 ms in RUN originates an ASSENT with the present contents and starts again.
MODEL'S CHOICES: before its time neither expiry does anything (log entry 9); outside RUN and LISTEN-ONLY the clear flag is 0
(log entry 22), and in LISTEN-ONLY it is judged also where the station has not been in RUN (log entry 44); one ASSENT at the end
of a command that changes the contents (log entry 21); without power every lock release is off (log entry 16). -/
def Obligations.ClearSetAndAssent : Prop :=
  (∀ (s : State) (w : Winder), s.hasGates = true → winderIn s.cfg.served w = true →
    let g := s.gate.records[w]
    let condition := ∃ x, s.picture.carrying[w] = some x ∧ x.current = true ∧ x.speed.natAbs ≤ 50 ∧
      (s.cfg.level.val : Int) - s.cfg.landingHw ≤ x.depth.val ∧ x.depth.val ≤ s.cfg.level.val + s.cfg.landingHw ∧
      (x.state = .idle ∨ x.state = .suspended)
    let flag := g.state = .releasable ∨ (g.state = .locked ∧ (s.inputs.lockEngaged[w] = true ∨ g.settleMs ≠ none))
    (s.lockRelease w = true ↔
      s.live = true ∧ s.phase = .run ∧ (g.state = .releasable ∨ (g.state = .opened ∧ condition))) ∧
    (s.phase = .run ∨ s.phase = .listenOnly → (winderIn s.clearSet w = true ↔ flag ∧
      (s.isLoading = true → w = s.cfg.tipWinder →
        s.inputs.doorClosed = true ∧ s.inputs.spillage = false ∧ s.seq.cycle ≠ .discharge))) ∧
    (s.phase ≠ .run → s.phase ≠ .listenOnly → winderIn s.clearSet w = false)) ∧
  (∀ (s : State) (w : Winder), winderIn s.cfg.served w = false ∨ s.hasGates = false →
    s.lockRelease w = false ∧ winderIn s.clearSet w = false) ∧
  (∀ s : State, s.assentContents =
    { level := s.cfg.level, clear := s.clearSet, hold := s.inputs.hold, estop := s.inputs.estop,
      lineDegraded := s.lineDegraded, relayDrop := s.cfg.repeater && (s.relay.upDrop || s.relay.downDrop) }) ∧
  (∀ (c : Instr) (s t : State), StartInv s → s.live = true → s.hasGates = true → s.phase = .run → exec c s = .next t →
    t.phase = .run → t.assentContents ≠ s.assentContents → t.gate.assentMs = some 0 ∧
      (s.portA.tx.entries.length ≤ 3 → t.portA.tx.holds t.assentFrame)) ∧
  (∀ s : State, s.live = true →
    (∀ (w : Winder) (n : Nat), s.gateState w = .locked → s.gate.records[w].settleMs = some n →
      ∃ t, exec (.lockSettleTimerExpiry w) s = .next t ∧
        (500 ≤ n → BesideGates s t ∧ t.gate.signal = s.gate.signal ∧ t.gate.calls = s.gate.calls ∧
          t.gate.records = put s.gate.records w { state := .locked, settleMs := none }) ∧
        (n < 500 → Quiet s t)) ∧
    (∀ n, s.hasGates = true → s.phase = .run → s.gate.assentMs = some n →
      ∃ t, exec .assentTimerExpiry s = .next t ∧
        (1000 ≤ n → Agrees s t ∧ t.gate.assentMs = some 0 ∧ Offered s t s.assentFrame) ∧
        (n < 1000 → Quiet s t)))

/-- R137, with R138 and R139: in RUN each of SEND, STOP and CANCEL originates a SIGNAL with the selected winder, whichever it is,
and the destination and class read at the press. SEND sets the signal record AWAITING and clears its events; STOP and CANCEL
leave it. In any other phase no signal or call key does anything. A selector moved later changes no frame. -/
def Obligations.SignalKeys : Prop :=
  ∀ (s : State) (dest : Station) (cls : TripClass), s.live = true →
    let w := s.inputs.winderSelector
    (s.hasGates = true → s.phase = .run →
      (∃ t, exec (.sendKey dest cls) s = .next t ∧ Offered s t (s.own (.signal w dest cls .go false)) ∧
        BesideGates s t ∧ t.seq = s.seq ∧ t.gate.records = s.gate.records ∧ t.gate.calls = s.gate.calls ∧
        t.gate.signal = { status := .awaiting, winder := some w, number := none, cause := none, replyMs := some 0 } ∧
        t.isPending .refused = false ∧ t.isPending .expired = false ∧ t.isPending .noReply = false) ∧
      (∃ t, exec (.stopKey dest cls) s = .next t ∧ Offered s t (s.own (.signal w dest cls .stop false)) ∧ Agrees s t) ∧
      (∃ t, exec (.cancelKey dest cls) s = .next t ∧ Offered s t (s.own (.signal w dest cls .cancel false)) ∧ Agrees s t)) ∧
    (s.phase ≠ .run → ∀ k, k = .sendKey dest cls ∨ k = .stopKey dest cls ∨ k = .cancelKey dest cls ∨ k = .callKey cls →
      ∃ t, exec k s = .next t ∧ Quiet s t) ∧
    (∀ w', w' ≠ w → ∃ t, exec (.winderSelectorChange w') s = .next t ∧
      Quiet { s with inputs := { s.inputs with winderSelector := w' } } t)

/-- R142: a press of CALL in RUN. From NONE it sends REGISTER and the record becomes SENT with miss count 0; from any other
status it sends CANCEL and the record becomes NONE, and from NOT REGISTERED the winder leaves the event's winder set. -/
def Obligations.CallKeyPressed : Prop :=
  ∀ (s : State) (cls : TripClass), s.live = true → s.hasGates = true → s.phase = .run →
    let w := s.inputs.winderSelector
    let c := s.gate.calls[w]
    ∃ t, exec (.callKey cls) s = .next t ∧ BesideGates s t ∧ t.seq = s.seq ∧ t.gate.records = s.gate.records ∧
      t.gate.signal = s.gate.signal ∧
      (c.status = .none → t.gate.calls = put s.gate.calls w { status := .sent, misses := 0 } ∧
        Offered s t (s.own (.call w cls .register))) ∧
      (c.status ≠ .none → t.gate.calls = put s.gate.calls w { c with status := .none } ∧
        Offered s t (s.own (.call w cls .cancel))) ∧
      t.panel.callNotRegistered =
        (if c.status = .notRegistered then winderLeave s.panel.callNotRegistered w else s.panel.callNotRegistered) ∧
      (t.panel.callNotRegistered = 0 → t.isPending .callNotRegistered = false)

/-- R140, R141 (Table 7-2): what a WINDING makes of the signal record, and the reply timer at 2,000 ms. The gate records and call
records are not touched. MODEL'S CHOICES: a refusal that carries no cause makes the record REFUSED with none (log entry 43); the
trip number is kept in REFUSED (log entry 25); any frame of the record's winder and number with another origin, a refusal too,
ends an ACCEPTED record (log entry 24); and the expiry before 2,000 ms changes nothing (log entry 9). -/
def Obligations.SignalRecordReports : Prop :=
  ∀ s : State, s.hasGates = true →
    (∀ (h : Heading) (r : WindingReport), Taken h (.winding r) s →
      let g := s.gate.signal
      let same := g.number = some r.number
      let expired := r.outcome = .result .expired
      let becomes (st : SignalStatus) (n : Option TripNumber) (c : Option RefusalCause) : SignalRecord :=
        { status := st, winder := g.winder, number := n, cause := c, replyMs := none }
      ∃ t, exec (.windingTaken h r) s = .next t ∧ BesideGates (s.relayed h (.winding r)) t ∧
        t.gate.records = s.gate.records ∧ t.gate.calls = s.gate.calls ∧
        (g.winder = some r.winder → r.origin = s.cfg.station →
          (r.state = .refusal → t.isPending .refused = true ∧ t.gate.signal =
            becomes .refused g.number (match r.outcome with | .refusal c => some c | _ => none)) ∧
          (∀ st, r.state = .trip st → st ≠ .idle → t.gate.signal = becomes .accepted (some r.number) none) ∧
          (r.state = .trip .idle →
            ((g.status = .awaiting ∨ g.status = .noReply) ∨ (g.status = .accepted ∧ same) →
              (expired → t.gate.signal = becomes .expired (some r.number) none ∧ t.isPending .expired = true) ∧
              (¬expired → t.gate.signal = becomes .idle (some r.number) none)) ∧
            (g.status = .idle → same → expired →
              t.gate.signal = becomes .expired (some r.number) none ∧ t.isPending .expired = true) ∧
            ((g.status = .accepted ∧ ¬same) ∨ (g.status = .idle ∧ ¬(same ∧ expired)) ∨ g.status = .refused ∨
              g.status = .expired → t.gate.signal = g))) ∧
        (g.winder = some r.winder → r.origin ≠ s.cfg.station →
          t.gate.signal = if g.status = .accepted ∧ same then becomes .idle g.number none else g) ∧
        (g.winder ≠ some r.winder → t.gate.signal = g)) ∧
    (∀ n, s.live = true → s.working = true → s.gate.signal.status = .awaiting → s.gate.signal.replyMs = some n →
      ∃ t, exec .replyTimerExpiry s = .next t ∧
        (2000 ≤ n → t.isPending .noReply = true ∧ Agrees { s with gate := { s.gate with
          signal := { s.gate.signal with status := .noReply, replyMs := none } } } t) ∧
        (n < 2000 → Quiet s t))

/-- R141, R143 (Table 7-3): what an accepted POSITION makes of the call record of its winder and of the signal record. The other
call records stand. -/
def Obligations.CallRecordJudged : Prop :=
  ∀ (s : State) (h : Heading) (r : PositionReport), Taken h (.position r) s → s.hasGates = true →
    s.acceptsPosition r = true →
      let c := s.gate.calls[r.winder]
      let listed := stationIn r.callSet s.cfg.station = true
      let g := s.gate.signal
      ∃ t, exec (.positionTaken h r) s = .next t ∧
        (∀ w, w ≠ r.winder → t.gate.calls[w] = s.gate.calls[w]) ∧
        (c.status = .none → t.gate.calls[r.winder] = c) ∧
        (c.status = .sent →
          (listed → t.gate.calls[r.winder] = { c with status := .listed }) ∧
          (¬listed → c.misses = 0 → t.gate.calls[r.winder] = { status := .sent, misses := 1 }) ∧
          (¬listed → c.misses = 1 → t.gate.calls[r.winder] = { status := .notRegistered, misses := 2 } ∧
            winderIn t.panel.callNotRegistered r.winder = true ∧ t.isPending .callNotRegistered = true)) ∧
        (c.status = .listed → t.gate.calls[r.winder] = if listed then c else { c with status := .none }) ∧
        (c.status = .notRegistered →
          (listed → t.gate.calls[r.winder] = { c with status := .listed } ∧
            winderIn t.panel.callNotRegistered r.winder = false) ∧
          (¬listed → t.gate.calls[r.winder] = c)) ∧
        t.gate.signal =
          if g.winder = some r.winder ∧ g.status = .accepted ∧ (r.state = .idle ∨ g.number ≠ some r.number) then
            { g with status := .idle, cause := none, replyMs := none }
          else g

/-- R144 to R146: the hold switch and the emergency-stop key change the ASSENT contents, so each change in RUN offers an ASSENT;
a press of the key in RUN originates a HALT for the served set; a marker going active at a served compartment in RUN
originates its MARK. In any other phase nothing is offered. -/
def Obligations.HoldStopAndMarkers : Prop :=
  ∀ s : State, s.live = true → s.hasGates = true →
    (∀ on, s.inputs.hold ≠ on →
      ∃ t, exec (.holdSwitchChange on) s = .next t ∧ Agrees { s with inputs := { s.inputs with hold := on } } t ∧
        (s.phase = .run → Offered s t t.assentFrame ∧ t.gate.assentMs = some 0 ∧ t.assentContents.hold = on) ∧
        (s.phase ≠ .run → t.portA = s.portA ∧ t.portB = s.portB) ∧
        (s.working = true → on = true → s.holdAcknowledged = false → t.isPending .holdUnacknowledged = true)) ∧
    (∀ active, s.inputs.estop ≠ active →
      ∃ t, exec (.emergencyStopKeyChange active) s = .next t ∧
        Agrees { s with inputs := { s.inputs with estop := active } } t ∧
        (s.phase = .run → Offered s t t.assentFrame ∧ t.gate.assentMs = some 0 ∧ t.assentContents.estop = active ∧
          (active = true → Offered s t (s.own (.halt s.cfg.served .estopKey)))) ∧
        (s.phase ≠ .run → t.portA = s.portA ∧ t.portB = s.portB)) ∧
    (∀ (w : Winder) (active : Bool), s.inputs.marker[w] ≠ active →
      let e := { s with inputs := { s.inputs with marker := put s.inputs.marker w active } }
      ∃ t, exec (.markerInputChange w active) s = .next t ∧ Agrees e t ∧
        (s.phase = .run → active = true → s.serves w = true → Offered s t (s.own (.mark w s.cfg.markers[w]))) ∧
        (s.phase ≠ .run ∨ active = false ∨ s.serves w = false → Quiet e t))

/-- R30, R131, R178: a press of the acknowledge key takes the displayed event out of the pending set, clears both drop flags in
any phase, and locks each FORCED gate that is closed and locked; no other gate record changes. (A frame lost in the same step
may raise TX OVERFLOW, code 2, anew.) -/
def Obligations.AcknowledgeKeyPressed : Prop :=
  ∀ s : State, s.live = true →
    ∃ t, exec .acknowledgeKey s = .next t ∧
      BesideGates { s with relay := { s.relay with upDrop := false, downDrop := false } } t ∧
      t.gate.signal = s.gate.signal ∧ t.gate.calls = s.gate.calls ∧
      (s.eventCode ≠ 0 → s.eventCode ≠ 2 → t.panel.pendingEvents.getLsbD s.eventCode = false) ∧
      (s.hasGates = true → s.eventCode = 8 → t.panel.callNotRegistered = 0) ∧
      (∀ w : Winder, t.gate.records[w] =
        if s.serves w = true ∧ (s.phase = .run ∨ s.phase = .listenOnly) ∧ s.gateState w = .forced ∧
            s.inputs.gateClosed[w] = true ∧ s.inputs.lockEngaged[w] = true then { state := .locked, settleMs := none }
        else s.gate.records[w])

/-! Loading and tipping (chapter 8) -/

/-- R150 to R153, R159: the flask inputs of a loading station in RUN and LISTEN-ONLY. The discharge begins, in RUN alone, when its
condition comes to hold in WAIT_SKIP, by whichever input it does; it ends complete when the flask reads empty, and aborted at a
spillage; the door reading closed in DOOR_CLOSING leads to LOADED, or to WAIT_SKIP, where the condition is judged at once; a door
opened without command, a skip found moving as it opens, and a spillage originate their HALTs, which in LISTEN-ONLY are offered to
no queue, and raise their events. In the other phases the inputs are read and nothing else changes. MODEL'S CHOICE (log entry 26):
the entry to LOADED notes the number of the next origination, by which AttemptEnds tells an ASSENT originated since (R156). -/
def Obligations.FlaskInputs : Prop :=
  ∀ s : State, s.live = true → s.isLoading = true →
    let i := s.inputs
    let inRun := s.phase = .run
    let begins : Sequencer := { s.seq with cycle := .discharge, complete := false }
    let loads : Sequencer :=
      { s.seq with cycle := .loaded, complete := true, doorMs := none, sendMark := false, sendAfter := s.model.stamp }
    let silent (t : State) : Prop := ¬inRun → t.portA.tx = s.portA.tx ∧ t.portB.tx = s.portB.tx
    (s.phase ≠ .run → s.phase ≠ .listenOnly → ∀ on : Bool,
      (i.flaskFull ≠ on → ∃ t, exec (.flaskFullChange on) s = .next t ∧
        Quiet { s with inputs := { i with flaskFull := on } } t) ∧
      (i.flaskEmpty ≠ on → ∃ t, exec (.flaskEmptyChange on) s = .next t ∧
        Quiet { s with inputs := { i with flaskEmpty := on } } t) ∧
      (i.doorClosed ≠ on → ∃ t, exec (.doorClosedChange on) s = .next t ∧
        Quiet { s with inputs := { i with doorClosed := on } } t) ∧
      (i.spillage ≠ on → ∃ t, exec (.spillageChange on) s = .next t ∧
        Quiet { s with inputs := { i with spillage := on } } t)) ∧
    (s.phase = .run ∨ s.phase = .listenOnly →
    (i.flaskFull = false →
      ∃ t, exec (.flaskFullChange true) s = .next t ∧ BesideGates { s with inputs := { i with flaskFull := true } } t ∧
        let holds := inRun ∧ s.skipPresent = true ∧ i.flaskEmpty = false ∧ i.doorClosed = true ∧ i.spillage = false
        silent t ∧ (s.seq.cycle = .waitSkip → holds → t.seq = begins ∧ t.doorOpen = true) ∧
        (¬(s.seq.cycle = .waitSkip ∧ holds) → t.seq = s.seq)) ∧
    (i.flaskFull = true →
      ∃ t, exec (.flaskFullChange false) s = .next t ∧ Quiet { s with inputs := { i with flaskFull := false } } t) ∧
    (i.flaskEmpty = false →
      ∃ t, exec (.flaskEmptyChange true) s = .next t ∧ BesideGates { s with inputs := { i with flaskEmpty := true } } t ∧
        silent t ∧
        (s.seq.cycle = .discharge → i.doorClosed = false →
          t.seq = { s.seq with cycle := .doorClosing, complete := true, doorMs := some 0 } ∧ t.doorOpen = false) ∧
        (s.seq.cycle = .discharge → i.doorClosed = true → t.seq = loads) ∧
        (s.seq.cycle ≠ .discharge → t.seq = s.seq)) ∧
    (i.flaskEmpty = true →
      ∃ t, exec (.flaskEmptyChange false) s = .next t ∧ BesideGates { s with inputs := { i with flaskEmpty := false } } t ∧
        let holds := inRun ∧ s.skipPresent = true ∧ i.flaskFull = true ∧ i.doorClosed = true ∧ i.spillage = false
        silent t ∧ (s.seq.cycle = .waitSkip → holds → t.seq = begins ∧ t.doorOpen = true) ∧
        (¬(s.seq.cycle = .waitSkip ∧ holds) → t.seq = s.seq)) ∧
    (i.doorClosed = false →
      ∃ t, exec (.doorClosedChange true) s = .next t ∧ BesideGates { s with inputs := { i with doorClosed := true } } t ∧
        let holds := inRun ∧ s.skipPresent = true ∧ i.flaskFull = true ∧ i.flaskEmpty = false ∧ i.spillage = false
        silent t ∧ (s.seq.cycle = .doorClosing → s.seq.complete = true → t.seq = { loads with skipMoved := false }) ∧
        (s.seq.cycle = .doorClosing → s.seq.complete = false →
          (holds → t.seq = { begins with doorMs := none, skipMoved := false } ∧ t.doorOpen = true) ∧
          (¬holds → t.seq = { s.seq with cycle := .waitSkip, doorMs := none, skipMoved := false })) ∧
        (s.seq.cycle = .waitSkip → holds → t.seq = { begins with skipMoved := false } ∧ t.doorOpen = true) ∧
        (s.seq.cycle ≠ .doorClosing → ¬(s.seq.cycle = .waitSkip ∧ holds) → t.seq = { s.seq with skipMoved := false })) ∧
    (i.doorClosed = true →
      ∃ t, exec (.doorClosedChange false) s = .next t ∧ BesideGates { s with inputs := { i with doorClosed := false } } t ∧
        silent t ∧ t.seq = { s.seq with skipMoved := t.seq.skipMoved } ∧
        (¬(inRun ∧ s.seq.cycle = .discharge) → t.isPending .flaskDoor = true ∧
          (inRun → Offered s t (s.own (.halt (BitVec.twoPow 4 s.cfg.tipWinder.val) .flaskDoor)))) ∧
        let moves := ∃ x, s.currentRecord s.cfg.tipWinder = some x ∧ 50 < x.speed.natAbs
        (t.seq.skipMoved = true ↔ moves) ∧
        (moves → s.seq.skipMoved = false → t.isPending .skipMoved = true ∧
          (inRun → s.portA.tx.entries.length ≤ 5 →
            t.portA.tx.holds (s.own (.halt (BitVec.twoPow 4 s.cfg.tipWinder.val) .skipMoved))))) ∧
    (i.spillage = false →
      ∃ t, exec (.spillageChange true) s = .next t ∧ BesideGates { s with inputs := { i with spillage := true } } t ∧
        silent t ∧ t.isPending .spillage = true ∧
        (inRun → Offered s t (s.own (.halt (BitVec.twoPow 4 s.cfg.tipWinder.val) .spillage))) ∧
        (s.seq.cycle = .discharge → i.doorClosed = false →
          t.seq = { s.seq with cycle := .doorClosing, complete := false, doorMs := some 0 }) ∧
        (s.seq.cycle = .discharge → i.doorClosed = true →
          t.seq = { s.seq with cycle := .waitSkip, complete := false, doorMs := none }) ∧
        (s.seq.cycle ≠ .discharge → t.seq = s.seq)) ∧
    (i.spillage = true →
      ∃ t, exec (.spillageChange false) s = .next t ∧ BesideGates { s with inputs := { i with spillage := false } } t ∧
        let holds := inRun ∧ s.skipPresent = true ∧ i.flaskFull = true ∧ i.flaskEmpty = false ∧ i.doorClosed = true
        silent t ∧ (s.seq.cycle = .waitSkip → holds → t.seq = begins ∧ t.doorOpen = true) ∧
        (¬(s.seq.cycle = .waitSkip ∧ holds) → t.seq = s.seq)))

/-- R151, R153, R156, R159: what an accepted POSITION of the skip winder, and the expiry of its record, make of the flask cycle in
RUN and LISTEN-ONLY; no discharge begins, no HALT is offered and no automatic GO is originated in LISTEN-ONLY. A discharge is
aborted when the skip is no longer present; LOADED and WAIT_DEPART lead to WAIT_SKIP when the skip has departed, the automatic
signal record NONE; the skip seen moving with the door open originates its HALT, once. The expiry aborts a discharge and changes no
other cycle, but that LOADED goes on to WAIT_DEPART where the conditions of the automatic GO hold. The trip number of the record
made NONE, which is kept (log entry 25), is not spoken of. -/
def Obligations.SkipSeenAtTheFlask : Prop :=
  ∀ s : State, s.isLoading = true → s.phase = .run ∨ s.phase = .listenOnly →
    let inRun := s.phase = .run
    let silent (t : State) : Prop := ¬inRun → t.portA.tx = s.portA.tx ∧ t.portB.tx = s.portB.tx
    let lo : Int := (s.cfg.level.val : Int) - s.cfg.landingHw
    let hi : Int := (s.cfg.level.val : Int) + s.cfg.landingHw
    let aborted (t : State) : Prop := t.doorOpen = false ∧ t.seq.complete = false ∧
      (s.inputs.doorClosed = false → t.seq.cycle = .doorClosing ∧ t.seq.doorMs = some 0) ∧
      (s.inputs.doorClosed = true → t.seq.cycle = .waitSkip ∧ t.seq.doorMs = none)
    (∀ (h : Heading) (r : PositionReport), Taken h (.position r) s → s.acceptsPosition r = true →
      r.winder = s.cfg.tipWinder →
        let inWindow := lo ≤ r.carrying.val ∧ r.carrying.val ≤ hi
        let present := r.skip = true ∧ r.speed.natAbs ≤ 50 ∧ inWindow ∧ r.state = .idle
        let level := s.cfg.level.val
        let departed := ¬inWindow ∨ (r.state = .running ∧
          ((0 < r.speed ∧ level < r.carrying.val) ∨ (r.speed < 0 ∧ r.carrying.val < level)))
        let moved := s.inputs.doorClosed = false ∧ 50 < r.speed.natAbs
        ∃ t, exec (.positionTaken h r) s = .next t ∧ silent t ∧
          (s.seq.cycle = .waitSkip → t.seq.cycle =
            if inRun ∧ present ∧ s.inputs.flaskFull = true ∧ s.inputs.flaskEmpty = false ∧ s.inputs.doorClosed = true ∧
              s.inputs.spillage = false then .discharge else .waitSkip) ∧
          (s.seq.cycle = .discharge → present → t.seq.cycle = .discharge) ∧
          (s.seq.cycle = .discharge → ¬present → aborted t) ∧
          (s.seq.cycle = .doorClosing → t.seq.cycle = .doorClosing ∧ t.seq.doorMs = s.seq.doorMs) ∧
          (s.seq.cycle = .loaded ∨ s.seq.cycle = .waitDepart → departed →
            t.seq.cycle = .waitSkip ∧ t.seq.auto.status = .none ∧ t.seq.auto.replyMs = none ∧ t.seq.auto.retryMs = none) ∧
          (t.seq.skipMoved = true ↔ moved) ∧
          (moved → s.seq.skipMoved = false → t.isPending .skipMoved = true ∧
            (inRun → s.portA.tx.entries.length ≤ 5 →
              t.portA.tx.holds (s.own (.halt (BitVec.twoPow 4 s.cfg.tipWinder.val) .skipMoved)))) ∧
          (s.seq.skipMoved = true → s.isPending .skipMoved = false → t.isPending .skipMoved = false)) ∧
    (∀ x, s.live = true → s.picture.carrying[s.cfg.tipWinder] = some x → x.current = true → x.staleness ≤ x.age →
      ∃ t, exec (.conveyanceRecordExpiry s.cfg.tipWinder) s = .next t ∧ silent t ∧ t.seq.skipMoved = false ∧
        (s.seq.cycle = .discharge → aborted t) ∧
        (s.seq.cycle = .waitSkip ∨ s.seq.cycle = .doorClosing ∨ s.seq.cycle = .waitDepart → t.seq.cycle = s.seq.cycle) ∧
        (s.seq.cycle = .loaded → t.seq.cycle =
          if inRun ∧ s.seq.sendMark = true ∧ s.inputs.auto = true ∧ s.seq.auto.retryMs = none then .waitDepart
          else .loaded))

/-- R155 (Table 8-2): what a WINDING makes of the automatic signal record, and an accepted POSITION of the skip winder in every
state of the cycle: the skip gone ends the record with its timers (R156, R157); the conditions of the automatic GO that then hold
originate it (R156, R158); else a POSITION that shows IDLE or another trip number ends an ACCEPTED record, and any other leaves
it. A cycle told refused or closed while calling returns to LOADED or READY with the retry timer from 0. MODEL'S CHOICES: a record
that becomes NONE keeps its trip number, which Table 8-2 does not speak of (log entry 25), and at a tip in READY a POSITION that
makes the clear flag 1 sends the GO before it is judged for the record (log entry 41). -/
def Obligations.AutomaticSignalReports : Prop :=
  ∀ s : State, s.hasSequencer = true → s.phase = .run ∨ s.phase = .listenOnly →
    let a := s.seq.auto
    let calling :=
      if s.isLoading then s.seq.cycle = .loaded ∨ s.seq.cycle = .waitDepart else s.seq.tip = .ready ∨ s.seq.tip = .returnSent
    let told (t : State) : Prop :=
      (calling → t.seq.auto = { status := .none, number := a.number, replyMs := none, retryMs := some 0 } ∧
        (s.isLoading = true → t.seq.cycle = .loaded ∧ (s.seq.cycle = .waitDepart → t.seq.sendMark = true)) ∧
        (s.isLoading = false → t.seq.tip = .ready)) ∧
      (¬calling → t.seq.auto = { a with status := .none, replyMs := none } ∧ t.seq.cycle = s.seq.cycle)
    (∀ (h : Heading) (r : WindingReport), Taken h (.winding r) s →
      let accepted (t : State) : Prop :=
        t.seq.auto = { a with status := .accepted, number := some r.number, replyMs := none } ∧ t.seq.cycle = s.seq.cycle
      let stands (t : State) : Prop := t.seq.auto = a ∧ t.seq.cycle = s.seq.cycle
      ∃ t, exec (.windingTaken h r) s = .next t ∧ BesideGates (s.relayed h (.winding r)) t ∧
        (¬(r.winder = s.cfg.tipWinder ∧ r.origin = s.cfg.station ∧ r.auto = true) → stands t) ∧
        (r.winder = s.cfg.tipWinder → r.origin = s.cfg.station → r.auto = true →
          (r.state = .refusal → (a.status = .awaiting → told t) ∧ (a.status ≠ .awaiting → stands t)) ∧
          (∀ st, r.state = .trip st → st ≠ .idle →
            (a.status = .none → ¬calling → stands t) ∧ (a.status ≠ .none ∨ calling → accepted t)) ∧
          (r.state = .trip .idle →
            (a.status = .none → stands t) ∧ (a.status = .awaiting → told t) ∧
            (a.status = .accepted → (a.number = some r.number → told t) ∧ (a.number ≠ some r.number → stands t))))) ∧
    (∀ (h : Heading) (r : PositionReport), Taken h (.position r) s → s.acceptsPosition r = true →
      r.winder = s.cfg.tipWinder →
        let level := s.cfg.level.val
        let inWindow := (level : Int) - s.cfg.landingHw ≤ r.carrying.val ∧ (r.carrying.val : Int) ≤ level + s.cfg.landingHw
        let away := r.state = .running ∧
          ((0 < r.speed ∧ level < r.carrying.val) ∨ (r.speed < 0 ∧ r.carrying.val < level))
        let gone := if s.isLoading then calling ∧ (¬inWindow ∨ away)
          else s.seq.tip ≠ .tipWait ∧ ¬(r.speed.natAbs ≤ 50 ∧ inWindow)
        let ends := a.status = .accepted ∧ (r.state = .idle ∨ a.number ≠ some r.number)
        ∃ t, exec (.positionTaken h r) s = .next t ∧
          let goes := s.phase = .run ∧ s.inputs.auto = true ∧ a.retryMs = none ∧
            (if s.isLoading then s.seq.cycle = .loaded ∧ s.seq.sendMark = true
             else s.seq.tip = .ready ∧ t.clearFlag s.cfg.tipWinder = true)
          (gone → t.seq.auto.status = .none ∧ t.seq.auto.replyMs = none ∧ t.seq.auto.retryMs = none ∧
            (s.isLoading = true → t.seq.cycle = .waitSkip) ∧ (s.isLoading = false → t.seq.tip = .tipWait)) ∧
          (¬gone → goes → t.seq.auto = { a with status := .awaiting, number := none, replyMs := some 0 } ∧
            (s.isLoading = true → t.seq.cycle = .waitDepart) ∧ (s.isLoading = false → t.seq.tip = .returnSent)) ∧
          (¬gone → ¬goes → ends → calling → told t) ∧
          (¬gone → ¬goes → ends → ¬calling → t.seq.auto = { a with status := .none, replyMs := none }) ∧
          (¬gone → ¬goes → ¬ends → t.seq.auto = a ∧
            (calling → t.seq.cycle = s.seq.cycle ∧ t.seq.tip = s.seq.tip)))

/-- R157: the arrival number, and the entry to DWELL and the leaving of the tip states. A WINDING of an automatic ORE trip to this
station sets the number, and another WINDING with that number clears it; the skip seen standing with that number and no trip
enters DWELL; the skip seen CURRENT and not standing leaves, and a STALE record does not. -/
def Obligations.TipDwell : Prop :=
  ∀ s : State, s.isTip = true → s.phase = .run ∨ s.phase = .listenOnly →
    let lo : Int := (s.cfg.level.val : Int) - s.cfg.landingHw
    let hi : Int := (s.cfg.level.val : Int) + s.cfg.landingHw
    let dwells (t : State) : Prop := t.seq.tip = .dwell ∧ t.seq.dwellMs = some 0 ∧ t.seq.arrival = none
    (∀ (h : Heading) (r : WindingReport), Taken h (.winding r) s →
      let arrives := r.dest = s.cfg.station ∧ r.cls = .ore ∧ r.auto = true ∧
        (r.state ≠ .trip .idle ∨ r.outcome = .result .arrived)
      let stands := ∃ x, s.picture.carrying[s.cfg.tipWinder] = some x ∧ x.current = true ∧ x.speed.natAbs ≤ 50 ∧
        lo ≤ x.depth.val ∧ x.depth.val ≤ hi ∧ x.state = .idle ∧ x.number = r.number
      ∃ t, exec (.windingTaken h r) s = .next t ∧
        (s.seq.tip = .tipWait → r.winder = s.cfg.tipWinder → r.state ≠ .refusal →
          (arrives → stands → dwells t) ∧
          (arrives → ¬stands → t.seq.tip = .tipWait ∧ t.seq.arrival = some r.number) ∧
          (¬arrives → t.seq.tip = .tipWait ∧
            t.seq.arrival = if s.seq.arrival = some r.number then none else s.seq.arrival)) ∧
        (s.seq.tip ≠ .tipWait ∨ r.winder ≠ s.cfg.tipWinder ∨ r.state = .refusal →
          t.seq.arrival = s.seq.arrival ∧ t.seq.dwellMs = s.seq.dwellMs)) ∧
    (∀ (h : Heading) (r : PositionReport), Taken h (.position r) s → s.acceptsPosition r = true →
      r.winder = s.cfg.tipWinder →
        let stands := r.speed.natAbs ≤ 50 ∧ lo ≤ r.carrying.val ∧ r.carrying.val ≤ hi
        ∃ t, exec (.positionTaken h r) s = .next t ∧
          (s.seq.tip = .tipWait → stands → r.state = .idle → s.seq.arrival = some r.number → dwells t) ∧
          (s.seq.tip = .tipWait → ¬(stands ∧ r.state = .idle ∧ s.seq.arrival = some r.number) →
            t.seq.tip = .tipWait ∧ t.seq.arrival = s.seq.arrival) ∧
          (s.seq.tip ≠ .tipWait → ¬stands → t.seq.tip = .tipWait ∧ t.seq.dwellMs = none ∧
            t.seq.auto = { status := .none, number := none, replyMs := none, retryMs := none }) ∧
          (s.seq.tip = .dwell → stands → t.seq.tip = .dwell ∧ t.seq.dwellMs = s.seq.dwellMs)) ∧
    (∀ x, s.live = true → s.picture.carrying[s.cfg.tipWinder] = some x → x.current = true → x.staleness ≤ x.age →
      ∃ t, exec (.conveyanceRecordExpiry s.cfg.tipWinder) s = .next t ∧
        (s.seq.tip ≠ .ready → t.seq.tip = s.seq.tip ∧ t.seq.dwellMs = s.seq.dwellMs))

/-- R152, R155, R156, R158: the timers of the sequencer and the auto input. The door timer originates a FLASK_DOOR HALT and
stops; the reply timer originates the automatic GO again; the dwell ends in READY; and an automatic GO follows a change of the
auto input, the retry timer's end or the dwell's, and at a tip in READY a change of the skip compartment's clear flag to 1 by
its gate switch, its lock contact or the acknowledge key, where its conditions hold, and leads to WAIT_DEPART or RETURN_SENT.
MODEL'S CHOICE (log entry 25): the reply timer's expiry outside RUN restarts it with trip number none and sends no frame. -/
def Obligations.SequencerTimersAndAutoInput : Prop :=
  ∀ s : State, s.live = true → s.working = true →
    let go (e : State) : Frame := e.own (.signal s.cfg.tipWinder
      (if s.isLoading then s.cfg.tipPartner else s.cfg.loadingPartner) .ore .go true)
    (∀ n, s.isLoading = true → s.seq.cycle = .doorClosing → s.seq.doorMs = some n → s.cfg.doorTimeout * 1000 ≤ n →
      ∃ t, exec .doorTimerExpiry s = .next t ∧ Agrees { s with seq := { s.seq with doorMs := none } } t ∧
        t.isPending .flaskDoor = true ∧
        (s.phase = .run → Offered s t (s.own (.halt (BitVec.twoPow 4 s.cfg.tipWinder.val) .flaskDoor)))) ∧
    (∀ n, s.seq.auto.status = .awaiting → s.seq.auto.replyMs = some n → 2000 ≤ n →
      ∃ t, exec .autoReplyTimerExpiry s = .next t ∧
        Agrees { s with seq := { s.seq with auto := { s.seq.auto with number := none, replyMs := some 0 } } } t ∧
        (s.phase = .run → Offered s t (go s))) ∧
    (∀ n, s.seq.auto.retryMs = some n → 2000 ≤ n →
      ∃ t, exec .retryTimerExpiry s = .next t ∧ BesideGates s t ∧ t.seq.auto.retryMs = none ∧
        (s.isLoading = true → s.seq.cycle = .loaded → s.seq.sendMark = true → s.phase = .run → s.inputs.auto = true →
          Offered s t (go s) ∧ t.seq.cycle = .waitDepart ∧ t.seq.auto.status = .awaiting ∧ t.seq.auto.replyMs = some 0) ∧
        (s.isTip = true → s.seq.tip = .ready → s.clearFlag s.cfg.tipWinder = true → s.phase = .run → s.inputs.auto = true →
          Offered s t (go s) ∧ t.seq.tip = .returnSent ∧ t.seq.auto.status = .awaiting ∧ t.seq.auto.replyMs = some 0) ∧
        (s.phase ≠ .run ∨ s.inputs.auto = false →
          Quiet { s with seq := { s.seq with auto := { s.seq.auto with retryMs := none } } } t)) ∧
    (∀ n, s.seq.tip = .dwell → s.seq.dwellMs = some n → s.cfg.dwell * 1000 ≤ n →
      ∃ t, exec .dwellTimerExpiry s = .next t ∧ BesideGates s t ∧ t.seq.dwellMs = none ∧
        (s.isTip = true → s.clearFlag s.cfg.tipWinder = true → s.phase = .run → s.inputs.auto = true →
          s.seq.auto.retryMs = none →
            Offered s t (go s) ∧ t.seq.tip = .returnSent ∧ t.seq.auto.status = .awaiting ∧ t.seq.auto.number = none) ∧
        (s.isLoading = false → s.phase ≠ .run ∨ s.inputs.auto = false → t.seq = { s.seq with tip := .ready, dwellMs := none })) ∧
    (∀ on, s.inputs.auto ≠ on →
      let e := { s with inputs := { s.inputs with auto := on } }
      ∃ t, exec (.autoInputChange on) s = .next t ∧ BesideGates e t ∧
        (on = true → s.isLoading = true → s.seq.cycle = .loaded → s.seq.sendMark = true → s.phase = .run →
          s.seq.auto.retryMs = none → Offered s t (go s) ∧ t.seq.cycle = .waitDepart) ∧
        (on = true → s.isTip = true → s.seq.tip = .ready → s.clearFlag s.cfg.tipWinder = true → s.phase = .run →
          s.seq.auto.retryMs = none → Offered s t (go s) ∧ t.seq.tip = .returnSent) ∧
        (on = false ∨ s.phase ≠ .run ∨ s.seq.auto.retryMs ≠ none → Quiet e t)) ∧
    (∀ (w : Winder) (on : Bool) (c : Instr), c = .gateSwitchChange w on ∨ c = .lockContactChange w on ∨ c = .acknowledgeKey →
      s.isTip = true → s.seq.tip = .ready → s.clearFlag s.cfg.tipWinder = false →
        ∃ t, exec c s = .next t ∧
          (t.clearFlag s.cfg.tipWinder = true → s.phase = .run → s.inputs.auto = true → s.seq.auto.retryMs = none →
            Offered s t (go s) ∧ t.seq.tip = .returnSent ∧
            t.seq.auto = { s.seq.auto with status := .awaiting, number := none, replyMs := some 0 }) ∧
          (t.clearFlag s.cfg.tipWinder = false ∨ s.phase ≠ .run ∨ s.inputs.auto = false ∨ s.seq.auto.retryMs ≠ none →
            t.seq = s.seq))

/-! Lamps and event lines (chapter 10) -/

/-- R175, R177: the flash clock's half cycle, the lamp test key, the dark input and the end of the strobe pulse; the code shown is
the highest pending event; every change of the code by a command starts the strobe pulse, and the strobe output is on in LISTEN,
RUN and LISTEN-ONLY while it runs, and off otherwise (R179). MODEL'S CHOICES: STROBE_PULSE_END before 20 ms changes nothing, and
FLASH_CLOCK_HALF acts whenever it is given (log entry 9); without power the strobe is off and the code 0 (log entry 16). -/
def Obligations.LampsAndEventLines : Prop :=
  (∀ s : State, (s.strobe = true ↔ s.live = true ∧ s.working = true ∧ s.panel.strobeMs ≠ none) ∧
    (s.live = false ∨ s.working = false → s.eventCode = 0)) ∧
  ∀ s : State, s.live = true →
    (∃ t, exec .flashClockHalf s = .next t ∧
      Quiet { s with clock := { s.clock with flashLit := !s.clock.flashLit, flashMs := 0 } } t) ∧
    (∀ held, s.inputs.lampTest ≠ held → ∃ t, exec (.lampTestKeyChange held) s = .next t ∧
      Quiet { s with inputs := { s.inputs with lampTest := held } } t) ∧
    (∀ on, s.inputs.dark ≠ on → ∃ t, exec (.darkInputChange on) s = .next t ∧
      Quiet { s with inputs := { s.inputs with dark := on } } t) ∧
    (∀ n, s.panel.strobeMs = some n → ∃ t, exec .strobePulseEnd s = .next t ∧
      (20 ≤ n → Quiet { s with panel := { s.panel with strobeMs := none } } t) ∧ (n < 20 → Quiet s t)) ∧
    (s.working = true →
      (∀ k, k < 16 → s.panel.pendingEvents.getLsbD k = true → k ≤ s.eventCode) ∧
      (s.eventCode ≠ 0 → s.panel.pendingEvents.getLsbD s.eventCode = true)) ∧
    (∀ (c : Instr) (t : State), s.working = true → exec c s = .next t → t.live = true → t.working = true →
      t.eventCode ≠ s.eventCode → t.panel.strobeMs = some 0)

/-- R174, R175, R179: the 24 lamps of the primary image with their flash mask, by Table 10-1; and the lamp outputs in each panel
mode, by Table 10-3. Lamps 7, 9 and 10 of a drum show the sample set (R63). MODEL'S CHOICES: log entry 16 for the lamp outputs
without power, all dark, log entry 30 for the lamps of a winder that a landing does not serve, and log entry 38 for the detail
number, 0 until a record has been accepted, and for lamps 7 and 9 before the first sample. The detail number is that of the
displayed event where Table 10-2 gives one: the refusal's of RESET REFUSED (Table 9-3), the cause's of REFUSED (Table 6-3), the
lowest winder's of CALL NOT REGISTERED. -/
def Obligations.LampPanel : Prop :=
  ∀ s : State, s.isDrum = true ∨ s.hasGates = true →
    let listenOnly := s.phase = .listenOnly
    let degraded := s.lineDegraded = true
    let relay := s.cfg.repeater = true ∧ (s.relay.upDrop = true ∨ s.relay.downDrop = true)
    (LampShows s 0 (s.phase = .run) listenOnly) ∧
    (∀ k : Fin 4, LampShows s (20 + k.val) (s.detail.testBit k.val = true) False) ∧
    (s.isDrum = true →
      let x := s.lastSample
      let head (c : TripClass) : Prop := ∃ e, s.trip.calls.head? = some e ∧ e.cls = c
      let entry (n : Station) : StationEntry := s.stations.entries[n]
      LampShows s 1 (s.brakeTrip = true) False ∧ LampShows s 2 (s.permit = true) False ∧
      LampShows s 3 (s.safety.causesLost = true) False ∧
      LampShows s 4 (s.tripState = .armed) (s.tripState = .suspended) ∧
      LampShows s 5 (s.tripState = .running) (s.tripState = .stopping) ∧ LampShows s 6 (s.env.warning = true) False ∧
      LampShows s 7 (x.verified = false) False ∧ LampShows s 8 (s.depth.faultMs ≠ none) False ∧
      LampShows s 9 (x.correctionOn = false) (x.modePending = true) ∧ LampShows s 10 (x.clearPending = true) False ∧
      LampShows s 11 (s.stations.holdSet ≠ 0) (∃ n, stationIn s.stations.holdSet n = true ∧ (entry n).state = .stale) ∧
      LampShows s 12 (∃ n, stationIn s.cfg.required n = true ∧ (entry n).state = .unknown) False ∧
      LampShows s 13 degraded False ∧
      LampShows s 14 (∃ n, (entry n).state = .current ∧ ((entry n).lineDegraded = true ∨ (entry n).relayDrop = true)) False ∧
      LampShows s 15 relay False ∧ LampShows s 16 (head .persons) (head .material) ∧
      LampShows s 17 (head .ore) (head .inspection) ∧ LampShows s 18 (s.env.outside = true) False ∧
      LampShows s 19 (s.inputs.autoEnable = true) (s.autoStart = true) ∧
      (s.working = true → s.eventCode ≠ 13 → (s.safety.causes = [] → s.detail = 0) ∧
        ∀ c, s.safety.causes.head? = some c → s.detail =
          match c.kind with
          | .start => 1 | .config => 2 | .halt _ => 3 | .estopRemote => 4 | .estopLocal => 5 | .encoder => 6
          | .depthDisagree => 7 | .overspeed => 8 | .overwind => 9 | .gateWithdrawn => 10 | .wrongDirection => 11
          | .unauthorisedMotion => 12) ∧
      (s.working = true → s.eventCode = 13 → s.detail =
        match s.safety.refusal with
        | none => 0 | some .phase => 1 | some .motion => 2 | some .localEstop => 3 | some .remoteEstop => 4
        | some .encoder => 5)) ∧
    (s.hasGates = true →
      let w := s.inputs.winderSelector
      let g := s.gate.signal.status
      let call := s.gate.calls[w].status
      let seen (p : Carrying → Prop) : Prop := ∃ x, s.picture.carrying[w] = some x ∧ x.current = true ∧ p x
      let acknowledged := (∃ v, (s.currentRecord v).isSome = true) ∧
        ∀ v x, s.currentRecord v = some x → stationIn x.holdSet s.cfg.station = true
      (∀ v : Winder, LampShows s (1 + v.val) (s.serves v = true ∧ s.gateState v = .releasable)
        (s.serves v = true ∧ (s.gateState v = .opened ∨ s.gateState v = .forced))) ∧
      LampShows s 5 (s.clearSet = s.cfg.served) False ∧
      LampShows s 6 (s.inputs.hold = true ∧ acknowledged) (s.inputs.hold = true ∧ ¬acknowledged) ∧
      LampShows s 7 (s.inputs.estop = true) False ∧ LampShows s 8 (g = .accepted) (g = .awaiting) ∧
      LampShows s 9 (g = .refused ∨ g = .expired) (g = .noReply) ∧
      LampShows s 10 (call = .listed) (call = .sent ∨ call = .notRegistered) ∧
      LampShows s 11 (s.serves w = true ∧ seen (fun x => x.speed.natAbs ≤ 50 ∧
        (s.cfg.level.val : Int) - s.cfg.landingHw ≤ x.depth.val ∧ x.depth.val ≤ s.cfg.level.val + s.cfg.landingHw ∧
        (x.state = .idle ∨ x.state = .suspended))) False ∧
      LampShows s 12 (seen (fun _ => True)) (∃ x, s.picture.carrying[w] = some x ∧ x.current = false) ∧
      LampShows s 13 (seen (fun x => x.tripped = true)) False ∧ LampShows s 14 degraded False ∧
      LampShows s 15 relay False ∧
      (s.isLoading = true →
        LampShows s 16 (s.seq.cycle = .discharge) (s.seq.cycle = .doorClosing) ∧
        LampShows s 17 (s.seq.cycle = .loaded) (s.seq.cycle = .waitDepart) ∧
        LampShows s 18 (s.inputs.spillage = true) (s.inputs.doorClosed = false ∧ s.doorOpen = false)) ∧
      (s.isTip = true →
        LampShows s 16 (s.seq.tip = .dwell) False ∧ LampShows s 17 (s.seq.tip = .ready) (s.seq.tip = .returnSent) ∧
        LampShows s 18 False False) ∧
      (s.isLoading = true ∨ s.isTip = true →
        LampShows s 19 (s.seq.auto.status = .accepted) (s.seq.auto.status = .awaiting)) ∧
      (s.isLoading = false → s.isTip = false → ∀ k, 16 ≤ k → k < 20 → LampShows s k False False) ∧
      (s.working = true → s.eventCode = 11 → s.detail =
        match s.panel.refusedCause with
        | none => 0 | some .tripped => 1 | some .line => 2 | some .tripOpen => 3 | some .autoOff => 4
        | some .destUnknown => 5 | some .sameLevel => 6 | some .notAtOrigin => 7 | some .unverified => 8
        | some .hold => 9 | some .pathBlocked => 10) ∧
      (s.working = true → s.eventCode = 8 → (s.panel.callNotRegistered = 0 → s.detail = 0) ∧
        ∀ v : Winder, winderIn s.panel.callNotRegistered v = true →
          (∀ u : Winder, winderIn s.panel.callNotRegistered u = true → v ≤ u) → s.detail = v.val + 1) ∧
      (s.working = true → s.eventCode ≠ 11 → s.eventCode ≠ 8 → s.detail = 0)) ∧
    (¬(s.live = true ∧ (s.phase = .run ∨ listenOnly)) → s.lampOutputs = List.replicate 24 false) ∧
    (s.live = true → s.phase = .run ∨ listenOnly → ∀ (k : Nat) (l : Lamp), s.lampImage[k]? = some l →
      let alert := (s.isDrum = true ∧ s.safety.causes ≠ []) ∨
        (s.hasGates = true ∧ ∃ v, s.serves v = true ∧ s.gateState v = .forced)
      let lit := s.clock.flashLit = true
      let shown (p : Prop) : Prop := ∃ o, s.lampOutputs[k]? = some o ∧ (o = true ↔ p)
      (alert → shown (l ≠ .off ∧ lit)) ∧
      (¬alert → s.inputs.lampTest = true → shown (if s.clock.flashLit then l ≠ .off else l = .off)) ∧
      (¬alert → s.inputs.lampTest = false → s.inputs.dark = true → shown False) ∧
      (¬alert → s.inputs.lampTest = false → s.inputs.dark = false → shown (l = .on ∨ (l = .flash ∧ lit))))

/-! Invariants that every step keeps -/

/-- Every invariant of the model holds right after power-on. -/
def Obligations.InvariantsAtReset : Prop :=
  TripInv State.reset ∧ EnvelopeInv State.reset ∧ CauseInv State.reset ∧ CallInv State.reset ∧ LineInv State.reset ∧
    PictureInv State.reset ∧ GateInv State.reset ∧ SequencerInv State.reset

/-- The laws of the trip are kept: no trip stands with a cause listed (R114), and while the position is UNVERIFIED or a hold
stands, a trip in ARMED or RUNNING has class INSPECTION (R117). -/
def Obligations.EveryStepKeepsTheTripLaws : Prop := ∀ s t : State, TripInv s → step s = .next t → TripInv t

/-- The laws of the queues are kept: each holds at most 8 entries in order, with no two that replace one another, and a station
has frames of its own to send in RUN alone. -/
def Obligations.EveryStepKeepsTheQueueLaws : Prop := ∀ s t : State, LineInv s → step s = .next t → LineInv t

/-- The laws of the gates and of the sequencer are kept, each by itself. -/
def Obligations.EveryStepKeepsTheGateAndSequencerLaws : Prop :=
  ∀ s t : State, step s = .next t → (GateInv s → GateInv t) ∧ (SequencerInv s → SequencerInv t)

/-- The laws of the envelope, the cause list, the call list and the picture are kept, each by itself. -/
def Obligations.EveryStepKeepsTheListAndPictureLaws : Prop :=
  ∀ s t : State, step s = .next t →
    (EnvelopeInv s → EnvelopeInv t) ∧ (CauseInv s → CauseInv t) ∧ (CallInv s → CallInv t) ∧ (PictureInv s → PictureInv t)
end

