-- ==== Sys2Proof/Laws/State.lean ====
section
/-! SUPPORT. Sys2Proof/Laws/State.lean: what each block setter does to each field of the state, one lemma each. -/
namespace Sys2Proof.Machine

variable (s : State)

@[simp] theorem State.setLoader_pending (x : Loader) : (s.setLoader x).pending = s.pending := rfl
@[simp] theorem State.setLoader_loader (x : Loader) : (s.setLoader x).loader = x := rfl
@[simp] theorem State.setLoader_cfg (x : Loader) : (s.setLoader x).cfg = s.cfg := rfl
@[simp] theorem State.setLoader_inputs (x : Loader) : (s.setLoader x).inputs = s.inputs := rfl
@[simp] theorem State.setLoader_clock (x : Loader) : (s.setLoader x).clock = s.clock := rfl
@[simp] theorem State.setLoader_portA (x : Loader) : (s.setLoader x).portA = s.portA := rfl
@[simp] theorem State.setLoader_portB (x : Loader) : (s.setLoader x).portB = s.portB := rfl
@[simp] theorem State.setLoader_relay (x : Loader) : (s.setLoader x).relay = s.relay := rfl
@[simp] theorem State.setLoader_picture (x : Loader) : (s.setLoader x).picture = s.picture := rfl
@[simp] theorem State.setLoader_stations (x : Loader) : (s.setLoader x).stations = s.stations := rfl
@[simp] theorem State.setLoader_depth (x : Loader) : (s.setLoader x).depth = s.depth := rfl
@[simp] theorem State.setLoader_env (x : Loader) : (s.setLoader x).env = s.env := rfl
@[simp] theorem State.setLoader_trip (x : Loader) : (s.setLoader x).trip = s.trip := rfl
@[simp] theorem State.setLoader_safety (x : Loader) : (s.setLoader x).safety = s.safety := rfl
@[simp] theorem State.setLoader_gate (x : Loader) : (s.setLoader x).gate = s.gate := rfl
@[simp] theorem State.setLoader_seq (x : Loader) : (s.setLoader x).seq = s.seq := rfl
@[simp] theorem State.setLoader_panel (x : Loader) : (s.setLoader x).panel = s.panel := rfl
@[simp] theorem State.setLoader_model (x : Loader) : (s.setLoader x).model = s.model := rfl

@[simp] theorem State.setInputs_pending (x : Inputs) : (s.setInputs x).pending = s.pending := rfl
@[simp] theorem State.setInputs_loader (x : Inputs) : (s.setInputs x).loader = s.loader := rfl
@[simp] theorem State.setInputs_cfg (x : Inputs) : (s.setInputs x).cfg = s.cfg := rfl
@[simp] theorem State.setInputs_inputs (x : Inputs) : (s.setInputs x).inputs = x := rfl
@[simp] theorem State.setInputs_clock (x : Inputs) : (s.setInputs x).clock = s.clock := rfl
@[simp] theorem State.setInputs_portA (x : Inputs) : (s.setInputs x).portA = s.portA := rfl
@[simp] theorem State.setInputs_portB (x : Inputs) : (s.setInputs x).portB = s.portB := rfl
@[simp] theorem State.setInputs_relay (x : Inputs) : (s.setInputs x).relay = s.relay := rfl
@[simp] theorem State.setInputs_picture (x : Inputs) : (s.setInputs x).picture = s.picture := rfl
@[simp] theorem State.setInputs_stations (x : Inputs) : (s.setInputs x).stations = s.stations := rfl
@[simp] theorem State.setInputs_depth (x : Inputs) : (s.setInputs x).depth = s.depth := rfl
@[simp] theorem State.setInputs_env (x : Inputs) : (s.setInputs x).env = s.env := rfl
@[simp] theorem State.setInputs_trip (x : Inputs) : (s.setInputs x).trip = s.trip := rfl
@[simp] theorem State.setInputs_safety (x : Inputs) : (s.setInputs x).safety = s.safety := rfl
@[simp] theorem State.setInputs_gate (x : Inputs) : (s.setInputs x).gate = s.gate := rfl
@[simp] theorem State.setInputs_seq (x : Inputs) : (s.setInputs x).seq = s.seq := rfl
@[simp] theorem State.setInputs_panel (x : Inputs) : (s.setInputs x).panel = s.panel := rfl
@[simp] theorem State.setInputs_model (x : Inputs) : (s.setInputs x).model = s.model := rfl

@[simp] theorem State.setClock_pending (x : Clock) : (s.setClock x).pending = s.pending := rfl
@[simp] theorem State.setClock_loader (x : Clock) : (s.setClock x).loader = s.loader := rfl
@[simp] theorem State.setClock_cfg (x : Clock) : (s.setClock x).cfg = s.cfg := rfl
@[simp] theorem State.setClock_inputs (x : Clock) : (s.setClock x).inputs = s.inputs := rfl
@[simp] theorem State.setClock_clock (x : Clock) : (s.setClock x).clock = x := rfl
@[simp] theorem State.setClock_portA (x : Clock) : (s.setClock x).portA = s.portA := rfl
@[simp] theorem State.setClock_portB (x : Clock) : (s.setClock x).portB = s.portB := rfl
@[simp] theorem State.setClock_relay (x : Clock) : (s.setClock x).relay = s.relay := rfl
@[simp] theorem State.setClock_picture (x : Clock) : (s.setClock x).picture = s.picture := rfl
@[simp] theorem State.setClock_stations (x : Clock) : (s.setClock x).stations = s.stations := rfl
@[simp] theorem State.setClock_depth (x : Clock) : (s.setClock x).depth = s.depth := rfl
@[simp] theorem State.setClock_env (x : Clock) : (s.setClock x).env = s.env := rfl
@[simp] theorem State.setClock_trip (x : Clock) : (s.setClock x).trip = s.trip := rfl
@[simp] theorem State.setClock_safety (x : Clock) : (s.setClock x).safety = s.safety := rfl
@[simp] theorem State.setClock_gate (x : Clock) : (s.setClock x).gate = s.gate := rfl
@[simp] theorem State.setClock_seq (x : Clock) : (s.setClock x).seq = s.seq := rfl
@[simp] theorem State.setClock_panel (x : Clock) : (s.setClock x).panel = s.panel := rfl
@[simp] theorem State.setClock_model (x : Clock) : (s.setClock x).model = s.model := rfl

@[simp] theorem State.setRelay_pending (x : Relay) : (s.setRelay x).pending = s.pending := rfl
@[simp] theorem State.setRelay_loader (x : Relay) : (s.setRelay x).loader = s.loader := rfl
@[simp] theorem State.setRelay_cfg (x : Relay) : (s.setRelay x).cfg = s.cfg := rfl
@[simp] theorem State.setRelay_inputs (x : Relay) : (s.setRelay x).inputs = s.inputs := rfl
@[simp] theorem State.setRelay_clock (x : Relay) : (s.setRelay x).clock = s.clock := rfl
@[simp] theorem State.setRelay_portA (x : Relay) : (s.setRelay x).portA = s.portA := rfl
@[simp] theorem State.setRelay_portB (x : Relay) : (s.setRelay x).portB = s.portB := rfl
@[simp] theorem State.setRelay_relay (x : Relay) : (s.setRelay x).relay = x := rfl
@[simp] theorem State.setRelay_picture (x : Relay) : (s.setRelay x).picture = s.picture := rfl
@[simp] theorem State.setRelay_stations (x : Relay) : (s.setRelay x).stations = s.stations := rfl
@[simp] theorem State.setRelay_depth (x : Relay) : (s.setRelay x).depth = s.depth := rfl
@[simp] theorem State.setRelay_env (x : Relay) : (s.setRelay x).env = s.env := rfl
@[simp] theorem State.setRelay_trip (x : Relay) : (s.setRelay x).trip = s.trip := rfl
@[simp] theorem State.setRelay_safety (x : Relay) : (s.setRelay x).safety = s.safety := rfl
@[simp] theorem State.setRelay_gate (x : Relay) : (s.setRelay x).gate = s.gate := rfl
@[simp] theorem State.setRelay_seq (x : Relay) : (s.setRelay x).seq = s.seq := rfl
@[simp] theorem State.setRelay_panel (x : Relay) : (s.setRelay x).panel = s.panel := rfl
@[simp] theorem State.setRelay_model (x : Relay) : (s.setRelay x).model = s.model := rfl

@[simp] theorem State.setPicture_pending (x : Picture) : (s.setPicture x).pending = s.pending := rfl
@[simp] theorem State.setPicture_loader (x : Picture) : (s.setPicture x).loader = s.loader := rfl
@[simp] theorem State.setPicture_cfg (x : Picture) : (s.setPicture x).cfg = s.cfg := rfl
@[simp] theorem State.setPicture_inputs (x : Picture) : (s.setPicture x).inputs = s.inputs := rfl
@[simp] theorem State.setPicture_clock (x : Picture) : (s.setPicture x).clock = s.clock := rfl
@[simp] theorem State.setPicture_portA (x : Picture) : (s.setPicture x).portA = s.portA := rfl
@[simp] theorem State.setPicture_portB (x : Picture) : (s.setPicture x).portB = s.portB := rfl
@[simp] theorem State.setPicture_relay (x : Picture) : (s.setPicture x).relay = s.relay := rfl
@[simp] theorem State.setPicture_picture (x : Picture) : (s.setPicture x).picture = x := rfl
@[simp] theorem State.setPicture_stations (x : Picture) : (s.setPicture x).stations = s.stations := rfl
@[simp] theorem State.setPicture_depth (x : Picture) : (s.setPicture x).depth = s.depth := rfl
@[simp] theorem State.setPicture_env (x : Picture) : (s.setPicture x).env = s.env := rfl
@[simp] theorem State.setPicture_trip (x : Picture) : (s.setPicture x).trip = s.trip := rfl
@[simp] theorem State.setPicture_safety (x : Picture) : (s.setPicture x).safety = s.safety := rfl
@[simp] theorem State.setPicture_gate (x : Picture) : (s.setPicture x).gate = s.gate := rfl
@[simp] theorem State.setPicture_seq (x : Picture) : (s.setPicture x).seq = s.seq := rfl
@[simp] theorem State.setPicture_panel (x : Picture) : (s.setPicture x).panel = s.panel := rfl
@[simp] theorem State.setPicture_model (x : Picture) : (s.setPicture x).model = s.model := rfl

@[simp] theorem State.setStations_pending (x : Stations) : (s.setStations x).pending = s.pending := rfl
@[simp] theorem State.setStations_loader (x : Stations) : (s.setStations x).loader = s.loader := rfl
@[simp] theorem State.setStations_cfg (x : Stations) : (s.setStations x).cfg = s.cfg := rfl
@[simp] theorem State.setStations_inputs (x : Stations) : (s.setStations x).inputs = s.inputs := rfl
@[simp] theorem State.setStations_clock (x : Stations) : (s.setStations x).clock = s.clock := rfl
@[simp] theorem State.setStations_portA (x : Stations) : (s.setStations x).portA = s.portA := rfl
@[simp] theorem State.setStations_portB (x : Stations) : (s.setStations x).portB = s.portB := rfl
@[simp] theorem State.setStations_relay (x : Stations) : (s.setStations x).relay = s.relay := rfl
@[simp] theorem State.setStations_picture (x : Stations) : (s.setStations x).picture = s.picture := rfl
@[simp] theorem State.setStations_stations (x : Stations) : (s.setStations x).stations = x := rfl
@[simp] theorem State.setStations_depth (x : Stations) : (s.setStations x).depth = s.depth := rfl
@[simp] theorem State.setStations_env (x : Stations) : (s.setStations x).env = s.env := rfl
@[simp] theorem State.setStations_trip (x : Stations) : (s.setStations x).trip = s.trip := rfl
@[simp] theorem State.setStations_safety (x : Stations) : (s.setStations x).safety = s.safety := rfl
@[simp] theorem State.setStations_gate (x : Stations) : (s.setStations x).gate = s.gate := rfl
@[simp] theorem State.setStations_seq (x : Stations) : (s.setStations x).seq = s.seq := rfl
@[simp] theorem State.setStations_panel (x : Stations) : (s.setStations x).panel = s.panel := rfl
@[simp] theorem State.setStations_model (x : Stations) : (s.setStations x).model = s.model := rfl

@[simp] theorem State.setDepth_pending (x : DepthUnit) : (s.setDepth x).pending = s.pending := rfl
@[simp] theorem State.setDepth_loader (x : DepthUnit) : (s.setDepth x).loader = s.loader := rfl
@[simp] theorem State.setDepth_cfg (x : DepthUnit) : (s.setDepth x).cfg = s.cfg := rfl
@[simp] theorem State.setDepth_inputs (x : DepthUnit) : (s.setDepth x).inputs = s.inputs := rfl
@[simp] theorem State.setDepth_clock (x : DepthUnit) : (s.setDepth x).clock = s.clock := rfl
@[simp] theorem State.setDepth_portA (x : DepthUnit) : (s.setDepth x).portA = s.portA := rfl
@[simp] theorem State.setDepth_portB (x : DepthUnit) : (s.setDepth x).portB = s.portB := rfl
@[simp] theorem State.setDepth_relay (x : DepthUnit) : (s.setDepth x).relay = s.relay := rfl
@[simp] theorem State.setDepth_picture (x : DepthUnit) : (s.setDepth x).picture = s.picture := rfl
@[simp] theorem State.setDepth_stations (x : DepthUnit) : (s.setDepth x).stations = s.stations := rfl
@[simp] theorem State.setDepth_depth (x : DepthUnit) : (s.setDepth x).depth = x := rfl
@[simp] theorem State.setDepth_env (x : DepthUnit) : (s.setDepth x).env = s.env := rfl
@[simp] theorem State.setDepth_trip (x : DepthUnit) : (s.setDepth x).trip = s.trip := rfl
@[simp] theorem State.setDepth_safety (x : DepthUnit) : (s.setDepth x).safety = s.safety := rfl
@[simp] theorem State.setDepth_gate (x : DepthUnit) : (s.setDepth x).gate = s.gate := rfl
@[simp] theorem State.setDepth_seq (x : DepthUnit) : (s.setDepth x).seq = s.seq := rfl
@[simp] theorem State.setDepth_panel (x : DepthUnit) : (s.setDepth x).panel = s.panel := rfl
@[simp] theorem State.setDepth_model (x : DepthUnit) : (s.setDepth x).model = s.model := rfl

@[simp] theorem State.setEnv_pending (x : Envelope) : (s.setEnv x).pending = s.pending := rfl
@[simp] theorem State.setEnv_loader (x : Envelope) : (s.setEnv x).loader = s.loader := rfl
@[simp] theorem State.setEnv_cfg (x : Envelope) : (s.setEnv x).cfg = s.cfg := rfl
@[simp] theorem State.setEnv_inputs (x : Envelope) : (s.setEnv x).inputs = s.inputs := rfl
@[simp] theorem State.setEnv_clock (x : Envelope) : (s.setEnv x).clock = s.clock := rfl
@[simp] theorem State.setEnv_portA (x : Envelope) : (s.setEnv x).portA = s.portA := rfl
@[simp] theorem State.setEnv_portB (x : Envelope) : (s.setEnv x).portB = s.portB := rfl
@[simp] theorem State.setEnv_relay (x : Envelope) : (s.setEnv x).relay = s.relay := rfl
@[simp] theorem State.setEnv_picture (x : Envelope) : (s.setEnv x).picture = s.picture := rfl
@[simp] theorem State.setEnv_stations (x : Envelope) : (s.setEnv x).stations = s.stations := rfl
@[simp] theorem State.setEnv_depth (x : Envelope) : (s.setEnv x).depth = s.depth := rfl
@[simp] theorem State.setEnv_env (x : Envelope) : (s.setEnv x).env = x := rfl
@[simp] theorem State.setEnv_trip (x : Envelope) : (s.setEnv x).trip = s.trip := rfl
@[simp] theorem State.setEnv_safety (x : Envelope) : (s.setEnv x).safety = s.safety := rfl
@[simp] theorem State.setEnv_gate (x : Envelope) : (s.setEnv x).gate = s.gate := rfl
@[simp] theorem State.setEnv_seq (x : Envelope) : (s.setEnv x).seq = s.seq := rfl
@[simp] theorem State.setEnv_panel (x : Envelope) : (s.setEnv x).panel = s.panel := rfl
@[simp] theorem State.setEnv_model (x : Envelope) : (s.setEnv x).model = s.model := rfl

@[simp] theorem State.setTrip_pending (x : TripUnit) : (s.setTrip x).pending = s.pending := rfl
@[simp] theorem State.setTrip_loader (x : TripUnit) : (s.setTrip x).loader = s.loader := rfl
@[simp] theorem State.setTrip_cfg (x : TripUnit) : (s.setTrip x).cfg = s.cfg := rfl
@[simp] theorem State.setTrip_inputs (x : TripUnit) : (s.setTrip x).inputs = s.inputs := rfl
@[simp] theorem State.setTrip_clock (x : TripUnit) : (s.setTrip x).clock = s.clock := rfl
@[simp] theorem State.setTrip_portA (x : TripUnit) : (s.setTrip x).portA = s.portA := rfl
@[simp] theorem State.setTrip_portB (x : TripUnit) : (s.setTrip x).portB = s.portB := rfl
@[simp] theorem State.setTrip_relay (x : TripUnit) : (s.setTrip x).relay = s.relay := rfl
@[simp] theorem State.setTrip_picture (x : TripUnit) : (s.setTrip x).picture = s.picture := rfl
@[simp] theorem State.setTrip_stations (x : TripUnit) : (s.setTrip x).stations = s.stations := rfl
@[simp] theorem State.setTrip_depth (x : TripUnit) : (s.setTrip x).depth = s.depth := rfl
@[simp] theorem State.setTrip_env (x : TripUnit) : (s.setTrip x).env = s.env := rfl
@[simp] theorem State.setTrip_trip (x : TripUnit) : (s.setTrip x).trip = x := rfl
@[simp] theorem State.setTrip_safety (x : TripUnit) : (s.setTrip x).safety = s.safety := rfl
@[simp] theorem State.setTrip_gate (x : TripUnit) : (s.setTrip x).gate = s.gate := rfl
@[simp] theorem State.setTrip_seq (x : TripUnit) : (s.setTrip x).seq = s.seq := rfl
@[simp] theorem State.setTrip_panel (x : TripUnit) : (s.setTrip x).panel = s.panel := rfl
@[simp] theorem State.setTrip_model (x : TripUnit) : (s.setTrip x).model = s.model := rfl

@[simp] theorem State.setSafety_pending (x : SafetyUnit) : (s.setSafety x).pending = s.pending := rfl
@[simp] theorem State.setSafety_loader (x : SafetyUnit) : (s.setSafety x).loader = s.loader := rfl
@[simp] theorem State.setSafety_cfg (x : SafetyUnit) : (s.setSafety x).cfg = s.cfg := rfl
@[simp] theorem State.setSafety_inputs (x : SafetyUnit) : (s.setSafety x).inputs = s.inputs := rfl
@[simp] theorem State.setSafety_clock (x : SafetyUnit) : (s.setSafety x).clock = s.clock := rfl
@[simp] theorem State.setSafety_portA (x : SafetyUnit) : (s.setSafety x).portA = s.portA := rfl
@[simp] theorem State.setSafety_portB (x : SafetyUnit) : (s.setSafety x).portB = s.portB := rfl
@[simp] theorem State.setSafety_relay (x : SafetyUnit) : (s.setSafety x).relay = s.relay := rfl
@[simp] theorem State.setSafety_picture (x : SafetyUnit) : (s.setSafety x).picture = s.picture := rfl
@[simp] theorem State.setSafety_stations (x : SafetyUnit) : (s.setSafety x).stations = s.stations := rfl
@[simp] theorem State.setSafety_depth (x : SafetyUnit) : (s.setSafety x).depth = s.depth := rfl
@[simp] theorem State.setSafety_env (x : SafetyUnit) : (s.setSafety x).env = s.env := rfl
@[simp] theorem State.setSafety_trip (x : SafetyUnit) : (s.setSafety x).trip = s.trip := rfl
@[simp] theorem State.setSafety_safety (x : SafetyUnit) : (s.setSafety x).safety = x := rfl
@[simp] theorem State.setSafety_gate (x : SafetyUnit) : (s.setSafety x).gate = s.gate := rfl
@[simp] theorem State.setSafety_seq (x : SafetyUnit) : (s.setSafety x).seq = s.seq := rfl
@[simp] theorem State.setSafety_panel (x : SafetyUnit) : (s.setSafety x).panel = s.panel := rfl
@[simp] theorem State.setSafety_model (x : SafetyUnit) : (s.setSafety x).model = s.model := rfl

@[simp] theorem State.setGate_pending (x : GateUnit) : (s.setGate x).pending = s.pending := rfl
@[simp] theorem State.setGate_loader (x : GateUnit) : (s.setGate x).loader = s.loader := rfl
@[simp] theorem State.setGate_cfg (x : GateUnit) : (s.setGate x).cfg = s.cfg := rfl
@[simp] theorem State.setGate_inputs (x : GateUnit) : (s.setGate x).inputs = s.inputs := rfl
@[simp] theorem State.setGate_clock (x : GateUnit) : (s.setGate x).clock = s.clock := rfl
@[simp] theorem State.setGate_portA (x : GateUnit) : (s.setGate x).portA = s.portA := rfl
@[simp] theorem State.setGate_portB (x : GateUnit) : (s.setGate x).portB = s.portB := rfl
@[simp] theorem State.setGate_relay (x : GateUnit) : (s.setGate x).relay = s.relay := rfl
@[simp] theorem State.setGate_picture (x : GateUnit) : (s.setGate x).picture = s.picture := rfl
@[simp] theorem State.setGate_stations (x : GateUnit) : (s.setGate x).stations = s.stations := rfl
@[simp] theorem State.setGate_depth (x : GateUnit) : (s.setGate x).depth = s.depth := rfl
@[simp] theorem State.setGate_env (x : GateUnit) : (s.setGate x).env = s.env := rfl
@[simp] theorem State.setGate_trip (x : GateUnit) : (s.setGate x).trip = s.trip := rfl
@[simp] theorem State.setGate_safety (x : GateUnit) : (s.setGate x).safety = s.safety := rfl
@[simp] theorem State.setGate_gate (x : GateUnit) : (s.setGate x).gate = x := rfl
@[simp] theorem State.setGate_seq (x : GateUnit) : (s.setGate x).seq = s.seq := rfl
@[simp] theorem State.setGate_panel (x : GateUnit) : (s.setGate x).panel = s.panel := rfl
@[simp] theorem State.setGate_model (x : GateUnit) : (s.setGate x).model = s.model := rfl

@[simp] theorem State.setSeq_pending (x : Sequencer) : (s.setSeq x).pending = s.pending := rfl
@[simp] theorem State.setSeq_loader (x : Sequencer) : (s.setSeq x).loader = s.loader := rfl
@[simp] theorem State.setSeq_cfg (x : Sequencer) : (s.setSeq x).cfg = s.cfg := rfl
@[simp] theorem State.setSeq_inputs (x : Sequencer) : (s.setSeq x).inputs = s.inputs := rfl
@[simp] theorem State.setSeq_clock (x : Sequencer) : (s.setSeq x).clock = s.clock := rfl
@[simp] theorem State.setSeq_portA (x : Sequencer) : (s.setSeq x).portA = s.portA := rfl
@[simp] theorem State.setSeq_portB (x : Sequencer) : (s.setSeq x).portB = s.portB := rfl
@[simp] theorem State.setSeq_relay (x : Sequencer) : (s.setSeq x).relay = s.relay := rfl
@[simp] theorem State.setSeq_picture (x : Sequencer) : (s.setSeq x).picture = s.picture := rfl
@[simp] theorem State.setSeq_stations (x : Sequencer) : (s.setSeq x).stations = s.stations := rfl
@[simp] theorem State.setSeq_depth (x : Sequencer) : (s.setSeq x).depth = s.depth := rfl
@[simp] theorem State.setSeq_env (x : Sequencer) : (s.setSeq x).env = s.env := rfl
@[simp] theorem State.setSeq_trip (x : Sequencer) : (s.setSeq x).trip = s.trip := rfl
@[simp] theorem State.setSeq_safety (x : Sequencer) : (s.setSeq x).safety = s.safety := rfl
@[simp] theorem State.setSeq_gate (x : Sequencer) : (s.setSeq x).gate = s.gate := rfl
@[simp] theorem State.setSeq_seq (x : Sequencer) : (s.setSeq x).seq = x := rfl
@[simp] theorem State.setSeq_panel (x : Sequencer) : (s.setSeq x).panel = s.panel := rfl
@[simp] theorem State.setSeq_model (x : Sequencer) : (s.setSeq x).model = s.model := rfl

@[simp] theorem State.setRecord_pending (x : TripRecord) : (s.setRecord x).pending = s.pending := rfl
@[simp] theorem State.setRecord_loader (x : TripRecord) : (s.setRecord x).loader = s.loader := rfl
@[simp] theorem State.setRecord_cfg (x : TripRecord) : (s.setRecord x).cfg = s.cfg := rfl
@[simp] theorem State.setRecord_inputs (x : TripRecord) : (s.setRecord x).inputs = s.inputs := rfl
@[simp] theorem State.setRecord_clock (x : TripRecord) : (s.setRecord x).clock = s.clock := rfl
@[simp] theorem State.setRecord_portA (x : TripRecord) : (s.setRecord x).portA = s.portA := rfl
@[simp] theorem State.setRecord_portB (x : TripRecord) : (s.setRecord x).portB = s.portB := rfl
@[simp] theorem State.setRecord_relay (x : TripRecord) : (s.setRecord x).relay = s.relay := rfl
@[simp] theorem State.setRecord_picture (x : TripRecord) : (s.setRecord x).picture = s.picture := rfl
@[simp] theorem State.setRecord_stations (x : TripRecord) : (s.setRecord x).stations = s.stations := rfl
@[simp] theorem State.setRecord_depth (x : TripRecord) : (s.setRecord x).depth = s.depth := rfl
@[simp] theorem State.setRecord_env (x : TripRecord) : (s.setRecord x).env = s.env := rfl
@[simp] theorem State.setRecord_trip (x : TripRecord) : (s.setRecord x).trip = { s.trip with record := x } := rfl
@[simp] theorem State.setRecord_safety (x : TripRecord) : (s.setRecord x).safety = s.safety := rfl
@[simp] theorem State.setRecord_gate (x : TripRecord) : (s.setRecord x).gate = s.gate := rfl
@[simp] theorem State.setRecord_seq (x : TripRecord) : (s.setRecord x).seq = s.seq := rfl
@[simp] theorem State.setRecord_panel (x : TripRecord) : (s.setRecord x).panel = s.panel := rfl
@[simp] theorem State.setRecord_model (x : TripRecord) : (s.setRecord x).model = s.model := rfl

@[simp] theorem State.setGateRecord_pending (w : Winder) (g : GateRecord) : (s.setGateRecord w g).pending = s.pending := rfl
@[simp] theorem State.setGateRecord_loader (w : Winder) (g : GateRecord) : (s.setGateRecord w g).loader = s.loader := rfl
@[simp] theorem State.setGateRecord_cfg (w : Winder) (g : GateRecord) : (s.setGateRecord w g).cfg = s.cfg := rfl
@[simp] theorem State.setGateRecord_inputs (w : Winder) (g : GateRecord) : (s.setGateRecord w g).inputs = s.inputs := rfl
@[simp] theorem State.setGateRecord_clock (w : Winder) (g : GateRecord) : (s.setGateRecord w g).clock = s.clock := rfl
@[simp] theorem State.setGateRecord_portA (w : Winder) (g : GateRecord) : (s.setGateRecord w g).portA = s.portA := rfl
@[simp] theorem State.setGateRecord_portB (w : Winder) (g : GateRecord) : (s.setGateRecord w g).portB = s.portB := rfl
@[simp] theorem State.setGateRecord_relay (w : Winder) (g : GateRecord) : (s.setGateRecord w g).relay = s.relay := rfl
@[simp] theorem State.setGateRecord_picture (w : Winder) (g : GateRecord) : (s.setGateRecord w g).picture = s.picture := rfl
@[simp] theorem State.setGateRecord_stations (w : Winder) (g : GateRecord) : (s.setGateRecord w g).stations = s.stations := rfl
@[simp] theorem State.setGateRecord_depth (w : Winder) (g : GateRecord) : (s.setGateRecord w g).depth = s.depth := rfl
@[simp] theorem State.setGateRecord_env (w : Winder) (g : GateRecord) : (s.setGateRecord w g).env = s.env := rfl
@[simp] theorem State.setGateRecord_trip (w : Winder) (g : GateRecord) : (s.setGateRecord w g).trip = s.trip := rfl
@[simp] theorem State.setGateRecord_safety (w : Winder) (g : GateRecord) : (s.setGateRecord w g).safety = s.safety := rfl
@[simp] theorem State.setGateRecord_gate (w : Winder) (g : GateRecord) : (s.setGateRecord w g).gate = { s.gate with records := put s.gate.records w g } := rfl
@[simp] theorem State.setGateRecord_seq (w : Winder) (g : GateRecord) : (s.setGateRecord w g).seq = s.seq := rfl
@[simp] theorem State.setGateRecord_panel (w : Winder) (g : GateRecord) : (s.setGateRecord w g).panel = s.panel := rfl
@[simp] theorem State.setGateRecord_model (w : Winder) (g : GateRecord) : (s.setGateRecord w g).model = s.model := rfl

@[simp] theorem State.setPort_pending (p : PortId) (x : Port) : (s.setPort p x).pending = s.pending := by cases p <;> rfl
@[simp] theorem State.setPort_loader (p : PortId) (x : Port) : (s.setPort p x).loader = s.loader := by cases p <;> rfl
@[simp] theorem State.setPort_cfg (p : PortId) (x : Port) : (s.setPort p x).cfg = s.cfg := by cases p <;> rfl
@[simp] theorem State.setPort_inputs (p : PortId) (x : Port) : (s.setPort p x).inputs = s.inputs := by cases p <;> rfl
@[simp] theorem State.setPort_clock (p : PortId) (x : Port) : (s.setPort p x).clock = s.clock := by cases p <;> rfl
@[simp] theorem State.setPort_relay (p : PortId) (x : Port) : (s.setPort p x).relay = s.relay := by cases p <;> rfl
@[simp] theorem State.setPort_picture (p : PortId) (x : Port) : (s.setPort p x).picture = s.picture := by cases p <;> rfl
@[simp] theorem State.setPort_stations (p : PortId) (x : Port) : (s.setPort p x).stations = s.stations := by cases p <;> rfl
@[simp] theorem State.setPort_depth (p : PortId) (x : Port) : (s.setPort p x).depth = s.depth := by cases p <;> rfl
@[simp] theorem State.setPort_env (p : PortId) (x : Port) : (s.setPort p x).env = s.env := by cases p <;> rfl
@[simp] theorem State.setPort_trip (p : PortId) (x : Port) : (s.setPort p x).trip = s.trip := by cases p <;> rfl
@[simp] theorem State.setPort_safety (p : PortId) (x : Port) : (s.setPort p x).safety = s.safety := by cases p <;> rfl
@[simp] theorem State.setPort_gate (p : PortId) (x : Port) : (s.setPort p x).gate = s.gate := by cases p <;> rfl
@[simp] theorem State.setPort_seq (p : PortId) (x : Port) : (s.setPort p x).seq = s.seq := by cases p <;> rfl
@[simp] theorem State.setPort_panel (p : PortId) (x : Port) : (s.setPort p x).panel = s.panel := by cases p <;> rfl
@[simp] theorem State.setPort_model (p : PortId) (x : Port) : (s.setPort p x).model = s.model := by cases p <;> rfl
@[simp] theorem State.setPort_a_portA (x : Port) : (s.setPort .a x).portA = x := rfl
@[simp] theorem State.setPort_a_portB (x : Port) : (s.setPort .a x).portB = s.portB := rfl
@[simp] theorem State.setPort_b_portA (x : Port) : (s.setPort .b x).portA = s.portA := rfl
@[simp] theorem State.setPort_b_portB (x : Port) : (s.setPort .b x).portB = x := rfl
@[simp] theorem State.setPort_port (p : PortId) (x : Port) : (s.setPort p x).port p = x := by cases p <;> rfl

@[simp] theorem State.setRelayQueue_pending (p : PortId) (q : Queue) : (s.setRelayQueue p q).pending = s.pending := by cases p <;> rfl
@[simp] theorem State.setRelayQueue_loader (p : PortId) (q : Queue) : (s.setRelayQueue p q).loader = s.loader := by cases p <;> rfl
@[simp] theorem State.setRelayQueue_cfg (p : PortId) (q : Queue) : (s.setRelayQueue p q).cfg = s.cfg := by cases p <;> rfl
@[simp] theorem State.setRelayQueue_inputs (p : PortId) (q : Queue) : (s.setRelayQueue p q).inputs = s.inputs := by cases p <;> rfl
@[simp] theorem State.setRelayQueue_clock (p : PortId) (q : Queue) : (s.setRelayQueue p q).clock = s.clock := by cases p <;> rfl
@[simp] theorem State.setRelayQueue_portA (p : PortId) (q : Queue) : (s.setRelayQueue p q).portA = s.portA := by cases p <;> rfl
@[simp] theorem State.setRelayQueue_portB (p : PortId) (q : Queue) : (s.setRelayQueue p q).portB = s.portB := by cases p <;> rfl
@[simp] theorem State.setRelayQueue_picture (p : PortId) (q : Queue) : (s.setRelayQueue p q).picture = s.picture := by cases p <;> rfl
@[simp] theorem State.setRelayQueue_stations (p : PortId) (q : Queue) : (s.setRelayQueue p q).stations = s.stations := by cases p <;> rfl
@[simp] theorem State.setRelayQueue_depth (p : PortId) (q : Queue) : (s.setRelayQueue p q).depth = s.depth := by cases p <;> rfl
@[simp] theorem State.setRelayQueue_env (p : PortId) (q : Queue) : (s.setRelayQueue p q).env = s.env := by cases p <;> rfl
@[simp] theorem State.setRelayQueue_trip (p : PortId) (q : Queue) : (s.setRelayQueue p q).trip = s.trip := by cases p <;> rfl
@[simp] theorem State.setRelayQueue_safety (p : PortId) (q : Queue) : (s.setRelayQueue p q).safety = s.safety := by cases p <;> rfl
@[simp] theorem State.setRelayQueue_gate (p : PortId) (q : Queue) : (s.setRelayQueue p q).gate = s.gate := by cases p <;> rfl
@[simp] theorem State.setRelayQueue_seq (p : PortId) (q : Queue) : (s.setRelayQueue p q).seq = s.seq := by cases p <;> rfl
@[simp] theorem State.setRelayQueue_panel (p : PortId) (q : Queue) : (s.setRelayQueue p q).panel = s.panel := by cases p <;> rfl
@[simp] theorem State.setRelayQueue_model (p : PortId) (q : Queue) : (s.setRelayQueue p q).model = s.model := by cases p <;> rfl
@[simp] theorem State.setRelayQueue_relayQueue (p : PortId) (q : Queue) : (s.setRelayQueue p q).relayQueue p = q := by
  cases p <;> rfl

end Sys2Proof.Machine
end

