-- ==== Sys2Proof/Laws/Ops.lean ====
section
/-! SUPPORT. Sys2Proof/Laws/Ops.lean: what the shared operations leave as it was, and what the end of a step does. -/
namespace Sys2Proof.Machine

variable (s : State)

@[simp] theorem setEvents_pending (events : BitVec 16) : (setEvents events s).pending = s.pending := by
  unfold setEvents; dsimp only; split <;> rfl
@[simp] theorem setEvents_loader (events : BitVec 16) : (setEvents events s).loader = s.loader := by
  unfold setEvents; dsimp only; split <;> rfl
@[simp] theorem setEvents_cfg (events : BitVec 16) : (setEvents events s).cfg = s.cfg := by
  unfold setEvents; dsimp only; split <;> rfl
@[simp] theorem setEvents_inputs (events : BitVec 16) : (setEvents events s).inputs = s.inputs := by
  unfold setEvents; dsimp only; split <;> rfl
@[simp] theorem setEvents_clock (events : BitVec 16) : (setEvents events s).clock = s.clock := by
  unfold setEvents; dsimp only; split <;> rfl
@[simp] theorem setEvents_portA (events : BitVec 16) : (setEvents events s).portA = s.portA := by
  unfold setEvents; dsimp only; split <;> rfl
@[simp] theorem setEvents_portB (events : BitVec 16) : (setEvents events s).portB = s.portB := by
  unfold setEvents; dsimp only; split <;> rfl
@[simp] theorem setEvents_relay (events : BitVec 16) : (setEvents events s).relay = s.relay := by
  unfold setEvents; dsimp only; split <;> rfl
@[simp] theorem setEvents_picture (events : BitVec 16) : (setEvents events s).picture = s.picture := by
  unfold setEvents; dsimp only; split <;> rfl
@[simp] theorem setEvents_stations (events : BitVec 16) : (setEvents events s).stations = s.stations := by
  unfold setEvents; dsimp only; split <;> rfl
@[simp] theorem setEvents_depth (events : BitVec 16) : (setEvents events s).depth = s.depth := by
  unfold setEvents; dsimp only; split <;> rfl
@[simp] theorem setEvents_env (events : BitVec 16) : (setEvents events s).env = s.env := by
  unfold setEvents; dsimp only; split <;> rfl
@[simp] theorem setEvents_trip (events : BitVec 16) : (setEvents events s).trip = s.trip := by
  unfold setEvents; dsimp only; split <;> rfl
@[simp] theorem setEvents_safety (events : BitVec 16) : (setEvents events s).safety = s.safety := by
  unfold setEvents; dsimp only; split <;> rfl
@[simp] theorem setEvents_gate (events : BitVec 16) : (setEvents events s).gate = s.gate := by
  unfold setEvents; dsimp only; split <;> rfl
@[simp] theorem setEvents_seq (events : BitVec 16) : (setEvents events s).seq = s.seq := by
  unfold setEvents; dsimp only; split <;> rfl
@[simp] theorem setEvents_model (events : BitVec 16) : (setEvents events s).model = s.model := by
  unfold setEvents; dsimp only; split <;> rfl

/-- Setting the event set sets it. -/
@[simp] theorem setEvents_pendingEvents (events : BitVec 16) : (setEvents events s).panel.pendingEvents = events := by
  unfold setEvents; dsimp only; split <;> rfl

@[simp] theorem setEvents_callNotRegistered (events : BitVec 16) :
    (setEvents events s).panel.callNotRegistered = s.panel.callNotRegistered := by
  unfold setEvents; dsimp only; split <;> rfl

@[simp] theorem setEvents_refusedCause (events : BitVec 16) :
    (setEvents events s).panel.refusedCause = s.panel.refusedCause := by
  unfold setEvents; dsimp only; split <;> rfl

/-- The strobe is as it was or starts anew. -/
theorem setEvents_strobe (events : BitVec 16) :
    (setEvents events s).panel.strobeMs = s.panel.strobeMs ∨ (setEvents events s).panel.strobeMs = some 0 := by
  unfold setEvents; dsimp only; split <;> simp

@[simp] theorem raise_pending (e : Event) : (raise e s).pending = s.pending := by
  unfold raise; split <;> simp
@[simp] theorem raise_loader (e : Event) : (raise e s).loader = s.loader := by
  unfold raise; split <;> simp
@[simp] theorem raise_cfg (e : Event) : (raise e s).cfg = s.cfg := by
  unfold raise; split <;> simp
@[simp] theorem raise_inputs (e : Event) : (raise e s).inputs = s.inputs := by
  unfold raise; split <;> simp
@[simp] theorem raise_clock (e : Event) : (raise e s).clock = s.clock := by
  unfold raise; split <;> simp
@[simp] theorem raise_portA (e : Event) : (raise e s).portA = s.portA := by
  unfold raise; split <;> simp
@[simp] theorem raise_portB (e : Event) : (raise e s).portB = s.portB := by
  unfold raise; split <;> simp
@[simp] theorem raise_relay (e : Event) : (raise e s).relay = s.relay := by
  unfold raise; split <;> simp
@[simp] theorem raise_picture (e : Event) : (raise e s).picture = s.picture := by
  unfold raise; split <;> simp
@[simp] theorem raise_stations (e : Event) : (raise e s).stations = s.stations := by
  unfold raise; split <;> simp
@[simp] theorem raise_depth (e : Event) : (raise e s).depth = s.depth := by
  unfold raise; split <;> simp
@[simp] theorem raise_env (e : Event) : (raise e s).env = s.env := by
  unfold raise; split <;> simp
@[simp] theorem raise_trip (e : Event) : (raise e s).trip = s.trip := by
  unfold raise; split <;> simp
@[simp] theorem raise_safety (e : Event) : (raise e s).safety = s.safety := by
  unfold raise; split <;> simp
@[simp] theorem raise_gate (e : Event) : (raise e s).gate = s.gate := by
  unfold raise; split <;> simp
@[simp] theorem raise_seq (e : Event) : (raise e s).seq = s.seq := by
  unfold raise; split <;> simp
@[simp] theorem raise_model (e : Event) : (raise e s).model = s.model := by
  unfold raise; split <;> simp

@[simp] theorem raise_callNotRegistered (e : Event) : (raise e s).panel.callNotRegistered = s.panel.callNotRegistered := by
  unfold raise; split <;> simp

@[simp] theorem raise_refusedCause (e : Event) : (raise e s).panel.refusedCause = s.panel.refusedCause := by
  unfold raise; split <;> simp

/-- R176: a raised event joins the pending set; R179: in LISTEN, RUN and LISTEN-ONLY. -/
theorem raise_pendingEvents (e : Event) :
    (raise e s).panel.pendingEvents = if s.working then s.panel.pendingEvents ||| e.mask else s.panel.pendingEvents := by
  unfold raise; split <;> simp

theorem raise_strobe (e : Event) :
    (raise e s).panel.strobeMs = s.panel.strobeMs ∨ (raise e s).panel.strobeMs = some 0 := by
  unfold raise; split
  · exact setEvents_strobe s _
  · exact .inl rfl

@[simp] theorem leave_pending (e : Event) : (leave e s).pending = s.pending := by
  unfold leave; simp
@[simp] theorem leave_loader (e : Event) : (leave e s).loader = s.loader := by
  unfold leave; simp
@[simp] theorem leave_cfg (e : Event) : (leave e s).cfg = s.cfg := by
  unfold leave; simp
@[simp] theorem leave_inputs (e : Event) : (leave e s).inputs = s.inputs := by
  unfold leave; simp
@[simp] theorem leave_clock (e : Event) : (leave e s).clock = s.clock := by
  unfold leave; simp
@[simp] theorem leave_portA (e : Event) : (leave e s).portA = s.portA := by
  unfold leave; simp
@[simp] theorem leave_portB (e : Event) : (leave e s).portB = s.portB := by
  unfold leave; simp
@[simp] theorem leave_relay (e : Event) : (leave e s).relay = s.relay := by
  unfold leave; simp
@[simp] theorem leave_picture (e : Event) : (leave e s).picture = s.picture := by
  unfold leave; simp
@[simp] theorem leave_stations (e : Event) : (leave e s).stations = s.stations := by
  unfold leave; simp
@[simp] theorem leave_depth (e : Event) : (leave e s).depth = s.depth := by
  unfold leave; simp
@[simp] theorem leave_env (e : Event) : (leave e s).env = s.env := by
  unfold leave; simp
@[simp] theorem leave_trip (e : Event) : (leave e s).trip = s.trip := by
  unfold leave; simp
@[simp] theorem leave_safety (e : Event) : (leave e s).safety = s.safety := by
  unfold leave; simp
@[simp] theorem leave_gate (e : Event) : (leave e s).gate = s.gate := by
  unfold leave; simp
@[simp] theorem leave_seq (e : Event) : (leave e s).seq = s.seq := by
  unfold leave; simp
@[simp] theorem leave_model (e : Event) : (leave e s).model = s.model := by
  unfold leave; simp

@[simp] theorem countError_pending (p : PortId) : (countError p s).pending = s.pending := by
  unfold countError; dsimp only; split <;> simp
@[simp] theorem countError_loader (p : PortId) : (countError p s).loader = s.loader := by
  unfold countError; dsimp only; split <;> simp
@[simp] theorem countError_cfg (p : PortId) : (countError p s).cfg = s.cfg := by
  unfold countError; dsimp only; split <;> simp
@[simp] theorem countError_inputs (p : PortId) : (countError p s).inputs = s.inputs := by
  unfold countError; dsimp only; split <;> simp
@[simp] theorem countError_clock (p : PortId) : (countError p s).clock = s.clock := by
  unfold countError; dsimp only; split <;> simp
@[simp] theorem countError_relay (p : PortId) : (countError p s).relay = s.relay := by
  unfold countError; dsimp only; split <;> simp
@[simp] theorem countError_picture (p : PortId) : (countError p s).picture = s.picture := by
  unfold countError; dsimp only; split <;> simp
@[simp] theorem countError_stations (p : PortId) : (countError p s).stations = s.stations := by
  unfold countError; dsimp only; split <;> simp
@[simp] theorem countError_depth (p : PortId) : (countError p s).depth = s.depth := by
  unfold countError; dsimp only; split <;> simp
@[simp] theorem countError_env (p : PortId) : (countError p s).env = s.env := by
  unfold countError; dsimp only; split <;> simp
@[simp] theorem countError_trip (p : PortId) : (countError p s).trip = s.trip := by
  unfold countError; dsimp only; split <;> simp
@[simp] theorem countError_safety (p : PortId) : (countError p s).safety = s.safety := by
  unfold countError; dsimp only; split <;> simp
@[simp] theorem countError_gate (p : PortId) : (countError p s).gate = s.gate := by
  unfold countError; dsimp only; split <;> simp
@[simp] theorem countError_seq (p : PortId) : (countError p s).seq = s.seq := by
  unfold countError; dsimp only; split <;> simp
@[simp] theorem countError_model (p : PortId) : (countError p s).model = s.model := by
  unfold countError; dsimp only; split <;> simp

@[simp] theorem offer_pending (p : PortId) (f : Frame) (stamp : Nat) : (offer p f stamp s).pending = s.pending := by
  unfold offer; dsimp only; split <;> simp
@[simp] theorem offer_loader (p : PortId) (f : Frame) (stamp : Nat) : (offer p f stamp s).loader = s.loader := by
  unfold offer; dsimp only; split <;> simp
@[simp] theorem offer_cfg (p : PortId) (f : Frame) (stamp : Nat) : (offer p f stamp s).cfg = s.cfg := by
  unfold offer; dsimp only; split <;> simp
@[simp] theorem offer_inputs (p : PortId) (f : Frame) (stamp : Nat) : (offer p f stamp s).inputs = s.inputs := by
  unfold offer; dsimp only; split <;> simp
@[simp] theorem offer_clock (p : PortId) (f : Frame) (stamp : Nat) : (offer p f stamp s).clock = s.clock := by
  unfold offer; dsimp only; split <;> simp
@[simp] theorem offer_relay (p : PortId) (f : Frame) (stamp : Nat) : (offer p f stamp s).relay = s.relay := by
  unfold offer; dsimp only; split <;> simp
@[simp] theorem offer_picture (p : PortId) (f : Frame) (stamp : Nat) : (offer p f stamp s).picture = s.picture := by
  unfold offer; dsimp only; split <;> simp
@[simp] theorem offer_stations (p : PortId) (f : Frame) (stamp : Nat) : (offer p f stamp s).stations = s.stations := by
  unfold offer; dsimp only; split <;> simp
@[simp] theorem offer_depth (p : PortId) (f : Frame) (stamp : Nat) : (offer p f stamp s).depth = s.depth := by
  unfold offer; dsimp only; split <;> simp
@[simp] theorem offer_env (p : PortId) (f : Frame) (stamp : Nat) : (offer p f stamp s).env = s.env := by
  unfold offer; dsimp only; split <;> simp
@[simp] theorem offer_trip (p : PortId) (f : Frame) (stamp : Nat) : (offer p f stamp s).trip = s.trip := by
  unfold offer; dsimp only; split <;> simp
@[simp] theorem offer_safety (p : PortId) (f : Frame) (stamp : Nat) : (offer p f stamp s).safety = s.safety := by
  unfold offer; dsimp only; split <;> simp
@[simp] theorem offer_gate (p : PortId) (f : Frame) (stamp : Nat) : (offer p f stamp s).gate = s.gate := by
  unfold offer; dsimp only; split <;> simp
@[simp] theorem offer_seq (p : PortId) (f : Frame) (stamp : Nat) : (offer p f stamp s).seq = s.seq := by
  unfold offer; dsimp only; split <;> simp
@[simp] theorem offer_model (p : PortId) (f : Frame) (stamp : Nat) : (offer p f stamp s).model = s.model := by
  unfold offer; dsimp only; split <;> simp

@[simp] theorem originate_pending (payload : Payload) : (originate payload s).pending = s.pending := by
  unfold originate; split
  · dsimp only; split <;> simp
  · rfl
@[simp] theorem originate_loader (payload : Payload) : (originate payload s).loader = s.loader := by
  unfold originate; split
  · dsimp only; split <;> simp
  · rfl
@[simp] theorem originate_cfg (payload : Payload) : (originate payload s).cfg = s.cfg := by
  unfold originate; split
  · dsimp only; split <;> simp
  · rfl
@[simp] theorem originate_inputs (payload : Payload) : (originate payload s).inputs = s.inputs := by
  unfold originate; split
  · dsimp only; split <;> simp
  · rfl
@[simp] theorem originate_clock (payload : Payload) : (originate payload s).clock = s.clock := by
  unfold originate; split
  · dsimp only; split <;> simp
  · rfl
@[simp] theorem originate_relay (payload : Payload) : (originate payload s).relay = s.relay := by
  unfold originate; split
  · dsimp only; split <;> simp
  · rfl
@[simp] theorem originate_picture (payload : Payload) : (originate payload s).picture = s.picture := by
  unfold originate; split
  · dsimp only; split <;> simp
  · rfl
@[simp] theorem originate_stations (payload : Payload) : (originate payload s).stations = s.stations := by
  unfold originate; split
  · dsimp only; split <;> simp
  · rfl
@[simp] theorem originate_depth (payload : Payload) : (originate payload s).depth = s.depth := by
  unfold originate; split
  · dsimp only; split <;> simp
  · rfl
@[simp] theorem originate_env (payload : Payload) : (originate payload s).env = s.env := by
  unfold originate; split
  · dsimp only; split <;> simp
  · rfl
@[simp] theorem originate_trip (payload : Payload) : (originate payload s).trip = s.trip := by
  unfold originate; split
  · dsimp only; split <;> simp
  · rfl
@[simp] theorem originate_safety (payload : Payload) : (originate payload s).safety = s.safety := by
  unfold originate; split
  · dsimp only; split <;> simp
  · rfl
@[simp] theorem originate_gate (payload : Payload) : (originate payload s).gate = s.gate := by
  unfold originate; split
  · dsimp only; split <;> simp
  · rfl
@[simp] theorem originate_seq (payload : Payload) : (originate payload s).seq = s.seq := by
  unfold originate; split
  · dsimp only; split <;> simp
  · rfl
@[simp] theorem originate_model_draws (payload : Payload) : (originate payload s).model.draws = s.model.draws := by
  unfold originate; split
  · dsimp only; split <;> simp
  · rfl

@[simp] theorem originateAssent_pending : (originateAssent s).pending = s.pending := by
  unfold originateAssent; split <;> simp
@[simp] theorem originateAssent_loader : (originateAssent s).loader = s.loader := by
  unfold originateAssent; split <;> simp
@[simp] theorem originateAssent_cfg : (originateAssent s).cfg = s.cfg := by
  unfold originateAssent; split <;> simp
@[simp] theorem originateAssent_inputs : (originateAssent s).inputs = s.inputs := by
  unfold originateAssent; split <;> simp
@[simp] theorem originateAssent_clock : (originateAssent s).clock = s.clock := by
  unfold originateAssent; split <;> simp
@[simp] theorem originateAssent_relay : (originateAssent s).relay = s.relay := by
  unfold originateAssent; split <;> simp
@[simp] theorem originateAssent_picture : (originateAssent s).picture = s.picture := by
  unfold originateAssent; split <;> simp
@[simp] theorem originateAssent_stations : (originateAssent s).stations = s.stations := by
  unfold originateAssent; split <;> simp
@[simp] theorem originateAssent_depth : (originateAssent s).depth = s.depth := by
  unfold originateAssent; split <;> simp
@[simp] theorem originateAssent_env : (originateAssent s).env = s.env := by
  unfold originateAssent; split <;> simp
@[simp] theorem originateAssent_trip : (originateAssent s).trip = s.trip := by
  unfold originateAssent; split <;> simp
@[simp] theorem originateAssent_safety : (originateAssent s).safety = s.safety := by
  unfold originateAssent; split <;> simp
@[simp] theorem originateAssent_seq : (originateAssent s).seq = s.seq := by
  unfold originateAssent; split <;> simp
@[simp] theorem originateAssent_model_draws : (originateAssent s).model.draws = s.model.draws := by
  unfold originateAssent; split <;> simp
@[simp] theorem originateAssent_gate_records : (originateAssent s).gate.records = s.gate.records := by
  unfold originateAssent; split <;> simp
@[simp] theorem originateAssent_gate_signal : (originateAssent s).gate.signal = s.gate.signal := by
  unfold originateAssent; split <;> simp
@[simp] theorem originateAssent_gate_calls : (originateAssent s).gate.calls = s.gate.calls := by
  unfold originateAssent; split <;> simp

/-! Offering and originating (R16 to R18) -/

/-- The Bool of an offer is the loss. -/
theorem offer_portA (f : Frame) (n : Nat) :
    (offer .a f n s).portA = { s.portA with tx := (s.portA.tx.takeIn (sameReport f) f n).1 } := by
  unfold offer; dsimp only; split <;> simp [State.port]

theorem offer_a_portB (f : Frame) (n : Nat) : (offer .a f n s).portB = s.portB := by
  unfold offer; dsimp only; split <;> simp

theorem offer_portB (f : Frame) (n : Nat) :
    (offer .b f n s).portB = { s.portB with tx := (s.portB.tx.takeIn (sameReport f) f n).1 } := by
  unfold offer; dsimp only; split <;> simp [State.port]

theorem offer_b_portA (f : Frame) (n : Nat) : (offer .b f n s).portA = s.portA := by
  unfold offer; dsimp only; split <;> simp

/-- What an operation may do to the event lines: raise some events of a set, and start the strobe anew. -/
structure Raises (b : BitVec 16) (s t : State) : Prop where
  events  : ∃ more, EventsWithin more b ∧ t.panel.pendingEvents = s.panel.pendingEvents ||| more
  missed  : t.panel.callNotRegistered = s.panel.callNotRegistered
  refused : t.panel.refusedCause = s.panel.refusedCause
  strobe  : t.panel.strobeMs = s.panel.strobeMs ∨ t.panel.strobeMs = some 0

theorem eventsWithin_self (b : BitVec 16) : EventsWithin b b := by
  simp only [EventsWithin]; ext i; simp

theorem eventsWithin_zero (b : BitVec 16) : EventsWithin 0 b := by
  simp only [EventsWithin]; ext i; simp

theorem eventsWithin_or {a c b d : BitVec 16} (h : EventsWithin a b) (h' : EventsWithin c d) :
    EventsWithin (a ||| c) (b ||| d) := by
  simp only [EventsWithin] at *
  ext i hi
  have h1 := congrArg (fun x => x.getLsbD i) h
  have h2 := congrArg (fun x => x.getLsbD i) h'
  simp [hi] at h1 h2 ⊢
  intro hac hb
  rcases hac with h | h
  · simp [h1 h] at hb
  · simpa using h2 h

theorem Raises.of_panel {b : BitVec 16} {s t : State} (h : t.panel = s.panel) : Raises b s t :=
  ⟨⟨0, eventsWithin_zero b, by simp [h]⟩, by rw [h], by rw [h], .inl (by rw [h])⟩

theorem Raises.trans {b c : BitVec 16} {s t u : State} (h : Raises b s t) (h' : Raises c t u) : Raises (b ||| c) s u := by
  obtain ⟨⟨m, hm, e⟩, a1, a2, a3⟩ := h
  obtain ⟨⟨m', hm', e'⟩, b1, b2, b3⟩ := h'
  refine ⟨⟨m ||| m', eventsWithin_or hm hm', by rw [e', e, BitVec.or_assoc]⟩, b1.trans a1, b2.trans a2, ?_⟩
  rcases b3 with h | h
  · rw [h]; exact a3
  · exact .inr h

/-- Raising an event raises at most that event. -/
theorem raise_raises (e : Event) : Raises e.mask s (raise e s) := by
  refine ⟨?_, by simp, by simp, raise_strobe s e⟩
  rw [raise_pendingEvents]
  split
  · exact ⟨e.mask, eventsWithin_self _, rfl⟩
  · exact ⟨0, eventsWithin_zero _, by simp⟩

/-- What comes before an operation and leaves the panel as it was does not matter. -/
theorem Raises.after {b : BitVec 16} {s s' t : State} (h : Raises b s' t) (hp : s'.panel = s.panel) : Raises b s t := by
  obtain ⟨⟨m, hm, e⟩, h1, h2, h3⟩ := h
  exact ⟨⟨m, hm, by rw [e, hp]⟩, by rw [h1, hp], by rw [h2, hp], by rw [← hp]; exact h3⟩

/-- What comes after an operation and leaves the panel as it was does not matter. -/
theorem Raises.before {b : BitVec 16} {s t t' : State} (h : Raises b s t) (hp : t'.panel = t.panel) : Raises b s t' := by
  obtain ⟨⟨m, hm, e⟩, h1, h2, h3⟩ := h
  exact ⟨⟨m, hm, by rw [hp, e]⟩, by rw [hp, h1], by rw [hp, h2], by rw [hp]; exact h3⟩

/-- A set of events twice is the set. -/
theorem Raises.self_or {b : BitVec 16} {s t : State} (h : Raises (b ||| b) s t) : Raises b s t := by simpa using h

/-- R18: an offer raises at most TX OVERFLOW. -/
theorem offer_raises (p : PortId) (f : Frame) (n : Nat) : Raises Event.txOverflow.mask s (offer p f n s) := by
  unfold offer; dsimp only
  split
  · exact (raise_raises _ .txOverflow).after (by simp)
  · exact Raises.of_panel (by simp)

/-- R16: an originated frame is offered to Port A, in RUN. -/
theorem originate_portA (payload : Payload) :
    (originate payload s).portA =
      if s.phase = .run then { s.portA with tx := (s.portA.tx.takeIn (sameReport (s.own payload)) (s.own payload) s.model.stamp).1 }
      else s.portA := by
  unfold originate
  split
  · dsimp only; split <;> simp [offer_portA, offer_b_portA, State.own]
  · rfl

/-- R16: an originated frame is offered to Port B of a repeater, in RUN. -/
theorem originate_portB (payload : Payload) :
    (originate payload s).portB =
      if s.phase = .run ∧ s.cfg.repeater = true then
        { s.portB with tx := (s.portB.tx.takeIn (sameReport (s.own payload)) (s.own payload) s.model.stamp).1 }
      else s.portB := by
  unfold originate
  split
  · rename_i h
    dsimp only
    split
    · rename_i h'; simp [offer_portB, offer_a_portB, State.own, h, h']
    · rename_i h'; simp [offer_a_portB, h']
  · rename_i h; simp [h]

/-- R18: originating raises at most TX OVERFLOW. -/
theorem originate_raises (payload : Payload) : Raises Event.txOverflow.mask s (originate payload s) := by
  unfold originate
  split
  · dsimp only
    split
    · have h1 := (offer_raises { s with model := { s.model with stamp := s.model.stamp + 1 } } .a (s.own payload)
        s.model.stamp).after (s := s) rfl
      exact Raises.self_or (h1.trans (offer_raises _ .b _ _))
    · exact (offer_raises { s with model := { s.model with stamp := s.model.stamp + 1 } } .a (s.own payload)
        s.model.stamp).after (s := s) rfl
  · exact Raises.of_panel rfl

/-- R135: with its conditions, originating an ASSENT originates the ASSENT of the contents as they stand. -/
theorem originateAssent_of (h : s.hasGates = true) (h' : s.phase = .run) :
    originateAssent s = originate (.assent s.assentContents) (s.setGate { s.gate with assentMs := some 0 }) := by
  unfold originateAssent; simp [h, h']

/-- R16, R135: outside RUN, or without gates, no ASSENT is originated. -/
theorem originateAssent_not (h : ¬(s.hasGates = true ∧ s.phase = .run)) : originateAssent s = s := by
  unfold originateAssent
  rw [if_neg]
  intro hc
  simp at hc
  exact h hc

/-- R135: an ASSENT is offered to Port A. -/
theorem originateAssent_portA :
    (originateAssent s).portA =
      if s.hasGates = true ∧ s.phase = .run then
        { s.portA with tx := (s.portA.tx.takeIn (sameReport s.assentFrame) s.assentFrame s.model.stamp).1 }
      else s.portA := by
  by_cases h : s.hasGates = true ∧ s.phase = .run
  · rw [if_pos h, originateAssent_of s h.1 h.2]
    exact (originate_portA (s.setGate { s.gate with assentMs := some 0 }) _).trans (if_pos h.2)
  · rw [if_neg h, originateAssent_not s h]

/-- R135: an ASSENT is offered to Port B of a repeater. -/
theorem originateAssent_portB :
    (originateAssent s).portB =
      if s.hasGates = true ∧ s.phase = .run ∧ s.cfg.repeater = true then
        { s.portB with tx := (s.portB.tx.takeIn (sameReport s.assentFrame) s.assentFrame s.model.stamp).1 }
      else s.portB := by
  by_cases h : s.hasGates = true ∧ s.phase = .run
  · rw [originateAssent_of s h.1 h.2]
    by_cases h' : s.cfg.repeater = true
    · rw [if_pos ⟨h.1, h.2, h'⟩]
      exact (originate_portB (s.setGate { s.gate with assentMs := some 0 }) _).trans (if_pos ⟨h.2, h'⟩)
    · rw [if_neg (fun hc => h' hc.2.2)]
      exact (originate_portB (s.setGate { s.gate with assentMs := some 0 }) _).trans (if_neg (fun hc => h' hc.2))
  · rw [originateAssent_not s h, if_neg (fun hc => h ⟨hc.1, hc.2.1⟩)]

/-- R18: originating an ASSENT raises at most TX OVERFLOW. -/
theorem originateAssent_raises : Raises Event.txOverflow.mask s (originateAssent s) := by
  unfold originateAssent
  split
  · exact (originate_raises _ _).after rfl
  · exact Raises.of_panel rfl

/-! The end of a step -/

/-- The states that may follow `shaftLineOnChange`: only the panel differs. -/
theorem shaftLineOnChange_eq (b s : State) :
    shaftLineOnChange b s = s ∨ shaftLineOnChange b s = raise .shaftLine s := by
  unfold shaftLineOnChange; split <;> simp

/-- The states that may follow `assentOnChange`. -/
theorem assentOnChange_eq (b s : State) : assentOnChange b s = s ∨ assentOnChange b s = originateAssent s := by
  unfold assentOnChange; split <;> simp

/-- Raising events leaves all but the panel as it was. -/
theorem raise_same (e : Event) : raise e s = { s with panel := (raise e s).panel } := by
  unfold raise setEvents; dsimp only; split
  · split <;> rfl
  · rfl

/-- Setting the event set leaves all but the panel as it was. -/
theorem setEvents_same (events : BitVec 16) : setEvents events s = { s with panel := (setEvents events s).panel } := by
  unfold setEvents; dsimp only; split <;> rfl

/-- Agreement is transitive. -/
theorem Agrees.trans {a b c : State} (h : Agrees a b) (h' : Agrees b c) : Agrees a c where
  pending  := h'.pending.trans h.pending
  loader   := h'.loader.trans h.loader
  cfg      := h'.cfg.trans h.cfg
  inputs   := h'.inputs.trans h.inputs
  clock    := h'.clock.trans h.clock
  portA    := by rw [h'.portA, h.portA]
  portB    := by rw [h'.portB, h.portB]
  relay    := h'.relay.trans h.relay
  picture  := h'.picture.trans h.picture
  stations := h'.stations.trans h.stations
  depth    := h'.depth.trans h.depth
  env      := h'.env.trans h.env
  trip     := h'.trip.trans h.trip
  safety   := h'.safety.trans h.safety
  records  := h'.records.trans h.records
  signal   := h'.signal.trans h.signal
  calls    := h'.calls.trans h.calls
  seq      := h'.seq.trans h.seq
  draws    := h'.draws.trans h.draws

/-- A state that differs in its panel alone agrees. -/
theorem agrees_panel (p : Panel) : Agrees s { s with panel := p } := by constructor <;> rfl

theorem setEvents_agrees (events : BitVec 16) : Agrees s (setEvents events s) := by
  rw [setEvents_same]; exact agrees_panel s _

theorem raise_agrees (e : Event) : Agrees s (raise e s) := by
  rw [raise_same]; exact agrees_panel s _

theorem originateAssent_agrees : Agrees s (originateAssent s) := by
  constructor <;> try simp
  · rw [originateAssent_portA]; split <;> rfl
  · rw [originateAssent_portB]; split <;> rfl

theorem shaftLineOnChange_agrees (b : State) : Agrees s (shaftLineOnChange b s) := by
  rcases shaftLineOnChange_eq b s with h | h <;> rw [h]
  · exact agrees_panel s s.panel
  · exact raise_agrees s _

theorem assentOnChange_agrees (b : State) : Agrees s (assentOnChange b s) := by
  rcases assentOnChange_eq b s with h | h <;> rw [h]
  · exact agrees_panel s s.panel
  · exact originateAssent_agrees s

/-- What a step ends with agrees with what its command made, but for the transmit queues, the ASSENT timer and the panel. -/
theorem finish_agrees (b : State) : Agrees s (finish b s) :=
  ((shaftLineOnChange_agrees s b).trans (assentOnChange_agrees _ b)).trans (setEvents_agrees _ _)

/-- The line quality follows the buckets, which no offer changes. -/
theorem Agrees.lineDegraded {e t : State} (h : Agrees e t) : t.lineDegraded = e.lineDegraded := by
  have ha : t.portA.buckets = e.portA.buckets := by rw [h.portA]
  have hb : t.portB.buckets = e.portB.buckets := by rw [h.portB]
  unfold State.lineDegraded Port.degraded Port.windowSum
  rw [ha, hb, h.cfg]

/-- The leaving conditions follow what states that agree have in common, and the winder set of CALL NOT REGISTERED. -/
theorem Agrees.leavingMask {e t : State} (h : Agrees e t) (hn : t.panel.callNotRegistered = e.panel.callNotRegistered) :
    leavingMask t = leavingMask e := by
  have hm : t.anyMissing = e.anyMissing := by
    unfold State.anyMissing
    exact congrArg _ (funext fun n => by simp only [State.missing, h.cfg, h.stations])
  unfold Machine.leavingMask commonLeaving drumLeaving gateLeaving
  rw [hm, h.lineDegraded, hn, h.env, h.safety, h.stations, h.depth, h.inputs]
  simp only [State.isDrum, State.hasGates, State.isLanding, State.isLoading, State.relayDrop,
    State.staleHolder, State.shaftLine, State.holdAcknowledged, State.servedCurrent, State.currentRecord,
    h.cfg, h.relay, h.stations, h.picture]
  rfl

/-- The ASSENT a station would originate does not follow its panel. -/
theorem raise_assentFrame (e : Event) : (raise e s).assentFrame = s.assentFrame := by
  rw [raise_same]; rfl

theorem shaftLineOnChange_raises (b : State) : Raises Event.shaftLine.mask s (shaftLineOnChange b s) := by
  rcases shaftLineOnChange_eq b s with h | h <;> rw [h]
  · exact Raises.of_panel rfl
  · exact raise_raises s _

theorem assentOnChange_raises (b : State) : Raises Event.txOverflow.mask s (assentOnChange b s) := by
  rcases assentOnChange_eq b s with h | h <;> rw [h]
  · exact Raises.of_panel rfl
  · exact originateAssent_raises s

theorem shaftLineOnChange_same (b : State) : ∃ p, shaftLineOnChange b s = { s with panel := p } := by
  rcases shaftLineOnChange_eq b s with h | h <;> rw [h]
  · exact ⟨s.panel, rfl⟩
  · exact ⟨_, raise_same s _⟩

/-- The transmit queues after `assentOnChange` hold at most one ASSENT more. -/
theorem assentOnChange_tx (b : State) :
    QueueEnds s.assentFrame s.portA.tx (assentOnChange b s).portA.tx ∧
      QueueEnds s.assentFrame s.portB.tx (assentOnChange b s).portB.tx := by
  rcases assentOnChange_eq b s with h | h <;> rw [h]
  · exact ⟨.inl rfl, .inl rfl⟩
  · constructor
    · rw [originateAssent_portA]; split
      · exact .inr ⟨_, rfl⟩
      · exact .inl rfl
    · rw [originateAssent_portB]; split
      · exact .inr ⟨_, rfl⟩
      · exact .inl rfl

/-- What a step ends with, whatever its command made. -/
theorem finish_ends (b e : State) : Ends e (finish b e) := by
  have hx := shaftLineOnChange_raises e b
  have hy := assentOnChange_raises (shaftLineOnChange b e) b
  have ht := assentOnChange_tx (shaftLineOnChange b e) b
  have hr := hx.trans hy
  have hag : Agrees e (assentOnChange b (shaftLineOnChange b e)) :=
    (shaftLineOnChange_agrees e b).trans (assentOnChange_agrees _ b)
  have hp : (shaftLineOnChange b e).assentFrame = e.assentFrame ∧ (shaftLineOnChange b e).portA = e.portA ∧
      (shaftLineOnChange b e).portB = e.portB := by
    obtain ⟨p, hp⟩ := shaftLineOnChange_same e b
    rw [hp]; exact ⟨rfl, rfl, rfl⟩
  rw [hp.1, hp.2.1, hp.2.2] at ht
  refine { finish_agrees e b with
    txA := ?_, txB := ?_, events := ?_, missed := ?_, refused := ?_, strobe := ?_ }
  · simpa [finish, judgeLeaving] using ht.1
  · simpa [finish, judgeLeaving] using ht.2
  · obtain ⟨m, hm, he⟩ := hr.events
    exact ⟨m, hm, by simp [finish, judgeLeaving, he, hag.leavingMask hr.missed]⟩
  · simpa [finish, judgeLeaving] using hr.missed
  · simpa [finish, judgeLeaving] using hr.refused
  · rcases setEvents_strobe (assentOnChange b (shaftLineOnChange b e)) _ with h | h
    · have := hr.strobe
      rw [← h] at this
      exact this
    · exact .inr h

/-- Where the ASSENT contents have not changed in RUN and lamp 14 has not gone ON, a step ends quietly. -/
theorem finish_quiet (b e : State) (hc : b.phase = .run → b.assentContents = e.assentContents)
    (hl : e.isDrum = true → e.shaftLine = true → b.shaftLine = true) : Quiet e (finish b e) := by
  have h1 : shaftLineOnChange b e = e := by
    unfold shaftLineOnChange
    rw [if_neg]
    intro h
    simp at h
    simp [hl h.1.1 h.1.2] at h
  have h2 : assentOnChange b e = e := by
    unfold assentOnChange
    rw [if_neg]
    exact fun h => h.2 (hc h.1)
  unfold finish judgeLeaving
  rw [h1, h2]
  exact { setEvents_agrees e _ with
    portA' := by simp, portB' := by simp, gate := by simp, model := by simp, events := by simp, missed := by simp,
    refused := by simp, strobe := setEvents_strobe e _ }

end Sys2Proof.Machine
end

