-- ==== Sys2Proof/Laws/Queues.lean ====
section
/-! SUPPORT. Sys2Proof/Laws/Queues.lean: what a queue does with a frame put to it (R16 to R18, R26 to R28), and what stands in the
transmit queues after an origination. -/
namespace Sys2Proof.Machine

/-- Putting an entry at its place adds it and nothing else. -/
theorem insertEntry_perm (e : Entry) (l : List Entry) : (insertEntry e l).Perm (e :: l) := by
  induction l with
  | nil => exact List.Perm.refl _
  | cons x xs ih =>
    unfold insertEntry
    split
    · exact List.Perm.refl _
    · exact (ih.cons x).trans (List.Perm.swap e x xs)

theorem mem_insertEntry {e x : Entry} {l : List Entry} : x ∈ insertEntry e l ↔ x = e ∨ x ∈ l := by
  rw [(insertEntry_perm e l).mem_iff, List.mem_cons]

theorem length_insertEntry (e : Entry) (l : List Entry) : (insertEntry e l).length = l.length + 1 :=
  (insertEntry_perm e l).length_eq

variable (q : Queue) (same : Frame → Bool) (f : Frame) (n : Nat)

/-- R17: a frame that replaces an entry. -/
theorem takeIn_replaces (h : q.entries.any (fun e => same e.frame) = true) :
    q.takeIn same f n =
      ({ q with entries := q.entries.map (fun e => if same e.frame then e.replace f n else e) }, false) := by
  unfold Queue.takeIn; rw [if_pos h]

/-- R17: a frame that joins a queue with room. -/
theorem takeIn_joins (h : q.entries.any (fun e => same e.frame) = false) (hl : q.entries.length < 8) :
    q.takeIn same f n = (q.join f n, false) := by
  unfold Queue.takeIn; rw [if_neg (by simp [h]), if_pos (show q.entries.length < Config.listCapacity from hl)]

/-- R18: a frame put to a full queue whose newest removable entry is v. -/
theorem takeIn_removes (h : q.entries.any (fun e => same e.frame) = false) (hl : 8 ≤ q.entries.length) {v : Entry}
    (hv : newest (q.entries.filter (Entry.removable f.cls)) = some v) :
    q.takeIn same f n = ((q.remove v.order).join f n, true) := by
  unfold Queue.takeIn; rw [if_neg (by simp [h]), if_neg (by simp [Config.listCapacity]; omega), hv]

/-- R18: a frame put to a full queue without a removable entry. -/
theorem takeIn_drops (h : q.entries.any (fun e => same e.frame) = false) (hl : 8 ≤ q.entries.length)
    (hv : newest (q.entries.filter (Entry.removable f.cls)) = none) : q.takeIn same f n = (q, true) := by
  unfold Queue.takeIn; rw [if_neg (by simp [h]), if_neg (by simp [Config.listCapacity]; omega), hv]

/-- A frame put to a queue with room stands in it. -/
theorem takeIn_holds (hl : q.entries.length < 8) : (q.takeIn same f n).1.holds f := by
  cases h : q.entries.any (fun e => same e.frame) with
  | true =>
    rw [takeIn_replaces q same f n h]
    obtain ⟨e, he, hs⟩ := List.any_eq_true.mp h
    exact ⟨e.replace f n, List.mem_map.mpr ⟨e, he, by rw [if_pos hs]⟩, rfl⟩
  | false =>
    rw [takeIn_joins q same f n h hl]
    exact ⟨Entry.new f n q.nextOrder, mem_insertEntry.mpr (.inl rfl), rfl⟩

/-- With room, a frame put to a queue makes it longer by one at most. -/
theorem takeIn_length (hl : q.entries.length < 8) : (q.takeIn same f n).1.entries.length ≤ q.entries.length + 1 := by
  cases h : q.entries.any (fun e => same e.frame) with
  | true => rw [takeIn_replaces q same f n h]; simp
  | false => rw [takeIn_joins q same f n h hl]; simp [Queue.join, length_insertEntry]

/-- With room, a frame that the one put does not replace still stands. -/
theorem takeIn_keeps (hl : q.entries.length < 8) {g : Frame} (hg : q.holds g) (hs : same g = false) :
    (q.takeIn same f n).1.holds g := by
  obtain ⟨e, he, rfl⟩ := hg
  cases h : q.entries.any (fun e => same e.frame) with
  | true =>
    rw [takeIn_replaces q same f n h]
    exact ⟨e, List.mem_map.mpr ⟨e, he, by simp [hs]⟩, rfl⟩
  | false =>
    rw [takeIn_joins q same f n h hl]
    exact ⟨e, mem_insertEntry.mpr (.inr he), rfl⟩

/-- R17: an ASSENT that a frame of another kind meets does not replace it. -/
theorem sameReport_kind {f g : Frame} (h : f.kind ≠ g.kind) : sameReport f g = false := by
  unfold sameReport
  split <;> simp_all <;> exact fun hc => h hc.symm

/-- What the end of a step leaves of a frame that stood in a queue with room. -/
theorem QueueEnds.keeps {a g : Frame} {p p' : Queue} (h : QueueEnds a p p') (hl : p.entries.length < 8) (hg : p.holds g)
    (hk : a.kind ≠ g.kind) : p'.holds g := by
  rcases h with rfl | ⟨n, rfl⟩
  · exact hg
  · exact takeIn_keeps p _ a n hl hg (sameReport_kind hk)

/-- R16: a frame originated in RUN stands in the transmit queue of Port A, if it has room. -/
theorem originate_holdsA (s : State) (p : Payload) (hr : s.phase = .run) (hl : s.portA.tx.entries.length < 8) :
    (originate p s).portA.tx.holds (s.own p) ∧
      (originate p s).portA.tx.entries.length ≤ s.portA.tx.entries.length + 1 := by
  rw [originate_portA, if_pos hr]
  exact ⟨takeIn_holds _ _ _ _ hl, takeIn_length _ _ _ _ hl⟩

/-- R16: a frame originated in RUN stands in the transmit queue of Port B of a repeater, if it has room. -/
theorem originate_holdsB (s : State) (p : Payload) (hr : s.phase = .run) (hb : s.cfg.repeater = true)
    (hl : s.portB.tx.entries.length < 8) :
    (originate p s).portB.tx.holds (s.own p) ∧
      (originate p s).portB.tx.entries.length ≤ s.portB.tx.entries.length + 1 := by
  rw [originate_portB, if_pos ⟨hr, hb⟩]
  exact ⟨takeIn_holds _ _ _ _ hl, takeIn_length _ _ _ _ hl⟩

/-- A frame originated last by a command, other than an ASSENT, is offered. -/
theorem offered_of_originate {e t : State} (p : Payload) (h : Ends (originate p e) t) (hr : e.phase = .run)
    (hk : p.kind ≠ .assent) : Offered e t (e.own p) := by
  constructor
  · intro hl
    have hl : e.portA.tx.entries.length + 2 ≤ 8 := hl
    obtain ⟨h1, h2⟩ := originate_holdsA e p hr (by omega)
    exact h.txA.keeps (by omega) h1 (fun hc => hk hc.symm)
  · intro hb hl
    have hl : e.portB.tx.entries.length + 2 ≤ 8 := hl
    obtain ⟨h1, h2⟩ := originate_holdsB e p hr hb (by omega)
    exact h.txB.keeps (by omega) h1 (fun hc => hk hc.symm)

end Sys2Proof.Machine
end

