-- ==== Sys2Proof/Laws/Line.lean ====
section
/-! SUPPORT. Sys2Proof/Laws/Line.lean: what the bit times that pass on a line, and a dominant level on it, do to a port (R3, R4). -/
namespace Sys2Proof.Machine

variable (s : State) (p : PortId) (n : Nat)

@[simp] theorem setPort_port (x : Port) : (s.setPort p x).port p = x := by cases p <;> rfl

@[simp] theorem setPort_twice (x y : Port) : (s.setPort p x).setPort p y = s.setPort p y := by cases p <;> rfl

/-- R4: fewer than 12 recessive bit times leave a BUSY line BUSY, and are counted. -/
theorem countRecessive_busy (h : (s.port p).line = .busy) (hn : (s.port p).recessive + n < 12) :
    countRecessive p n s = s.setPort p { s.port p with recessive := (s.port p).recessive + n } := by
  have hn' : (s.port p).recessive + n < Config.idleBitTimes := hn
  simp only [countRecessive, h, if_pos hn']

/-- R4, Table 1-4: the twelfth recessive bit time makes a BUSY line IDLE, and truncates a frame in assembly. -/
theorem countRecessive_idle (h : (s.port p).line = .busy) (hn : 12 ≤ (s.port p).recessive + n) :
    countRecessive p n s = lineIdle p ((s.port p).recessive + n - 12) s := by
  have hn' : ¬(s.port p).recessive + n < Config.idleBitTimes := by simp only [Config.idleBitTimes]; omega
  simp only [countRecessive, h, if_neg hn']
  rfl

/-- R4: in IDLE every recessive bit time adds one to the idle count. -/
theorem countRecessive_more (h : (s.port p).line = .idle) :
    countRecessive p n s = s.setPort p { s.port p with idleCount := (s.port p).idleCount + n } := by
  simp only [countRecessive, h]

/-- R4: after a dominant level the line is BUSY with recessive count 0. -/
theorem lineBusy_port : ((lineBusy p s).port p).line = .busy ∧ ((lineBusy p s).port p).recessive = 0 := by
  unfold lineBusy
  dsimp only
  simp [Port.dominant]

/-- R6: a dominant level on a line that is BUSY, or that the port itself is sending on, defers no candidate. -/
theorem lineBusy_still (h : (s.port p).line = .busy ∨ (s.port p).attempt ≠ none) :
    lineBusy p s = s.setPort p { s.port p with line := .busy, recessive := 0 } := by
  have h' : ¬((s.port p).line = .idle ∧ (s.port p).attempt = none) := by
    rintro ⟨h1, h2⟩
    rcases h with h | h
    · rw [h1] at h; cases h
    · exact h h2
  unfold lineBusy
  dsimp only
  rw [if_neg h']
  rfl

end Sys2Proof.Machine
end

