-- ==== Sys2Proof/Laws/Trips.lean ====
section
/-! SUPPORT. Sys2Proof/Laws/Trips.lean: what the shared operations of the trip record and the cause list do: the partial
evaluation (R76), a report (R122), a closing (R113), an entry to STOPPING (R109) and a delivery (R164). -/
namespace Sys2Proof.Machine

variable (s : State)

/-- The partial evaluation changes the envelope alone. -/
theorem partialEvaluation_eq : ∃ x, partialEvaluation s = s.setEnv x := by
  unfold partialEvaluation
  dsimp only
  split
  · exact ⟨_, rfl⟩
  · exact ⟨_, rfl⟩

/-- R74, R76: with no trip supervised the partial evaluation clears the envelope but for the shaft-limit state. -/
theorem partialEvaluation_off (h : s.supervised = false) :
    partialEvaluation s =
      s.setEnv { s.env with vPerm := 0, vThr := 50, warning := false, count := 0, limitWord := 0 } := by
  have hp : s.permitted = 0 := by unfold State.permitted; rw [h]
  have hs : (recompute s).supervised = false := h
  unfold partialEvaluation
  simp only [hs, Bool.false_eq_true, if_false]
  unfold clearOverspeed recompute
  rw [hp]
  rfl

/-- A report leaves all but the transmit queues, the event lines and the origination count. -/
theorem reportTrip_originates (d : Depth) (o : WindingOutcome) : reportTrip d o s = s ∨ ∃ p, reportTrip d o s = originate p s := by
  unfold reportTrip
  split
  · exact .inl rfl
  · exact .inr ⟨_, rfl⟩

@[simp] theorem reportTrip_trip (d : Depth) (o : WindingOutcome) : (reportTrip d o s).trip = s.trip := by
  rcases reportTrip_originates s d o with h | ⟨p, h⟩ <;> simp [h]
@[simp] theorem reportTrip_env (d : Depth) (o : WindingOutcome) : (reportTrip d o s).env = s.env := by
  rcases reportTrip_originates s d o with h | ⟨p, h⟩ <;> simp [h]
@[simp] theorem reportTrip_depth (d : Depth) (o : WindingOutcome) : (reportTrip d o s).depth = s.depth := by
  rcases reportTrip_originates s d o with h | ⟨p, h⟩ <;> simp [h]
@[simp] theorem reportTrip_safety (d : Depth) (o : WindingOutcome) : (reportTrip d o s).safety = s.safety := by
  rcases reportTrip_originates s d o with h | ⟨p, h⟩ <;> simp [h]

/-- `BesideTrip` is reflexive. -/
theorem BesideTrip.refl : BesideTrip s s := by constructor <;> rfl

/-- `BesideTrip` is transitive. -/
theorem BesideTrip.trans {a b c : State} (h : BesideTrip a b) (h' : BesideTrip b c) : BesideTrip a c where
  pending  := h'.pending.trans h.pending
  loader   := h'.loader.trans h.loader
  cfg      := h'.cfg.trans h.cfg
  inputs   := h'.inputs.trans h.inputs
  clock    := h'.clock.trans h.clock
  portA    := by rw [h'.portA, h.portA]
  portB    := by rw [h'.portB, h.portB]
  relay    := h'.relay.trans h.relay
  picture  := h'.picture.trans h.picture
  stations := h'.stations.trans h.stations
  gate     := h'.gate.trans h.gate
  seq      := h'.seq.trans h.seq
  draws    := h'.draws.trans h.draws

theorem originate_besideTrip (p : Payload) : BesideTrip s (originate p s) := by
  constructor <;> try simp
  · rw [originate_portA]; split <;> rfl
  · rw [originate_portB]; split <;> rfl

theorem raise_besideTrip (e : Event) : BesideTrip s (raise e s) := by
  constructor <;> simp

theorem leave_besideTrip (e : Event) : BesideTrip s (leave e s) := by
  constructor <;> simp

theorem partialEvaluation_besideTrip : BesideTrip s (partialEvaluation s) := by
  obtain ⟨x, h⟩ := partialEvaluation_eq s
  rw [h]; constructor <;> rfl

theorem reportTrip_besideTrip (d : Depth) (o : WindingOutcome) : BesideTrip s (reportTrip d o s) := by
  rcases reportTrip_originates s d o with h | ⟨p, h⟩ <;> rw [h]
  · exact BesideTrip.refl s
  · exact originate_besideTrip s p

theorem takePending_besideTrip : BesideTrip s (takePending s) := by constructor <;> rfl

/-- A closing touches the trip, the envelope and the depth unit's requests, and reports. -/
theorem closeTrip_besideTrip (r : TripResult) : BesideTrip s (closeTrip r s) := by
  unfold closeTrip
  dsimp only
  refine BesideTrip.trans ?_ (reportTrip_besideTrip _ _ _)
  have h1 : ∀ x, BesideTrip s (takePending (partialEvaluation (s.setTrip x))) := fun x =>
    (show BesideTrip s (s.setTrip x) by constructor <;> rfl).trans
      ((partialEvaluation_besideTrip _).trans (takePending_besideTrip _))
  split
  · exact (h1 _).trans (raise_besideTrip _ _)
  · exact h1 _

/-- R109: an entry to STOPPING touches the trip and the envelope, and reports. -/
theorem enterStoppingOn_besideTrip (x : SampleSet) : BesideTrip s (enterStoppingOn x s) := by
  unfold enterStoppingOn
  split
  · exact BesideTrip.refl s
  · dsimp only
    refine BesideTrip.trans ?_ (reportTrip_besideTrip _ _ _)
    exact (show BesideTrip s (s.setRecord _) by constructor <;> rfl).trans (partialEvaluation_besideTrip _)

theorem enterStopping_besideTrip : BesideTrip s (enterStopping s) := enterStoppingOn_besideTrip s _

/-- R164: a delivery touches the cause list, the trip, the envelope and the depth unit's requests. -/
theorem deliver_besideTrip (c : Cause) : BesideTrip s (deliver c s) := by
  have hset : ∀ x, BesideTrip s (s.setSafety x) := fun x => by constructor <;> rfl
  unfold deliver
  split
  · exact BesideTrip.refl s
  · split
    · dsimp only
      have htold : ∀ x : State, BesideTrip x (tripTold x) := fun x => by
        unfold tripTold
        split
        · exact closeTrip_besideTrip _ _
        · exact BesideTrip.refl _
      split
      · exact ((hset _).trans (raise_besideTrip _ _)).trans (htold _)
      · exact (hset _).trans (htold _)
    · split
      · exact BesideTrip.refl s
      · exact (hset _).trans (raise_besideTrip _ _)

/-- R102: an evaluation of the path touches what a change of the trip or a delivery touches. -/
theorem evaluatePathOn_besideTrip (x : SampleSet) : BesideTrip s (evaluatePathOn x s) := by
  unfold evaluatePathOn
  split
  · exact BesideTrip.refl s
  · dsimp only
    split
    · split
      · exact closeTrip_besideTrip s _
      · exact BesideTrip.refl s
    · split
      · exact deliver_besideTrip s _
      · split
        · exact enterStoppingOn_besideTrip s x
        · exact BesideTrip.refl s
    · split
      · exact deliver_besideTrip s _
      · exact BesideTrip.refl s
    · exact BesideTrip.refl s

/-- R113: what a closing makes of the trip unit. -/
theorem closeTrip_trip (r : TripResult) :
    (closeTrip r s).trip =
      { s.trip with record := s.trip.record.closed r, calls := callsAfter r s.trip.record s.trip.calls, autoStartMs := none } := by
  have h : ∀ x : State, (partialEvaluation x).trip = x.trip := fun x => by
    obtain ⟨y, hy⟩ := partialEvaluation_eq x; rw [hy]; rfl
  unfold closeTrip
  simp only [reportTrip_trip]
  split <;> simp [takePending, h]

/-- R114: a closing does not touch the cause list. -/
theorem closeTrip_safety (r : TripResult) : (closeTrip r s).safety = s.safety := by
  have h : ∀ x : State, (partialEvaluation x).safety = x.safety := fun x => by
    obtain ⟨y, hy⟩ := partialEvaluation_eq x; rw [hy]; rfl
  unfold closeTrip
  simp only [reportTrip_safety]
  split <;> simp [takePending, h]

/-- R74, R76: after a closing the envelope stands as with no trip supervised. -/
theorem closeTrip_env (r : TripResult) :
    (closeTrip r s).env = { s.env with vPerm := 0, vThr := 50, warning := false, count := 0, limitWord := 0 } := by
  unfold closeTrip
  simp only [reportTrip_env]
  rw [partialEvaluation_off _ rfl]
  split <;> simp [takePending]

/-- R164: what a delivery makes of the cause list. -/
theorem deliver_causes (c : Cause) :
    (deliver c s).safety.causes =
      if listed c s.safety.causes = true ∨ 8 ≤ s.safety.causes.length then s.safety.causes
      else s.safety.causes ++ [causeRecord c s] := by
  unfold deliver
  by_cases h : listed c s.safety.causes = true
  · simp [h]
  · by_cases h' : s.safety.causes.length < 8
    · have h'' : s.safety.causes.length < Config.listCapacity := h'
      rw [if_neg h, if_pos h'', if_neg (by simp [h]; omega)]
      dsimp only
      unfold tripTold
      split <;> split <;> simp [closeTrip_safety]
    · have h'' : ¬s.safety.causes.length < Config.listCapacity := h'
      have h8 : listed c s.safety.causes = true ∨ 8 ≤ s.safety.causes.length := .inr (by omega)
      rw [if_neg h, if_neg h'', if_pos h8]
      split <;> simp

end Sys2Proof.Machine
end

