-- ==== Sys2Proof/Tests/Slice0.lean ====
section
/-! SUPPORT. Sys2Proof/Tests/Slice0.lean: the smoke test of WellFormed, tests of single commands against the manual's examples and
tables, and for each obligation with hypotheses a state and operands that meet them. -/
namespace Sys2Proof.Tests

set_option Elab.async false

open Sys2Proof Sys2Proof.Machine

/-! Small states -/

/-- The state a command leaves. -/
def after (c : Instr) (s : State) : State :=
  match exec c s with
  | .next t => t
  | _ => s

/-- The commands in turn. -/
def afterAll (cs : List Instr) (s : State) : State := cs.foldl (fun s c => after c s) s

/-- A station in RUN. -/
def inRun : Loader := { Loader.reset with oscillating := false, loadDue := false, phase := .run }

/-- A station in a phase. -/
def inPhase (p : Phase) (s : State) : State := { s with loader := { s.loader with phase := p } }

/-- A frame taken on Port A from a station. -/
def heard (n : Station) : Heading := { port := .a, hop := 0, origin := n }

/-- A heading taken on Port B. -/
def heardB (hop : Fin 4) (n : Station) : Heading := { port := .b, hop := hop, origin := n }

/-- The sample set of a VERIFIED conveyance at rest at a depth. -/
def at_ (d : Depth) : SampleSet :=
  { SampleSet.absent with raw := d, corrected := d, counterweight := clampDepth (4194303 - d.val), verified := true,
                          correctionOn := true, stationary := 2000 }

/-- A landing's entry as the examples give them: CURRENT, serving winder 1, clear for it. -/
def landingAt (d : Depth) : StationEntry :=
  { StationEntry.unknown with state := .current, role := some .landing, level := some d, served := some 2, clear := 2 }

/-- Drum 1 of winder 1 in RUN, its cage standing at landing 28, with landings 28 and 30 heard (Example 9-1). -/
def drum : State :=
  { State.reset with
    loader := inRun
    cfg := { Params.reset with station := 1, role := some .drum, winder := 1 }
    depth := { DepthUnit.reset with channel := some (false, false), verified := true, stationary := 2000,
                                    sample := some (at_ 1380000) }
    stations := { entries := put (put Stations.reset.entries 28 (landingAt 1380000)) 30 (landingAt 1600000), holdSet := 0 }
    safety := { SafetyUnit.reset with causes := [] } }

/-- A sample set at a depth with a speed. -/
def moving (d : Depth) (v : Int) : SampleSet := { at_ d with speed := v, stationary := 0 }

/-- The details of trip 42 of Example 9-1: MATERIAL, DOWN from landing 28 to landing 30. -/
def trip42 : TripDetails :=
  { cls := .material, auto := false, origin := 28, dest := 30, target := 1600000, direction := .down }

/-- A drum with trip 42 in a state, a sample set, and the envelope of a trip unsupervised till then. -/
def withTrip (st : TripState) (d : TripDetails) (x : SampleSet) (s : State) : State :=
  { s with
    trip := { s.trip with record := { number := 42, state := st, details := some d, stopDepth := none,
                                      armMs := if st = .armed then some 0 else none, result := none } }
    depth := { s.depth with sample := some x } }

/-- Example 9-1: trip 42 RUNNING DOWN at 1,400,000 mm and 8,000 mm/s. -/
def running : State := withTrip .running trip42 (moving 1400000 8000) drum

/-- Trip 42 ARMED at landing 28. -/
def armed : State := withTrip .armed trip42 (at_ 1380000) drum

/-- Trip 42 STOPPING. -/
def stopping : State := withTrip .stopping trip42 (moving 1400000 8000) drum

/-- Trip 42 SUSPENDED at 1,421,900 mm (Example 6-2). -/
def suspended : State := withTrip .suspended trip42 (at_ 1421900) drum

/-- A drum whose cause list holds one HALT from landing 30. -/
def tripped : State :=
  { drum with safety := { SafetyUnit.reset with causes :=
      [{ kind := .halt .estopKey, depth := some 1400000, speed := some 8000, number := 42, origin := some 30, time := 5000 }] } }

/-- Landing 30 in RUN, serving winders 0 and 1 at 1,600,000 mm, its gates closed and locked. -/
def landing : State :=
  { State.reset with
    loader := inRun
    cfg := { Params.reset with station := 30, role := some .landing, served := 3, level := 1600000,
                               markers := Vector.replicate 4 1599000 }
    inputs := { Inputs.reset with gateClosed := Vector.replicate 4 true, lockEngaged := Vector.replicate 4 true }
    gate := { GateUnit.reset with assentMs := some 0 } }

/-- A record of a cage standing at a depth with no trip. -/
def standing (d : Depth) : Carrying :=
  { current := true, skip := false, depth := d, speed := 0, vPerm := 0, number := 18, state := .idle, dest := none,
    verified := true, correctionOn := true, clamped := false, tripped := false, moving := false, callSet := 0, holdSet := 0,
    seq := 40, age := 0, staleness := 1500 }

/-- The counterweight's record beside a carrying record. -/
def besideOf (r : Carrying) : Counterweight :=
  { current := r.current, depth := 0, speed := -r.speed, moving := r.moving, seq := r.seq, age := r.age,
    staleness := r.staleness }

/-- A station with the records of a winder. -/
def seeing (w : Winder) (r : Carrying) (s : State) : State :=
  { s with picture := { carrying := put s.picture.carrying w (some r)
                        counterweight := put s.picture.counterweight w (some (besideOf r)) } }

/-- A station with one gate record. -/
def withGate (w : Winder) (g : GateState) (s : State) : State :=
  { s with gate := { s.gate with records := put s.gate.records w { state := g, settleMs := none } } }

/-- Loading station 52 in RUN at 2,310,000 mm, filling the skip of winder 1, its flask full and its door closed. -/
def loading : State :=
  { State.reset with
    loader := inRun
    cfg := { Params.reset with station := 52, role := some .loading, served := 3, level := 2310000, tipWinder := 1,
                               tipPartner := 3 }
    inputs := { Inputs.reset with gateClosed := Vector.replicate 4 true, lockEngaged := Vector.replicate 4 true,
                                  flaskFull := true, doorClosed := true, auto := true }
    gate := { GateUnit.reset with assentMs := some 0 } }

/-- The loading station with its skip present. -/
def loadingSkip : State := seeing 1 { standing 2310000 with skip := true } loading

/-- A station with its flask cycle in a state. -/
def inCycle (c : FlaskCycle) (s : State) : State := { s with seq := { s.seq with cycle := c } }

/-- Tip landing 3 of winder 1 in RUN. -/
def tip : State :=
  { landing with cfg := { landing.cfg with station := 3, level := 3000, tipFlag := true, tipWinder := 1, loadingPartner := 52 }
                 inputs := { landing.inputs with auto := true } }

/-- Repeater 20 in RUN, a landing that forwards the frames of winder 1 downward (Figure 2-1). -/
def repeater : State :=
  { landing with cfg := { landing.cfg with station := 20, repeater := true, reach := 2 } }

/-- An entry of a transmit queue, as Example 1-2 lists them. -/
def entry (order : Nat) (p : Payload) : Entry := Entry.new { hop := 0, origin := 30, payload := p } 0 order

/-- An ASSENT's contents. -/
def assent0 : AssentReport :=
  { level := 1600000, clear := 3, hold := false, estop := false, lineDegraded := false, relayDrop := false }

/-- A POSITION of winder 1 from a standing cage. -/
def position0 : PositionReport :=
  { winder := 1, seq := 41, carrying := 1600000, counterweight := 2500000, speed := 0, vPerm := 0, number := 18, state := .idle,
    dest := none, skip := false, verified := true, correctionOn := true, clamped := false, moving := false, tripped := false,
    callSet := 0, holdSet := 0 }

/-- A WINDING of winder 1 that answers a signal of landing 30. -/
def winding0 : WindingReport :=
  { winder := 1, number := 18, state := .trip .armed, cls := .persons, auto := false, origin := 30, dest := 28,
    depth := 1380000, outcome := .none, blocking := none }

/-- A configuration record: 254 bytes and their CRC (Table 11-1). -/
def sealed (b : List Byte) : List Byte := b.take 254 ++ bytesOf 2 (crc16 (b.take 254)).toNat

/-- A record that is erased but for its first bytes. -/
def record (first : List Byte) : List Byte := sealed (first ++ List.replicate (254 - first.length) 0xFF#8)

/-- The record of a drum: format 1, station 1, DRUM, winder 1, no strap, segment 0. -/
def drumRecord : List Byte := record [1, 1, 1, 1, 0, 0, 2, 0]

/-- A Bool for `Taken`. -/
def takenBool (h : Heading) (p : Payload) (s : State) : Bool :=
  s.live && s.working && s.uses h.port && (frameOf h p).wellFormed && !(s.port h.port).ownReadback (frameOf h p) &&
    h.origin != s.cfg.station

theorem taken {h : Heading} {p : Payload} {s : State} (b : takenBool h p s = true) : Taken h p s := by
  simp only [takenBool, Bool.and_eq_true, Bool.not_eq_true', bne_iff_ne] at b
  obtain ⟨⟨⟨⟨⟨h1, h2⟩, h3⟩, h4⟩, h5⟩, h6⟩ := b
  exact ⟨h1, h2, h3, h4, h5, h6⟩

/-! WellFormed refuses -/

theorem test_refuses_a_short_record : (Instr.recordReadComplete (List.replicate 2047 false)).wellFormed = false := by
  decide +kernel
theorem test_refuses_a_bit_time_beyond_the_longest_frame :
    (Instr.collision .a 432 (steady true)).wellFormed = false ∧ (Instr.collision .a 431 (steady true)).wellFormed = true := by
  decide
theorem test_refuses_a_speed_the_frame_cannot_carry :
    (Instr.positionTaken (heard 1) { position0 with speed := -32768 }).wellFormed = false ∧
      (Instr.positionTaken (heard 1) { position0 with speed := -32767 }).wellFormed = true := by decide +kernel

/-! The shaft line: Examples 1-1 and 1-2, R10 -/

/-- R10: the CRC of the bytes 31 to 39 hex is 29B1 hex. -/
theorem test_crc_of_the_nine_digits :
    (crc16 [0x31, 0x32, 0x33, 0x34, 0x35, 0x36, 0x37, 0x38, 0x39]).toNat = 0x29B1 := by decide +kernel

/-! The queue of commands and start-up -/

theorem witness_IdleStepIsOneMillisecond :
    State.reset.pending = [] ∧ State.reset.loader.oscillating = true ∧
      (after .powerLoss drum).loader.powered = false ∧
      (let s := { inPhase .listen drum with loader := { inRun with phase := .listen, listenMs := some 1999 } }
       s.pending = [] ∧ s.live = true ∧ s.loader.listenMs = some 1999) ∧
      (let s := { landing with gate := { landing.gate with assentMs := some 999 } }
       s.pending = [] ∧ s.live = true ∧ s.gate.assentMs = some 999) ∧
      (let s := { drum with clock := { drum.clock with sampleMs := 9 } }
       s.pending = [] ∧ s.live = true ∧ s.isDrum = true ∧ s.working = true ∧ s.clock.sampleMs = 9) := by decide +kernel

theorem witness_PowerOnAndWarmReset :
    drum.loader.powered = true ∧ (after .powerLoss drum).loader.powered = false := by decide +kernel

theorem witness_ResetEndsAndTheReadBegins :
    (State.reset.loader.powered = true ∧ State.reset.loader.oscillating = true ∧ State.reset.loader.pinHeld = false) ∧
      (let s := after .warmReset State.reset
       s.loader.powered = true ∧ s.loader.oscillating = true ∧ s.loader.pinHeld = true) ∧
      (let s := after .warmReset drum
       s.loader.powered = true ∧ s.loader.pinHeld = true ∧ s.loader.oscillating = false) := by decide +kernel

/-- A station that reads its record, right after a power-on. -/
def reading : State := after .oscillatorStartExpiry State.reset

/-- R180: the read command 03 hex and the address go out, and the record comes in, each byte most significant bit first. -/
theorem test_spi_bits :
    reading.spiSelect = true ∧ reading.spiDataOut.length = 24 ∧
      reading.spiDataOut.take 8 = [false, false, false, false, false, false, true, true] ∧
      spiLevels 0xA1#8 = [true, false, true, false, false, false, false, true] ∧
      (recordBuffer (spiLevels 0xA1#8 ++ spiLevels 7#8)).take 3 = [0xA1#8, 7#8, 0xFF#8] ∧ drum.spiSelect = false := by decide +kernel

theorem refused_of_format {b : List Byte} (h : field b 0 1 ≠ 1) : judgeRecord b = none := by simp [judgeRecord, h]

/-- An erased record is refused; a drum's record with a good CRC is not. -/
theorem witness_RefusedRecord :
    (List.replicate 256 (0xFF#8)).length = 256 ∧ reading.live = true ∧ reading.loader.reading = true ∧
      judgeRecord (List.replicate 256 0xFF#8) = none ∧ reading.safety.causes = [CauseRecord.start] ∧
      reading.depth.sample = none ∧ reading.trip.record.number = 0 := by
  exact ⟨by decide +kernel, by decide +kernel, by decide +kernel, refused_of_format (by decide +kernel), by decide +kernel,
    by decide +kernel, by decide +kernel⟩

set_option maxRecDepth 100000 in
theorem witness_RefusedRecord_accepted : drumRecord.length = 256 ∧ (judgeRecord drumRecord).isSome = true := by decide +kernel

/-- A drum's record with a winder of 4 is accepted, clamped. -/
def clampedRecord : List Byte := record [1, 1, 1, 4, 0, 0, 2, 0]

/-- The drum's record after a power-on, and a clamped one after a warm reset with the local emergency stop active. -/
theorem witness_AcceptedRecord_states :
    (reading.live = true ∧ reading.loader.reading = true ∧ reading.tripState = .idle ∧ reading.loader.loadDue = true) ∧
      (let s := afterAll [.warmReset, .resetPinRelease] { drum with inputs := { drum.inputs with localEstop := true } }
       s.live = true ∧ s.loader.reading = true ∧ s.tripState = .idle ∧ s.loader.loadDue = false ∧
         s.inputs.localEstop = true ∧ s.safety.causes.length < 7) := by decide +kernel

/-- R73: what has still to be loaded after a power-on stays so through a warm reset, and not after a record (log entry 17). -/
theorem test_load_due :
    reading.loader.loadDue = true ∧ (after .warmReset reading).loader.loadDue = true ∧ (after .warmReset drum).loader.loadDue = false ∧
      (after .powerOn drum).loader.loadDue = true := by decide +kernel

set_option maxRecDepth 100000 in
theorem witness_AcceptedRecord_records :
    (judgeRecord drumRecord).any (fun x => x.1.role == some .drum && !x.2) = true ∧
      (judgeRecord clampedRecord).any (fun x => x.1.role == some .drum && x.2) = true := by decide +kernel

/-- The bank landing in LISTEN. -/
def listening (n : Nat) (s : State) : State := { s with loader := { inRun with phase := .listen, listenMs := some n } }

theorem witness_ListenTimerEntersRun :
    (let s := listening 2000 (seeing 1 (standing 1600000) landing)
     s.live = true ∧ s.loader.listenMs = some 2000 ∧ s.phase = .listen ∧ s.portA.tx.entries = [] ∧ s.portB.tx.entries = [] ∧
       s.hasGates = true ∧ s.serves 1 = true ∧ s.inputs.gateClosed[(1 : Winder)] = true ∧ s.landingCondition 1 = true ∧
       s.landingCondition 0 = false) ∧
      (let s := listening 2500 drum
       s.live = true ∧ s.phase = .listen ∧ s.isDrum = true) ∧
      (listening 1999 drum).live = true ∧ (listening 1999 drum).loader.listenMs = some 1999 := by decide +kernel

/-- Example 3-2, time 2,000: with station 40 required and UNKNOWN, REQUIRED STATION is raised at the entry to RUN. -/
theorem test_listen_timer :
    (let t := after .listenTimerExpiry (listening 2000 { drum with cfg := { drum.cfg with required := 0x10000000000 } })
     t.phase = .run ∧ t.isPending .requiredStation = true ∧ t.portA.tx.entries.map (·.frame.kind) = [.announce]) := by
  decide +kernel

/-- The loading station in LISTEN with a spillage, its door open and its skip moving. -/
def unsafeListening : State :=
  listening 2000 (seeing 1 { standing 2310000 with speed := 51 }
    { loading with inputs := { loading.inputs with spillage := true, doorClosed := false } })

theorem witness_ListenTimerEntersRun_loading :
    (let s := unsafeListening
     s.live = true ∧ s.loader.listenMs = some 2000 ∧ s.phase = .listen ∧ s.isLoading = true ∧ s.inputs.spillage = true ∧
       s.inputs.doorClosed = false ∧ (s.currentRecord s.cfg.tipWinder).any (fun x => decide (50 < x.speed.natAbs)) = true) ∧
      (let s := listening 2000 loadingSkip
       s.isLoading = true ∧ s.dischargeCondition = true ∧ s.seq.cycle = .waitSkip) := by decide +kernel

/-- R159: the HALTs of the standing conditions, in order; R150: a discharge condition found holding begins a discharge. -/
theorem test_interlocks_at_entry_to_run :
    (after .listenTimerExpiry unsafeListening).portA.tx.entries.filterMap (fun e =>
        match e.frame.payload with
        | .halt _ r => some r
        | _ => none) = [.spillage, .flaskDoor, .skipMoved] ∧
      (after .listenTimerExpiry (listening 2000 loadingSkip)).seq.cycle = .discharge := by decide +kernel

set_option maxRecDepth 100000 in
/-- R183 and Table 11-2: an erased drum record is accepted with its defaults, and the first sample is taken. -/
theorem test_record_defaults :
    (let t := after (.recordReadComplete (drumRecord.flatMap spiLevels)) reading
     t.phase = .listen ∧ t.cfg.vCreep = 500 ∧ t.cfg.aRet = 800 ∧ t.cfg.vMen = 12000 ∧ t.cfg.armTimeout = 60 ∧
       t.cfg.callLife = 15 ∧ t.loader.clamped = false ∧ t.safety.causes.length = 1 ∧ t.brakeTrip = true) := by decide +kernel

/-- The record of loading station 52: served set 15, skip winder 2, tip partner 3, every parameter erased but the landing
half-width of 5 and the door timeout of 61, both outside their ranges. -/
def loadingRecord : List Byte :=
  record ([1, 52, 3, 0, 0, 2, 0, 0, 0x23, 0x3F, 0x70, 0, 5] ++ List.replicate 12 0 ++ [15, 2, 3, 0xFF, 0xFF, 61])

/-- The record of landing 3 with the tip strap. -/
def tipRecord : List Byte :=
  record ([1, 3, 2, 0, 2, 3, 0, 1, 0, 0x0B, 0xB8, 0xFF, 0xFF] ++ List.replicate 12 0 ++ [3, 1, 0xFF, 52, 0xFF, 0xFF])

set_option maxRecDepth 100000 in
theorem witness_RecordFields :
    [drumRecord, clampedRecord, loadingRecord, tipRecord].all (fun b => b.length == 256 && (judgeRecord b).isSome) = true ∧
      [drumRecord, clampedRecord, loadingRecord, tipRecord].map (fun b => (judgeRecord b).map (·.2)) =
        [some false, some true, some true, some false] := by decide +kernel

set_option maxRecDepth 100000 in
/-- R182: a half-width of 5 is clamped to 10 and a door timeout of 61 to 60; erased ones are 150 and, at a tip, a dwell of 8. -/
theorem test_record_clamps :
    (judgeRecord loadingRecord).map (fun x => (x.1.role, x.1.landingHw, x.1.doorTimeout, x.1.level)) =
        some (some .loading, 10, 60, 2310000) ∧
      (judgeRecord tipRecord).map (fun x => (x.1.landingHw, x.1.dwell, x.1.loadingPartner, x.1.rate)) = some (150, 8, 52, 1) := by
  decide +kernel

/-! The shaft line (chapter 1) -/

theorem witness_CharactersAndFramesRoundTrip :
    (frameOf (heard 1) (.position { position0 with speed := 32767 })).wellFormed = true ∧
      (frameOf (heard 1) (.position { position0 with speed := -32767 })).wellFormed = true ∧
      (frameOf (heard 63) (.halt 15 .skipMoved)).wellFormed = true := by decide +kernel

/-- Table 1-2: a HALT is 6 characters, a POSITION 36, an ASSENT 9 of 108 bit times. -/
theorem test_frame_lengths :
    (frameOf (heard 7) (.halt 1 .estopKey)).chars.length = 6 ∧ (frameOf (heard 1) (.position position0)).chars.length = 36 ∧
      (frameOf (heard 7) (.assent assent0)).bits.length = 108 := by decide +kernel

/-- Table 1-3: char0 of a HALT of hop 1 is 08 hex; winder set 2 and reason ESTOP_KEY are its payload. -/
theorem test_halt_characters :
    (frameOf { port := .b, hop := 1, origin := 50 } (.halt 2 .estopKey)).body = [0x08, 50, 2, 1] := by decide +kernel

/-- A HALT of landing 28 and its last character. -/
def halt28 : Frame := frameOf (heard 28) (.halt 2 .estopKey)

/-- Drum 1 with the first characters of that HALT assembled. -/
def assembling : State := drum.setPort .a { drum.portA with assembly := .assembling halt28.chars.dropLast }

theorem witness_LastCharacterIsTheFrameTaken :
    halt28.wellFormed = true ∧ assembling.live = true ∧ assembling.uses .a = true ∧
      (assembling.port .a).engine = .waiting ∧ (assembling.port .a).assembly = .assembling halt28.chars.dropLast ∧
      halt28.chars.getLast?.isSome = true := by decide +kernel

/-- A port with an assembly. -/
def withAssembly (a : Assembly) (s : State) : State := s.setPort .a { s.portA with assembly := a }

/-- A character with its parity bit inverted, and one with its stop bit at 0. -/
def badParity : CharReading := put (cleanReading 17 false) 10 (steady true)
def badStop : CharReading := put (cleanReading 17 false) 11 (steady false)
def falseStart : CharReading := put (cleanReading 17 false) 0 (steady true)

theorem witness_FrameAssembly :
    (let s := drum.setPort .a { drum.portA with engine := .afterFraming }
     s.live = true ∧ s.uses .a = true ∧ (s.port .a).engine = .afterFraming) ∧
      (drum.live = true ∧ drum.uses .a = true ∧ (drum.port .a).engine = .waiting ∧ (drum.port .a).assembly = .wait) ∧
      readChar falseStart = .falseStart ∧ readChar badParity = .parityError ∧ readChar badStop = .framingError ∧
      readChar (cleanReading 17 true) = .good 17 true ∧ readChar (cleanReading 17 false) = .good 17 false ∧
      [1#8].length + 1 < lengthDue [1#8, 17#8] ∧
      (let s := withAssembly (.assembling (halt28.chars.dropLast)) drum
       (s.port .a).engine = .waiting ∧ lengthDue (halt28.chars.dropLast ++ [17#8]) ≤ halt28.chars.dropLast.length + 1 ∧
         crcAgrees (halt28.chars.dropLast ++ [17#8]) = false) ∧
      ((withAssembly .skip drum).port .a).assembly = .skip := by decide +kernel

/-- R12: a frame whose check characters differ is discarded and counted. -/
theorem test_crc_error_is_counted :
    (after (.characterReceived .a (cleanReading 17 false)) (withAssembly (.assembling halt28.chars.dropLast) drum)).portA.windowSum = 1 := by
  decide +kernel

/-- Table 1-4: a framing error in WAIT leaves the assembly in SKIP, and the engine waits for a recessive bit time. -/
theorem test_framing_error :
    (let t := after (.characterReceived .a badStop) drum
     t.portA.engine = .afterFraming ∧ t.portA.assembly = .skip ∧
       (after (.recessiveBitTimeAfterFraming .a) t).portA.engine = .waiting) := by decide +kernel

/-- The queue of landing 40 in Example 1-1: an ASSENT of class 2 deferred 7 times. -/
def landing40 (deferrals : Nat) : State :=
  let e : Entry := { entry 1 (.assent assent0) with frame := frameOf (heard 40) (.assent assent0), deferrals := deferrals }
  { landing with
    cfg := { landing.cfg with station := 40 }
    portA := { Port.reset with line := .idle, tx := { entries := [e], nextOrder := 2 } } }

theorem witness_LineIdleAndBusy :
    (let s := withAssembly (.assembling [1, 2]) drum
     s.live = true ∧ s.uses .a = true ∧ (s.port .a).attempt = none ∧ (s.port .a).line = .busy) ∧
      (let s := landing40 7
       s.live = true ∧ s.uses .a = true ∧ (s.port .a).attempt = none ∧ (s.port .a).line = .idle ∧
         (s.candidate .a).isSome = true) := by decide +kernel

/-- Example 1-1: the eighth deferral promotes landing 40's ASSENT, whose gap falls from 168 to 104. -/
theorem test_deferral_promotes :
    (landing40 7).portA.tx.entries.map (·.gap) = [168] ∧
      (after (.lineBecomesBusy .a) (landing40 7)).portA.tx.entries.map (fun e => (e.effClass, e.deferrals, e.gap)) = [(1, 0, 104)] := by
  decide +kernel

/-- R4, R11: the line falls idle in the middle of a frame, which is counted TRUNCATED. -/
theorem test_truncated :
    (after (.lineBecomesIdle ⟨.a, 12⟩) (withAssembly (.assembling [1, 2]) drum)).portA.windowSum = 1 := by decide +kernel

theorem witness_TransmissionStart :
    (let s := landing40 0
     s.live = true ∧ s.uses .a = true ∧ (s.port .a).line = .idle ∧ (s.port .a).attempt = none ∧
       (s.candidate .a).any (fun x => decide (x.2.effClass * 64 + x.2.frame.origin.val ≤ (s.port .a).idleCount + 168)) = true ∧
       (s.candidate .a).any (fun x => !decide (x.2.effClass * 64 + x.2.frame.origin.val ≤ (s.port .a).idleCount + 167)) = true ∧
       s.phase = .run) := by decide +kernel

/-- Landing 40's ASSENT being sent. -/
def sending : State := after (.transmissionStart .a 168) (landing40 0)

/-- Example 1-1: the ASSENT of gap 168 begins at idle count 168 and not at 167. -/
theorem test_gap :
    sending.portA.attempt.isSome = true ∧ (after (.transmissionStart .a 167) (landing40 0)).portA.attempt = none := by
  decide +kernel

theorem witness_LineIdleAndBusy_counts :
    (let s := sending
     s.live = true ∧ s.uses .a = true ∧ (s.port .a).attempt.isSome = true) ∧
      (let s := drum
       s.live = true ∧ s.uses .a = true ∧ (s.port .a).attempt = none ∧ (s.port .a).line = .busy ∧
         (s.port .a).recessive + 11 < 12 ∧ 12 ≤ (s.port .a).recessive + 12) ∧
      (landing40 0).portA.line = .idle := by decide +kernel

/-- R4: the eleventh recessive bit time leaves the line BUSY, the twelfth makes it IDLE, and those after it are idle counts; a
character between them starts the count anew. -/
theorem test_recessive_count :
    (let t := after (.lineBecomesIdle ⟨.a, 11⟩) drum
     (t.portA.line = .busy ∧ t.portA.recessive = 11 ∧ (after (.lineBecomesIdle ⟨.a, 1⟩) t).portA.line = .idle)) ∧
      (after (.lineBecomesIdle ⟨.a, 15⟩) drum).portA.idleCount = 3 ∧
      (afterAll [.lineBecomesIdle ⟨.a, 11⟩, .characterReceived .a (cleanReading 17 true), .lineBecomesIdle ⟨.a, 1⟩] drum).portA.line =
        .busy ∧
      (after (.characterReceived .a (cleanReading 17 true)) (landing40 7)).portA.tx.entries.map (·.effClass) = [1] := by
  decide +kernel

theorem witness_TransmissionStart_busy :
    (let s := after (.lineBecomesBusy .a) (landing40 0)
     s.live = true ∧ s.uses .a = true ∧ s.portA.line = .busy ∧ s.portA.attempt = none ∧ s.phase = .run ∧
       (s.candidate .a).any (fun x => decide (12 + x.2.effClass * 64 + x.2.frame.origin.val ≤ s.portA.recessive + 180) &&
         !decide (12 + x.2.effClass * 64 + x.2.frame.origin.val ≤ s.portA.recessive + 179)) = true) := by decide +kernel

/-- An entry being sent, with a collision count. -/
def sendingAfter (collisions : Nat) : State :=
  { sending with portA := { sending.portA with tx := { sending.portA.tx with
      entries := sending.portA.tx.entries.map (fun e => { e with collisions := collisions }) } } }

/-- The first bit of a frame is a start bit, 0. -/
theorem witness_AttemptEnds :
    [0, 14, 15].all (fun n =>
      let s := sendingAfter n
      s.live && s.uses .a && s.phase == .run &&
        (match (s.port .a).attempt with
          | some a => a.frame.bits[0]? == some false &&
              ((s.queueOf .a a.relayed).entries.find? (fun x => x.order == a.order)).any (fun e => e.collisions == n)
          | none => false)) = true ∧
      readBit (steady false) = false ∧ readBit (steady true) ≠ false ∧
      (let s := inPhase .listen (after (.transmissionStart .a 168) (inPhase .listen (landing40 0)))
       s.live = true ∧ s.phase = .listen ∧ s.portA.attempt.isSome = true) := by decide +kernel

/-- Loading station 52 in LOADED, its mark not set, sending the ASSENT numbered 5; the entry to LOADED noted a number. -/
def sendingLoaded (noted : Nat) (auto : Bool) : State :=
  let e : Entry := { Entry.new loading.assentFrame 5 1 with sending := true }
  { loading with
    inputs := { loading.inputs with auto := auto }
    seq := { Sequencer.reset with cycle := .loaded, complete := true, sendAfter := noted }
    model := { loading.model with stamp := 6 }
    portA := { Port.reset with tx := { entries := [e], nextOrder := 2 }, attempt := some (attemptOf false e) } }

theorem witness_AttemptEnds_loaded :
    [(5, true), (5, false), (6, true)].all (fun x =>
      let s := sendingLoaded x.1 x.2
      s.live && s.isLoading && s.phase == .run && s.inputs.auto == x.2 && s.seq.auto.retryMs == none && s.seq.cycle == .loaded &&
        s.seq.sendAfter == x.1 && s.portA.tx.entries.any (fun e => e.order == 1 && !e.replaced) &&
        s.portA.attempt.any (fun a => !a.relayed && a.order == 1 && a.stamp == 5 && a.frame.kind == .assent)) = true ∧
      ((sendingLoaded 5 true).portA.tx.entries.map (·.order)).Nodup ∧
      repeater.phase = .run ∧ repeater.cfg.repeater = true := by decide +kernel

/-- R156: an ASSENT originated since the entry to LOADED sets the mark as it completes, and the automatic GO follows; an
earlier one sets nothing. -/
theorem test_send_mark :
    (let t := after (.transmissionComplete .a) (sendingLoaded 5 true)
     (t.seq.cycle = .waitDepart ∧ t.portA.tx.entries.map (·.frame.payload) = [.signal 1 3 .ore .go true])) ∧
      (let t := after (.transmissionComplete .a) (sendingLoaded 6 true)
       (t.seq.cycle = .loaded ∧ t.seq.sendMark = false ∧ t.portA.tx.entries = [])) := by decide +kernel

/-- R7, R185: the 16th collision puts the station in LISTEN-ONLY; the 15th does not. -/
theorem test_sixteenth_collision :
    (after (.collision .a 0 (steady true)) (sendingAfter 14)).phase = .run ∧
      (after (.collision .a 0 (steady true)) (sendingAfter 15)).phase = .listenOnly := by decide +kernel

theorem witness_AttemptEnds_complete :
    (sending.live = true ∧ (sending.portA.attempt.any (fun a => !a.relayed && a.order == 1)) = true ∧
      (sending.portA.tx.entries.any (fun e => e.order == 1 && !e.replaced)) = true ∧
      (sending.portA.tx.entries.map (·.order)).Nodup ∧ sending.seq.cycle ≠ .loaded) ∧
      (let s := after (.assentTimerExpiry) { sending with gate := { sending.gate with assentMs := some 1000 } }
       s.live = true ∧ (s.portA.attempt.any (fun a => !a.relayed && a.order == 1)) = true ∧
         (s.portA.tx.entries.any (fun e => e.order == 1 && e.replaced)) = true ∧
         (s.portA.tx.entries.map (·.order)).Nodup ∧ s.seq.cycle ≠ .loaded) ∧
      (let s := inCycle .loaded sending
       s.seq.cycle = .loaded ∧ s.portA.attempt.any (fun a => a.frame.kind == .assent && decide (s.seq.sendAfter ≤ a.stamp)) = true) := by
  decide +kernel

/-- R8: the entry sent leaves; an entry replaced meanwhile stays. -/
theorem test_transmission_complete :
    (after (.transmissionComplete .a) sending).portA.tx.entries = [] ∧
      (after (.transmissionComplete .a) (after (.assentTimerExpiry)
        { sending with gate := { sending.gate with assentMs := some 1000 } })).portA.tx.entries.length = 1 := by decide +kernel

theorem witness_ErrorWindow :
    drum.live = true ∧
      (let s := { drum with clock := { drum.clock with windowMs := 999 } }
       s.pending = [] ∧ s.live = true ∧ s.clock.windowMs = 999) ∧ drum.loader.powered = true := by decide +kernel

/-- A drum with 8 errored frames in its current bucket. -/
def eightErrors : State := { drum with portA := { drum.portA with buckets := put drum.portA.buckets drum.portA.pointer 8 } }

theorem witness_ErrorWindow_degraded :
    eightErrors.working = true ∧ eightErrors.live = true ∧ eightErrors.uses .a = true ∧ eightErrors.portA.windowSum = 8 ∧
      eightErrors.portA.buckets[eightErrors.portA.pointer] < 255 ∧
      { position0 with speed := -32768 }.wellFormed = false := by decide +kernel

/-- R15: the ninth errored frame degrades the line. -/
theorem test_line_degraded :
    eightErrors.lineDegraded = false ∧
      (let t := after (.positionTaken (heard 1) { position0 with speed := -32768 }) eightErrors
       (t.lineDegraded = true ∧ t.eventCode = 5)) := by decide +kernel

/-- The queue of Example 1-2. -/
def queue30 : Queue :=
  { entries := [entry 3 (.signal 0 1 .ore .go false), entry 6 (.signal 0 1 .ore .stop false), entry 1 (.assent assent0),
                entry 4 (.mark 0 1), entry 8 (.mark 0 2), entry 2 (.call 0 .ore .register), entry 5 (.call 0 .ore .cancel),
                entry 7 (.call 0 .ore .register)]
    nextOrder := 9 }

/-- Its five offers: HALT, ASSENT, SIGNAL, MARK and CALL. -/
def offers30 : List Frame :=
  [.halt 1 .estopKey, .assent assent0, .signal 0 2 .ore .go false, .mark 1 5, .call 1 .ore .register].map (frameOf (heard 30))

/-- Example 1-2: what the queue holds after the five offers, by entry order. -/
theorem test_full_queue :
    (offers30.foldl (fun q f => (q.takeIn (sameReport f) f 0).1) queue30).entries.map (·.order) = [9, 3, 6, 10, 1, 4, 11, 2] := by
  decide +kernel

theorem witness_FullTransmitQueue :
    queue30.entries.length = 8 ∧ (queue30.entries.map (·.order)).Nodup ∧
      (let f := frameOf (heard 30) (.halt 1 .estopKey)
       (∀ e ∈ queue30.entries, sameReport f e.frame = false) ∧
         (∃ v ∈ queue30.entries, v.sending = false ∧ f.cls < v.effClass ∧
           ∀ x ∈ queue30.entries, x.sending = false → f.cls < x.effClass → x.order ≤ v.order)) ∧
      (let f := frameOf (heard 30) (.call 1 .ore .register)
       (∀ e ∈ queue30.entries, sameReport f e.frame = false) ∧ ∀ v ∈ queue30.entries, v.sending = true ∨ v.effClass ≤ f.cls) ∧
      (let s := { landing with portA := { landing.portA with tx := queue30 } }
       s.working = true ∧ (s.port .a).tx = queue30) := by decide +kernel

/-- Its own number comes from another station. -/
theorem witness_DuplicateNumberEntersListenOnly :
    (drum.live = true ∧ drum.phase = .run ∧ drum.uses .a = true ∧ (frameOf (heard 1) (.halt 2 .estopKey)).wellFormed = true ∧
      (drum.port .a).ownReadback (frameOf (heard 1) (.halt 2 .estopKey)) = false ∧ (heard 1).origin = drum.cfg.station) ∧
      (listening 5 landing).phase = .listen ∧ (withGate 0 .releasable landing).gateState 0 = .releasable ∧
      armed.tripState = .armed ∧ running.tripState = .running ∧ running.trip.record.details = some trip42 ∧
      drum.tripState = .idle ∧ armed.live = true ∧ running.live = true := by decide +kernel

/-- A drum that has just completed a HALT of its own. -/
def readingBack : State := drum.setPort .a { drum.portA with completed := some (frameOf (heard 1) (.halt 2 .estopKey)) }

theorem witness_DuplicateNumberEntersListenOnly_conditions :
    (readingBack.live = true ∧ readingBack.uses .a = true ∧
      (readingBack.port .a).completed = some (frameOf (heard 1) (.halt 2 .estopKey))) ∧
      (drum.port .a).completed = none ∧ (drum.port .a).attempt = none ∧
      [Phase.init, .configFault].all (fun f =>
        let s := inPhase f drum
        s.live && s.uses .a && s.phase == f && (frameOf (heard 28) (.halt 2 .estopKey)).wellFormed) = true := by decide +kernel

/-- R13: its own readback leaves a station in RUN; in CONFIG_FAULT a HALT is not taken. -/
theorem test_conditions_of_taking :
    (let t := after (.haltTaken (heard 1) 2 .estopKey) readingBack
     (t.phase = .run ∧ t.safety.causes = [] ∧ t.portA.windowSum = 0)) ∧
      (after (.haltTaken (heard 28) 2 .estopKey) (inPhase .configFault drum)).safety.causes = [] := by decide +kernel

/-- R13: a drum ignores a HALT of its own number and loses the line. -/
theorem test_duplicate_number :
    (let t := after (.haltTaken (heard 1) 2 .estopKey) running
     t.phase = .listenOnly ∧ t.tripState = .stopping ∧ t.safety.causes = []) := by decide +kernel

theorem witness_OnlyAResetLeavesListenOnly :
    StartInv (inPhase .listenOnly drum) ∧ (inPhase .listenOnly drum).phase = .listenOnly ∧
      StartInv (inPhase .configFault drum) ∧ (inPhase .configFault drum).phase = .configFault ∧
      exec .listenTimerExpiry (inPhase .listenOnly drum) = .next (inPhase .listenOnly drum) :=
  ⟨⟨by decide +kernel, by decide +kernel, by decide +kernel, by decide +kernel⟩, by decide +kernel, ⟨by decide +kernel, by decide +kernel, by decide +kernel, by decide +kernel⟩, by decide +kernel, rfl⟩

/-! Relaying (chapter 2) -/

theorem witness_RepeaterForwards :
    Taken (heard 1) (.position position0) repeater ∧ repeater.cfg.repeater = true ∧ repeater.phase = .run ∧
      winderIn repeater.cfg.reach position0.winder = true ∧ (heard 1).hop.val < 3 ∧
      (repeater.relayQueue (farPort .a)).entries.length < 8 ∧
      Taken (heardB 3 50) (.halt 2 .estopKey) repeater ∧ Taken (heard 25) (.assent assent0) repeater :=
  ⟨taken (by decide +kernel), by decide +kernel, by decide +kernel, by decide +kernel, by decide +kernel, by decide +kernel, taken (by decide +kernel),
    taken (by decide +kernel)⟩

/-- Example 2-1, 2: a POSITION of winder 1 joins the downward queue with hop count 1 and gap 129. -/
theorem test_relay_position :
    (after (.positionTaken (heard 1) position0) repeater).relay.down.entries.map (fun e => (e.frame.hop, e.gap)) = [(1, 129)] := by
  decide +kernel

/-- Example 2-1, 4: an ASSENT taken on Port A is outside the downward set; R25: at three hops HOP DROP is raised. -/
theorem test_relay_refuses :
    (after (.assentTaken (heard 25) assent0) repeater).relay = Relay.reset ∧
      (after (.haltTaken (heardB 3 50) 2 .estopKey) repeater).isPending .hopDrop = true := by decide +kernel

/-- Repeater 20 with a downward relay queue of 8 entries of one payload. -/
def fullRelay (p : Payload) : State :=
  { repeater with relay := { Relay.reset with down :=
      { entries := [1, 2, 3, 4, 5, 6, 7, 8].map (fun n => entry n p), nextOrder := 9 } } }

theorem witness_RepeaterForwards_full_queue :
    takenBool { port := .a, hop := 2, origin := 1 } (.winding winding0) (fullRelay (.winding winding0)) = true ∧
      ((fullRelay (.winding winding0)).relay.down.takeIn (sameRelayed (Frame.forwarded (frameOf (heard 1) (.winding winding0))))
        (Frame.forwarded (frameOf (heard 1) (.winding winding0))) 0).2 = true ∧
      takenBool (heard 1) (.winding winding0) (fullRelay (.announce (.drum 0) 0 0)) = true ∧
      (∃ v ∈ (fullRelay (.announce (.drum 0) 0 0)).relay.down.entries, v.sending = false ∧
        (frameOf (heard 1) (.winding winding0)).cls < v.effClass) := by decide +kernel

/-- Example 2-2, 2: the newest entry of greater class makes room for a WINDING, and the drop flag is latched. -/
theorem test_relay_overflow :
    (let t := after (.windingTaken (heard 1) winding0) (fullRelay (.announce (.drum 0) 0 0))
     (t.relay.down.entries.map (·.order) = [9, 1, 2, 3, 4, 5, 6, 7] ∧ t.relay.downDrop = true ∧ t.isPending .relayDrop = true)) := by
  decide +kernel

/-! The picture (chapter 3) -/

theorem witness_ConveyanceRecords :
    StartInv landing ∧ Taken (heard 1) (.position position0) landing ∧ landing.picture.carrying[(1 : Winder)] = none ∧
      (let s := seeing 1 (standing 1600000) landing
       StartInv s ∧ Taken (heard 1) (.position position0) s ∧ (position0.seq - (standing 1600000).seq).toNat = 1 ∧
         Taken (heard 1) (.position { position0 with seq := 39 }) s ∧ (39#8 - (standing 1600000).seq).toNat = 255) ∧
      (StartInv drum ∧ Taken (heard 2) (.position position0) drum ∧ drum.isDrum = true ∧ position0.winder = drum.cfg.winder) :=
  ⟨⟨by decide +kernel, by decide +kernel, by decide +kernel, by decide +kernel⟩, taken (by decide +kernel), by decide +kernel,
    ⟨⟨by decide +kernel, by decide +kernel, by decide +kernel, by decide +kernel⟩, taken (by decide +kernel), by decide +kernel, taken (by decide +kernel), by decide +kernel⟩,
    ⟨by decide +kernel, by decide +kernel, by decide +kernel, by decide +kernel⟩, taken (by decide +kernel), by decide +kernel, by decide +kernel⟩

/-- Example 3-1: sequences 41 (d = 1) and 44 (d = 4) are accepted after 40, and a late copy of 43 after 44 is not. -/
theorem test_position_sequence :
    (let s := seeing 1 (standing 1600000) landing
     let t := after (.positionTaken (heard 1) { position0 with seq := 44, moving := true, speed := 8000 }) s
     let u := after (.positionTaken (heard 1) { position0 with seq := 43, carrying := 7 }) t
     (t.picture.carrying[(1 : Winder)].map (fun r => (r.seq, r.staleness)) = some (44, 150)) ∧
       u.picture.carrying[(1 : Winder)] = t.picture.carrying[(1 : Winder)]) := by decide +kernel

theorem witness_ConveyanceRecords_expiry :
    (let r := { standing 1600000 with age := 1500 }
     let s := withGate 1 .releasable (seeing 1 r landing)
     s.live = true ∧ s.working = true ∧ s.picture.carrying[(1 : Winder)] = some r ∧ r.current = true ∧ r.staleness ≤ r.age ∧
       s.serves 1 = true ∧ s.phase = .run ∧ s.landingCondition 1 = true ∧ s.gateState 1 = .releasable) ∧
      (let r := { standing 1600000 with age := 1499 }
       (seeing 1 r landing).picture.carrying[(1 : Winder)] = some r ∧ r.age < r.staleness) ∧
      ({ standing 1600000 with current := false } : Carrying).current = false := by decide +kernel

/-- R37, R129: at age 150 a moving cage's record becomes STALE; a RELEASABLE gate locks when its record does. -/
theorem test_conveyance_record_expiry :
    (let s := seeing 1 { standing 1600000 with age := 150, staleness := 150, moving := true, speed := 8000 } landing
     (after (.conveyanceRecordExpiry 1) s).picture.carrying[(1 : Winder)].map (·.current) = some false) ∧
      (let s := withGate 1 .releasable (seeing 1 { standing 1600000 with age := 1500 } landing)
       (after (.conveyanceRecordExpiry 1) s).gateState 1 = .locked) := by decide +kernel

theorem witness_AssentWritesTheEntry :
    Taken (heard 30) (.assent { assent0 with estop := true }) drum ∧ drum.isDrum = true ∧
      (∀ ws, drum.stations.entries[(30 : Station)].served = some ws → winderIn ws drum.cfg.winder = true) ∧
      drum.safety.causes.length < 8 ∧
      (let r := { assent0 with clear := 0 }
       Taken (heard 30) (.assent r) running ∧ running.isDrum = true ∧ running.judgedRange = some (1400000, 1602000) ∧
         running.tripState = .running ∧ running.safety.causes = [] ∧ r.hold = false ∧ r.estop = false ∧
         1400000 ≤ r.level.val ∧ (r.level.val : Int) ≤ 1602000 ∧ winderIn r.clear running.cfg.winder = false) ∧
      drum.stations.entries[(7 : Station)].role = none ∧ Taken (heard 7) (.assent { assent0 with hold := true }) drum :=
  ⟨taken (by decide +kernel), by decide +kernel, by decide +kernel, by decide +kernel,
    ⟨taken (by decide +kernel), by decide +kernel, by decide +kernel, by decide +kernel, by decide +kernel, by decide +kernel, by decide +kernel, by decide +kernel, by decide +kernel,
      by decide +kernel⟩, by decide +kernel, taken (by decide +kernel)⟩

/-- Example 3-2: an UNKNOWN station that assents with HOLD is a LANDING with no stated served set, and joins the hold set. -/
theorem test_assent_of_an_unknown_station :
    (let t := after (.assentTaken (heard 22) { assent0 with level := 1260000, clear := 1, hold := true }) drum
     (t.stations.entries[(22 : Station)].state = .current ∧ t.stations.entries[(22 : Station)].role = some .landing ∧
       t.stations.entries[(22 : Station)].served = none ∧ stationIn t.stations.holdSet 22 = true)) := by decide +kernel

/-- Example 6-2: a hold stops trip 42; at 8,000 mm/s the stop depth is 1,400,000 + 39,844 (R83). -/
theorem test_hold_stops_a_trip :
    (let t := after (.assentTaken (heard 27) { assent0 with level := 1300000, clear := 2, hold := true })
        (withTrip .running trip42 (moving 1400000 6000) drum)
     t.tripState = .stopping ∧ t.permit = false ∧ t.trip.record.stopDepth = some 1422344) := by decide +kernel

theorem witness_StationTableChanges :
    Taken (heard 40) (.announce (.loading 2 1510000) 0 7) drum ∧ drum.isDrum = true ∧
      Taken (heard 0) (.announce (.drum 0) 0 7) drum :=
  ⟨taken (by decide +kernel), by decide +kernel, taken (by decide +kernel)⟩

/-- Example 3-2, time 2,200: the ANNOUNCE of an UNKNOWN station makes its entry STALE, LOADING. -/
theorem test_announce :
    (let t := after (.announceTaken (heard 40) (.loading 2 1510000) 0 7) drum
     (t.stations.entries[(40 : Station)].state = .stale ∧ t.stations.entries[(40 : Station)].role = some .loading ∧
       t.stations.entries[(40 : Station)].level = some 1510000)) := by decide +kernel

/-- Drum 1 with landing 30's entry at an age, and landing 30 in the hold set. -/
def holder (st : EntryState) (age : Nat) : State :=
  { drum with stations := { entries := put drum.stations.entries 30 { landingAt 1600000 with state := st, age := age, hold := true }
                            holdSet := stationJoin 0 30 } }

theorem witness_StationTableChanges_expiry :
    (let s := holder .current 3000
     s.live = true ∧ s.isDrum = true ∧ s.working = true ∧ s.stations.entries[(30 : Station)].state = .current ∧
       s.stations.entries[(30 : Station)].age = 3000 ∧ stationIn s.stations.holdSet 30 = true ∧ s.staleHolder = false) ∧
      (holder .current 2999).stations.entries[(30 : Station)].age < 3000 ∧
      (holder .stale 3000).stations.entries[(30 : Station)].state ≠ .current ∧ (holder .stale 3000).staleHolder = true := by
  decide +kernel

/-- Example 3-2, times 5,640 and 6,000: the holder's entry becomes STALE and stays a holder until the key is pressed. -/
theorem test_stale_holder :
    (let t := after (.stationEntryExpiry 30) (holder .current 3000)
     (t.stations.entries[(30 : Station)].state = .stale ∧ stationIn t.stations.holdSet 30 = true ∧ t.isPending .staleHolder = true ∧
       (after .holdOverrideKey t).stations.holdSet = 0)) := by decide +kernel

/-- A drum whose landing 30 has withdrawn its clear flag. -/
def withdrawn30 (s : State) : State :=
  { s with stations := { s.stations with entries := put s.stations.entries 30 { landingAt 1600000 with clear := 0 } } }

/-- A drum whose landing 29, at 1,500,000 mm, is STALE. -/
def silent29 (s : State) : State :=
  { s with stations := { s.stations with entries := put s.stations.entries 29 { landingAt 1500000 with state := .stale } } }

theorem judged_boundaries :
    judgedOver armed trip42 = some (1378000, 1602000) ∧ judgedOver running trip42 = some (1400000, 1602000) ∧
      judgedOver stopping trip42 = some (1400000, 1602000) ∧ judgedOver suspended trip42 = none ∧
      judgedOver (withTrip .stopping trip42 (moving 1400000 8000)
        { drum with cfg := { drum.cfg with pathGuard := 0 } }) trip42 = some (1400000, 1600000) := by decide +kernel

/-- The hypotheses of Table 6-4: a withdrawn and a silent station in the range of an ARMED, a RUNNING and a STOPPING trip. -/
theorem witness_PathJudged :
    (∀ s ∈ [withdrawn30 armed, withdrawn30 running, withdrawn30 stopping], Withdrawn s 1400000 1602000 30) ∧
      (∀ s ∈ [silent29 armed, silent29 running, silent29 stopping], Silent s 1400000 1602000 29) := by
  refine ⟨fun s h => ?_, fun s h => ?_⟩
  · simp only [List.mem_cons, List.not_mem_nil, or_false] at h
    rcases h with rfl | rfl | rfl <;>
      exact ⟨by decide +kernel, by decide +kernel, ⟨1600000, by decide +kernel, by decide +kernel, by decide +kernel⟩,
        fun ws hw => by injection (show some (2 : WinderSet) = some ws from hw) with hw; subst hw; decide +kernel,
        by decide +kernel⟩
  · simp only [List.mem_cons, List.not_mem_nil, or_false] at h
    rcases h with rfl | rfl | rfl <;>
      exact Or.inl ⟨by decide +kernel, ⟨1500000, by decide +kernel, by decide +kernel, by decide +kernel⟩⟩

/-- Table 6-4: an ARMED trip closes on a silent station, a RUNNING one stops on it and records a cause on a withdrawn one, and a
STOPPING one stands on the first and records on the second. -/
theorem test_path_table :
    [armed, running, stopping].map (fun s => (after (.stationEntryExpiry 29)
        { silent29 s with stations := { (silent29 s).stations with
            entries := put s.stations.entries 29 { landingAt 1500000 with age := 3000 } } }).tripState) = [.idle, .stopping, .stopping] ∧
      [armed, running, stopping].map (fun s =>
        (after (.assentTaken (heard 30) { assent0 with clear := 0 }) s).safety.causes.map (·.kind)) =
        [[], [.gateWithdrawn], [.gateWithdrawn]] := by decide +kernel

theorem witness_AssentWritesTheEntry_hold :
    (let r := { assent0 with level := 1300000, clear := 2, hold := true }
     Taken (heard 27) (.assent r) armed ∧ Taken (heard 27) (.assent r) running ∧ r.estop = false ∧
       stationIn running.stations.holdSet 27 = false ∧ trip42.cls ≠ .inspection ∧ running.tripState = .running ∧
       armed.tripState = .armed ∧ running.trip.record.details = some trip42 ∧ armed.trip.record.details = some trip42) :=
  ⟨taken (by decide +kernel), taken (by decide +kernel), by decide +kernel, by decide +kernel, by decide +kernel, by decide +kernel,
    by decide +kernel, by decide +kernel, by decide +kernel⟩

/-- R116: a hold closes an ARMED trip, but not one of class INSPECTION. -/
theorem test_hold_joins :
    (let a := Instr.assentTaken (heard 27) { assent0 with level := 1300000, clear := 2, hold := true }
     ((after a armed).trip.record.result = some .cancelled ∧
       (after a (withTrip .armed { trip42 with cls := .inspection } (at_ 1380000) drum)).tripState = .armed)) := by decide +kernel

/-! Position and depth (chapter 4) -/

theorem witness_CountFollowsTheChannels :
    drum.loader.powered = true ∧ drum.loader.oscillating = false ∧ drum.depth.channel = some (false, false) := by decide +kernel

theorem witness_CountFollowsTheChannels_first :
    reading.loader.powered = true ∧ reading.loader.oscillating = false ∧ reading.depth.channel = none := by decide +kernel

/-- Table 4-1: from 00 the change to A = 0, B = 1 counts one way and A = 1, B = 0 the other; the polarity inverts both. -/
theorem test_encoder_steps :
    (after (.encoderChannelChange true false) drum).depth.count + (after (.encoderChannelChange false true) drum).depth.count = 0 ∧
      (after (.encoderChannelChange true false) drum).depth.count =
        (after (.encoderChannelChange false true) { drum with cfg := { drum.cfg with inverted := true } }).depth.count := by
  decide +kernel

theorem witness_EncoderFault :
    (drum.loader.powered = true ∧ drum.loader.oscillating = false ∧ drum.depth.channel = some (false, false) ∧ drum.live = true ∧
      drum.isDrum = true ∧ drum.working = true ∧ drum.depth.faultMs = none) ∧
      (let s := { drum with depth := { drum.depth with faultMs := some 10 } }
       s.loader.powered = true ∧ s.loader.oscillating = false ∧ s.depth.faultMs = some 10) ∧
      (inPhase .configFault drum).working = false ∧
      (let s := { landing with depth := { landing.depth with channel := some (false, false) } }
       s.live = true ∧ s.working = true ∧ s.isDrum = false ∧ s.depth.faultMs = none ∧ s.loader.powered = true ∧
         s.loader.oscillating = false ∧ s.depth.channel = some (false, false)) := by decide +kernel

/-- Example 9-1, time 2,300: an illegal change delivers one ENCODER cause; the next delivers none. -/
theorem test_encoder_fault :
    (let t := afterAll [.encoderChannelChange true true, .encoderChannelChange false false] drum
     t.safety.causes.map (·.kind) = [.encoder] ∧ t.depth.verified = false ∧ t.encoderFaulty = true) ∧
      (after .encoderFaultClear { drum with depth := { drum.depth with faultMs := some 10 } }).encoderFaulty = false := by
  decide +kernel

/-- The drum of Example 4-1: upc 250, cw_sum 4,100,000, c[15] = −1,200 and c[16] = −1,280, at the count 4,000,000, which ten
samples ago was 3,999,680. -/
def example41 : State :=
  { drum with
    cfg := { drum.cfg with upc := 250, cwSum := 4100000 }
    depth := { drum.depth with
      count := 4000000#32
      history := 3999680#32 :: List.replicate 9 3999900#32
      table := put (put (Vector.replicate 64 0) 15 (-1200)) 16 (-1280) } }

theorem witness_SampleSetAndPosition :
    example41.live = true ∧ example41.isDrum = true ∧ example41.working = true ∧ example41.depth.history.length = 10 ∧
      example41.phase = .run ∧ example41.trip.sincePosition = none ∧
      drum.depth.history.length < 10 := by decide +kernel

/-- Example 4-1, sample n: 800 mm/s, raw 1,000,000, corrected 998,779, counterweight 3,100,000. -/
theorem test_sample :
    (after (.sample true) example41).depth.sample.map (fun x => (x.speed, x.raw, x.corrected, x.counterweight, x.clamped)) =
      some (800, 1000000, 998779, 3100000, false) := by decide +kernel

/-- Example 4-3: the three cases of the table. -/
theorem test_correction_limits :
    (clampDepth (300 + correctionAt (put (put (Vector.replicate 64 0) 0 (-800)) 1 (-900)) 300),
      clampDepth (4128767 + correctionAt (put (put (Vector.replicate 64 0) 62 1000) 63 2000) 4128767),
      clampDepth (4194303 + correctionAt (put (Vector.replicate 64 0) 63 2000) 4194303)) = (0, 4130766, 4194303) := by
  decide +kernel

theorem witness_MarkTaken :
    (let s := after (.sample true) example41
     Taken (heard 31) (.mark 1 998740) s ∧ s.isDrum = true ∧ (1 : Winder) = s.cfg.winder ∧ s.depth.faultMs = none ∧
       s.depth.sample.any (fun x => x.speed.natAbs ≤ s.cfg.vLearn) = true ∧ s.depth.verified = true ∧
       s.depth.correctionOn = true ∧ s.cfg.disagreeLim = 1000) ∧
      Taken (heard 31) (.mark 1 1380000) { drum with depth := { drum.depth with verified := false } } ∧
      Taken (heard 31) (.mark 1 1381001) drum ∧ drum.depth.sample = some (at_ 1380000) ∧ Taken (heard 31) (.mark 0 1) drum ∧
      ({ drum.depth with correctionOn := false } : DepthUnit).correctionOn = false :=
  ⟨⟨taken (by decide +kernel), by decide +kernel, by decide +kernel, by decide +kernel, by decide +kernel, by decide +kernel,
      by decide +kernel, by decide +kernel⟩,
    taken (by decide +kernel), taken (by decide +kernel), by decide +kernel, taken (by decide +kernel), by decide +kernel⟩

/-- Example 4-1: the MARK is learned, c[15] becomes −1,239, and the next sample shows 998,750. Example 4-2: a re-zero by −39. -/
theorem test_mark :
    (let t := after (.markTaken (heard 31) 1 998740) (after (.sample true) example41)
     (t.depth.table[15] = -1239 ∧ correctionAt t.depth.table 1000000 = -1250)) ∧
      (let t := after (.markTaken (heard 31) 1 998740)
          (after (.sample true) { example41 with depth := { example41.depth with verified := false } })
       (t.depth.zeroOffset = -39 ∧ t.depth.verified = true ∧ t.depth.table[15] = -1200)) := by decide +kernel

/-- R67: an error of 1,001 mm delivers DEPTH_DISAGREE; one of 1,000 mm does not. -/
theorem test_mark_disagrees :
    ((after (.markTaken (heard 31) 1 1381001) drum).safety.causes.map (·.kind),
      (after (.markTaken (heard 31) 1 1381000) drum).safety.causes.length) = ([.depthDisagree], 0) := by decide +kernel

theorem witness_MaintenanceRequests :
    (drum.live = true ∧ drum.isDrum = true ∧ drum.working = true ∧ drum.inputs.correctionOff ≠ true ∧ drum.tripOpen = false ∧
      drum.depth.correctionOn ≠ (!true)) ∧ running.live = true ∧ running.tripOpen = true ∧ running.depth.clearPending = false ∧
      ({ drum.depth with correctionOn := false } : DepthUnit).correctionOn = (!true) := by decide +kernel

/-- Example 4-4: a table clear is held while the trip runs. -/
theorem test_table_clear :
    (let s := { running with depth := { running.depth with table := Vector.replicate 64 5 } }
     let t := after .tableClearKey s
     (t.depth.clearPending = true ∧ t.depth.table[15] = 5 ∧ t.isPending .correctionPending = true)) ∧
      (after .tableClearKey { drum with depth := { drum.depth with table := Vector.replicate 64 5 } }).depth.table[15] = 0 := by
  decide +kernel

/-- R69: with no trip open the correction mode follows its input. -/
theorem test_correction_off : (after (.correctionOffInputChange true) drum).depth.correctionOn = false := by decide +kernel

/-! The envelope (chapter 5) -/

/-- A trip of a class DOWN to a target. -/
def tripTo (c : TripClass) (target : Depth) : TripDetails := { trip42 with cls := c, target := target }

theorem witness_PermittedSpeed :
    (tripTo .persons 1430000).cls = .persons ∧ (tripTo .material 1).cls = .material ∧ (tripTo .ore 1).cls = .ore ∧
      (tripTo .inspection 1).cls = .inspection ∧ 0 ≤ remaining .down 1430000 1380000 ∧ remaining .down 1380000 1380001 < 0 ∧
      (let c := { Params.reset with cwSum := 4100000, vCross := 4000 }
       c.vCross ≠ 0 ∧ inZone c 2035000 = true ∧ inZone c 1980000 = false) ∧ drum.tripState = .idle := by decide +kernel

/-- Examples 5-1 and 5-2: v_perm at 50,000 mm to go, and at the points a to d of the crossing zone. -/
theorem test_permitted_speed :
    (permittedSpeed Params.reset armed.trip.record (tripTo .persons 1430000) (at_ 1380000)).val = 8958 ∧
      (let c := { Params.reset with cwSum := 4100000, vCross := 4000 }
       let t := tripTo .material 3000000
       let r := { armed.trip.record with details := some t }
       let point (d w : Depth) : SampleSet := { at_ d with counterweight := w }
       [point 1980000 2118500, point 2035000 2063500, point 2069000 2029500, point 2071000 2027500].map
         (fun x => (permittedSpeed c r t x).val) = [9674, 4000, 4000, 15000]) := by decide +kernel

/-- Examples 5-1 and 5-2 with the zone of 4,100,000 mm: the four approaches of Table 5-2, each at 1 mm from the zone. -/
theorem witness_PermittedSpeed_approaches :
    (let c := { Params.reset with cwSum := 4100000, vCross := 4000 }
     [(2029999, 2070001), (2070001, 2029999)].all (fun x => !inZone c x.1 && !inZone c x.2) &&
       inZone c 2030000 && inZone c 2070000) = true := by decide +kernel

/-- Example 5-4, largest argument: 16,781,212,000 has the root 129,542. -/
theorem test_isqrt : isqrt 16781212000 = 129542 ∧ isqrt 100000400 = 10000 := by decide +kernel

/-- Trip 42 with an overspeed count and a sample. -/
def overspeeding (count : Nat) (v : Int) : State :=
  { withTrip .running trip42 (moving 1400000 v) drum with env := { Envelope.reset with count := count } }

theorem witness_FullEvaluation :
    [(0, 15000), (1, 15987), (1, 15988), (1, 16200)].all (fun x =>
      let s := overspeeding x.1 x.2
      s.supervised && s.safety.causes.isEmpty && s.depth.sample == some (moving 1400000 x.2) &&
        s.trip.record.details == some trip42) = true ∧
      (let s := withTrip .stopping trip42 (moving 1600501 300) drum
       s.supervised = true ∧ s.safety.causes = [] ∧ remaining .down 1600000 1600501 < -(s.cfg.oAllow : Int)) := by decide +kernel

/-- Drum 1 with no trip, its conveyance beyond the bottom limit, with a cause list. -/
def beyondBottom (causes : List CauseRecord) : State :=
  { drum with cfg := { drum.cfg with bottomLimit := 1379999 }, safety := { drum.safety with causes := causes } }

theorem witness_FullEvaluation_unsupervised :
    [[], [CauseRecord.start], List.replicate 8 CauseRecord.start].all (fun l =>
      let s := beyondBottom l
      !s.supervised && s.depth.sample == some (at_ 1380000) && decide (s.cfg.bottomLimit < 1380000) && !s.env.outside &&
        s.safety.causes == l) = true ∧
      drum.supervised = false ∧ ¬((1380000 : Depth).val < drum.cfg.topLimit ∨ drum.cfg.bottomLimit < (1380000 : Depth).val) ∧
      (let s := overspeeding 0 15001
       s.working = true ∧ s.env.warning = false) := by decide +kernel

/-- R88: a crossing of a shaft limit delivers OVERWIND with no trip and beside another cause, once. -/
theorem test_shaft_limit :
    ((fullEvaluation (beyondBottom [])).safety.causes.map (·.kind), (fullEvaluation (beyondBottom [CauseRecord.start])).safety.causes.map (·.kind),
        (fullEvaluation (fullEvaluation (beyondBottom []))).safety.causes.length) = ([.overwind], [.start, .overwind], 1) := by
  decide +kernel

/-- Example 5-5: 15,987 mm/s is not above the threshold of 15,000 mm/s; the second sample above it is OVERSPEED. Example 5-4: an
overrun of 501 mm is OVERWIND and one of 300 mm is not. -/
theorem test_full_evaluation :
    ((fullEvaluation (overspeeding 1 15987)).safety.causes.length, (fullEvaluation (overspeeding 1 15988)).safety.causes.map (·.kind)) =
        (0, [.overspeed]) ∧
      ((fullEvaluation (withTrip .running trip42 (moving 1600501 300) drum)).safety.causes.map (·.kind),
        (fullEvaluation (withTrip .running trip42 (moving 1600300 300) drum)).safety.causes.length) = ([.overwind], 0) := by
  decide +kernel

/-! Trips (chapter 6) -/

theorem witness_AcceptedGo :
    (Taken (heard 28) (.signal 1 30 .persons .go false) drum ∧ drum.isDrum = true ∧ (1 : Winder) = drum.cfg.winder ∧
      firstRefusal (goTests drum 28 30 .persons false) = none) ∧
      (Taken (heard 27) (.signal 1 30 .material .go false) suspended ∧ suspended.tripState = .suspended ∧
        firstRefusal (goTests suspended 27 30 .material false) = none) ∧
      (let s := { drum with inputs := { drum.inputs with autoEnable := true } }
       Taken (heard 28) (.signal 1 30 .ore .go true) s ∧ firstRefusal (goTests s 28 30 .ore true) = none) :=
  ⟨⟨taken (by decide +kernel), by decide +kernel, by decide +kernel, by decide +kernel⟩,
    ⟨taken (by decide +kernel), by decide +kernel, by decide +kernel⟩, taken (by decide +kernel), by decide +kernel⟩

/-- Example 6-1, time 0 and Example 6-2, the re-arm. -/
theorem test_go :
    (let t := after (.signalGo (heard 28) 1 30 .persons false) drum
     (t.tripState = .armed ∧ t.trip.record.number = 1 ∧ t.permit = true ∧ t.trip.record.armMs = some 0)) ∧
      (let t := after (.signalGo (heard 27) 1 30 .material false) suspended
       (t.tripState = .armed ∧ t.trip.record.number = 42 ∧ t.trip.record.details.map (·.origin) = some 27)) := by decide +kernel

/-- One state for each cause of Table 6-3, with the origin, destination, class and auto flag of the GO it refuses. -/
def refusedGoes : List (State × Station × Station × TripClass × Bool) :=
  [(tripped, 28, 30, .ore, false), (inPhase .listenOnly drum, 28, 30, .ore, false), (armed, 28, 30, .ore, false),
    (drum, 28, 30, .ore, true), (drum, 28, 31, .ore, false), (drum, 28, 28, .ore, false), (drum, 30, 28, .ore, false),
    ({ drum with depth := { drum.depth with sample := some { at_ 1380000 with verified := false }, verified := false } },
      28, 30, .ore, false),
    ({ drum with stations := { drum.stations with holdSet := stationJoin 0 27 } }, 28, 30, .ore, false),
    ({ drum with cfg := { drum.cfg with required := stationJoin 0 40 } }, 28, 30, .ore, false)]

/-- Table 6-3 in its order. -/
theorem witness_RefusedGo :
    refusedGoes.all (fun x => takenBool (heard x.2.1) (.signal 1 x.2.2.1 x.2.2.2.1 .go x.2.2.2.2) x.1 && x.1.isDrum) = true ∧
      refusedGoes.map (fun x => firstRefusal (goTests x.1 x.2.1 x.2.2.1 x.2.2.2.1 x.2.2.2.2)) =
        [some .tripped, some .line, some .tripOpen, some .autoOff, some .destUnknown, some .sameLevel, some .notAtOrigin,
          some .unverified, some .hold, some .pathBlocked] ∧
      takenBool (heard 28) (.signal 0 30 .ore .go false) drum = true ∧ (0 : Winder) ≠ drum.cfg.winder := by decide +kernel

/-- Table 1-3, WINDING byte 9, and R99: the refusals sent for TRIPPED, HOLD and PATH_BLOCKED, and the station that blocks. -/
theorem test_refused_go :
    ([0, 8, 9].filterMap (fun i => refusedGoes[i]?)).map (fun x =>
      (after (.signalGo (heard x.2.1) 1 x.2.2.1 x.2.2.2.1 x.2.2.2.2) x.1).portA.tx.entries.map (fun e =>
        match e.frame.payload with
        | .winding r => (outcomeCode r.outcome, r.blocking)
        | _ => (0, none))) = [[(17, none)], [(25, none)], [(26, some 40)]] := by decide +kernel

theorem witness_StopAndCancel :
    [armed, running, stopping, suspended].all (fun s =>
      s.isDrum && s.trip.record.details == some trip42 && takenBool (heard 5) (.signal 1 0 .persons .stop false) s &&
        takenBool (heard 28) (.signal 1 0 .persons .cancel false) s &&
        takenBool (heard 5) (.signal 1 0 .persons .cancel false) s) = true ∧
      [armed, running, stopping, suspended].map (·.tripState) = [.armed, .running, .stopping, .suspended] ∧
      (let s := { armed with trip := { armed.trip with record := { armed.trip.record with state := .idle } } }
       s.tripState = .idle ∧ s.trip.record.details = some trip42) ∧
      (drum.isDrum = true ∧ drum.tripState = .idle ∧ drum.trip.record.details = none ∧
        takenBool (heard 28) (.signal 1 0 .persons .stop false) drum = true ∧
        takenBool (heard 28) (.signal 1 0 .persons .cancel false) drum = true) := by decide +kernel

/-- Example 5-3: a STOP at 10,000 mm/s and 1,500,000 mm gives the stop depth 1,562,344. -/
theorem test_stop :
    (after (.signalStop (heard 5) 1 0 .persons false) (withTrip .running (tripTo .ore 1800000) (moving 1500000 10000) drum)).trip.record.stopDepth =
      some 1562344 := by decide +kernel

/-- R105, R111: a CANCEL of another station is ignored in ARMED and closes a SUSPENDED trip. -/
theorem test_cancel :
    (after (.signalCancel (heard 5) 1 0 .persons false) armed).tripState = .armed ∧
      (after (.signalCancel (heard 28) 1 0 .persons false) armed).trip.record.result = some .cancelled ∧
      (after (.signalCancel (heard 5) 1 0 .persons false) suspended).trip.record.result = some .cancelled := by decide +kernel

/-- Trip 42 ARMED at an arm timer count, with an auto flag. -/
def armedFor (ms : Nat) (auto : Bool) : State :=
  { armed with
    inputs := { armed.inputs with autoEnable := true }
    trip := { armed.trip with
      record := { armed.trip.record with armMs := some ms, details := some { trip42 with auto := auto } }
      autoStartMs := some 200 } }

theorem witness_TripTimersAndAutoEnable :
    (let s := armedFor 60000 true
     s.live = true ∧ s.isDrum = true ∧ s.working = true ∧ s.tripState = .armed ∧ s.trip.record.armMs = some 60000 ∧
       s.cfg.armTimeout * 1000 ≤ 60000 ∧ s.inputs.autoEnable = true ∧
       s.trip.record.details = some { trip42 with auto := true } ∧ s.trip.autoStartMs = some 200) ∧
      59999 < (armedFor 59999 false).cfg.armTimeout * 1000 ∧
      (armedFor 59999 false).trip.record.details = some { trip42 with auto := false } ∧
      (let s := { drum with inputs := { drum.inputs with autoEnable := true } }
       s.live = true ∧ s.isDrum = true ∧ s.working = true ∧ s.inputs.autoEnable = true ∧ s.trip.record.details = none) := by
  decide +kernel

/-- R104, R119: the arm timer at 60 s, the auto-enable input, and the auto-start pulse. -/
theorem test_trip_timers :
    (after .armTimerExpiry (armedFor 60000 false)).trip.record.result = some .expired ∧
      (after (.autoEnableInputChange false) (armedFor 5 true)).trip.record.result = some .cancelled ∧
      (after (.autoEnableInputChange false) (armedFor 5 false)).tripState = .armed ∧
      (after .autoStartPulseEnd (armedFor 5 true)).autoStart = false := by decide +kernel

/-- The call list of Example 6-1. -/
def calls61 : List CallEntry :=
  [{ origin := 2, cls := .persons, registered := 0 }, { origin := 23, cls := .material, registered := 15000 }]

/-- A drum with a call list. -/
def calling (l : List CallEntry) : State := { drum with trip := { drum.trip with calls := l } }

/-- A full call list. -/
def fullList : List CallEntry :=
  [2, 3, 4, 5, 6, 7, 8, 9].map (fun n => { origin := n, cls := TripClass.ore, registered := 0 })

theorem witness_CallList :
    drum.isDrum = true ∧ drum.live = true ∧ drum.cfg.winder = 1 ∧
      takenBool (heard 23) (.call 1 .persons .register) (calling calls61) = true ∧ (∃ e ∈ calls61, e.origin = (23 : Station)) ∧
      takenBool (heard 22) (.call 1 .material .register) (calling calls61) = true ∧ (¬∃ e ∈ calls61, e.origin = (22 : Station)) ∧
      takenBool (heard 22) (.call 1 .material .register) (calling fullList) = true ∧ fullList.length = 8 ∧
      (¬∃ e ∈ fullList, e.origin = (22 : Station)) ∧ takenBool (heard 2) (.call 1 .ore .cancel) (calling calls61) = true := by
  decide +kernel

/-- Example 6-1, times 31,000 and 45,000: 22 joins at the end and 23 takes the higher class; R120: a ninth call is dropped. -/
theorem test_call_register :
    (afterAll [.callRegister (heard 22) 1 .material, .callRegister (heard 23) 1 .persons] (calling calls61)).trip.calls.map
        (fun e => (e.origin, e.cls)) = [(2, .persons), (23, .persons), (22, .material)] ∧
      (after (.callRegister (heard 22) 1 .material) (calling fullList)).trip.calls = fullList := by decide +kernel

/-- R121: a CANCEL removes its origin's entry, and call_life of 15 min another. -/
theorem test_call_leaves :
    (after (.callCancel (heard 2) 1 .ore) (calling calls61)).trip.calls.map (·.origin) = [23] ∧
      (let s := { calling calls61 with clock := { Clock.reset with now := 900000 } }
       ((after (.callLifeExpiry 2) s).trip.calls.map (·.origin), (after (.callLifeExpiry 23) s).trip.calls.length) = ([23], 2)) := by
  decide +kernel

/-- The drum with no station heard, so that none blocks. -/
def alone (s : State) : State := { s with stations := Stations.reset }

theorem no_block_alone (s : State) (h : s.cfg.required = 0) (lo hi : Int) (n : Station) : (alone s).blocks lo hi n = false := by
  have h1 : (alone s).stations.entries[n] = StationEntry.unknown := by simp [alone, Stations.reset]
  have h2 : (alone s).missing n = false := by
    have : (alone s).cfg.required = 0 := h
    simp [State.missing, this, stationIn]
  simp [State.blocks, State.withdrawn, State.silent, h1, h2, StationEntry.unknown]

theorem witness_TripTestsAtASample :
    (∀ lo hi n, (alone armed).blocks lo hi n = false) ∧ TripInv (alone (withTrip .armed trip42 (moving 1380000 51) drum)) ∧
      TripInv (alone (withTrip .armed trip42 (moving 1380000 (-51)) drum)) ∧
      TripInv (alone (withTrip .armed trip42 (moving 1380000 50) drum)) ∧
      TripInv (alone (withTrip .running trip42 (moving 1600150 (-50)) drum)) ∧ TripInv (alone running) ∧
      TripInv (alone (withTrip .stopping trip42 (at_ 1600150) drum)) ∧ TripInv (alone (withTrip .stopping trip42 (at_ 1421900) drum)) ∧
      TripInv (alone stopping) ∧ (alone stopping).depth.sample = some (moving 1400000 8000) ∧
      (alone stopping).trip.record.details = some trip42 := by
  refine ⟨fun lo hi n => no_block_alone armed rfl lo hi n, ?_, ?_, ?_, ?_, ?_, ?_, ?_, ?_, by decide +kernel, by decide +kernel⟩ <;>
    exact ⟨⟨by decide +kernel, by decide +kernel, by decide +kernel, by decide +kernel⟩, by decide +kernel, by decide +kernel, by decide +kernel, by decide +kernel, by decide +kernel, by decide +kernel⟩

/-- Example 6-1, times 3,980 to 128,340: motion, wrong direction, arrival at the end of the window, and suspension outside it. -/
theorem test_trip_sample :
    (tripSample (at_ 1380000) (withTrip .armed trip42 (moving 1380000 50) drum)).tripState = .armed ∧
      (tripSample (at_ 1380000) (withTrip .armed trip42 (moving 1380000 51) drum)).tripState = .running ∧
      (tripSample (at_ 1380000) (withTrip .armed trip42 (moving 1380000 (-51)) drum)).safety.causes.map (·.kind) = [.wrongDirection] ∧
      (tripSample (at_ 1380000) (withTrip .running trip42 (moving 1600150 (-50)) drum)).trip.record.result = some .arrived ∧
      (tripSample (at_ 1380000) (withTrip .stopping trip42 (at_ 1600151) drum)).tripState = .suspended := by decide +kernel

/-- Trip 42 RUNNING, found at 6,000 mm/s by the sample before and at 7,000 mm/s by the next, with required station 40 silent. -/
def silentRunning : State :=
  let s := withTrip .running trip42 (moving 1400000 6000) drum
  { s with
    cfg := { s.cfg with required := stationJoin 0 40 }
    depth := { s.depth with count := 1400060#32, history := 1399360#32 :: List.replicate 9 1399360#32 } }

/-- Trip 42 ARMED at landing 28 and moving off, with one further landing at a depth, silent or with its gate withdrawn. -/
def setsOff (l : Depth) (st : EntryState) : State :=
  let s := withTrip .armed trip42 (moving 1380000 51) drum
  { s with stations := { entries := put s.stations.entries 29 { landingAt l with state := st, clear := 0 }, holdSet := 0 } }

theorem witness_TripTestsAtASample_region_ahead :
    [setsOff 1379999 .current, setsOff 1379999 .stale, setsOff 1380000 .current, setsOff 1602000 .stale, setsOff 1602001 .stale].all
        (fun s => s.tripState == .armed && s.depth.sample == some (moving 1380000 51) && s.trip.record.details == some trip42 &&
          s.phase == .run && s.safety.causes.isEmpty) = true ∧
      TripInv (setsOff 1379999 .current) ∧ TripInv (setsOff 1380000 .current) ∧ TripInv (setsOff 1602000 .stale) := by
  refine ⟨by decide +kernel, ?_, ?_, ?_⟩ <;>
    exact ⟨⟨by decide +kernel, by decide +kernel, by decide +kernel, by decide +kernel⟩, by decide +kernel, by decide +kernel, by decide +kernel, by decide +kernel, by decide +kernel, by decide +kernel⟩

/-- R103, R101, Table 6-4: a trip that has just set off is judged on its region ahead: a landing 1 mm behind it or past the guard
of 2,000 mm does not block it; a withdrawn one at it is GATE_WITHDRAWN, and a silent one ahead brings it to STOPPING. -/
theorem test_region_ahead :
    [setsOff 1379999 .current, setsOff 1379999 .stale, setsOff 1602001 .stale].all (fun s =>
        (tripSample (at_ 1380000) s).tripState == .running) = true ∧
      (tripSample (at_ 1380000) (setsOff 1380000 .current)).safety.causes.map (·.kind) = [.gateWithdrawn] ∧
      (tripSample (at_ 1380000) (setsOff 1602000 .stale)).tripState = .stopping ∧
      (tripSample (at_ 1380000) (setsOff 1602001 .stale)).portA.tx.entries.length = 1 := by decide +kernel

theorem witness_TripTestsAtASample_stop_depth :
    TripInv silentRunning ∧ silentRunning.tripState = .running ∧ silentRunning.trip.record.details = some trip42 ∧
      silentRunning.depth.sample.isSome = true ∧
      [true, false].all (fun first => (after (.sample first) silentRunning).tripState == .stopping &&
        (after (.sample first) silentRunning).depth.sample.isSome) = true :=
  ⟨⟨⟨by decide +kernel, by decide +kernel, by decide +kernel, by decide +kernel⟩, by decide +kernel, by decide +kernel,
      by decide +kernel, by decide +kernel, by decide +kernel, by decide +kernel⟩, by decide +kernel, by decide +kernel,
    by decide +kernel, by decide +kernel⟩

/-- R84, R83: the stop depth from the new set, 1,400,060 + 30,469, and from the one before, 1,400,000 + 22,344. -/
theorem test_stop_depth_in_either_order :
    [true, false].map (fun first => (after (.sample first) silentRunning).trip.record.stopDepth) =
      [some 1430529, some 1422344] := by decide +kernel

/-- A drum whose next sample finds a speed: ten counts in its history, at 1,000 µm a count. -/
def turning (v : BitVec 32) : State :=
  { drum with depth := { drum.depth with count := v, history := 0#32 :: List.replicate 9 0#32 } }

theorem witness_UnauthorisedMotion :
    [(moving 1380000 150), (moving 1380000 151), (moving 1380000 (-151))].all (fun x =>
      let s := { drum with depth := { drum.depth with sample := some x } }
      s.depth.sample == some x && s.tripState == .idle && s.safety.causes.isEmpty && !s.trip.unauthorised) = true ∧
      (let s := turning 16#32
       s.live = true ∧ s.isDrum = true ∧ s.working = true ∧ s.safety.causes = [] ∧ s.tripState = .idle ∧
         s.trip.unauthorised = false ∧ s.cfg.topLimit = 0 ∧ 4194303 ≤ s.cfg.bottomLimit ∧
         (takeSample s).depth.sample.isSome = true) := by decide +kernel

/-- R115: 150 mm/s is not unauthorised, 160 mm/s is. -/
theorem test_unauthorised_motion :
    ((after (.sample true) (turning 15#32)).safety.causes.length,
      (after (.sample true) (turning 16#32)).safety.causes.map (fun c => (c.kind, c.speed))) =
      (0, [(.unauthorisedMotion, some 160)]) := by decide +kernel

/-! The safety trip (chapter 9) -/

theorem witness_HaltAndLocalStop :
    drum.isDrum = true ∧ Taken (heard 30) (.halt 2 .estopKey) running ∧ winderIn (2 : WinderSet) running.cfg.winder = true ∧
      Taken (heard 30) (.halt 13 .spillage) running ∧ winderIn (13 : WinderSet) running.cfg.winder = false ∧ drum.live = true ∧
      drum.working = true ∧ drum.inputs.localEstop ≠ true ∧
      ({ drum.inputs with localEstop := true } : Inputs).localEstop ≠ false ∧ tripped.safety.causes ≠ [] :=
  ⟨by decide +kernel, taken (by decide +kernel), by decide +kernel, taken (by decide +kernel), by decide +kernel, by decide +kernel, by decide +kernel, by decide +kernel,
    by decide +kernel, by decide +kernel⟩

/-- Example 9-1, times 0, 40 and 1,040: the HALT, the ESTOP of the ASSENT that follows, and its repetition. -/
theorem test_emergency_stop :
    (let s := { running with clock := { Clock.reset with now := 5000000 } }
     let t := after (.haltTaken (heard 30) 2 .estopKey) s
     let u := afterAll [.assentTaken (heard 30) { assent0 with estop := true }, .assentTaken (heard 30) { assent0 with estop := true }] t
     (t.safety.causes = [{ kind := .halt .estopKey, depth := some 1400000, speed := some 8000, number := 42,
                           origin := some 30, time := 5000 }] ∧
       t.brakeTrip = true ∧ t.trip.record.result = some .tripped ∧ t.permit = false ∧
       u.safety.causes.map (·.kind) = [.halt .estopKey, .estopRemote])) := by decide +kernel

/-- R166, R168: a HALT for other winders is not the drum's; its own emergency stop is. -/
theorem test_halt_of_another_winder :
    (after (.haltTaken (heard 30) 13 .estopKey) running).safety.causes = [] ∧
      (after (.localEstopInputChange true) drum).safety.causes.map (·.kind) = [.estopLocal] := by decide +kernel

/-- One tripped drum for each failure of Table 9-3. -/
def unreset : List State :=
  [inPhase .listenOnly tripped, { tripped with depth := { tripped.depth with stationary := 999 } },
    { tripped with inputs := { tripped.inputs with localEstop := true } },
    { tripped with stations := { tripped.stations with entries := put tripped.stations.entries 30 { landingAt 1600000 with estop := true } } },
    { tripped with depth := { tripped.depth with faultMs := some 0, verified := false } }]

/-- The tripped drum away from every level. -/
def trippedAway : State := { tripped with depth := { tripped.depth with sample := some (at_ 1412800) } }

theorem witness_TripReset :
    (drum.live = true ∧ drum.isDrum = true ∧ drum.working = true ∧ drum.safety.causes = []) ∧
      unreset.all (fun s => s.live && s.isDrum && s.working && !s.safety.causes.isEmpty) = true ∧
      unreset.map (fun s => ((resetTests s).find? (·.1)).map (·.2)) =
        [some .phase, some .motion, some .localEstop, some .remoteEstop, some .encoder] ∧
      (tripped.safety.causes ≠ [] ∧ tripped.tripState = .idle ∧ (resetTests tripped).find? (·.1) = none ∧
        tripped.stations.entries[(28 : Station)].level = some 1380000 ∧ tripped.lastSample.corrected = 1380000) ∧
      trippedAway.safety.causes ≠ [] ∧ (resetTests trippedAway).find? (·.1) = none := by decide +kernel

/-- Example 9-1, times 6,000 and 25,000, and R172. -/
theorem test_trip_reset :
    unreset.map (fun s => (after .tripResetKey s).safety.causes.length) = [1, 1, 1, 1, 1] ∧
      (after .tripResetKey tripped).brakeTrip = false ∧ (after .tripResetKey tripped).tripState = .idle ∧
      (let t := after .tripResetKey trippedAway
       (t.safety.causes = [] ∧ t.tripState = .suspended ∧ t.trip.record.details.map (·.cls) = some .inspection)) := by
  decide +kernel

/-! The landing station (chapter 7) -/

theorem witness_GateSwitchAndLock :
    [(GateState.locked), .releasable, .opened, .forced].all (fun g =>
      let s := withGate 1 g (seeing 1 (standing 1600150) landing)
      s.live && s.serves 1 && s.working && s.phase != .listen && s.inputs.gateClosed[(1 : Winder)] != false &&
        s.inputs.lockEngaged[(1 : Winder)] != false && s.landingCondition 1 && s.gateState 1 == g) = true ∧
      (seeing 1 (standing 1600151) landing).landingCondition 1 = false ∧
      (let s := withGate 1 .opened { landing with inputs := { landing.inputs with gateClosed := Vector.replicate 4 false } }
       s.inputs.gateClosed[(1 : Winder)] ≠ true ∧ s.serves 1 = true) ∧
      (inPhase .listenOnly landing).phase = .listenOnly := by decide +kernel

/-- Example 7-1: the gate opens under RELEASABLE and closes again. Example 7-2: a gate opened under LOCKED is FORCED. -/
theorem test_gate_switch :
    (let s := withGate 1 .releasable (seeing 1 (standing 1600000) landing)
     let t := after (.gateSwitchChange 1 false) s
     (t.gateState 1 = .opened ∧ t.clearFlag 1 = false ∧ (after (.gateSwitchChange 1 true) t).gateState 1 = .releasable)) ∧
      (let t := after (.gateSwitchChange 1 false) landing
       (t.gateState 1 = .forced ∧ t.eventCode = 15 ∧ (t.portA.tx.entries.map (·.frame.kind)) = [.halt, .assent])) := by decide +kernel

/-- R130: an OPEN gate, closed with no cage standing, locks when its lock engages. -/
theorem test_lock_contact :
    (let s := withGate 1 .opened { landing with inputs := { landing.inputs with lockEngaged := Vector.replicate 4 false } }
     (after (.lockContactChange 1 true) s).gateState 1 = .locked) := by decide +kernel

/-- Landing 30 with a settle timer. -/
def settling (n : Nat) : State :=
  { landing with gate := { landing.gate with records := put landing.gate.records 1 { state := .locked, settleMs := some n } } }

/-- Landing 30 with its ASSENT timer at a count. -/
def assenting (n : Nat) : State := { landing with gate := { landing.gate with assentMs := some n } }

theorem witness_ClearSetAndAssent :
    landing.hasGates = true ∧ winderIn landing.cfg.served 1 = true ∧ winderIn landing.cfg.served 2 = false ∧ drum.hasGates = false ∧
      (inPhase .listenOnly landing).phase = .listenOnly ∧ (listening 5 landing).phase = .listen ∧
      StartInv landing ∧ landing.live = true ∧ landing.phase = .run ∧ landing.portA.tx.entries.length ≤ 3 ∧
      (let t := after (.holdSwitchChange true) landing
       t.phase = .run ∧ t.assentContents ≠ landing.assentContents) ∧
      (loadingSkip.isLoading = true ∧ winderIn loadingSkip.cfg.served loadingSkip.cfg.tipWinder = true) :=
  ⟨by decide +kernel, by decide +kernel, by decide +kernel, by decide +kernel, by decide +kernel, by decide +kernel,
    ⟨by decide +kernel, by decide +kernel, by decide +kernel, by decide +kernel⟩, by decide +kernel, by decide +kernel,
    by decide +kernel, by decide +kernel, by decide +kernel⟩

/-- R133, R134, R154: the outputs and the clear set of landing 30 and of loading station 52. -/
theorem test_clear_set :
    (let s := withGate 1 .opened (seeing 1 (standing 1600000) landing)
     (s.lockRelease 1 = true ∧ s.lockRelease 0 = false ∧ s.clearSet = 1)) ∧
      (withGate 1 .opened landing).lockRelease 1 = false ∧ landing.clearSet = 3 ∧ loadingSkip.clearSet = 3 ∧
      (inCycle .discharge loadingSkip).clearSet = 1 ∧
      { loadingSkip with inputs := { loadingSkip.inputs with spillage := true } }.clearSet = 1 := by decide +kernel

theorem witness_ClearSetAndAssent_timers :
    ((settling 500).live = true ∧ (settling 500).gateState 1 = .locked ∧ (settling 500).gate.records[(1 : Winder)].settleMs = some 500) ∧
      ((settling 499).gate.records[(1 : Winder)].settleMs = some 499) ∧
      ((assenting 1000).hasGates = true ∧ (assenting 1000).phase = .run ∧ (assenting 1000).gate.assentMs = some 1000) ∧
      (assenting 999).gate.assentMs = some 999 := by decide +kernel

/-- R134, R135: at 500 ms with the lock open the clear flag falls; at 1,000 ms an ASSENT is sent. -/
theorem test_settle_and_assent :
    (let s := { settling 500 with inputs := { landing.inputs with lockEngaged := Vector.replicate 4 false } }
     (s.clearFlag 1 = true ∧ (after (.lockSettleTimerExpiry 1) s).clearFlag 1 = false)) ∧
      (after .assentTimerExpiry (assenting 1000)).portA.tx.entries.map (·.frame.kind) = [.assent] := by decide +kernel

theorem witness_SignalKeys :
    landing.live = true ∧ landing.hasGates = true ∧ landing.phase = .run ∧ (inPhase .listenOnly landing).phase ≠ .run ∧
      (inPhase .listenOnly landing).live = true ∧ (3 : Winder) ≠ landing.inputs.winderSelector := by decide +kernel

/-- Example 7-1, time 61,500, and R137: the winder is the selector's at the press. -/
theorem test_send :
    (let t := afterAll [.winderSelectorChange 1, .sendKey 24 .persons, .winderSelectorChange 2] landing
     (t.portA.tx.entries.map (·.frame.payload) = [.signal 1 24 .persons .go false] ∧ t.gate.signal.status = .awaiting ∧
       t.gate.signal.winder = some 1)) := by decide +kernel

/-- R137: STOP and CANCEL send their words and leave the signal record. -/
theorem test_stop_and_cancel_keys :
    (after (.stopKey 5 .ore) landing).portA.tx.entries.map (·.frame.payload) = [.signal 0 5 .ore .stop false] ∧
      (after (.cancelKey 5 .ore) landing).portA.tx.entries.map (·.frame.payload) = [.signal 0 5 .ore .cancel false] ∧
      (after (.stopKey 5 .ore) landing).gate.signal = SignalRecord.reset := by decide +kernel

/-- Landing 30 with a call record of winder 0. -/
def callIn (c : CallStatus) (misses : Nat) : State :=
  { landing with gate := { landing.gate with calls := put (put landing.gate.calls 0 { status := c, misses := misses }) 1 { status := c, misses := misses } }
                 panel := { Panel.reset with callNotRegistered := if c = .notRegistered then 3 else 0 } }

theorem witness_CallKeyPressed :
    [CallStatus.none, .sent, .listed, .notRegistered].all (fun c =>
      (callIn c 0).live && (callIn c 0).hasGates && (callIn c 0).phase == .run &&
        (callIn c 0).gate.calls[(callIn c 0).inputs.winderSelector].status == c) = true := by decide +kernel

/-- R142: a press from NONE sends REGISTER, any other CANCEL. -/
theorem test_call_key :
    (after (.callKey .ore) (callIn .none 0)).portA.tx.entries.map (·.frame.payload) = [.call 0 .ore .register] ∧
      (after (.callKey .ore) (callIn .notRegistered 2)).portA.tx.entries.map (·.frame.payload) = [.call 0 .ore .cancel] ∧
      (after (.callKey .ore) (callIn .notRegistered 2)).panel.callNotRegistered = 2 := by decide +kernel

/-- Landing 30 with its signal record in a status for winder 1 and trip 18. -/
def signalIn (st : SignalStatus) : State :=
  { landing with gate := { landing.gate with signal :=
      { status := st, winder := some 1, number := some 18, cause := none, replyMs := if st = .awaiting then some 2000 else none } } }

theorem witness_SignalRecordReports :
    landing.hasGates = true ∧
      [SignalStatus.idle, .awaiting, .accepted, .refused, .noReply, .expired].all (fun st =>
        takenBool (heard 1) (.winding winding0) (signalIn st) && (signalIn st).gate.signal.status == st &&
          (signalIn st).gate.signal.winder == some 1 && (signalIn st).gate.signal.number == some 18) = true ∧
      [{ winding0 with state := .refusal, outcome := .refusal .hold },
        { winding0 with state := .trip .idle, outcome := .result .expired },
        { winding0 with state := .trip .idle, outcome := .result .arrived, number := 19 },
        { winding0 with origin := 28 }, { winding0 with winder := 0 }].all (fun r =>
          takenBool (heard 1) (.winding r) (signalIn .awaiting)) = true ∧
      (signalIn .awaiting).gate.signal.replyMs = some 2000 ∧ (signalIn .awaiting).live = true ∧
      (signalIn .awaiting).working = true := by decide +kernel

/-- Landing 30 whose signal has waited for its answer for 1,999 ms. -/
def signalWaits : State :=
  { landing with gate := { landing.gate with signal :=
      { status := .awaiting, winder := some 1, number := none, cause := none, replyMs := some 1999 } } }

theorem witness_SignalRecordReports_choices :
    [{ winding0 with origin := 28 }, { winding0 with origin := 28, state := .refusal, outcome := .refusal .tripOpen },
        { winding0 with state := .refusal, outcome := .none }, { winding0 with state := .refusal, outcome := .result .arrived }].all
      (fun r => takenBool (heard 1) (.winding r) (signalIn .accepted) && (signalIn .accepted).gate.signal.winder == some r.winder &&
        (signalIn .accepted).gate.signal.status == .accepted && (signalIn .accepted).gate.signal.number == some r.number) = true ∧
      (signalWaits.live = true ∧ signalWaits.working = true ∧ signalWaits.gate.signal.status = .awaiting ∧
        signalWaits.gate.signal.replyMs = some 1999) := by decide +kernel

/-- Table 7-2's last row, of any state of the frame, and R141: 1,999 ms are not yet 2,000. -/
theorem test_signal_of_another_station :
    ([{ winding0 with origin := 28 }, { winding0 with origin := 28, state := .refusal, outcome := .refusal .tripOpen }].map
        (fun r => (after (.windingTaken (heard 1) r) (signalIn .accepted)).gate.signal.status)) = [.idle, .idle] ∧
      (after .replyTimerExpiry signalWaits).gate.signal.status = .awaiting := by decide +kernel

/-- Table 7-2 and R141: accepted, refused, and no reply. -/
theorem test_signal_record :
    (after (.windingTaken (heard 1) winding0) (signalIn .awaiting)).gate.signal.status = .accepted ∧
      (let t := after (.windingTaken (heard 1) { winding0 with state := .refusal, outcome := .refusal .hold }) (signalIn .awaiting)
       (t.gate.signal.status = .refused ∧ t.gate.signal.cause = some .hold ∧ t.eventCode = 11)) := by decide +kernel
theorem test_reply_timer :
    (let t := after .replyTimerExpiry (signalIn .awaiting)
     (t.gate.signal.status = .noReply ∧ t.isPending .noReply = true)) := by decide +kernel

theorem witness_CallRecordJudged :
    [(CallStatus.none, 0), (.sent, 0), (.sent, 1), (.listed, 0), (.notRegistered, 2)].all (fun x =>
      [0#64, 1073741824#64].all (fun set =>
        let s := callIn x.1 x.2
        let r := { position0 with callSet := set }
        takenBool (heard 1) (.position r) s && s.hasGates && s.acceptsPosition r && s.gate.calls[r.winder].status == x.1 &&
          s.gate.calls[r.winder].misses == x.2)) = true ∧
      stationIn 1073741824#64 landing.cfg.station = true ∧ stationIn 0#64 landing.cfg.station = false := by decide +kernel

/-- R143: the second POSITION that misses the call raises CALL NOT REGISTERED. -/
theorem test_call_not_registered :
    (let t := after (.positionTaken (heard 1) position0) (callIn .sent 1)
     (t.gate.calls[(1 : Winder)].status = .notRegistered ∧ t.isPending .callNotRegistered = true)) := by decide +kernel

theorem witness_HoldStopAndMarkers :
    landing.live = true ∧ landing.hasGates = true ∧ landing.inputs.hold ≠ true ∧ landing.phase = .run ∧ landing.working = true ∧
      landing.holdAcknowledged = false ∧ landing.inputs.estop ≠ true ∧
      ({ landing.inputs with estop := true, hold := true } : Inputs).estop ≠ false ∧
      landing.inputs.marker[(1 : Winder)] ≠ true ∧ landing.serves 1 = true ∧ landing.serves 2 = false ∧
      (inPhase .listenOnly landing).phase ≠ .run := by decide +kernel

/-- R145: a press of the emergency-stop key offers a HALT and an ASSENT, the HALT at the head (Example 1-1). -/
theorem test_emergency_stop_key :
    (after (.emergencyStopKeyChange true) landing).portA.tx.entries.map (fun e => (e.frame.kind, e.effClass)) = [(.halt, 0), (.assent, 2)] ∧
      (after (.emergencyStopKeyChange true) landing).portA.tx.entries.map (·.frame.payload) =
        [.halt 3 .estopKey, .assent { assent0 with estop := true }] := by decide +kernel
theorem test_hold_switch :
    (after (.holdSwitchChange true) landing).portA.tx.entries.map (·.frame.payload) = [.assent { assent0 with hold := true }] ∧
      (after (.holdSwitchChange true) landing).isPending .holdUnacknowledged = true := by decide +kernel
/-- R146. -/
theorem test_marker :
    (after (.markerInputChange 1 true) landing).portA.tx.entries.map (·.frame.payload) = [.mark 1 1599000] ∧
      (after (.markerInputChange 2 true) landing).portA.tx.entries = [] := by decide +kernel

/-- The panel of Example 10-1: GATE FORCED, REFUSED and LINE DEGRADED pending. -/
def panel101 : State :=
  withGate 0 .forced { landing with panel := { Panel.reset with pendingEvents := 0x8820#16, refusedCause := some .pathBlocked } }

theorem witness_AcknowledgeKeyPressed :
    panel101.live = true ∧ panel101.eventCode = 15 ∧ panel101.hasGates = true ∧ panel101.serves 0 = true ∧
      panel101.gateState 0 = .forced ∧ panel101.inputs.gateClosed[(0 : Winder)] = true ∧
      panel101.inputs.lockEngaged[(0 : Winder)] = true ∧
      (let s := { landing with panel := { Panel.reset with pendingEvents := 0x0100#16, callNotRegistered := 2 } }
       s.eventCode = 8 ∧ s.hasGates = true) := by decide +kernel

/-- Example 10-1: an acknowledgement shows the next event, with a strobe pulse; R131: the closed gate locks. -/
theorem test_acknowledge :
    (let t := after .acknowledgeKey panel101
     (t.eventCode = 11 ∧ t.panel.strobeMs = some 0 ∧ t.gateState 0 = .locked)) := by decide +kernel

/-! Loading and tipping (chapter 8) -/

theorem witness_FlaskInputs :
    loading.live = true ∧ loading.isLoading = true ∧ loading.phase = .run ∧
      (let s := inCycle .waitSkip { loadingSkip with inputs := { loading.inputs with flaskFull := false } }
       s.inputs.flaskFull = false ∧ s.seq.cycle = .waitSkip ∧ s.skipPresent = true ∧ s.inputs.flaskEmpty = false ∧
         s.inputs.doorClosed = true ∧ s.inputs.spillage = false) ∧
      loading.skipPresent = false ∧ loading.inputs.flaskFull = true ∧
      (let s := inCycle .discharge { loadingSkip with inputs := { loading.inputs with doorClosed := false } }
       s.inputs.flaskEmpty = false ∧ s.seq.cycle = .discharge ∧ s.inputs.doorClosed = false ∧ s.inputs.spillage = false) ∧
      (inCycle .discharge loadingSkip).inputs.doorClosed = true ∧
      (let s := inCycle .doorClosing { loading with inputs := { loading.inputs with doorClosed := false, flaskFull := false }
                                                    seq := { Sequencer.reset with complete := true } }
       s.inputs.doorClosed = false ∧ s.seq.cycle = .doorClosing ∧ s.seq.complete = true ∧ s.inputs.flaskFull = false) ∧
      (inCycle .loaded loading).seq.cycle ≠ .discharge := by decide +kernel

/-- An aborted DOOR_CLOSING with the door open, the flask full and the skip present. -/
def abortedFull : State :=
  inCycle .doorClosing { loadingSkip with inputs := { loading.inputs with doorClosed := false }
                                          seq := { Sequencer.reset with doorMs := some 10 } }

theorem witness_FlaskInputs_begins :
    (let s := { loadingSkip with inputs := { loading.inputs with flaskEmpty := true } }
     s.live = true ∧ s.isLoading = true ∧ s.phase = .run ∧ s.inputs.flaskEmpty = true ∧ s.seq.cycle = .waitSkip ∧
       s.skipPresent = true ∧ s.inputs.flaskFull = true ∧ s.inputs.doorClosed = true ∧ s.inputs.spillage = false) ∧
      (let s := { loadingSkip with inputs := { loading.inputs with spillage := true } }
       s.inputs.spillage = true ∧ s.seq.cycle = .waitSkip ∧ s.skipPresent = true ∧ s.inputs.flaskEmpty = false) ∧
      (let s := { loadingSkip with inputs := { loading.inputs with doorClosed := false } }
       s.inputs.doorClosed = false ∧ s.seq.cycle = .waitSkip ∧ s.skipPresent = true) ∧
      (abortedFull.seq.cycle = .doorClosing ∧ abortedFull.seq.complete = false ∧ abortedFull.skipPresent = true ∧
        abortedFull.inputs.flaskFull = true ∧ abortedFull.inputs.flaskEmpty = false ∧ abortedFull.inputs.spillage = false) ∧
      (let s := inCycle .discharge loadingSkip
       s.seq.cycle = .discharge ∧ s.inputs.doorClosed = true ∧ s.inputs.spillage = false) := by decide +kernel

/-- R150: the condition comes to hold by the flask empty input, the spillage input or the door; R152: after an abort it is judged
at once; R151, R152: a spillage that finds the door closed leads to WAIT_SKIP. -/
theorem test_discharge_begins :
    [after (.flaskEmptyChange false) { loadingSkip with inputs := { loading.inputs with flaskEmpty := true } },
      after (.spillageChange false) { loadingSkip with inputs := { loading.inputs with spillage := true } },
      after (.doorClosedChange true) { loadingSkip with inputs := { loading.inputs with doorClosed := false } },
      after (.doorClosedChange true) abortedFull, after (.spillageChange true) (inCycle .discharge loadingSkip)].map (·.seq.cycle) =
      [.discharge, .discharge, .discharge, .discharge, .waitSkip] := by decide +kernel

/-- Example 8-1: discharge, door closing, loaded. -/
theorem test_discharge :
    (after (.flaskFullChange true) { loadingSkip with inputs := { loading.inputs with flaskFull := false } }).seq.cycle = .discharge ∧
      (let s := inCycle .discharge { loadingSkip with inputs := { loading.inputs with doorClosed := false } }
       (after (.flaskEmptyChange true) s).seq.cycle = .doorClosing ∧
         (after (.doorClosedChange true) (after (.flaskEmptyChange true) s)).seq.cycle = .loaded) := by decide +kernel

/-- R151, R152: a spillage and a door opened without command each originate a HALT. -/
theorem test_interlocks :
    (after (.spillageChange true) loading).portA.tx.entries.map (·.frame.payload) =
        [.halt 2 .spillage, .assent { level := 2310000, clear := 1, hold := false, estop := false, lineDegraded := false, relayDrop := false }] ∧
      (after (.doorClosedChange false) loading).isPending .flaskDoor = true := by decide +kernel

theorem witness_FlaskInputs_skip_moved :
    (let s := seeing 1 { standing 2310000 with speed := 51 } loading
     s.live = true ∧ s.isLoading = true ∧ s.phase = .run ∧ s.inputs.doorClosed = true ∧ s.seq.skipMoved = false ∧
       (s.currentRecord s.cfg.tipWinder).any (fun x => decide (50 < x.speed.natAbs)) = true ∧
       s.portA.tx.entries.length ≤ 5) := by decide +kernel

/-- R153: a door opened with the skip moving originates both HALTs, FLASK_DOOR first (log entry 36). -/
theorem test_door_opened_with_the_skip_moving :
    (after (.doorClosedChange false) (seeing 1 { standing 2310000 with speed := 51 } loading)).portA.tx.entries.filterMap (fun e =>
        match e.frame.payload with
        | .halt _ r => some r
        | _ => none) = [.flaskDoor, .skipMoved] := by decide +kernel

/-- Loading station 52 ready to send its skip up, with a retry timer. -/
def loaded (retry : Option Nat) : State :=
  { loading with seq := { Sequencer.reset with cycle := .loaded, sendMark := true,
                                               auto := { AutoRecord.reset with retryMs := retry } } }

/-- Tip landing 3 in a state of its cycle, with a dwell timer. -/
def tipping (t : TipCycle) (dwell : Option Nat) : State := { tip with seq := { Sequencer.reset with tip := t, dwellMs := dwell } }

theorem witness_SequencerTimersAndAutoInput :
    (let s := { loading with seq := { Sequencer.reset with cycle := .doorClosing, doorMs := some 10000 } }
     s.live = true ∧ s.working = true ∧ s.isLoading = true ∧ s.seq.cycle = .doorClosing ∧ s.seq.doorMs = some 10000 ∧
       s.cfg.doorTimeout * 1000 = 10000 ∧ s.phase = .run) ∧
      (let s := { loading with seq := { Sequencer.reset with cycle := .waitDepart, auto :=
                    { AutoRecord.reset with status := .awaiting, replyMs := some 2000 } } }
       s.seq.auto.status = .awaiting ∧ s.seq.auto.replyMs = some 2000) ∧
      (let s := loaded (some 2000)
       s.live = true ∧ s.working = true ∧ s.seq.auto.retryMs = some 2000 ∧ s.seq.cycle = .loaded ∧ s.seq.sendMark = true ∧
         s.inputs.auto = true) ∧
      (let s := tipping .dwell (some 8000)
       s.live = true ∧ s.working = true ∧ s.seq.tip = .dwell ∧ s.seq.dwellMs = some 8000 ∧ s.cfg.dwell * 1000 = 8000 ∧
         s.isTip = true ∧ s.clearFlag s.cfg.tipWinder = true ∧ s.inputs.auto = true ∧ s.seq.auto.retryMs = none) ∧
      (let s := { loaded none with inputs := { loading.inputs with auto := false } }
       s.inputs.auto ≠ true ∧ s.isLoading = true ∧ s.seq.auto.retryMs = none) ∧
      (let s := { tipping .ready none with inputs := { tip.inputs with auto := false } }
       s.inputs.auto ≠ true ∧ s.isTip = true ∧ s.seq.tip = .ready ∧ s.clearFlag s.cfg.tipWinder = true) ∧
      (loaded none).inputs.auto ≠ false ∧ (inPhase .listenOnly (loaded none)).phase ≠ .run := by decide +kernel

/-- Tip landing 3 in READY, its gate record of winder 1 LOCKED with the lock off. -/
def unlockedTip : State := { tipping .ready none with inputs := { tip.inputs with lockEngaged := Vector.replicate 4 false } }

/-- Tip landing 3 in READY with its skip standing and the gate of winder 1 open. -/
def openTip : State :=
  withGate 1 .opened (seeing 1 { standing 3000 with skip := true }
    { tipping .ready none with inputs := { tip.inputs with gateClosed := Vector.replicate 4 false } })

/-- Tip landing 3 in READY, its gate record of winder 1 FORCED. -/
def forcedTip : State := withGate 1 .forced (tipping .ready none)

theorem witness_SequencerTimersAndAutoInput_clear :
    [(unlockedTip, Instr.lockContactChange 1 true), (openTip, .gateSwitchChange 1 true), (forcedTip, .acknowledgeKey)].all (fun x =>
      let s := x.1
      s.live && s.working && s.isTip && s.seq.tip == .ready && !s.clearFlag s.cfg.tipWinder && s.phase == .run && s.inputs.auto &&
        s.seq.auto.retryMs == none && (after x.2 s).clearFlag s.cfg.tipWinder) = true ∧
      (after (.gateSwitchChange 0 false) unlockedTip).clearFlag 1 = false ∧
      (let s := { tipping .ready none with seq := { Sequencer.reset with tip := .ready, auto :=
                    { AutoRecord.reset with retryMs := some 2000 } } }
       s.live = true ∧ s.working = true ∧ s.seq.auto.retryMs = some 2000 ∧ s.isTip = true ∧ s.seq.tip = .ready ∧
         s.clearFlag s.cfg.tipWinder = true ∧ s.phase = .run ∧ s.inputs.auto = true) := by decide +kernel

/-- R158: the clear flag of the skip's gate record going to 1 in READY sends the skip back. -/
theorem test_tip_clears :
    [after (.lockContactChange 1 true) unlockedTip, after (.gateSwitchChange 1 true) openTip, after .acknowledgeKey forcedTip].map
        (·.seq.tip) = [.returnSent, .returnSent, .returnSent] ∧
      (after .retryTimerExpiry { tipping .ready none with seq := { Sequencer.reset with tip := .ready, auto :=
          { AutoRecord.reset with retryMs := some 2000 } } }).seq.tip = .returnSent := by decide +kernel

/-- Example 8-2: the door timer at 10 s; R155: the automatic GO again after 2,000 ms without an answer. -/
theorem test_door_and_reply_timers :
    (after .doorTimerExpiry { loading with seq := { Sequencer.reset with cycle := .doorClosing, doorMs := some 10000 } }).isPending .flaskDoor = true ∧
      (after .autoReplyTimerExpiry { loading with seq := { Sequencer.reset with cycle := .waitDepart, auto :=
          { AutoRecord.reset with status := .awaiting, replyMs := some 2000 } } }).portA.tx.entries.map (·.frame.payload) =
        [.signal 1 3 .ore .go true] := by decide +kernel

/-- R155, R156, R158: the automatic GO of the loading station and of the tip. -/
theorem test_automatic_go :
    (let t := after .retryTimerExpiry (loaded (some 2000))
     (t.seq.cycle = .waitDepart ∧ t.portA.tx.entries.map (·.frame.payload) = [.signal 1 3 .ore .go true])) ∧
      (let t := after .dwellTimerExpiry (tipping .dwell (some 8000))
       (t.seq.tip = .returnSent ∧ t.portA.tx.entries.map (·.frame.payload) = [.signal 1 52 .ore .go true])) := by decide +kernel
theorem test_auto_input :
    (after (.autoInputChange true) { loaded none with inputs := { loading.inputs with auto := false } }).seq.cycle = .waitDepart ∧
      (after (.autoInputChange false) (loaded none)).seq.cycle = .loaded := by decide +kernel

/-- A POSITION of the skip winder at loading station 52. -/
def skipReport (d : Depth) (v : Int) (st : TripState) : PositionReport :=
  { position0 with carrying := d, speed := v, state := st, skip := true }

/-- The record of the skip at the age of its expiry. -/
def expiring (s : State) : State := seeing 1 { standing 2310000 with skip := true, age := 1500 } s

theorem witness_SkipSeenAtTheFlask :
    [FlaskCycle.waitSkip, .discharge, .doorClosing, .loaded, .waitDepart].all (fun c =>
      [skipReport 2310150 50 .idle, skipReport 2310150 51 .idle, skipReport 2310151 50 .idle, skipReport 2309999 (-51) .running,
          skipReport 2310000 (-51) .running].all (fun r =>
        let s := inCycle c loadingSkip
        s.isLoading && s.phase == .run && s.seq.cycle == c && takenBool (heard 1) (.position r) s && s.acceptsPosition r &&
          r.winder == s.cfg.tipWinder)) = true ∧
      (let s := { loadingSkip with inputs := { loading.inputs with doorClosed := false } }
       s.inputs.doorClosed = false ∧ s.seq.skipMoved = false ∧ s.portA.tx.entries.length ≤ 5) ∧
      (let s := inCycle .discharge (expiring loading)
       s.live = true ∧ s.picture.carrying[s.cfg.tipWinder].any (fun x => x.current && decide (x.staleness ≤ x.age)) = true ∧
         s.seq.cycle = .discharge) ∧
      [loaded none, loaded (some 5), inCycle .loaded loading].all (fun x =>
        let s := expiring x
        s.isLoading && s.phase == .run && s.live && s.seq.cycle == .loaded &&
          s.picture.carrying[s.cfg.tipWinder].any (fun r => r.current && decide (r.staleness ≤ r.age))) = true ∧
      ((loaded none).seq.sendMark && (loaded none).inputs.auto && (loaded none).seq.auto.retryMs.isNone) = true ∧
      (loaded (some 5)).seq.auto.retryMs = some 5 ∧ (inCycle .loaded loading).seq.sendMark = false := by decide +kernel

/-- R151: a skip that moves off aborts the discharge. R156: above the level and going up in RUNNING it has departed; at the level
it has not. R153: it is reported moving once. -/
theorem test_skip_seen :
    (after (.positionTaken (heard 1) (skipReport 2310000 51 .running)) (inCycle .discharge
        { loadingSkip with inputs := { loading.inputs with doorClosed := false } })).seq.cycle = .doorClosing ∧
      (after (.conveyanceRecordExpiry 1) (inCycle .discharge (expiring loading))).seq.cycle = .waitSkip ∧
      (after (.positionTaken (heard 1) (skipReport 2309999 (-51) .running)) (inCycle .waitDepart loadingSkip)).seq.cycle = .waitSkip ∧
      (after (.positionTaken (heard 1) (skipReport 2310000 (-51) .running)) (inCycle .waitDepart loadingSkip)).seq.cycle = .waitDepart := by
  decide +kernel
theorem test_skip_moved_once :
    (let s := { loadingSkip with inputs := { loading.inputs with doorClosed := false } }
     let t := after (.positionTaken (heard 1) (skipReport 2310000 51 .running)) s
     ((t.portA.tx.entries.map (·.frame.kind)) = [.halt] ∧
       (after (.positionTaken (heard 1) { skipReport 2310000 52 .running with seq := 42 }) t).portA.tx.nextOrder =
         t.portA.tx.nextOrder)) := by decide +kernel

/-- Loading station 52 with its automatic signal record in a status for trip 18, its flask cycle in a state. -/
def autoIn (a : AutoStatus) (c : FlaskCycle) : State :=
  { loadingSkip with seq := { Sequencer.reset with cycle := c, auto :=
      { status := a, number := some 18, replyMs := if a = .awaiting then some 5 else none, retryMs := none } } }

/-- A WINDING of an automatic ORE trip of winder 1 from loading station 52 to tip landing 3. -/
def oreWinding (st : WindingState) : WindingReport :=
  { winding0 with state := st, cls := .ore, auto := true, origin := 52, dest := 3 }

theorem witness_AutomaticSignalReports :
    [AutoStatus.none, .awaiting, .accepted].all (fun a => [FlaskCycle.loaded, .waitDepart, .doorClosing].all (fun c =>
      [WindingState.refusal, .trip .idle, .trip .armed].all (fun st =>
        let s := autoIn a c
        s.hasSequencer && s.phase == .run && s.seq.auto.status == a && s.seq.cycle == c &&
          takenBool (heard 1) (.winding (oreWinding st)) s && (oreWinding st).winder == s.cfg.tipWinder &&
          (oreWinding st).origin == s.cfg.station))) = true ∧
      (let s := autoIn .accepted .waitDepart
       [(skipReport 2310000 0 .idle), (skipReport 2310150 50 .armed)].all (fun r =>
         takenBool (heard 1) (.position r) s && s.acceptsPosition r) = true) ∧
      (let s := { tip with seq := { Sequencer.reset with tip := .returnSent, auto :=
                    { status := .accepted, number := some 18, replyMs := none, retryMs := none } } }
       s.hasSequencer = true ∧ s.isLoading = false ∧ takenBool (heard 1) (.position (skipReport 3000 0 .idle)) s = true ∧
         s.acceptsPosition (skipReport 3000 0 .idle) = true) := by decide +kernel

/-- Table 8-2: accepted; refused while calling, and the retry timer runs; refused while not calling. -/
theorem test_automatic_signal :
    (after (.windingTaken (heard 1) (oreWinding (.trip .armed))) (autoIn .awaiting .waitDepart)).seq.auto.status = .accepted ∧
      (let t := after (.windingTaken (heard 1) (oreWinding .refusal)) (autoIn .awaiting .waitDepart)
       (t.seq.auto.status = .none ∧ t.seq.auto.retryMs = some 0 ∧ t.seq.cycle = .loaded)) ∧
      (let t := after (.windingTaken (heard 1) (oreWinding .refusal)) (autoIn .awaiting .doorClosing)
       (t.seq.auto.status = .none ∧ t.seq.auto.retryMs = none)) := by decide +kernel

/-- Tip landing 3 with its skip standing there after a trip of number 18. -/
def tipSkip (c : TipCycle) (dwell : Option Nat) : State := seeing 1 { standing 3000 with skip := true } (tipping c dwell)

theorem witness_TipDwell :
    [tipping .tipWait none, tipSkip .tipWait none, tipSkip .dwell (some 5), tipSkip .ready none].all (fun s =>
      s.isTip && s.phase == .run && takenBool (heard 1) (.winding (oreWinding (.trip .running))) s &&
        (oreWinding (.trip .running)).dest == s.cfg.station &&
        [skipReport 3150 50 .idle, skipReport 3151 50 .idle, skipReport 3000 51 .idle].all (fun r =>
          takenBool (heard 1) (.position r) s && s.acceptsPosition r)) = true ∧
      (let s := seeing 1 { standing 3000 with age := 1500 } (tipping .dwell (some 5))
       s.live = true ∧ s.picture.carrying[s.cfg.tipWinder].any (fun x => x.current && decide (x.staleness ≤ x.age)) = true ∧
         s.seq.tip = .dwell) := by decide +kernel

/-- R157: the WINDING that arrives sets the number, or enters DWELL if the skip already stands there; the skip seen standing
with that number enters DWELL; the skip seen 1 mm outside the window leaves. -/
theorem test_tip_dwell :
    (after (.windingTaken (heard 1) (oreWinding (.trip .running))) (tipping .tipWait none)).seq.arrival = some 18 ∧
      (after (.windingTaken (heard 1) (oreWinding (.trip .running))) (tipSkip .tipWait none)).seq.tip = .dwell ∧
      (afterAll [.windingTaken (heard 1) (oreWinding (.trip .running)), .positionTaken (heard 1) (skipReport 3150 50 .idle)]
        (tipping .tipWait none)).seq.dwellMs = some 0 ∧
      (after (.positionTaken (heard 1) (skipReport 3151 50 .idle)) (tipSkip .dwell (some 5))).seq.tip = .tipWait := by decide +kernel

/-! Lamps and event lines (chapter 10) -/

theorem witness_LampsAndEventLines :
    landing.live = true ∧ landing.inputs.lampTest ≠ true ∧ landing.inputs.dark ≠ true ∧
      (let s := { panel101 with panel := { panel101.panel with strobeMs := some 20 } }
       s.live = true ∧ s.panel.strobeMs = some 20) ∧ (19 < 20) ∧ panel101.working = true ∧
      panel101.panel.pendingEvents.getLsbD 5 = true ∧ panel101.eventCode ≠ 0 ∧
      (let t := after .acknowledgeKey panel101
       t.live = true ∧ t.working = true ∧ t.eventCode ≠ panel101.eventCode) := by decide +kernel

/-- Table 10-3: in TEST each lamp is lit in one half of the flash clock and dark in the other. -/
theorem test_lamp_test :
    (let t := after (.lampTestKeyChange true) landing
     List.zipWith xor t.lampOutputs (after .flashClockHalf t).lampOutputs = List.replicate 24 true) ∧
      (after .flashClockHalf landing).clock.flashLit = false ∧
      (after .strobePulseEnd { panel101 with panel := { panel101.panel with strobeMs := some 20 } }).panel.strobeMs = none := by
  decide +kernel

/-- R175: DARK shows nothing but in ALERT. -/
theorem test_dark : (after (.darkInputChange true) landing).lampOutputs = List.replicate 24 false := by decide +kernel

theorem witness_LampPanel :
    drum.isDrum = true ∧ landing.hasGates = true ∧ loading.hasGates = true ∧ loading.isLoading = true ∧ tip.isTip = true ∧
      drum.live = true ∧ drum.phase = .run ∧ (inPhase .listenOnly drum).phase = .listenOnly ∧ (listening 5 drum).phase = .listen ∧
      drum.lampImage[23]? ≠ none ∧ landing.lampImage[23]? ≠ none ∧ tripped.safety.causes ≠ [] ∧
      tripped.safety.causes.head?.isSome = true ∧ tripped.working = true ∧ tripped.eventCode ≠ 13 ∧
      (panel101.serves 0 = true ∧ panel101.gateState 0 = .forced) := by decide +kernel

/-- Table 10-1, lamps 7, 9 and 10 of a drum, and R63: they show the last sample set. -/
theorem test_lamps_of_the_sample_set :
    (let d : DepthUnit :=
       { drum.depth with verified := false, correctionOn := false, modePending := true, clearPending := true }
     let s := { drum with depth := d }
     ([7, 9, 10].map (fun k => s.lampImage[k]?) = [some .off, some .off, some .off])) ∧
      (let x := { at_ 1380000 with verified := false, modePending := true, clearPending := true }
       let s := { drum with depth := { drum.depth with sample := some x } }
       ([7, 9, 10].map (fun k => s.lampImage[k]?) = [some .on, some .flash, some .on])) := by decide +kernel

/-- Table 10-1, lamp 18 of a loading station: FLASH under a door not closed with the output off, spillage or none; ON under
spillage with the door closed. -/
theorem test_interlock_lamp :
    [(false, true), (false, false), (true, true), (true, false)].map (fun x =>
      { loading with inputs := { loading.inputs with doorClosed := x.1, spillage := x.2 } }.lampImage[18]?) =
      [some .flash, some .flash, some .on, some .off] := by decide +kernel

/-- A drum that shows RESET REFUSED for a local emergency stop. -/
def refusedReset : State :=
  { tripped with panel := { Panel.reset with pendingEvents := 0x2000#16 }, safety := { tripped.safety with refusal := some .localEstop } }

/-- Landing 30 with a pending set, a refusal cause and missed calls of winders 1 and 3. -/
def showing (events : BitVec 16) : State :=
  { landing with panel := { Panel.reset with pendingEvents := events, refusedCause := some .pathBlocked, callNotRegistered := 10 } }

theorem witness_LampPanel_detail :
    (refusedReset.isDrum = true ∧ refusedReset.working = true ∧ refusedReset.eventCode = 13 ∧
      refusedReset.safety.refusal = some .localEstop) ∧
      [((0x0800#16 : BitVec 16), 11), (0x0100#16, 8), (0x0020#16, 5)].all (fun x =>
        let s := showing x.1
        s.hasGates && s.working && s.eventCode == x.2 && winderIn s.panel.callNotRegistered 1 &&
          !winderIn s.panel.callNotRegistered 0) = true := by decide +kernel

/-- Table 10-2: the order of Table 9-3, the order of Table 6-3, and the lowest winder plus 1. -/
theorem test_details :
    refusedReset.detail = 3 ∧ [showing 0x0800#16, showing 0x0100#16, showing 0x0020#16].map State.detail = [10, 2, 0] := by decide +kernel

/-- R174: the detail number of a tripped drum is 3 for a HALT; none is shown before a record is accepted (log entry 38). -/
theorem test_detail_number :
    tripped.detail = 3 ∧ (after .warmReset tripped).detail = 0 ∧
      ([20, 21, 22, 23].map (fun k => tripped.lampImage[k]?)) = [some .on, some .on, some .off, some .off] := by decide +kernel

/-! One millisecond of an idle station -/

/-- What an idle step leaves. -/
def ticked (s : State) : State :=
  match step s with
  | .next t => t
  | _ => s

/-- Stations 1 ms before each limit, with the command due then. -/
def atLimits : List (State × Instr) :=
  [({ drum with depth := { drum.depth with faultMs := some 9 } }, .encoderFaultClear),
    ({ drum with clock := { drum.clock with windowMs := 999 } }, .errorWindowAdvance),
    ({ drum with clock := { drum.clock with flashMs := 499 } }, .flashClockHalf),
    ({ panel101 with panel := { panel101.panel with strobeMs := some 19 } }, .strobePulseEnd),
    (listening 1999 drum, .listenTimerExpiry),
    (seeing 1 { standing 1600000 with age := 1499 } landing, .conveyanceRecordExpiry 1),
    (holder .current 2999, .stationEntryExpiry 30), (armedFor 59999 false, .armTimerExpiry),
    ({ armed with trip := { armed.trip with autoStartMs := some 199 } }, .autoStartPulseEnd),
    ({ calling calls61 with clock := { drum.clock with now := 899999 } }, .callLifeExpiry 2),
    (settling 499, .lockSettleTimerExpiry 1), (assenting 999, .assentTimerExpiry), (signalWaits, .replyTimerExpiry),
    ({ loading with seq := { Sequencer.reset with cycle := .doorClosing, doorMs := some 9999 } }, .doorTimerExpiry),
    ({ loading with seq := { Sequencer.reset with cycle := .waitDepart, auto :=
        { AutoRecord.reset with status := .awaiting, replyMs := some 1999 } } }, .autoReplyTimerExpiry),
    (loaded (some 1999), .retryTimerExpiry), (tipping .dwell (some 7999), .dwellTimerExpiry)]

theorem witness_IdleStepIsOneMillisecond_limits :
    atLimits.all (fun x => x.1.pending.isEmpty && x.1.live && x.1.loader.powered && !x.1.loader.oscillating) = true ∧
      (seeing 1 (standing 1600000) drum).isDrum = true ∧ (seeing 1 (standing 1600000) drum).cfg.winder = 1 ∧
      (seeing 0 { standing 1600000 with age := 65535 } drum).working = true ∧
      drum.stations.entries[(28 : Station)].state ≠ .unknown ∧ drum.stations.entries[(29 : Station)].state = .unknown ∧
      (inPhase .configFault drum).working = false := by decide +kernel

/-- Each timer queues its command at its limit, and an age stops at 65,535 (log entries 1, 3 and 10). -/
theorem test_limits :
    atLimits.all (fun x => (ticked x.1).pending.contains x.2) = true ∧
      (ticked (seeing 0 { standing 1600000 with age := 65535 } drum)).picture.carrying[(0 : Winder)].map (·.age) = some 65535 ∧
      (ticked drum).stations.entries[(28 : Station)].age = 1 := by decide +kernel

/-! The joining of a queue with room, and a replacement -/

/-- Three entries of Example 1-2's queue, an ASSENT of landing 30 being sent. -/
def queue3 : Queue :=
  { entries := [entry 3 (.signal 0 1 .ore .go false), { entry 1 (.assent assent0) with sending := true, collisions := 2 },
                entry 2 (.call 0 .ore .register)]
    nextOrder := 4 }

theorem witness_FullTransmitQueue_room :
    QueueInv sameReport queue3 ∧ QueueInv sameRelayed queue3 ∧ queue3.entries.length < 8 ∧
      (let f := frameOf (heard 30) (.mark 1 5)
       ∀ e ∈ queue3.entries, sameReport f e.frame = false ∧ sameRelayed f e.frame = false) ∧
      (let f := frameOf (heard 30) (.assent { assent0 with hold := true })
       f.kind = .assent ∧ ∃ e ∈ queue3.entries, sameReport f e.frame = true ∧ sameRelayed f e.frame = true ∧ e.sending = true) ∧
      (frameOf (heard 1) (.position position0)).payload = .position position0 :=
  ⟨⟨by decide +kernel, by decide +kernel, by decide +kernel, by decide +kernel, by decide +kernel⟩,
    ⟨by decide +kernel, by decide +kernel, by decide +kernel, by decide +kernel, by decide +kernel⟩, by decide +kernel,
    by decide +kernel, by decide +kernel, rfl⟩

/-- R16: a MARK joins before the CALL. R17: the later ASSENT takes the place and the counts of the one being sent. -/
theorem test_room :
    (let f := frameOf (heard 30) (.mark 1 5)
     (queue3.takeIn (sameReport f) f 0).1.entries.map (·.order) = [3, 1, 4, 2]) ∧
      (let f := frameOf (heard 30) (.assent { assent0 with hold := true })
       ((queue3.takeIn (sameReport f) f 7).1.entries.map (fun e => (e.order, e.collisions, e.replaced))) =
         [(3, 0, false), (1, 2, true), (2, 0, false)]) := by decide +kernel

/-! Events of causes, holds and flags -/

theorem witness_Delivered_events :
    (running.working = true ∧ running.safety.causes = []) ∧
      (let s := { tripped with safety := { tripped.safety with causes := List.replicate 8 CauseRecord.start } }
       s.working = true ∧ s.safety.causes.length = 8 ∧ s.safety.causesLost = false ∧
         ¬∃ r ∈ s.safety.causes, r.kind = .estopLocal ∧ r.origin = none) ∧
      (running.stations.holdSet = 0 ∧ running.depth.sample = some (moving 1400000 8000)) ∧
      (∀ n : Station, drum.stations.entries[n].state = .current →
        drum.stations.entries[n].lineDegraded = false ∧ drum.stations.entries[n].relayDrop = false) ∧
      takenBool (heard 30) (.assent { assent0 with lineDegraded := true }) drum = true ∧
      (fullRelay (.winding winding0)).dropFlag (farPort .a) = false ∧
      (tripped.safety.causes ≠ [] ∧ (resetTests tripped).find? (·.1) = none) := by decide +kernel

/-- Table 10-2: SAFETY TRIP, CAUSES LOST, HOLD and SHAFT LINE. -/
theorem test_events :
    (after (.haltTaken (heard 30) 2 .estopKey) running).isPending .safetyTrip = true ∧
      (after (.localEstopInputChange true)
        { tripped with safety := { tripped.safety with causes := List.replicate 8 CauseRecord.start } }).isPending .causesLost = true ∧
      (after (.assentTaken (heard 27) { assent0 with hold := true }) drum).isPending .hold = true ∧
      (after (.assentTaken (heard 30) { assent0 with lineDegraded := true }) drum).isPending .shaftLine = true := by decide +kernel

/-! What a sample makes of the POSITION and of the envelope -/

/-- The drum of Example 4-1 some milliseconds after its last POSITION. -/
def reported (ms : Nat) : State := { example41 with trip := { example41.trip with sincePosition := some ms } }

theorem witness_SampleSetAndPosition_built :
    [none, some 39, some 40].all (fun n =>
      let s := { example41 with trip := { example41.trip with sincePosition := n } }
      s.live && s.isDrum && s.working && s.phase == .run && s.depth.history.length == 10 && s.trip.sincePosition == n) = true ∧
      (inPhase .listenOnly example41).phase ≠ .run ∧ (calling calls61).trip.calls = calls61 := by decide +kernel

/-- R38: in motion a POSITION is built at 50 ms and not at 40; its call set names the origins of the calls. -/
theorem test_position_built :
    ((after (.sample true) (reported 40)).trip.positionSeq, (after (.sample true) (reported 39)).trip.positionSeq,
        (after (.sample true) (reported 39)).trip.sincePosition) = (1, 0, some 49) ∧
      ((after (.sample true) (calling calls61)).picture.carrying[(1 : Winder)].map (fun r => (r.dest, stationIn r.callSet 23))) =
        some (some 2, true) := by decide +kernel

/-- Trip 42 RUNNING at 1,400,000 mm, its count and history at the start. -/
def runningAt (d : Int) : State :=
  { running with depth := { running.depth with stationary := 0, zeroOffset := d } }

theorem witness_FullEvaluation_sample :
    (runningAt 1400000).live = true ∧ (runningAt 1400000).isDrum = true ∧ (runningAt 1400000).working = true ∧
      (let t := after (.sample true) (runningAt 1400000)
       t.supervised = true ∧ t.trip.record.details = some trip42 ∧ t.depth.sample.isSome = true) ∧
      (after (.sample true) drum).supervised = false := by decide +kernel

/-- R75: the permitted speed after a sample is that of the new set; R76: so is it at the entries to ARMED and to STOPPING. R89: the
limit lines carry a tenth of it. -/
theorem test_envelope_after :
    (let t := after (.sample true) (runningAt 1590000)
     (t.env.vPerm = permittedSpeed t.cfg t.trip.record trip42 t.lastSample ∧ t.env.vPerm.val = 4031 ∧ t.env.limitWord = 403 ∧
       t.limitLines = 403 ∧ t.env.vThr = 4332)) ∧
      (after (.signalGo (heard 28) 1 30 .persons false) drum).env.vPerm.val = 12000 ∧
      (after (.signalStop (heard 30) 1 0 .persons false) running).env.limitWord =
        (after (.signalStop (heard 30) 1 0 .persons false) running).env.vPerm.val / 10 := by decide +kernel

theorem witness_PermittedSpeed_lines :
    EnvelopeInv (recompute running) ∧ (recompute running).live = true ∧ (after .powerLoss drum).live = false :=
  ⟨⟨by decide +kernel, by decide +kernel, by decide +kernel, by decide +kernel⟩, by decide +kernel, by decide +kernel⟩

/-! The landing condition at a POSITION and at an expiry -/

/-- A record of the cage of winder 1, and the report that brings or ends the landing condition of landing 30. -/
def conditionChanges : List (State × PositionReport) :=
  [(landing, position0), (seeing 1 (standing 1600000) landing, { position0 with carrying := 1600151 }),
    (seeing 1 (standing 1600000) landing, position0)]

theorem witness_GateSwitchAndLock_position :
    conditionChanges.all (fun x => [GateState.locked, .releasable, .opened, .forced].all (fun g =>
      [withGate 1 g x.1, inPhase .listenOnly (withGate 1 g x.1)].all (fun s =>
        s.hasGates && s.serves 1 && takenBool (heard 1) (.position x.2) s && s.acceptsPosition x.2 &&
          s.inputs.gateClosed[(1 : Winder)] && s.inputs.lockEngaged[(1 : Winder)]))) = true ∧
      conditionChanges.map (fun x => x.1.landingCondition 1) = [false, true, true] ∧
      (let s := seeing 1 { standing 1600000 with age := 1500 } landing
       s.hasGates = true ∧ s.live = true ∧ s.working = true ∧ s.landingCondition 1 = true ∧
         s.picture.carrying[(1 : Winder)].any (fun x => x.current && decide (x.staleness ≤ x.age)) = true) ∧
      landing.serves 2 = false := by decide +kernel

/-- R127 to R130, R147: what the change of the condition makes of each record, in RUN and in LISTEN-ONLY; R134: the settle timer
runs from 0 at the expiry of the record. -/
theorem test_condition_changes :
    conditionChanges.map (fun x => [GateState.locked, .releasable, .opened, .forced].map (fun g =>
        (after (.positionTaken (heard 1) x.2) (withGate 1 g x.1)).gateState 1)) =
      [[.releasable, .releasable, .releasable, .forced], [.locked, .locked, .locked, .forced],
        [.locked, .releasable, .opened, .forced]] ∧
      (after (.positionTaken (heard 1) position0) (inPhase .listenOnly landing)).gateState 1 = .locked ∧
      (after (.conveyanceRecordExpiry 1) (withGate 1 .releasable
        (seeing 1 { standing 1600000 with age := 1500 } landing))).gate.records[(1 : Winder)] = { state := .locked, settleMs := some 0 } := by
  decide +kernel

/-! The flask and the automatic record beside RUN -/

theorem witness_FlaskInputs_phases :
    [Phase.init, .listen, .listenOnly, .configFault].all (fun p => [FlaskCycle.waitSkip, .discharge, .doorClosing, .loaded].all (fun c =>
      let s := inCycle c (inPhase p loadingSkip)
      s.live && s.isLoading && s.phase == p && s.seq.cycle == c && s.inputs.doorClosed != false && s.inputs.flaskFull != false &&
        s.inputs.spillage != true && s.inputs.flaskEmpty != true)) = true := by decide +kernel

/-- R159: in LISTEN-ONLY a flask that fills begins no discharge, and a spillage raises its event but is offered to no queue; in
LISTEN it does neither. -/
theorem test_flask_in_listen_only :
    (after (.flaskFullChange true) (inPhase .listenOnly
        { loadingSkip with inputs := { loading.inputs with flaskFull := false } })).seq.cycle = .waitSkip ∧
      (let t := after (.spillageChange true) (inPhase .listenOnly loading)
       (t.isPending .spillage = true ∧ t.portA.tx.entries = [])) ∧
      (after (.spillageChange true) (inPhase .listen loading)).isPending .spillage = false := by decide +kernel

theorem witness_SkipSeenAtTheFlask_listen_only :
    [FlaskCycle.waitSkip, .doorClosing, .loaded, .waitDepart].all (fun c =>
      [skipReport 2310150 50 .idle, skipReport 2310151 50 .idle, skipReport 2310000 51 .idle].all (fun r =>
        let s := inCycle c (inPhase .listenOnly loadingSkip)
        s.isLoading && s.phase == .listenOnly && takenBool (heard 1) (.position r) s && s.acceptsPosition r)) = true ∧
      (let s := inCycle .loaded (inPhase .listenOnly (expiring (loaded none)))
       s.phase = .listenOnly ∧ s.live = true ∧ s.seq.sendMark = true ∧ s.inputs.auto = true) := by decide +kernel

/-- The tip in a state of its cycle with its automatic record in a status for trip 18. -/
def tipAuto (a : AutoStatus) (c : TipCycle) : State :=
  { tip with seq := { Sequencer.reset with tip := c, auto :=
      { status := a, number := some 18, replyMs := if a = .awaiting then some 5 else none, retryMs := none } } }

theorem witness_AutomaticSignalReports_position :
    [AutoStatus.none, .awaiting, .accepted].all (fun a =>
      [FlaskCycle.waitSkip, .discharge, .doorClosing, .loaded, .waitDepart].all (fun c =>
        [skipReport 2310000 0 .idle, skipReport 2310000 0 .armed, { skipReport 2310000 0 .armed with number := 19 },
            skipReport 2310151 0 .idle, skipReport 2309999 (-51) .running].all (fun r =>
          let s := autoIn a c
          s.hasSequencer && s.isLoading && s.phase == .run && takenBool (heard 1) (.position r) s && s.acceptsPosition r &&
            r.winder == s.cfg.tipWinder && s.seq.auto.status == a)) &&
      [TipCycle.tipWait, .dwell, .ready, .returnSent].all (fun c =>
        [skipReport 3000 0 .idle, skipReport 3000 0 .armed, skipReport 3151 0 .idle, skipReport 3000 51 .running].all (fun r =>
          let s := tipAuto a c
          s.hasSequencer && !s.isLoading && s.phase == .run && takenBool (heard 1) (.position r) s && s.acceptsPosition r &&
            r.winder == s.cfg.tipWinder))) = true ∧
      ((loaded none).seq.sendMark && (loaded none).inputs.auto && (loaded none).seq.auto.retryMs.isNone &&
        takenBool (heard 1) (.position (skipReport 2310000 0 .idle)) (loaded none)) = true := by decide +kernel

/-- Table 8-2: at a POSITION an ACCEPTED record ends in every state of the cycle; a cycle that calls returns with the retry timer
from 0, and one that does not is left as it is; R156: the skip gone ends the record. -/
theorem test_automatic_position :
    ([FlaskCycle.waitSkip, .waitDepart].map (fun c =>
        let t := after (.positionTaken (heard 1) (skipReport 2310000 0 .idle)) (autoIn .accepted c)
        (t.seq.auto.status, t.seq.auto.retryMs))) = [(.none, none), (.none, some 0)] ∧
      (let t := after (.positionTaken (heard 1) (skipReport 3000 0 .idle)) (tipAuto .accepted .returnSent)
       (t.seq.tip = .ready ∧ t.seq.auto.retryMs = some 0)) ∧
      (let t := after (.positionTaken (heard 1) (skipReport 2310151 0 .idle)) (autoIn .accepted .waitDepart)
       (t.seq.cycle = .waitSkip ∧ t.seq.auto.status = .none)) ∧
      (after (.positionTaken (heard 1) (skipReport 2310000 0 .idle)) (loaded none)).seq.cycle = .waitDepart := by decide +kernel

/-! Invariants -/

theorem witness_EveryStepKeepsTheTripLaws :
    TripInv { running with pending := [.haltTaken (heard 30) 2 .estopKey] } ∧
      ∃ t, step { running with pending := [.haltTaken (heard 30) 2 .estopKey] } = .next t ∧ t.safety.causes ≠ [] :=
  ⟨⟨⟨by decide +kernel, by decide +kernel, by decide +kernel, by decide +kernel⟩, by decide +kernel, by decide +kernel, by decide +kernel, by decide +kernel, by decide +kernel, by decide +kernel⟩,
    _, rfl, by decide +kernel⟩

theorem witness_EveryStepKeepsTheQueueLaws :
    LineInv { landing with pending := [.emergencyStopKeyChange true] } ∧
      ∃ t, step { landing with pending := [.emergencyStopKeyChange true] } = .next t ∧ t.portA.tx.entries.length = 2 :=
  ⟨⟨⟨by decide +kernel, by decide +kernel, by decide +kernel, by decide +kernel⟩, ⟨by decide +kernel, by decide +kernel, by decide +kernel, by decide +kernel, by decide +kernel⟩,
      ⟨by decide +kernel, by decide +kernel, by decide +kernel, by decide +kernel, by decide +kernel⟩, ⟨by decide +kernel, by decide +kernel, by decide +kernel, by decide +kernel, by decide +kernel⟩,
      ⟨by decide +kernel, by decide +kernel, by decide +kernel, by decide +kernel, by decide +kernel⟩, by decide +kernel, by decide +kernel⟩, _, rfl, by decide +kernel⟩

theorem witness_EveryStepKeepsTheGateAndSequencerLaws :
    GateInv { settling 500 with pending := [.lockSettleTimerExpiry 1] } ∧
      SequencerInv { inCycle .discharge loadingSkip with pending := [.flaskEmptyChange true] } ∧
      (∃ t, step { settling 500 with pending := [.lockSettleTimerExpiry 1] } = .next t) ∧
      ∃ t, step { inCycle .discharge loadingSkip with pending := [.flaskEmptyChange true] } = .next t :=
  ⟨⟨⟨by decide +kernel, by decide +kernel, by decide +kernel, by decide +kernel⟩, by decide +kernel, by decide +kernel, by decide +kernel, by decide +kernel, by decide +kernel, by decide +kernel⟩,
    ⟨⟨by decide +kernel, by decide +kernel, by decide +kernel, by decide +kernel⟩, by decide +kernel, by decide +kernel, by decide +kernel, by decide +kernel, by decide +kernel⟩, ⟨_, rfl⟩, ⟨_, rfl⟩⟩

theorem witness_EveryStepKeepsTheListAndPictureLaws :
    EnvelopeInv { tripped with pending := [.tripResetKey] } ∧ CauseInv { tripped with pending := [.tripResetKey] } ∧
      CallInv { tripped with pending := [.tripResetKey] } ∧ PictureInv { tripped with pending := [.tripResetKey] } ∧
      ∃ t, step { tripped with pending := [.tripResetKey] } = .next t :=
  ⟨⟨by decide +kernel, by decide +kernel, by decide +kernel, by decide +kernel⟩, ⟨by decide +kernel, by decide +kernel, by decide +kernel⟩, ⟨by decide +kernel, by decide +kernel⟩,
    ⟨by decide +kernel, by decide +kernel⟩, ⟨_, rfl⟩⟩

end Sys2Proof.Tests
end

