-- ==== Sys2Proof/Proofs/RelayUnit.lean ====
section
/-! PROOFS. Sys2Proof/Proofs/RelayUnit.lean: the rules of the Relay Unit (R22 to R29): what a relay queue makes of a copy put to
it, what the unit does with a frame taken, and what the end of a step makes of the unit's two events. -/
namespace Sys2Proof.Machine

/-! The pending event set, event by event -/

theorem Event.code_lt (e : Event) : e.code < 16 := by cases e <;> decide

/-- The set that holds one event has the bit of its code alone. -/
theorem Event.getLsbD_mask (e : Event) (i : Nat) : e.mask.getLsbD i = decide (e.code = i) := by
  have hc := e.code_lt
  by_cases h : e.code = i
  · subst h; simp [Event.mask, hc]
  · simp [Event.mask, BitVec.getLsbD_twoPow, h]

/-- An event of another code is pending after a raising exactly if it was before. -/
theorem isPending_raise_of_ne (s : State) {e e' : Event} (h : e'.code ≠ e.code) :
    (raise e' s).isPending e = s.isPending e := by
  unfold State.isPending
  rw [raise_pendingEvents]
  split
  · simp [Event.getLsbD_mask, h]
  · rfl

/-- R176: in a phase that shows events, a raised event is pending. -/
theorem isPending_raise_self (s : State) (e : Event) (h : s.working = true) : (raise e s).isPending e = true := by
  unfold State.isPending
  rw [raise_pendingEvents, if_pos h]
  simp [Event.getLsbD_mask]

/-- An event of another code is pending after one has left exactly if it was before. -/
theorem isPending_leave_of_ne (s : State) {e e' : Event} (h : e'.code ≠ e.code) :
    (leave e' s).isPending e = s.isPending e := by
  unfold State.isPending leave
  simp only [setEvents_pendingEvents, BitVec.getLsbD_and, BitVec.getLsbD_not, Event.getLsbD_mask, e.code_lt, h]
  simp

/-- Of a set of events that lies within another, no bit stands outside that other. -/
theorem EventsWithin.getLsbD_eq_false {a b : BitVec 16} (h : EventsWithin a b) {i : Nat} (hb : b.getLsbD i = false) :
    a.getLsbD i = false := by
  unfold EventsWithin at h
  by_cases hi : i < 16
  · have hbit := congrArg (fun x => x.getLsbD i) h
    simpa only [BitVec.getLsbD_and, BitVec.getLsbD_not, hi, hb, decide_true, Bool.not_false, Bool.and_true,
      BitVec.ofNat_eq_ofNat, BitVec.getLsbD_zero] using hbit
  · exact BitVec.getLsbD_of_ge a i (by omega)

/-- An event outside the set that an operation raises is pending afterwards exactly if it was before. -/
theorem Raises.isPending_eq {b : BitVec 16} {s t : State} (h : Raises b s t) {e : Event} (hb : b.getLsbD e.code = false) :
    t.isPending e = s.isPending e := by
  obtain ⟨more, hmore, hevents⟩ := h.events
  unfold State.isPending
  rw [hevents, BitVec.getLsbD_or, hmore.getLsbD_eq_false hb, Bool.or_false]

/-- R18: originating a frame touches no event but TX OVERFLOW. -/
theorem isPending_originate_of_ne (s : State) (p : Payload) {e : Event} (h : Event.txOverflow.code ≠ e.code) :
    (originate p s).isPending e = s.isPending e :=
  (originate_raises s p).isPending_eq (by simp [Event.getLsbD_mask, h])

/-! What the end of a step makes of the events of the Relay Unit (Table 10-2) -/

/-- A bit of a set that holds one event or none. -/
theorem getLsbD_maskIf (c : Bool) (e : Event) (i : Nat) :
    (if c = true then e.mask else 0).getLsbD i = (c && decide (e.code = i)) := by
  cases c <;> simp [Event.getLsbD_mask]

/-- HOP DROP leaves by acknowledgement alone. -/
theorem leavingMask_hopDrop (s : State) : (leavingMask s).getLsbD Event.hopDrop.code = false := by
  unfold leavingMask commonLeaving drumLeaving gateLeaving
  split <;> split <;> simp only [BitVec.getLsbD_or, getLsbD_maskIf] <;> simp [Event.code]

/-- RELAY DROP leaves while neither drop flag is set. -/
theorem leavingMask_relayDrop (s : State) : (leavingMask s).getLsbD Event.relayDrop.code = !s.relayDrop := by
  unfold leavingMask commonLeaving drumLeaving gateLeaving
  split <;> split <;> simp only [BitVec.getLsbD_or, getLsbD_maskIf] <;> simp [Event.code]

/-- The end of a step leaves an event as it was that is neither SHAFT LINE nor TX OVERFLOW and has no cause to leave. -/
theorem Ends.isPending_eq {s t : State} (h : Ends s t) {e : Event}
    (hr : (Event.shaftLine.mask ||| Event.txOverflow.mask).getLsbD e.code = false)
    (hl : (leavingMask s).getLsbD e.code = false) : t.isPending e = s.isPending e := by
  obtain ⟨more, hmore, hevents⟩ := h.events
  unfold State.isPending
  rw [hevents]
  simp only [BitVec.getLsbD_and, BitVec.getLsbD_or, BitVec.getLsbD_not, hmore.getLsbD_eq_false hr, hl, e.code_lt]
  simp

theorem Ends.hopDrop {s t : State} (h : Ends s t) : t.isPending .hopDrop = s.isPending .hopDrop :=
  h.isPending_eq (by decide) (leavingMask_hopDrop s)

/-- R29: while a drop flag is set, RELAY DROP is not removed. -/
theorem Ends.relayDrop {s t : State} (h : Ends s t) (hd : s.relayDrop = true) :
    t.isPending .relayDrop = s.isPending .relayDrop :=
  h.isPending_eq (by decide) (by rw [leavingMask_relayDrop, hd]; rfl)

/-! The relay queue that a copy is put to (R26 to R28) -/

/-- Of some entries one is the newest. -/
theorem exists_newest {l : List Entry} (h : l ≠ []) : ∃ v, newest l = some v := by
  cases l with
  | nil => exact absurd rfl h
  | cons e es =>
    unfold newest
    cases newest es with
    | none => exact ⟨e, rfl⟩
    | some x => dsimp only; split <;> exact ⟨_, rfl⟩

/-- R17, R18, R27, R28: a frame put to a queue stands in it, if the queue has room or an entry to give up. -/
theorem takeIn_holds_of_place (q : Queue) (same : Frame → Bool) (f : Frame) (n : Nat)
    (h : q.entries.length < 8 ∨ ∃ v ∈ q.entries, v.sending = false ∧ f.cls < v.effClass) :
    (q.takeIn same f n).1.holds f := by
  rcases h with hroom | ⟨v, hv, hstill, hcls⟩
  · exact takeIn_holds q same f n hroom
  by_cases hroom : q.entries.length < 8
  · exact takeIn_holds q same f n hroom
  cases hsame : q.entries.any (fun e => same e.frame) with
  | true =>
    obtain ⟨e, he, hs⟩ := List.any_eq_true.mp hsame
    rw [takeIn_replaces q same f n hsame]
    exact ⟨e.replace f n, List.mem_map.mpr ⟨e, he, if_pos hs⟩, rfl⟩
  | false =>
    have hremovable : v ∈ q.entries.filter (Entry.removable f.cls) :=
      List.mem_filter.mpr ⟨hv, by simp [Entry.removable, hstill, hcls]⟩
    obtain ⟨w, hw⟩ := exists_newest (List.ne_nil_of_mem hremovable)
    rw [takeIn_removes q same f n hsame (by omega) hw]
    exact ⟨Entry.new f n _, mem_insertEntry.mpr (.inl rfl), rfl⟩

variable (s : State) (p : PortId)

@[simp] theorem setRelayQueue_relayQueue (q : Queue) : (s.setRelayQueue p q).relayQueue p = q := by cases p <;> rfl

@[simp] theorem setRelayQueue_dropFlag (q : Queue) : (s.setRelayQueue p q).dropFlag p = s.dropFlag p := by cases p <;> rfl

@[simp] theorem setRelayQueue_loader (q : Queue) : (s.setRelayQueue p q).loader = s.loader := by cases p <;> rfl

@[simp] theorem setRelayQueue_cfg (q : Queue) : (s.setRelayQueue p q).cfg = s.cfg := by cases p <;> rfl

@[simp] theorem setDropFlag_relayQueue : (setDropFlag p s).relayQueue p = s.relayQueue p := by cases p <;> rfl

@[simp] theorem setDropFlag_dropFlag : (setDropFlag p s).dropFlag p = true := by cases p <;> rfl

@[simp] theorem setDropFlag_loader : (setDropFlag p s).loader = s.loader := by cases p <;> rfl

@[simp] theorem setDropFlag_cfg : (setDropFlag p s).cfg = s.cfg := by cases p <;> rfl

/-- The relay queues and the drop flags are the Relay Unit's own. -/
theorem relayQueue_congr {s t : State} (h : t.relay = s.relay) (p : PortId) : t.relayQueue p = s.relayQueue p := by
  unfold State.relayQueue; rw [h]

theorem dropFlag_congr {s t : State} (h : t.relay = s.relay) (p : PortId) : t.dropFlag p = s.dropFlag p := by
  unfold State.dropFlag; rw [h]

@[simp] theorem latchDrop_relayQueue : (latchDrop p s).relayQueue p = s.relayQueue p := by
  unfold latchDrop
  split
  · rfl
  · rw [relayQueue_congr (raise_relay _ _), setDropFlag_relayQueue]

@[simp] theorem latchDrop_cfg : (latchDrop p s).cfg = s.cfg := by
  unfold latchDrop; split <;> simp

/-- R29: after a loss the drop flag of its direction is set. -/
@[simp] theorem latchDrop_dropFlag : (latchDrop p s).dropFlag p = true := by
  unfold latchDrop
  split
  · assumption
  · rw [dropFlag_congr (raise_relay _ _), setDropFlag_dropFlag]

/-- R29, Table 10-2: the latching of a flag that was clear raises RELAY DROP. -/
theorem latchDrop_relayDrop (hw : s.working = true) (hf : s.dropFlag p = false) :
    (latchDrop p s).isPending .relayDrop = true := by
  unfold latchDrop
  rw [if_neg (by simp [hf])]
  refine isPending_raise_self _ _ ?_
  unfold State.working State.phase at hw ⊢
  rwa [setDropFlag_loader]

/-- R26 to R28: the queue that feeds the port is what the copy put to it makes of it. -/
theorem placeCopy_relayQueue (f : Frame) :
    (placeCopy p f s).relayQueue p = ((s.relayQueue p).takeIn (sameRelayed f) f 0).1 := by
  unfold placeCopy; dsimp only; split <;> simp

@[simp] theorem placeCopy_cfg (f : Frame) : (placeCopy p f s).cfg = s.cfg := by
  unfold placeCopy; dsimp only; split <;> simp

section
variable {s p} {f : Frame}

theorem placeCopy_of_loss (h : ((s.relayQueue p).takeIn (sameRelayed f) f 0).2 = true) :
    placeCopy p f s = latchDrop p (s.setRelayQueue p ((s.relayQueue p).takeIn (sameRelayed f) f 0).1) := by
  unfold placeCopy; exact if_pos h

/-- R28, R29: a copy dropped, or an entry given up for it, leaves the drop flag set. -/
theorem placeCopy_dropFlag (h : ((s.relayQueue p).takeIn (sameRelayed f) f 0).2 = true) :
    (placeCopy p f s).dropFlag p = true := by
  rw [placeCopy_of_loss h, latchDrop_dropFlag]

/-- R29: a loss that finds the drop flag clear raises RELAY DROP. -/
theorem placeCopy_relayDrop (h : ((s.relayQueue p).takeIn (sameRelayed f) f 0).2 = true) (hw : s.working = true)
    (hf : s.dropFlag p = false) : (placeCopy p f s).isPending .relayDrop = true := by
  rw [placeCopy_of_loss h]
  exact latchDrop_relayDrop _ p (by simpa [State.working, State.phase] using hw) (by simpa using hf)

end

/-! The Relay Unit takes a frame (R22 to R25) -/

/-- Table 2-1: the downward forwarding set, as a proposition. -/
def ForwardedDown (reach : WinderSet) : Payload → Prop
  | .halt .. => True
  | .position r => winderIn reach r.winder = true
  | .winding r => winderIn reach r.winder = true
  | .announce (.drum _) _ _ => True
  | _ => False

theorem forwardedDown_iff (reach : WinderSet) (p : Payload) : forwardedDown reach p = true ↔ ForwardedDown reach p := by
  cases p with
  | announce body seg dig => cases body <;> simp [forwardedDown, ForwardedDown]
  | _ => simp [forwardedDown, ForwardedDown]

/-- R22, R23: every frame that arrives on Port B goes upward, and the frames of Table 2-1 that arrive on Port A downward. -/
theorem inForwardingSet_iff (h : Heading) (p : Payload) :
    s.inForwardingSet h.port (frameOf h p) = true ↔ h.port = .b ∨ ForwardedDown s.cfg.reach p := by
  cases hport : h.port with
  | a => simp [State.inForwardingSet, frameOf, forwardedDown_iff]
  | b => simp [State.inForwardingSet]

section
variable {s p} {f : Frame}

/-- R24: below three hops a repeater places a copy in the relay queue of the far port. -/
theorem relayFrame_places (hrep : s.cfg.repeater = true) (hphase : s.phase = .listen ∨ s.phase = .run)
    (hset : s.inForwardingSet p f = true) (hhop : f.hop < 3) :
    relayFrame p f s = placeCopy (farPort p) (Frame.forwarded f) s := by
  unfold relayFrame
  rw [if_pos (by simpa [hrep, hset] using hphase), if_pos hhop]

/-- R25: at three hops a repeater raises HOP DROP and places nothing. -/
theorem relayFrame_drops (hrep : s.cfg.repeater = true) (hphase : s.phase = .listen ∨ s.phase = .run)
    (hset : s.inForwardingSet p f = true) (hhop : f.hop = 3) : relayFrame p f s = raise .hopDrop s := by
  unfold relayFrame
  rw [if_pos (by simpa [hrep, hset] using hphase), if_neg (by simp [hhop])]

/-- R23: the Relay Unit leaves alone a frame outside the forwarding set. -/
theorem relayFrame_ignores (hset : ¬s.inForwardingSet p f = true) : relayFrame p f s = s := by
  unfold relayFrame
  exact if_neg (by simp [hset])

/-- R13: a frame taken is relayed, and then delivered to the station's own blocks. -/
theorem exec_taken {h : Heading} {p : Payload} (ht : Taken h p s) :
    exec (takenCommand h p) s = .next (finish s (deliverFrame (frameOf h p) (s.relayed h p))) := by
  have hcommand : exec (takenCommand h p) s = frameTaken h p s := by
    cases p with
    | signal w d c word auto => cases word <;> rfl
    | call w c word => cases word <;> rfl
    | _ => rfl
  have horigin : ¬(frameOf h p).origin = s.cfg.station := ht.number
  rw [hcommand, frameTaken, act, if_pos ht.live, receiveFrame, if_pos ht.uses, if_pos ht.format, receiveGood]
  simp only [ht.foreign, ht.working, horigin, Bool.not_true, Bool.false_eq_true, if_false]
  rfl

end

end Sys2Proof.Machine
end

