-- ==== Sys2Proof/Proofs/RelayStands.lean ====
section
/-! PROOFS. Sys2Proof/Proofs/RelayStands.lean: no block to which a frame is delivered (Table 1-5) touches the Relay Unit, its
configuration or its two events. -/
namespace Sys2Proof.Machine

/-- `t` has the Relay Unit and the configuration of `s`, and RELAY DROP and HOP DROP are pending in both or in none. -/
structure RelayStands (s t : State) : Prop where
  relay     : t.relay = s.relay
  cfg       : t.cfg = s.cfg
  relayDrop : t.isPending .relayDrop = s.isPending .relayDrop
  hopDrop   : t.isPending .hopDrop = s.isPending .hopDrop

namespace RelayStands

variable {s t u : State}

theorem refl (s : State) : RelayStands s s := ⟨rfl, rfl, rfl, rfl⟩

theorem trans (h : RelayStands s t) (h' : RelayStands t u) : RelayStands s u :=
  ⟨h'.relay.trans h.relay, h'.cfg.trans h.cfg, h'.relayDrop.trans h.relayDrop, h'.hopDrop.trans h.hopDrop⟩

/-- A change of a block other than the Relay Unit, the configuration and the pending events. -/
theorem of_eq (hrelay : t.relay = s.relay) (hcfg : t.cfg = s.cfg)
    (hevents : t.panel.pendingEvents = s.panel.pendingEvents) : RelayStands s t := by
  refine ⟨hrelay, hcfg, ?_, ?_⟩ <;> unfold State.isPending <;> rw [hevents]

/-- An operation on each of two branches. -/
theorem ite {c : Prop} [Decidable c] (h : RelayStands s t) (h' : RelayStands s u) :
    RelayStands s (if c then t else u) := by
  split
  · exact h
  · exact h'

/-- An operation where a condition holds, and nothing otherwise. -/
theorem when {c : Prop} [Decidable c] (h : RelayStands s t) : RelayStands s (if c then t else s) := ite h (refl s)

end RelayStands

variable (s : State)

/-! The shared operations -/

theorem raise_relayStands (e : Event) (hr : e.code ≠ Event.relayDrop.code := by decide)
    (hh : e.code ≠ Event.hopDrop.code := by decide) : RelayStands s (raise e s) :=
  ⟨raise_relay s e, raise_cfg s e, isPending_raise_of_ne s hr, isPending_raise_of_ne s hh⟩

theorem leave_relayStands (e : Event) (hr : e.code ≠ Event.relayDrop.code := by decide)
    (hh : e.code ≠ Event.hopDrop.code := by decide) : RelayStands s (leave e s) :=
  ⟨leave_relay s e, leave_cfg s e, isPending_leave_of_ne s hr, isPending_leave_of_ne s hh⟩

theorem originate_relayStands (p : Payload) : RelayStands s (originate p s) :=
  ⟨originate_relay s p, originate_cfg s p, isPending_originate_of_ne s p (by decide),
    isPending_originate_of_ne s p (by decide)⟩

theorem setTrip_relayStands (x : TripUnit) : RelayStands s (s.setTrip x) := .of_eq rfl rfl rfl
theorem setRecord_relayStands (x : TripRecord) : RelayStands s (s.setRecord x) := .of_eq rfl rfl rfl
theorem setSafety_relayStands (x : SafetyUnit) : RelayStands s (s.setSafety x) := .of_eq rfl rfl rfl
theorem setDepth_relayStands (x : DepthUnit) : RelayStands s (s.setDepth x) := .of_eq rfl rfl rfl
theorem setSeq_relayStands (x : Sequencer) : RelayStands s (s.setSeq x) := .of_eq rfl rfl rfl
theorem setSignal_relayStands (x : SignalRecord) : RelayStands s (setSignal x s) := .of_eq rfl rfl rfl
theorem setCall_relayStands (w : Winder) (x : CallRecord) : RelayStands s (setCall w x s) := .of_eq rfl rfl rfl
theorem setGateRecord_relayStands (w : Winder) (g : GateRecord) : RelayStands s (setGate w g s) := .of_eq rfl rfl rfl
theorem setNotRegistered_relayStands (ws : WinderSet) : RelayStands s (setNotRegistered ws s) := .of_eq rfl rfl rfl
theorem setEntry_relayStands (n : Station) (e : StationEntry) : RelayStands s (setEntry n e s) := .of_eq rfl rfl rfl
theorem setHoldSet_relayStands (t : StationSet) : RelayStands s (setHoldSet t s) := .of_eq rfl rfl rfl

/-! The trip record and the cause list -/

theorem partialEvaluation_relayStands : RelayStands s (partialEvaluation s) := by
  obtain ⟨x, h⟩ := partialEvaluation_eq s
  rw [h]
  exact .of_eq rfl rfl rfl

theorem takePending_relayStands : RelayStands s (takePending s) := setDepth_relayStands s _

theorem reportTrip_relayStands (d : Depth) (o : WindingOutcome) : RelayStands s (reportTrip d o s) := by
  rcases reportTrip_originates s d o with h | ⟨p, h⟩ <;> rw [h]
  · exact .refl s
  · exact originate_relayStands s p

theorem closeTrip_relayStands (r : TripResult) : RelayStands s (closeTrip r s) := by
  unfold closeTrip
  have hclosed : ∀ x, RelayStands s (takePending (partialEvaluation (s.setTrip x))) := fun x =>
    (setTrip_relayStands s x).trans ((partialEvaluation_relayStands _).trans (takePending_relayStands _))
  refine RelayStands.trans (.ite ?_ <| hclosed _) (reportTrip_relayStands _ _ _)
  exact (hclosed _).trans (raise_relayStands _ .tripExpired)

theorem enterStoppingOn_relayStands (x : SampleSet) : RelayStands s (enterStoppingOn x s) := by
  unfold enterStoppingOn
  split
  · exact .refl s
  · exact (setRecord_relayStands s _).trans ((partialEvaluation_relayStands _).trans (reportTrip_relayStands _ _ _))

theorem enterStopping_relayStands : RelayStands s (enterStopping s) := enterStoppingOn_relayStands s _

theorem tripTold_relayStands : RelayStands s (tripTold s) := .when (closeTrip_relayStands s _)

theorem deliver_relayStands (c : Cause) : RelayStands s (deliver c s) := by
  unfold deliver
  refine .ite (.refl s) <| .ite ?_ <| .ite (.refl s) ?_
  · refine RelayStands.trans (.ite ?_ <| setSafety_relayStands s _) (tripTold_relayStands _)
    exact (setSafety_relayStands s _).trans (raise_relayStands _ .safetyTrip)
  · exact (setSafety_relayStands s _).trans (raise_relayStands _ .causesLost)

theorem evaluatePath_relayStands : RelayStands s (evaluatePath s) := by
  unfold evaluatePath evaluatePathOn
  split
  · exact .refl s
  · dsimp only
    split
    · exact .when (closeTrip_relayStands s _)
    · exact .ite (deliver_relayStands s _) <|
        .when (enterStoppingOn_relayStands s _)
    · exact .when (deliver_relayStands s _)
    · exact .refl s

/-! What a drum takes (Table 1-5, the DRUM column) -/

theorem arm_relayStands (n : TripNumber) (d : TripDetails) : RelayStands s (arm n d s) := by
  unfold arm
  exact (setTrip_relayStands s _).trans ((partialEvaluation_relayStands _).trans (reportTrip_relayStands _ _ _))

theorem takeGo_relayStands (origin dest : Station) (cls : TripClass) (auto : Bool) :
    RelayStands s (takeGo origin dest cls auto s) := by
  unfold takeGo
  split
  · exact originate_relayStands s _
  · exact .ite (arm_relayStands s _ _) <|
      (leave_relayStands s .tripExpired).trans (arm_relayStands _ _ _)

theorem takeStop_relayStands : RelayStands s (takeStop s) := by
  unfold takeStop
  split
  · exact closeTrip_relayStands s _
  · exact enterStopping_relayStands s
  · exact .refl s

theorem takeCancel_relayStands (origin : Station) : RelayStands s (takeCancel origin s) := by
  unfold takeCancel
  split
  · exact .when (closeTrip_relayStands s _)
  · exact .when (enterStopping_relayStands s)
  · exact closeTrip_relayStands s _
  · exact .refl s

theorem takeSignal_relayStands (origin dest : Station) (cls : TripClass) (word : SignalWord) (auto : Bool) :
    RelayStands s (takeSignal origin dest cls word auto s) := by
  cases word with
  | go => exact takeGo_relayStands s origin dest cls auto
  | stop => exact takeStop_relayStands s
  | cancel => exact takeCancel_relayStands s origin

theorem takeCall_relayStands (origin : Station) (cls : TripClass) (word : CallWord) :
    RelayStands s (takeCall origin cls word s) := by
  cases word with
  | register => exact setTrip_relayStands s _
  | cancel => exact setTrip_relayStands s _

theorem takeMark_relayStands (surveyed : Depth) : RelayStands s (takeMark surveyed s) := by
  unfold takeMark
  split
  · exact .refl s
  · refine .ite (.refl s) <| .ite (setDepth_relayStands s _) <|
      .ite ?_ <| .when (setDepth_relayStands s _)
    exact (setDepth_relayStands s _).trans (deliver_relayStands _ _)

theorem holdJoined_relayStands : RelayStands s (holdJoined s) := by
  unfold holdJoined
  refine .ite (.refl s) ?_
  split
  · exact closeTrip_relayStands s _
  · exact enterStopping_relayStands s
  · exact .refl s

theorem joinHold_relayStands (n : Station) : RelayStands s (joinHold n s) := by
  unfold joinHold
  refine RelayStands.trans (.ite ?_ <| setHoldSet_relayStands s _) (holdJoined_relayStands _)
  exact (setHoldSet_relayStands s _).trans (raise_relayStands _ .hold)

theorem judgeHold_relayStands (n : Station) (hold : Bool) : RelayStands s (judgeHold n hold s) :=
  .ite (.ite (.refl s) <| joinHold_relayStands s n) <|
    .when (setHoldSet_relayStands s _)

theorem judgeEstop_relayStands (n : Station) : RelayStands s (judgeEstop n s) := .when (deliver_relayStands s _)

theorem takeAssent_relayStands (n : Station) (r : AssentReport) : RelayStands s (takeAssent n r s) :=
  (setEntry_relayStands s _ _).trans <| (judgeHold_relayStands _ _ _).trans <|
    (judgeEstop_relayStands _ _).trans (evaluatePath_relayStands _)

theorem takeAnnounce_relayStands (n : Station) (body : AnnounceBody) : RelayStands s (takeAnnounce n body s) :=
  (setEntry_relayStands s _ _).trans (evaluatePath_relayStands _)

/-! The Loading Sequencer -/

theorem originateGo_relayStands : RelayStands s (originateGo s) :=
  (originate_relayStands s _).trans (setSeq_relayStands _ _)

theorem judgeGo_relayStands : RelayStands s (judgeGo s) := by
  have hload : RelayStands s (judgeLoadGo s) :=
    .when ((originateGo_relayStands s).trans (setSeq_relayStands _ _))
  exact hload.trans (.when ((originateGo_relayStands _).trans (setSeq_relayStands _ _)))

theorem autoEnds_relayStands : RelayStands s (autoEnds s) :=
  (setSeq_relayStands s _).trans <|
    .when (.ite (setSeq_relayStands _ _) <| setSeq_relayStands _ _)

theorem autoReport_relayStands (r : WindingReport) : RelayStands s (autoReport r s) := by
  unfold autoReport
  split
  · exact autoEnds_relayStands s
  · exact .refl s
  · exact autoEnds_relayStands s
  · exact .when (autoEnds_relayStands s)
  · exact .refl s
  · exact .when (setSeq_relayStands s _)
  · exact setSeq_relayStands s _
  · exact setSeq_relayStands s _

theorem judgeDwell_relayStands : RelayStands s (judgeDwell s) := .when (setSeq_relayStands s _)

theorem arrivalReport_relayStands (r : WindingReport) : RelayStands s (arrivalReport r s) :=
  .when (.ite ((setSeq_relayStands s _).trans (judgeDwell_relayStands _)) <|
    .when (setSeq_relayStands s _))

theorem sequencerReport_relayStands (r : WindingReport) : RelayStands s (sequencerReport r s) :=
  .when (.ite ((arrivalReport_relayStands s r).trans (autoReport_relayStands _ r)) <|
    arrivalReport_relayStands s r)

theorem autoPosition_relayStands (r : PositionReport) : RelayStands s (autoPosition r s) := .when (autoEnds_relayStands s)

theorem judgeDischarge_relayStands : RelayStands s (judgeDischarge s) := .when (setSeq_relayStands s _)

theorem enterWaitSkip_relayStands : RelayStands s (enterWaitSkip s) :=
  (setSeq_relayStands s _).trans (judgeDischarge_relayStands _)

theorem doorReadsClosed_relayStands : RelayStands s (doorReadsClosed s) :=
  .when (.ite (setSeq_relayStands s _) <|
    (setSeq_relayStands s _).trans (enterWaitSkip_relayStands _))

theorem endDischarge_relayStands (complete : Bool) : RelayStands s (endDischarge complete s) :=
  .when (.ite ((setSeq_relayStands s _).trans (doorReadsClosed_relayStands _)) <|
    setSeq_relayStands s _)

theorem judgeSkipMoved_relayStands : RelayStands s (judgeSkipMoved s) :=
  .ite ((setSeq_relayStands s _).trans <| (originate_relayStands _ _).trans (raise_relayStands _ .skipMoved)) <|
    setSeq_relayStands s _

theorem skipDeparts_relayStands : RelayStands s (skipDeparts s) :=
  (setSeq_relayStands s _).trans (enterWaitSkip_relayStands _)

theorem skipRecordChange_relayStands : RelayStands s (skipRecordChange s) := by
  unfold skipRecordChange
  refine .when (.ite ?_ <| .when ?_)
  · refine RelayStands.trans ?_ (judgeSkipMoved_relayStands _)
    split
    · exact judgeDischarge_relayStands s
    · exact .ite (.refl s) <| endDischarge_relayStands s _
    · exact .refl s
    · exact .when (skipDeparts_relayStands s)
    · exact .when (skipDeparts_relayStands s)
  · split
    · exact judgeDwell_relayStands s
    · exact .when (setSeq_relayStands s _)
    · exact .when (setSeq_relayStands s _)
    · exact .when (setSeq_relayStands s _)

/-! The Gate and Key Unit -/

theorem judgeOpen_relayStands (w : Winder) : RelayStands s (judgeOpen w s) :=
  .when (.ite (setGateRecord_relayStands s w _) <|
    .when (setGateRecord_relayStands s w _))

theorem conditionJudged_relayStands (was : Bool) (w : Winder) : RelayStands s (conditionJudged was w s) := by
  unfold conditionJudged
  refine .when ?_
  split
  · exact .when (setGateRecord_relayStands s w _)
  · exact .ite (.refl s) <| setGateRecord_relayStands s w _
  · exact judgeOpen_relayStands s w
  · exact .refl s

theorem signalRefused_relayStands (c : Option RefusalCause) : RelayStands s (signalRefused c s) := by
  unfold signalRefused
  refine RelayStands.trans ?_ (raise_relayStands _ .refused)
  exact .of_eq rfl rfl rfl

theorem signalBecomes_relayStands (st : SignalStatus) (n : Option TripNumber) : RelayStands s (signalBecomes st n s) :=
  setSignal_relayStands s _

theorem signalExpires_relayStands (n : TripNumber) : RelayStands s (signalExpires n s) :=
  (signalBecomes_relayStands s _ _).trans (raise_relayStands _ .expired)

theorem matchingReport_relayStands (r : WindingReport) : RelayStands s (matchingReport r s) := by
  have hends : ∀ (c : Bool), RelayStands s
      (if c = true then signalExpires r.number s else signalBecomes .idle (some r.number) s) := fun c =>
    .ite (signalExpires_relayStands s _) <| signalBecomes_relayStands s _ _
  unfold matchingReport
  dsimp only
  split
  · exact signalRefused_relayStands s _
  · split
    · exact hends _
    · exact hends _
    · exact .when (hends _)
    · exact .when (signalExpires_relayStands s _)
    · exact .refl s
    · exact .refl s
  · exact signalBecomes_relayStands s _ _

theorem signalReport_relayStands (r : WindingReport) : RelayStands s (signalReport r s) :=
  .when (.ite (matchingReport_relayStands s r) <|
    .when (signalBecomes_relayStands s _ _))

theorem signalPosition_relayStands (r : PositionReport) : RelayStands s (signalPosition r s) :=
  .when (signalBecomes_relayStands s _ _)

theorem callPosition_relayStands (r : PositionReport) : RelayStands s (callPosition r s) := by
  unfold callPosition
  dsimp only
  split
  · exact .refl s
  · refine .ite (setCall_relayStands s _ _) <| .ite (setCall_relayStands s _ _) ?_
    exact (setCall_relayStands s _ _).trans <| (setNotRegistered_relayStands _ _).trans
      (raise_relayStands _ .callNotRegistered)
  · exact .ite (.refl s) <| setCall_relayStands s _ _
  · exact .when ((setCall_relayStands s _ _).trans (setNotRegistered_relayStands _ _))

/-! The Picture Store's POSITION, and a frame's delivery -/

theorem recordChange_relayStands (was : Bool) (w : Winder) : RelayStands s (recordChange was w s) := by
  unfold recordChange
  refine RelayStands.trans (.ite ?_ <| conditionJudged_relayStands s was w) (judgeGo_relayStands _)
  exact (conditionJudged_relayStands s was w).trans (skipRecordChange_relayStands _)

theorem writeRecords_relayStands (w : Winder) (x : Option Carrying) (y : Option Counterweight) :
    RelayStands s (writeRecords w x y s) := .of_eq rfl rfl rfl

theorem acceptPosition_relayStands (r : PositionReport) : RelayStands s (acceptPosition r s) := by
  have hframe : ∀ u : State,
      RelayStands u (if u.hasGates then autoPosition r (callPosition r (signalPosition r u)) else u) := fun u =>
    .when ((signalPosition_relayStands u r).trans <| (callPosition_relayStands _ r).trans
      (autoPosition_relayStands _ r))
  exact (writeRecords_relayStands s _ _ _).trans <| (recordChange_relayStands _ _ _).trans (hframe _)

theorem takePosition_relayStands (r : PositionReport) : RelayStands s (takePosition r s) :=
  .when (acceptPosition_relayStands s r)

theorem deliverToDrum_relayStands (f : Frame) : RelayStands s (deliverToDrum f s) := by
  unfold deliverToDrum
  split
  · exact .when (deliver_relayStands s _)
  · exact .when (takeSignal_relayStands s _ _ _ _ _)
  · exact .refl s
  · exact takePosition_relayStands s _
  · exact takeAssent_relayStands s _ _
  · exact .when (takeMark_relayStands s _)
  · exact .when (takeCall_relayStands s _ _ _)
  · exact takeAnnounce_relayStands s _ _

theorem deliverToLanding_relayStands (f : Frame) : RelayStands s (deliverToLanding f s) := by
  unfold deliverToLanding
  split
  · exact (signalReport_relayStands s _).trans (sequencerReport_relayStands _ _)
  · exact takePosition_relayStands s _
  · exact .refl s

/-- Table 1-5: no block of the station's role touches the Relay Unit or its events. -/
theorem deliverFrame_relayStands (f : Frame) : RelayStands s (deliverFrame f s) :=
  .ite (deliverToDrum_relayStands s f) <|
    .when (deliverToLanding_relayStands s f)

end Sys2Proof.Machine
end

