-- ==== Sys2Proof/Proofs/RepeaterForwards.lean ====
section
/-! PROOFS. Sys2Proof/Proofs/RepeaterForwards.lean: a repeater forwards a frame of the forwarding set (R22 to R25, R28, R29). -/
namespace Sys2Proof.Machine

/-- `t` has the Relay Unit of `u`, and its events are pending as in `u`: HOP DROP always, RELAY DROP while a drop flag is set. -/
structure RelayedAlone (u t : State) : Prop where
  relay     : t.relay = u.relay
  hopDrop   : t.isPending .hopDrop = u.isPending .hopDrop
  relayDrop : u.relayDrop = true → t.isPending .relayDrop = u.isPending .relayDrop

/-- The delivery and the end of the step come after the Relay Unit, and leave it alone. -/
theorem finish_deliverFrame_relayedAlone (before : State) (f : Frame) (u : State) :
    RelayedAlone u (finish before (deliverFrame f u)) := by
  have hdelivered := deliverFrame_relayStands u f
  have hends := finish_ends before (deliverFrame f u)
  refine ⟨hends.relay.trans hdelivered.relay, hends.hopDrop.trans hdelivered.hopDrop, fun hd => ?_⟩
  have hflag : (deliverFrame f u).relayDrop = true := by
    unfold State.relayDrop at hd ⊢
    rwa [hdelivered.cfg, hdelivered.relay]
  exact (hends.relayDrop hflag).trans hdelivered.relayDrop

/-- R29: a repeater with a drop flag set shows RELAY DROP. -/
theorem relayDrop_of_dropFlag {s : State} {p : PortId} (hrep : s.cfg.repeater = true) (h : s.dropFlag p = true) :
    s.relayDrop = true := by
  cases p with
  | a => simp [State.relayDrop, hrep, show s.relay.upDrop = true from h]
  | b => simp [State.relayDrop, hrep, show s.relay.downDrop = true from h]

/-- Settles O21. The Relay Unit acts first, by the four cases of R22 to R25; the delivery and the end of the step that follow
leave it and its events alone (`RelayedAlone`). -/
theorem repeaterForwards : Obligations.RepeaterForwards := by
  unfold Obligations.RepeaterForwards
  intro s h p ht hrep hphase
  have halone := finish_deliverFrame_relayedAlone s (frameOf h p) (s.relayed h p)
  refine ⟨_, exec_taken ht, fun hin => ⟨fun hhop => ?_, fun hhop => ?_⟩, fun hout => ?_⟩
  · have hplaced : s.relayed h p = placeCopy (farPort h.port) (Frame.forwarded (frameOf h p)) s :=
      relayFrame_places hrep hphase ((inForwardingSet_iff s h p).mpr hin) hhop
    rw [hplaced] at halone ⊢
    have hqueue := (relayQueue_congr halone.relay (farPort h.port)).trans (placeCopy_relayQueue s _ _)
    refine ⟨fun hplace => ?_, fun hloss => ?_, hqueue⟩
    · obtain ⟨e, he, hframe⟩ := takeIn_holds_of_place _ (sameRelayed _) (Frame.forwarded (frameOf h p)) 0 hplace
      refine ⟨e, hqueue ▸ he, hframe, rfl, ?_⟩
      rw [Entry.gap, hframe]
      rfl
    · have hflag := placeCopy_dropFlag hloss
      have hshown := halone.relayDrop (relayDrop_of_dropFlag (by rwa [placeCopy_cfg]) hflag)
      exact ⟨(dropFlag_congr halone.relay _).trans hflag, fun hclear =>
        hshown.trans (placeCopy_relayDrop hloss ht.working hclear)⟩
  · have hdropped : s.relayed h p = raise .hopDrop s :=
      relayFrame_drops hrep hphase ((inForwardingSet_iff s h p).mpr hin) hhop
    rw [hdropped] at halone ⊢
    exact ⟨halone.relay.trans (raise_relay s _), halone.hopDrop.trans (isPending_raise_self s _ ht.working)⟩
  · have hignored : s.relayed h p = s :=
      relayFrame_ignores (fun hin => hout ((inForwardingSet_iff s h p).mp hin))
    rw [hignored] at halone ⊢
    exact ⟨halone.relay, fun hclear => halone.hopDrop.trans hclear⟩

end Sys2Proof.Machine
end

