-- ==== Sys2Proof/Proofs/CauseDelivery.lean ====
section
/-! PROOFS. Sys2Proof/Proofs/CauseDelivery.lean: a cause delivered at any state is recorded, stood or lost as `Delivered` has it
(R163, R164), and what a delivery leaves of the trip. -/
namespace Sys2Proof.Machine

/-! What a partial evaluation, a report and a closing leave of the pending event set -/

@[simp] theorem partialEvaluation_panel (s : State) : (partialEvaluation s).panel = s.panel := by
  obtain ⟨x, hx⟩ := partialEvaluation_eq s
  rw [hx]
  rfl

/-- A report raises no event but TX OVERFLOW. -/
theorem isPending_reportTrip_of_ne (s : State) (d : Depth) (o : WindingOutcome) {e : Event}
    (h : Event.txOverflow.code ≠ e.code) : (reportTrip d o s).isPending e = s.isPending e := by
  rcases reportTrip_originates s d o with hr | ⟨p, hr⟩ <;> rw [hr]
  exact isPending_originate_of_ne s p h

/-- R113: a closing raises no event but TRIP EXPIRED and TX OVERFLOW. -/
theorem isPending_closeTrip_of_ne (s : State) (r : TripResult) {e : Event} (hx : Event.tripExpired.code ≠ e.code)
    (ho : Event.txOverflow.code ≠ e.code) : (closeTrip r s).isPending e = s.isPending e := by
  have hpanel : ∀ x : TripUnit, (takePending (partialEvaluation (s.setTrip x))).isPending e = s.isPending e := fun x => by
    unfold State.isPending takePending
    simp
  unfold closeTrip
  dsimp only
  rw [isPending_reportTrip_of_ne _ _ _ ho]
  split
  · rw [isPending_raise_of_ne _ hx, hpanel]
  · exact hpanel _

/-! The cause list takes a cause (R164, R114) -/

/-- R164: a cause is listed exactly if a record of its kind and origin is on the list. -/
theorem listed_iff (c : Cause) (l : List CauseRecord) :
    listed c l = true ↔ ∃ r ∈ l, r.kind = c.kind ∧ r.origin = c.origin := by
  simp [listed]

/-- R164: a cause of a kind and origin that the list holds changes nothing. -/
theorem deliver_of_listed {s : State} {c : Cause} (h : listed c s.safety.causes = true) : deliver c s = s := by
  unfold deliver
  rw [if_pos h]

/-- R164, Table 10-2: the state once a cause has joined the list and, as its first, raised SAFETY TRIP. -/
def recordCause (c : Cause) (s : State) : State :=
  let t := s.setSafety { s.safety with causes := s.safety.causes ++ [causeRecord c s] }
  if s.safety.causes.isEmpty then raise .safetyTrip t else t

/-- R164, R114: a cause that the list does not hold, and has room for, is recorded, and the recording closes an open trip. -/
theorem deliver_of_room {s : State} {c : Cause} (h : ¬listed c s.safety.causes = true)
    (hroom : s.safety.causes.length < 8) : deliver c s = tripTold (recordCause c s) := by
  unfold deliver
  rw [if_neg h]
  exact if_pos hroom

/-- R164, R165: a cause that a full list does not hold sets CAUSES LOST. -/
theorem deliver_of_full {s : State} {c : Cause} (h : ¬listed c s.safety.causes = true) (hfull : 8 ≤ s.safety.causes.length) :
    deliver c s =
      if s.safety.causesLost then s else raise .causesLost (s.setSafety { s.safety with causesLost := true }) := by
  unfold deliver
  rw [if_neg h]
  exact if_neg (Nat.not_lt.mpr hfull)

@[simp] theorem recordCause_trip (c : Cause) (s : State) : (recordCause c s).trip = s.trip := by
  unfold recordCause; dsimp only; split <;> simp

@[simp] theorem tripTold_safety (s : State) : (tripTold s).safety = s.safety := by
  unfold tripTold; split <;> simp [closeTrip_safety]

/-- R93: a trip that is not open is IDLE. -/
theorem tripState_of_not_open {s : State} (h : ¬s.tripOpen = true) : s.tripState = .idle := by
  unfold State.tripOpen at h
  cases hs : s.tripState with
  | idle => rfl
  | armed | running | stopping | suspended => exact absurd rfl (hs ▸ h)

/-- R114: after a recording no trip is open. -/
theorem tripTold_tripState (s : State) : (tripTold s).tripState = .idle := by
  unfold tripTold
  split
  · unfold State.tripState
    rw [closeTrip_trip]
    rfl
  · exact tripState_of_not_open ‹_›

theorem isPending_tripTold_of_ne (s : State) {e : Event} (hx : Event.tripExpired.code ≠ e.code)
    (ho : Event.txOverflow.code ≠ e.code) : (tripTold s).isPending e = s.isPending e := by
  unfold tripTold
  split
  · exact isPending_closeTrip_of_ne s _ hx ho
  · rfl

/-- Table 10-2: the first record raises SAFETY TRIP. -/
theorem recordCause_safetyTrip {s : State} (c : Cause) (hw : s.working = true) (he : s.safety.causes = []) :
    (recordCause c s).isPending .safetyTrip = true := by
  unfold recordCause
  dsimp only
  rw [if_pos (by rw [he]; rfl)]
  exact isPending_raise_self _ _ hw

/-- R163: the list once a cause has joined it. -/
theorem recordCause_causes (c : Cause) (s : State) :
    (recordCause c s).safety.causes = s.safety.causes ++ [causeRecord c s] := by
  unfold recordCause; dsimp only; split <;> simp

theorem brakeTrip_of_causes {s : State} (h : s.safety.causes ≠ []) : s.brakeTrip = true := by
  unfold State.brakeTrip
  simp [h]

/-- R164: a delivery of any cause at any state is as `Delivered` has it. -/
theorem deliver_delivered (c : Cause) (s : State) : Delivered c.kind c.origin s (deliver c s) where
  stood h := by rw [deliver_of_listed ((listed_iff c _).mpr h)]
  recorded h hroom := by
    rw [deliver_of_room (mt (listed_iff c _).mp h) hroom]
    have hcauses : (tripTold (recordCause c s)).safety.causes = s.safety.causes ++ [causeRecord c s] := by
      rw [tripTold_safety, recordCause_causes]
    refine ⟨hcauses, brakeTrip_of_causes (by rw [hcauses]; simp), tripTold_tripState _, fun hw he => ?_⟩
    rw [isPending_tripTold_of_ne _ (by decide) (by decide)]
    exact recordCause_safetyTrip c hw he
  lost h hfull := by
    rw [deliver_of_full (mt (listed_iff c _).mp h) hfull.ge]
    split
    · rename_i hlost
      exact ⟨rfl, hlost, fun _ hclear => by simp [hclear] at hlost⟩
    · exact ⟨by simp, by simp, fun hw _ => isPending_raise_self _ _ hw⟩

/-- R115: a delivery leaves the unauthorised-motion indication as it was. -/
@[simp] theorem deliver_unauthorised (c : Cause) (s : State) : (deliver c s).trip.unauthorised = s.trip.unauthorised := by
  by_cases h : listed c s.safety.causes = true
  · rw [deliver_of_listed h]
  by_cases hroom : s.safety.causes.length < 8
  · rw [deliver_of_room h hroom, tripTold]
    split <;> simp [closeTrip_trip]
  · rw [deliver_of_full h (by omega)]
    split <;> simp

/-- A delivery leaves the idle trip idle, for it closes an open trip alone. -/
theorem deliver_tripState_of_idle (c : Cause) {s : State} (h : s.tripState = .idle) : (deliver c s).tripState = .idle := by
  by_cases hl : listed c s.safety.causes = true
  · rw [deliver_of_listed hl, h]
  by_cases hroom : s.safety.causes.length < 8
  · rw [deliver_of_room hl hroom, tripTold_tripState]
  · rw [deliver_of_full hl (by omega)]
    split
    · exact h
    · simpa [State.tripState] using h

end Sys2Proof.Machine
end

