-- ==== Sys2Proof/Proofs/UnauthorisedMotion.lean ====
section
/-! PROOFS. Sys2Proof/Proofs/UnauthorisedMotion.lean: the unauthorised-motion test (R115), and a SAMPLE at an idle drum with no
cause listed. -/
namespace Sys2Proof.Machine

/-! The unauthorised-motion test (R115) -/

/-- R115: the indication is that of the sample, with no trip in motion and no cause listed. -/
theorem unauthorisedNow_iff {s : State} {x : SampleSet} (hx : s.depth.sample = some x) :
    s.unauthorisedNow = true ↔
      (s.tripState = .idle ∨ s.tripState = .suspended) ∧ s.safety.causes = [] ∧ 150 < x.speed.natAbs := by
  simp [State.unauthorisedNow, State.lastSample, hx, and_assoc]

/-- R115: an indication that turns true delivers the cause, with the indication already set. -/
theorem motionTest_of_onset {s : State} (hnow : s.unauthorisedNow = true) (hwas : s.trip.unauthorised = false) :
    motionTest s = deliver (Cause.plain .unauthorisedMotion) (s.setTrip { s.trip with unauthorised := true }) := by
  simp [motionTest, hnow, hwas]

/-- R115: an indication that does not turn true is written, and nothing else changes. -/
theorem motionTest_of_no_onset {s : State} (h : ¬s.unauthorisedNow = true ∨ s.trip.unauthorised = true) :
    motionTest s = s.setTrip { s.trip with unauthorised := s.unauthorisedNow } := by
  unfold motionTest
  dsimp only
  rw [if_neg]
  rcases h with h | h <;> simp [h]

/-- R115: the test leaves the indication as it finds it. -/
theorem motionTest_unauthorised (s : State) : (motionTest s).trip.unauthorised = s.unauthorisedNow := by
  unfold motionTest
  dsimp only
  split <;> simp

/-- R115, R164: an indication that turns true delivers UNAUTHORISED_MOTION: what a delivery reads of the state does not hold the
indication. -/
theorem motionTest_delivered {s : State} (hnow : s.unauthorisedNow = true) (hwas : s.trip.unauthorised = false) :
    Delivered .unauthorisedMotion none s (motionTest s) := by
  rw [motionTest_of_onset hnow hwas]
  have h := deliver_delivered (Cause.plain .unauthorisedMotion) (s.setTrip { s.trip with unauthorised := true })
  exact ⟨h.stood, h.recorded, h.lost⟩

/-- R115, R163: the record of an indication that turns true is the only one on the list. -/
theorem motionTest_causes {s : State} (hnow : s.unauthorisedNow = true) (hwas : s.trip.unauthorised = false)
    (hnone : s.safety.causes = []) :
    (motionTest s).safety.causes = [causeRecord (Cause.plain .unauthorisedMotion) s] := by
  obtain ⟨hcauses, -⟩ := (motionTest_delivered hnow hwas).recorded (by simp [hnone]) (by simp [hnone])
  rw [hcauses, hnone]
  rfl

theorem motionTest_tripState_of_idle {s : State} (h : s.tripState = .idle) : (motionTest s).tripState = .idle := by
  unfold motionTest
  dsimp only
  split
  · exact deliver_tripState_of_idle _ h
  · exact h

theorem motionTest_cfg (s : State) : (motionTest s).cfg = s.cfg := by
  unfold motionTest
  dsimp only
  split
  · exact (deliver_besideTrip _ _).cfg
  · rfl

/-- The indication stands as `on`, and UNAUTHORISED_MOTION is listed exactly if it is true. -/
structure MotionFound (on : Bool) (t : State) : Prop where
  indication : t.trip.unauthorised = on
  listed     : (∃ c ∈ t.safety.causes, c.kind = .unauthorisedMotion) ↔ on = true

/-- What changes neither the indication nor the cause list leaves what the test found. -/
theorem MotionFound.of_eq {on : Bool} {s t : State} (h : MotionFound on s)
    (htrip : t.trip.unauthorised = s.trip.unauthorised) (hsafety : t.safety = s.safety) : MotionFound on t :=
  ⟨htrip.trans h.indication, by rw [hsafety]; exact h.listed⟩

/-- R115: with an empty cause list and the indication false, the test sets the one exactly if it lists the other. -/
theorem motionTest_motionFound {s : State} (hnone : s.safety.causes = []) (hwas : s.trip.unauthorised = false) :
    MotionFound s.unauthorisedNow (motionTest s) := by
  refine ⟨motionTest_unauthorised s, ?_⟩
  by_cases hnow : s.unauthorisedNow = true
  · simp [motionTest_causes hnow hwas hnone, hnow, causeRecord, Cause.plain]
  · simp [motionTest_of_no_onset (.inl hnow), hnone, hnow]

/-! A sample of an idle drum (R55, R75) -/

/-- R88: shaft limits at the ends of the depth range leave no depth outside. -/
theorem outsideShaft_of_widest {c : Params} (htop : c.topLimit = 0) (hbottom : 4194303 ≤ c.bottomLimit) (d : Depth) :
    outsideShaft c d = false := by
  have hd : ¬c.bottomLimit < d.val := by omega
  simp [outsideShaft, htop, hd]

/-- R77: with no trip supervised no supervision depth is overrun. -/
theorem overrun_of_unsupervised {s : State} (h : s.supervised = false) (x : SampleSet) : s.overrun x = false := by
  simp [State.overrun, h]

theorem setEnv_setEnv (s : State) (e e' : Envelope) : (s.setEnv e).setEnv e' = s.setEnv e' := rfl

/-- R75: with no trip supervised and no depth outside the shaft limits, the full evaluation delivers nothing. -/
theorem fullEvaluation_of_unsupervised {s : State} (hsup : s.supervised = false)
    (hin : ∀ d, outsideShaft s.cfg d = false) : ∃ e, fullEvaluation s = s.setEnv e := by
  have hsup' : ∀ e, (s.setEnv e).supervised = false := fun _ => hsup
  have hover : ∀ e x, (s.setEnv e).overrun x = false := fun e => overrun_of_unsupervised (hsup' e)
  refine ⟨{ (clearOverspeed (recompute s)).env with outside := false }, ?_⟩
  simp [fullEvaluation, recompute, clearOverspeed, setEnv_setEnv, hsup', hover, hin, deliverAll]

theorem supervised_of_idle {s : State} (h : s.tripState = .idle) : s.supervised = false := by
  unfold State.supervised
  rw [h]
  rfl

/-- The Trip Controller's own tests of an idle trip are the unauthorised-motion test alone. -/
theorem tripSample_of_idle (x : SampleSet) {s : State} (h : s.tripState = .idle) : tripSample x s = motionTest s := by
  have hstate : stateTest x s = s := by
    unfold stateTest
    rw [h]
  rw [tripSample, hstate]

theorem buildPosition_unauthorised (s : State) : (buildPosition s).trip.unauthorised = s.trip.unauthorised := by
  unfold buildPosition
  split <;> simp [writeOwnRecords]

theorem buildPosition_safety (s : State) : (buildPosition s).safety = s.safety := by
  unfold buildPosition
  split <;> simp [writeOwnRecords]

/-- A sample of an idle drum finds what the unauthorised-motion test finds, whichever unit acts first on it (R76): the full
evaluation changes the envelope alone, which the test does not read. -/
theorem sampleStep_motionFound (first : Bool) {s : State} (hidle : s.tripState = .idle) (hnone : s.safety.causes = [])
    (hwas : s.trip.unauthorised = false) (hin : ∀ d, outsideShaft s.cfg d = false) :
    MotionFound (takeSample s).unauthorisedNow (sampleStep first s) := by
  refine MotionFound.of_eq ?_ (buildPosition_unauthorised _) (buildPosition_safety _)
  refine MotionFound.of_eq (s := if first then _ else _) ?_ rfl rfl
  have htaken : (takeSample (countSampleTime s)).tripState = .idle := hidle
  cases first with
  | true =>
    obtain ⟨e, he⟩ := fullEvaluation_of_unsupervised (supervised_of_idle htaken) hin
    rw [if_pos rfl, he, tripSample_of_idle _ (s := (takeSample (countSampleTime s)).setEnv e) htaken]
    exact motionTest_motionFound (s := (takeSample (countSampleTime s)).setEnv e) hnone hwas
  | false =>
    have hout : ∀ d, outsideShaft (motionTest (takeSample (countSampleTime s))).cfg d = false := by
      rw [motionTest_cfg]
      exact hin
    obtain ⟨e, he⟩ := fullEvaluation_of_unsupervised (supervised_of_idle (motionTest_tripState_of_idle htaken)) hout
    rw [if_neg Bool.false_ne_true, tripSample_of_idle _ htaken, he]
    exact (motionTest_motionFound (s := takeSample (countSampleTime s)) hnone hwas).of_eq rfl rfl

/-- SAMPLE (R55) at a drum in LISTEN, RUN or LISTEN-ONLY is the sample whole. -/
theorem exec_sample (first : Bool) {s : State} (hlive : s.live = true) (hdrum : s.isDrum = true)
    (hworking : s.working = true) : exec (.sample first) s = .next (finish s (sampleStep first s)) := by
  change execSample first s = _
  simp [execSample, act, hlive, hdrum, hworking]

/-- Settles O38. The test itself by the two cases of a change to true and none; a SAMPLE by the two orders of R76, in neither of
which the Envelope Unit delivers a cause at an idle drum within its shaft limits. -/
theorem unauthorisedMotion : Obligations.UnauthorisedMotion := by
  unfold Obligations.UnauthorisedMotion
  refine ⟨fun s x hx => ?_, fun s x hlive hdrum hworking hnone hidle hwas htop hbottom hx first => ?_⟩
  · have hiff := unauthorisedNow_iff hx
    dsimp only
    rw [← hiff]
    refine ⟨by rw [motionTest_unauthorised], fun hnow hwas => ⟨motionTest_delivered hnow hwas, ?_⟩, fun h => ?_⟩
    · obtain ⟨-, hnone, -⟩ := hiff.mp hnow
      rw [motionTest_causes hnow hwas hnone]
      simp [causeRecord, Cause.plain, hx]
    · rw [motionTest_of_no_onset h, State.setTrip_safety]
  · have hends := finish_ends s (sampleStep first s)
    have hfound := (sampleStep_motionFound first hidle hnone hwas (outsideShaft_of_widest htop hbottom)).of_eq
      (congrArg TripUnit.unauthorised hends.trip) hends.safety
    have hnow : (takeSample s).unauthorisedNow = true ↔ 150 < x.speed.natAbs :=
      (unauthorisedNow_iff hx).trans ⟨fun ⟨_, _, h⟩ => h, fun h => ⟨.inl hidle, hnone, h⟩⟩
    exact ⟨_, exec_sample first hlive hdrum hworking, by rw [hfound.indication, hnow], hfound.listed.trans hnow⟩

end Sys2Proof.Machine
end

