-- ==== Sys2Proof/Proofs/Originations.lean ====
section
/-! PROOFS. Sys2Proof/Proofs/Originations.lean: what a command that originates one frame at a landing or loading station leaves as
it was beside the gate unit, where its frame stands when the step has ended (R16 to R18), and which events the end of the step
leaves pending (Table 10-2). -/
namespace Sys2Proof.Machine

/-! What is beside the gate unit -/

theorem Agrees.besideGates {e t : State} (h : Agrees e t) : BesideGates e t := { h with }

theorem BesideGates.trans {a b c : State} (h : BesideGates a b) (h' : BesideGates b c) : BesideGates a c where
  pending  := h'.pending.trans h.pending
  loader   := h'.loader.trans h.loader
  cfg      := h'.cfg.trans h.cfg
  inputs   := h'.inputs.trans h.inputs
  clock    := h'.clock.trans h.clock
  portA    := by rw [h'.portA, h.portA]
  portB    := by rw [h'.portB, h.portB]
  relay    := h'.relay.trans h.relay
  picture  := h'.picture.trans h.picture
  stations := h'.stations.trans h.stations
  depth    := h'.depth.trans h.depth
  env      := h'.env.trans h.env
  trip     := h'.trip.trans h.trip
  safety   := h'.safety.trans h.safety
  draws    := h'.draws.trans h.draws

variable (s : State)

theorem setGate_besideGates (g : GateUnit) : BesideGates s (s.setGate g) := by constructor <;> rfl

theorem setNotRegistered_agrees (ws : WinderSet) : Agrees s (setNotRegistered ws s) := agrees_panel s _

theorem leave_agrees (e : Event) : Agrees s (leave e s) := setEvents_agrees s _

/-- R16: an origination reaches the transmit queues, the origination count and the event lines alone. -/
theorem originate_agrees (p : Payload) : Agrees s (originate p s) := by
  constructor
  case portA => rw [originate_portA]; split <;> rfl
  case portB => rw [originate_portB]; split <;> rfl
  all_goals simp

/-! A frame originated in the course of a command -/

/-- `u` is what the origination of `p` makes of `s`, in everything but the gate unit and the event lines. -/
structure Sends (p : Payload) (s u : State) : Prop where
  beside : BesideGates s u
  portA  : u.portA = (originate p s).portA
  portB  : u.portB = (originate p s).portB
  seq    : u.seq = s.seq

variable {s} {p : Payload}

theorem originate_sends (p : Payload) (s : State) : Sends p s (originate p s) :=
  ⟨(originate_agrees s p).besideGates, rfl, rfl, originate_seq s p⟩

theorem Sends.setGate {u : State} (h : Sends p s u) (g : GateUnit) : Sends p s (u.setGate g) :=
  ⟨h.beside.trans (setGate_besideGates u g), h.portA, h.portB, h.seq⟩

theorem Sends.leave {u : State} (h : Sends p s u) (e : Event) : Sends p s (leave e u) :=
  ⟨h.beside.trans (leave_agrees u e).besideGates, (leave_portA u e).trans h.portA, (leave_portB u e).trans h.portB,
    (leave_seq u e).trans h.seq⟩

theorem Sends.setNotRegistered {u : State} (h : Sends p s u) (ws : WinderSet) : Sends p s (setNotRegistered ws u) :=
  ⟨h.beside.trans (setNotRegistered_agrees u ws).besideGates, h.portA, h.portB, h.seq⟩

/-- What stands beside the gate unit at the end of the step stood there before it. -/
theorem Sends.besideGates_of_ends {u t : State} (h : Sends p s u) (hends : Ends u t) : BesideGates s t :=
  h.beside.trans hends.toAgrees.besideGates

/-- A frame originated by a command, other than an ASSENT, is offered: the end of the step may put an ASSENT behind it, which
does not replace it. -/
theorem Sends.offered_of_ends {u t : State} (h : Sends p s u) (hends : Ends u t) (hrun : s.phase = .run)
    (hkind : p.kind ≠ .assent) : Offered s t (s.own p) := by
  constructor
  · intro hroom
    have hroom : s.portA.tx.entries.length + 2 ≤ 8 := hroom
    obtain ⟨hholds, hlength⟩ := originate_holdsA s p hrun (by omega)
    rw [← h.portA] at hholds hlength
    exact hends.txA.keeps (by omega) hholds hkind.symm
  · intro hrep hroom
    have hroom : s.portB.tx.entries.length + 2 ≤ 8 := hroom
    obtain ⟨hholds, hlength⟩ := originate_holdsB s p hrun hrep (by omega)
    rw [← h.portB] at hholds hlength
    exact hends.txB.keeps (by omega) hholds hkind.symm

/-! The events pending when a step has ended (Table 10-2) -/

/-- An event that has left is not pending. -/
@[simp] theorem isPending_leave_self (s : State) (e : Event) : (leave e s).isPending e = false := by
  simp [State.isPending, Machine.leave, Event.getLsbD_mask]

/-- The end of a step raises no event but SHAFT LINE and TX OVERFLOW: another that was not pending is not. -/
theorem Ends.not_pending {u t : State} (h : Ends u t) {e : Event} (hnot : u.isPending e = false)
    (hraised : (Event.shaftLine.mask ||| Event.txOverflow.mask).getLsbD e.code = false := by decide) :
    t.isPending e = false := by
  obtain ⟨more, hmore, hevents⟩ := h.events
  have hbit : u.panel.pendingEvents.getLsbD e.code = false := hnot
  simp [State.isPending, hevents, hmore.getLsbD_eq_false hraised, hbit]

/-- An event whose leaving condition holds is not pending when the step has ended. -/
theorem Ends.not_pending_of_leaving {u t : State} (h : Ends u t) {e : Event}
    (hleaves : (leavingMask u).getLsbD e.code = true) : t.isPending e = false := by
  obtain ⟨more, -, hevents⟩ := h.events
  simp [State.isPending, hevents, hleaves]

/-- CALL NOT REGISTERED leaves while its winder set is empty. -/
theorem leavingMask_callNotRegistered (hgates : s.hasGates = true) (hempty : s.panel.callNotRegistered = 0) :
    (leavingMask s).getLsbD Event.callNotRegistered.code = true := by
  have hgate : (gateLeaving s).getLsbD Event.callNotRegistered.code = true := by
    unfold gateLeaving
    simp only [BitVec.getLsbD_or, getLsbD_maskIf]
    simp [hempty]
  unfold leavingMask
  rw [if_pos hgates, BitVec.getLsbD_or, hgate, Bool.or_true]

/-- Table 10-2: with its winder set empty CALL NOT REGISTERED is not pending when the step has ended. -/
theorem Ends.callNotRegistered {u t : State} (h : Ends u t) (hgates : u.hasGates = true)
    (hempty : t.panel.callNotRegistered = 0) : t.isPending .callNotRegistered = false :=
  h.not_pending_of_leaving (leavingMask_callNotRegistered hgates (h.missed.symm.trans hempty))

/-! When a command acts -/

theorem act_of_live {f : State → State} (h : s.live = true) : act f s = .next (finish s (f s)) := by
  rw [act, if_pos h]

/-- R126: a change of an input of a live station takes the new level and is acted on. -/
theorem onInput_of_live {changes : Bool} {set f : State → State} (h : s.live = true) (hc : changes = true) :
    onInput changes set f s = .next (finish s (f (set s))) := by
  obtain ⟨hpowered, hreset⟩ : s.loader.powered = true ∧ s.inReset = false := by simpa [State.live] using h
  have hosc : s.loader.oscillating = false := by
    unfold State.inReset at hreset
    exact (Bool.or_eq_false_iff.mp hreset).1
  simp [onInput, hpowered, hosc, hc, hreset]

end Sys2Proof.Machine
end

