-- ==== Sys2Proof/Proofs/SignalKeys.lean ====
section
/-! PROOFS. Sys2Proof/Proofs/SignalKeys.lean: the SEND, STOP and CANCEL keys and the winder selector (R137 to R139). -/
namespace Sys2Proof.Machine

variable {s : State} (dest : Station) (cls : TripClass)

/-! What a press makes of the state -/

theorem keysAct_iff (s : State) : s.keysAct = true ↔ s.hasGates = true ∧ s.phase = .run := by
  simp [State.keysAct]

theorem exec_sendKey (hlive : s.live = true) (hact : s.keysAct = true) :
    exec (.sendKey dest cls) s = .next (finish s (pressSend dest cls s)) := by
  change execSendKey dest cls s = _
  rw [execSendKey, act_of_live hlive, if_pos hact]

theorem exec_stopKey (hlive : s.live = true) (hact : s.keysAct = true) :
    exec (.stopKey dest cls) s = .next (finish s (originate (.signal s.selected dest cls .stop false) s)) := by
  change execStopKey dest cls s = _
  rw [execStopKey, act_of_live hlive, if_pos hact]

theorem exec_cancelKey (hlive : s.live = true) (hact : s.keysAct = true) :
    exec (.cancelKey dest cls) s = .next (finish s (originate (.signal s.selected dest cls .cancel false) s)) := by
  change execCancelKey dest cls s = _
  rw [execCancelKey, act_of_live hlive, if_pos hact]

/-- R137: outside RUN a press of a signal or call key is the end of a step and nothing else. -/
theorem exec_key_of_not_keysAct (hlive : s.live = true) (hact : ¬s.keysAct = true) {k : Instr}
    (hk : k = .sendKey dest cls ∨ k = .stopKey dest cls ∨ k = .cancelKey dest cls ∨ k = .callKey cls) :
    exec k s = .next (finish s s) := by
  rcases hk with rfl | rfl | rfl | rfl
  · change execSendKey dest cls s = _
    rw [execSendKey, act_of_live hlive, if_neg hact]
  · change execStopKey dest cls s = _
    rw [execStopKey, act_of_live hlive, if_neg hact]
  · change execCancelKey dest cls s = _
    rw [execCancelKey, act_of_live hlive, if_neg hact]
  · change execCallKey cls s = _
    rw [execCallKey, act_of_live hlive, if_neg hact]

/-- R137: a change of the winder selector takes its new position and does nothing more. -/
theorem exec_winderSelectorChange (hlive : s.live = true) {w : Winder} (hw : w ≠ s.inputs.winderSelector) :
    exec (.winderSelectorChange w) s = .next (finish s { s with inputs := { s.inputs with winderSelector := w } }) := by
  change execWinderSelectorChange w s = _
  exact onInput_of_live hlive (by simpa using hw.symm)

/-! SEND (R138) -/

theorem pressSend_sends (s : State) :
    Sends (.signal s.selected dest cls .go false) s (pressSend dest cls s) :=
  ((((originate_sends _ s).setGate _).leave .refused).leave .expired).leave .noReply

theorem pressSend_gate (s : State) :
    (pressSend dest cls s).gate = { s.gate with signal := sentSignal s.inputs.winderSelector } := by
  simp [pressSend, setSignal, State.selected]

/-- R138: SEND clears the three events of the signal record. -/
theorem pressSend_not_pending (s : State) {e : Event} (he : e = .refused ∨ e = .expired ∨ e = .noReply) :
    (pressSend dest cls s).isPending e = false := by
  unfold pressSend
  rcases he with rfl | rfl | rfl
  · rw [isPending_leave_of_ne _ (by decide), isPending_leave_of_ne _ (by decide), isPending_leave_self]
  · rw [isPending_leave_of_ne _ (by decide), isPending_leave_self]
  · exact isPending_leave_self _ _

/-- Settles O43. In RUN the frame is offered as any origination of a command is (`Sends`); outside RUN a press, and in every phase
a change of the selector, leaves what the end of a step judges as it was, so that the step ends quietly. -/
theorem signalKeys : Obligations.SignalKeys := by
  unfold Obligations.SignalKeys
  intro s dest cls hlive
  refine ⟨fun hgates hrun => ?_, fun hphase k hk => ?_, fun w' hw => ?_⟩
  · have hact : s.keysAct = true := (keysAct_iff s).mpr ⟨hgates, hrun⟩
    have horiginated : ∀ p : Payload, p.kind ≠ .assent →
        Offered s (finish s (originate p s)) (s.own p) ∧ Agrees s (finish s (originate p s)) := fun p hp =>
      ⟨offered_of_originate p (finish_ends s _) hrun hp, (originate_agrees s p).trans (finish_agrees _ s)⟩
    refine ⟨⟨_, exec_sendKey dest cls hlive hact, ?_⟩,
      ⟨_, exec_stopKey dest cls hlive hact, horiginated _ nofun⟩,
      ⟨_, exec_cancelKey dest cls hlive hact, horiginated _ nofun⟩⟩
    have hsends := pressSend_sends dest cls s
    have hends := finish_ends s (pressSend dest cls s)
    have hgate := pressSend_gate dest cls s
    have hcleared : ∀ e, e = .refused ∨ e = .expired ∨ e = .noReply → (pressSend dest cls s).isPending e = false :=
      fun _ => pressSend_not_pending dest cls s
    exact ⟨hsends.offered_of_ends hends hrun nofun, hsends.besideGates_of_ends hends, hends.seq.trans hsends.seq,
      by rw [hends.records, hgate], by rw [hends.calls, hgate], by rw [hends.signal, hgate]; rfl,
      hends.not_pending (hcleared _ (.inl rfl)), hends.not_pending (hcleared _ (.inr (.inl rfl))),
      hends.not_pending (hcleared _ (.inr (.inr rfl)))⟩
  · have hact : ¬s.keysAct = true := fun h => hphase ((keysAct_iff s).mp h).2
    exact ⟨_, exec_key_of_not_keysAct dest cls hlive hact hk, finish_quiet s s (fun _ => rfl) (fun _ h => h)⟩
  · exact ⟨_, exec_winderSelectorChange hlive hw, finish_quiet s _ (fun _ => rfl) (fun _ h => h)⟩

end Sys2Proof.Machine
end

