-- ==== Sys2Proof/Proofs/CallKey.lean ====
section
/-! PROOFS. Sys2Proof/Proofs/CallKey.lean: the CALL key (R142). -/
namespace Sys2Proof.Machine

variable {s : State} (cls : TripClass)

/-- R142: the word that a press sends from a status of the call record. -/
def pressedWord : CallStatus → CallWord
  | .none => .register
  | _ => .cancel

/-- R142: what a press makes of a call record. -/
def pressedCall (c : CallRecord) : CallRecord :=
  match c.status with
  | .none => { status := .sent, misses := 0 }
  | _ => { c with status := .none }

/-- R142: what a press on a status of the call record of winder `w` makes of the winder set of CALL NOT REGISTERED. -/
def pressedSet (w : Winder) (ws : WinderSet) : CallStatus → WinderSet
  | .notRegistered => winderLeave ws w
  | _ => ws

theorem pressedWord_of_ne {st : CallStatus} (h : st ≠ .none) : pressedWord st = .cancel := by
  cases st with
  | none => exact absurd rfl h
  | sent => rfl
  | listed => rfl
  | notRegistered => rfl

theorem pressedCall_of_none {c : CallRecord} (h : c.status = .none) : pressedCall c = { status := .sent, misses := 0 } := by
  rw [pressedCall, h]

theorem pressedCall_of_ne {c : CallRecord} (h : c.status ≠ .none) : pressedCall c = { c with status := .none } := by
  unfold pressedCall
  split
  · contradiction
  · rfl

theorem pressedSet_eq (w : Winder) (ws : WinderSet) (st : CallStatus) :
    pressedSet w ws st = if st = .notRegistered then winderLeave ws w else ws := by
  cases st <;> rfl

theorem originate_callNotRegistered (s : State) (p : Payload) :
    (originate p s).panel.callNotRegistered = s.panel.callNotRegistered := (originate_raises s p).missed

/-- R142: a press in any status sends its word, and then changes the record and the winder set of CALL NOT REGISTERED. -/
theorem pressCall_eq (s : State) :
    pressCall cls s =
      let w := s.inputs.winderSelector
      let c := s.gate.calls[w]
      setNotRegistered (pressedSet w s.panel.callNotRegistered c.status)
        (setCall w (pressedCall c) (originate (.call w cls (pressedWord c.status)) s)) := by
  have hkept : ∀ (r : CallRecord) (p : Payload), setCall s.inputs.winderSelector r (originate p s) =
      setNotRegistered s.panel.callNotRegistered (setCall s.inputs.winderSelector r (originate p s)) := fun r p => by
    rw [← originate_callNotRegistered s p]; rfl
  unfold pressCall pressedCall
  dsimp only [State.selected]
  cases h : s.gate.calls[s.inputs.winderSelector].status with
  | none => exact hkept _ _
  | sent => exact hkept _ _
  | listed => exact hkept _ _
  | notRegistered =>
    dsimp only [pressedSet]
    rw [← originate_callNotRegistered s (.call s.inputs.winderSelector cls .cancel)]
    rfl

theorem pressCall_sends (s : State) :
    Sends (.call s.inputs.winderSelector cls (pressedWord s.gate.calls[s.inputs.winderSelector].status)) s
      (pressCall cls s) := by
  rw [pressCall_eq]
  exact ((originate_sends _ s).setGate _).setNotRegistered _

theorem pressCall_gate (s : State) :
    (pressCall cls s).gate = { s.gate with
      calls := put s.gate.calls s.inputs.winderSelector (pressedCall s.gate.calls[s.inputs.winderSelector]) } := by
  rw [pressCall_eq]
  simp [setNotRegistered, setCall]

theorem pressCall_callNotRegistered (s : State) :
    (pressCall cls s).panel.callNotRegistered =
      pressedSet s.inputs.winderSelector s.panel.callNotRegistered s.gate.calls[s.inputs.winderSelector].status := by
  rw [pressCall_eq]
  rfl

theorem exec_callKey (hlive : s.live = true) (hact : s.keysAct = true) :
    exec (.callKey cls) s = .next (finish s (pressCall cls s)) := by
  change execCallKey cls s = _
  rw [execCallKey, act_of_live hlive, if_pos hact]

theorem hasGates_congr {s t : State} (h : t.cfg = s.cfg) : t.hasGates = s.hasGates := by
  unfold State.hasGates State.isLanding State.isLoading
  rw [h]

/-- Settles O44. One equation for a press in every status (`pressCall_eq`); the end of the step leaves its record, its frame and
its winder set, and takes the event away with the last winder. -/
theorem callKeyPressed : Obligations.CallKeyPressed := by
  unfold Obligations.CallKeyPressed
  intro s cls hlive hgates hrun w c
  have hsends := pressCall_sends cls s
  have hends := finish_ends s (pressCall cls s)
  have hgate := pressCall_gate cls s
  have hoffered := hsends.offered_of_ends hends hrun nofun
  refine ⟨_, exec_callKey cls hlive ((keysAct_iff s).mpr ⟨hgates, hrun⟩), hsends.besideGates_of_ends hends,
    hends.seq.trans hsends.seq, by rw [hends.records, hgate], by rw [hends.signal, hgate], fun hnone => ⟨?_, ?_⟩,
    fun hother => ⟨?_, ?_⟩, ?_, hends.callNotRegistered ((hasGates_congr hsends.beside.cfg).trans hgates)⟩
  · rw [hends.calls, hgate, pressedCall_of_none hnone]
  · rwa [hnone] at hoffered
  · rw [hends.calls, hgate, pressedCall_of_ne hother]
  · rwa [pressedWord_of_ne hother] at hoffered
  · rw [hends.missed, pressCall_callNotRegistered, pressedSet_eq]

end Sys2Proof.Machine
end

