-- ==== Sys2Proof/Proofs/Moves.lean ====
section
/-! PROOFS. Sys2Proof/Proofs/Moves.lean: what a step can do, said once: every operation of the model is a chain of changes, each of
one block of the state and each keeping that block's own law. A law of the machine is then judged change by change, and what an
operation leaves as it was follows from the blocks that its chain names. -/
set_option Elab.async false

namespace Sys2Proof.Machine

/-- What one change touches: a block of the state, a part of one, or one event of the pending set (by its code). -/
inductive Block where
  | event (code : Nat)
  | events
  | missed
  | refusedCause
  | clock
  | inputs
  | ports
  | offers
  | queues
  | relay
  | picture
  | entries
  | holdSet
  | depth
  | env
  | trip
  | safety
  | records
  | assentMs
  | signal
  | calls
  | seq
  | loadDue
  | phase
  deriving DecidableEq

/-- R185: what the entry to LISTEN-ONLY makes of the phase, the queues, the gate unit and the sequencer, before the Trip Controller
acts on it. -/
def lostLine (s : State) : State :=
  endDischarge false (gatesLoseLine (emptyQueues (s.setLoader { s.loader with phase := .listenOnly, listenMs := none })))

/-- A change of one block. A block that has a law of its own changes only so that the law, where it held, holds again; a frame joins
a queue only in a phase that has it held. -/
inductive Move : Block → State → State → Prop where
  | event (e : Event) (s : State) (events : BitVec 16)
      (h : ∀ i, i ≠ e.code → events.getLsbD i = s.panel.pendingEvents.getLsbD i) : Move (.event e.code) s (setEvents events s)
  | events (s : State) (events : BitVec 16) : Move .events s (setEvents events s)
  | missed (s : State) (ws : WinderSet) : Move .missed s (setNotRegistered ws s)
  | refusedCause (s : State) (c : Option RefusalCause) :
      Move .refusedCause s { s with panel := { s.panel with refusedCause := c } }
  | clock (s : State) (c : Clock) : Move .clock s (s.setClock c)
  | inputs (s : State) (x : Inputs) : Move .inputs s (s.setInputs x)
  | port (s : State) (p : PortId) (x : Port) (h : x.tx = (s.port p).tx) : Move .ports s (s.setPort p x)
  | originate (s : State) (p : Payload) : Move .offers s (originate p s)
  | ownQueue (s : State) (p : PortId) (q : Queue)
      (h : QueueInv sameReport (s.port p).tx → QueueInv sameReport q)
      (hl : q.entries.length ≤ (s.port p).tx.entries.length) :
      Move .queues s (s.setPort p { s.port p with tx := q })
  | relayQueue (s : State) (p : PortId) (q : Queue)
      (h : QueueInv sameRelayed (s.relayQueue p) → QueueInv sameRelayed q)
      (hl : s.phase = .listen ∨ s.phase = .run ∨ q.entries.length ≤ (s.relayQueue p).entries.length) :
      Move .relay s (s.setRelayQueue p q)
  | dropFlags (s : State) (up down : Bool) : Move .relay s (s.setRelay { s.relay with upDrop := up, downDrop := down })
  | picture (s : State) (w : Winder) (x : Option Carrying) (y : Option Counterweight)
      (h : s.picture.carrying[w].map (·.current) = s.picture.counterweight[w].map (·.current) →
        x.map (·.current) = y.map (·.current)) : Move .picture s (writeRecords w x y s)
  | entry (s : State) (n : Station) (e : StationEntry) (h : e.state ≠ .unknown) : Move .entries s (setEntry n e s)
  | holdSet (s : State) (t : StationSet) : Move .holdSet s (setHoldSet t s)
  | depth (s : State) (d : DepthUnit) : Move .depth s (s.setDepth d)
  | env (s : State) (e : Envelope) (h : EnvelopeInv s → EnvelopeInv (s.setEnv e)) : Move .env s (s.setEnv e)
  | trip (s : State) (x : TripUnit) (hs : x.record.state = s.trip.record.state)
      (h : CallInv s → CallInv (s.setTrip x)) : Move .trip s (s.setTrip x)
  | evaluated (s : State) (x : TripUnit) (h : CallInv s → CallInv (s.setTrip x)) :
      Move .trip s (partialEvaluation (s.setTrip x))
  | safety (s : State) (x : SafetyUnit) (h : CauseInv s → CauseInv (s.setSafety x)) : Move .safety s (s.setSafety x)
  | record (s : State) (w : Winder) (g : GateRecord) (hs : g.settleMs ≠ none → g.state = .locked)
      (hr : g.state = .releasable → s.phase = .run) : Move .records s (setGate w g s)
  | assentMs (s : State) (n : Option Nat) (h : n ≠ none → s.phase = .run) :
      Move .assentMs s (s.setGate { s.gate with assentMs := n })
  | signal (s : State) (r : SignalRecord) (hr : r.replyMs ≠ none → r.status = .awaiting)
      (hc : (s.gate.signal.cause ≠ none → s.gate.signal.status = .refused) → r.cause ≠ none → r.status = .refused) :
      Move .signal s (setSignal r s)
  | call (s : State) (w : Winder) (r : CallRecord) (h : s.gate.calls[w].misses ≤ 2 → r.misses ≤ 2) :
      Move .calls s (setCall w r s)
  | seq (s : State) (q : Sequencer) (h : SequencerInv s → SequencerInv (s.setSeq q)) : Move .seq s (s.setSeq q)
  | loadDue (s : State) (b : Bool) : Move .loadDue s (s.setLoader { s.loader with loadDue := b })
  | run (s : State) (h : s.phase = .listen) :
      Move .phase s (s.setLoader { s.loader with phase := .run, listenMs := none })
  | listenOnly (s : State) (h : s.phase = .listen ∨ s.phase = .run) : Move .phase s (lostLine s)

/-- A chain of changes of the blocks of a list. -/
def Moves (bs : List Block) : State → State → Prop := Relation.ReflTransGen (fun s t => ∃ b ∈ bs, Move b s t)

namespace Moves

variable {bs cs : List Block} {s t u : State}

theorem refl (s : State) : Moves bs s s := Relation.ReflTransGen.refl

theorem trans (h : Moves bs s t) (h' : Moves bs t u) : Moves bs s u := Relation.ReflTransGen.trans h h'

/-- A chain names as many blocks more as one likes. -/
theorem of (h : Moves bs s t) (hb : bs ⊆ cs := by decide) : Moves cs s t :=
  Relation.ReflTransGen.mono (fun _ _ ⟨b, hm, hbm⟩ => ⟨b, hb hm, hbm⟩) _ _ h

theorem ite {c : Prop} [Decidable c] (h : Moves bs s t) (h' : Moves bs s u) : Moves bs s (if c then t else u) := by
  split
  · exact h
  · exact h'

theorem when {c : Prop} [Decidable c] (h : Moves bs s t) : Moves bs s (if c then t else s) := ite h (refl s)

/-- A property that every change of the chain keeps is kept by the chain. -/
theorem keeps {P : State → Prop} (hP : ∀ b ∈ bs, ∀ s t, Move b s t → P s → P t) (h : Moves bs s t) (hs : P s) : P t := by
  induction h with
  | refl => exact hs
  | tail _ hstep ih =>
    obtain ⟨b, hb, hmove⟩ := hstep
    exact hP b hb _ _ hmove ih

/-- A value that no change of the chain changes. -/
theorem fixes {α : Type} {f : State → α} (hf : ∀ b ∈ bs, ∀ s t, Move b s t → f t = f s) (h : Moves bs s t) : f t = f s :=
  h.keeps (P := fun x => f x = f s) (fun b hb x y hxy hx => (hf b hb x y hxy).trans hx) rfl

end Moves

theorem Move.moves {b : Block} {bs : List Block} {s t : State} (h : Move b s t) (hb : b ∈ bs := by decide) : Moves bs s t :=
  Relation.ReflTransGen.single ⟨b, hb, h⟩

/-! The entry to LISTEN-ONLY (R185) -/

/-- R147: what the loss of the line makes of a gate record. -/
def GateRecord.lost (g : GateRecord) : GateRecord := if g.state = .releasable then GateRecord.locked (some 0) else g

/-- R136, R147: what the loss of the line makes of the gate unit. -/
def GateUnit.lost (g : GateUnit) : GateUnit := { g with records := g.records.map GateRecord.lost, assentMs := none }

/-- R151, R152: what an aborted discharge makes of the sequencer, by the door. -/
def Sequencer.aborted (doorClosed : Bool) (q : Sequencer) : Sequencer :=
  if q.cycle = .discharge then
    if doorClosed then { q with cycle := .waitSkip, complete := false, doorMs := none }
    else { q with cycle := .doorClosing, complete := false, doorMs := some 0 }
  else q

theorem put_self {α : Type} {n : Nat} (v : Vector α n) (i : Fin n) : put v i v[i] = v := by
  simp [put]

theorem getElem_put {α : Type} {n : Nat} (v : Vector α n) (i j : Fin n) (x : α) :
    (put v i x)[j] = if i = j then x else v[j] := by
  simp [put, Vector.getElem_set, Fin.ext_iff]

theorem getElem_put_nat {α : Type} {n : Nat} (v : Vector α n) (i : Fin n) (k : Nat) (hk : k < n) (x : α) :
    (put v i x)[k] = if i.val = k then x else v[k] := by
  simp [put, Vector.getElem_set]

theorem gateLosesLine_eq (s : State) (w : Winder) : gateLosesLine s w = setGate w s.gate.records[w].lost s := by
  unfold gateLosesLine GateRecord.lost State.gateState
  by_cases h : s.gate.records[w].state = .releasable
  · rw [if_pos h, if_pos h]
  · rw [if_neg h, if_neg h, setGate, State.setGateRecord, put_self]

theorem gatesLoseLine_eq (s : State) : gatesLoseLine s = s.setGate s.gate.lost := by
  have hrec : put (put (put (put s.gate.records 0 s.gate.records[(0 : Winder)].lost) 1 s.gate.records[(1 : Winder)].lost)
      2 s.gate.records[(2 : Winder)].lost) 3 s.gate.records[(3 : Winder)].lost = s.gate.records.map GateRecord.lost := by
    ext i hi
    interval_cases i <;> simp [put]
  unfold gatesLoseLine GateUnit.lost
  rw [← hrec]
  simp [winders, gateLosesLine_eq, setGate, State.setGateRecord, State.setGate, getElem_put_nat]

/-- R151: outside RUN an aborted discharge begins no other. -/
theorem endDischarge_of_not_run {s : State} (h : s.phase ≠ .run) :
    endDischarge false s = s.setSeq (s.seq.aborted s.inputs.doorClosed) := by
  have hjudge : ∀ q, judgeDischarge (s.setSeq q) = s.setSeq q := fun q => by
    unfold judgeDischarge
    rw [if_neg]
    have : (s.setSeq q).phase ≠ .run := h
    simp [this]
  unfold endDischarge Sequencer.aborted
  by_cases hc : s.seq.cycle = .discharge
  · rw [if_pos hc, if_pos hc]
    cases hd : s.inputs.doorClosed with
    | true =>
      simp only [State.setSeq_inputs, hd, if_true]
      unfold doorReadsClosed enterWaitSkip
      simp only [State.setSeq_seq, if_true, Bool.false_eq_true, if_false]
      exact hjudge _
    | false =>
      simp only [State.setSeq_inputs, hd, Bool.false_eq_true, if_false]
  · rw [if_neg hc, if_neg hc]
    rfl

theorem lostLine_eq (s : State) : lostLine s =
    ((emptyQueues (s.setLoader { s.loader with phase := .listenOnly, listenMs := none })).setGate s.gate.lost).setSeq
      (s.seq.aborted s.inputs.doorClosed) := by
  unfold lostLine
  rw [gatesLoseLine_eq, endDischarge_of_not_run (by simp [State.phase, emptyQueues, State.setPort])]
  rfl

end Sys2Proof.Machine
end

