-- ==== Sys2Proof/Proofs/QueueLaws.lean ====
section
/-! PROOFS. Sys2Proof/Proofs/QueueLaws.lean: what puts a queue in order keeps it in order: a frame put to it (R16 to R18, R26 to
R28), a deferral (R6), an attempt's beginning and end (R7, R8) and an emptying (R16). -/
set_option Elab.async false

namespace Sys2Proof.Machine

/-- Replacement is symmetric and transitive: of three frames two of which replace one another with the third, the first two do. -/
structure Replaces (same : Frame → Frame → Bool) : Prop where
  symm  : ∀ f g, same f g = true → same g f = true
  trans : ∀ f g h, same f g = true → same g h = true → same f h = true

theorem sameReport_iff (f g : Frame) : sameReport f g = true ↔
    f.kind = g.kind ∧ (f.kind = .position ∨ f.kind = .assent ∨ f.kind = .winding) := by
  unfold sameReport
  cases f.kind <;> cases g.kind <;> simp

theorem sameReport_replaces : Replaces sameReport where
  symm f g h := by
    rw [sameReport_iff] at h ⊢
    obtain ⟨heq, hk⟩ := h
    exact ⟨heq.symm, heq ▸ hk⟩
  trans f g h hfg hgh := by
    rw [sameReport_iff] at hfg hgh ⊢
    exact ⟨hfg.1.trans hgh.1, hfg.2⟩

/-- R27: the POSITIONs of a winder replace one another, and the ASSENTs of an origin. -/
theorem sameRelayed_iff (f g : Frame) : sameRelayed f g = true ↔
    (∃ r r', f.payload = .position r ∧ g.payload = .position r' ∧ r.winder = r'.winder) ∨
      (∃ r r', f.payload = .assent r ∧ g.payload = .assent r' ∧ f.origin = g.origin) := by
  unfold sameRelayed
  cases f.payload <;> cases g.payload <;> simp

theorem sameRelayed_replaces : Replaces sameRelayed where
  symm f g h := by
    rw [sameRelayed_iff] at h ⊢
    rcases h with ⟨r, r', hf, hg, hw⟩ | ⟨r, r', hf, hg, ho⟩
    · exact .inl ⟨r', r, hg, hf, hw.symm⟩
    · exact .inr ⟨r', r, hg, hf, ho.symm⟩
  trans f g h hfg hgh := by
    rw [sameRelayed_iff] at hfg hgh ⊢
    rcases hfg with ⟨r, r', hf, hg, hw⟩ | ⟨r, r', hf, hg, ho⟩ <;>
      rcases hgh with ⟨u, u', hg', hh, hw'⟩ | ⟨u, u', hg', hh, ho'⟩ <;> rw [hg] at hg' <;> cases hg'
    · exact .inl ⟨r, u', hf, hh, hw.trans hw'⟩
    · exact .inr ⟨r, u', hf, hh, ho.trans ho'⟩

/-! The order of a queue (R16) -/

theorem Entry.before_iff (x y : Entry) :
    x.before y = true ↔ x.effClass < y.effClass ∨ (x.effClass = y.effClass ∧ x.order < y.order) := by
  simp [Entry.before]

theorem Entry.before_trans {x y z : Entry} (h : x.before y = true) (h' : y.before z = true) : x.before z = true := by
  rw [Entry.before_iff] at *; omega

theorem Entry.before_of_not {x y : Entry} (h : ¬x.before y = true) (hne : x.order ≠ y.order) : y.before x = true := by
  rw [Entry.before_iff] at *; omega

theorem insertEntry_ordered {e : Entry} {l : List Entry} (h : l.Pairwise (fun x y => x.before y = true))
    (hne : ∀ x ∈ l, x.order ≠ e.order) : (insertEntry e l).Pairwise (fun x y => x.before y = true) := by
  induction l with
  | nil => simp [insertEntry]
  | cons x xs ih =>
    obtain ⟨hx, hxs⟩ := List.pairwise_cons.mp h
    unfold insertEntry
    split
    · rename_i hb
      refine List.pairwise_cons.mpr ⟨fun y hy => ?_, h⟩
      rcases List.mem_cons.mp hy with rfl | hy
      · exact hb
      · exact Entry.before_trans hb (hx y hy)
    · rename_i hb
      refine List.pairwise_cons.mpr ⟨fun y hy => ?_, ih hxs fun y hy => hne y (List.mem_cons_of_mem _ hy)⟩
      rcases mem_insertEntry.mp hy with rfl | hy
      · exact Entry.before_of_not hb (hne x (List.mem_cons_self ..)).symm
      · exact hx y hy

section
variable {same : Frame → Frame → Bool} {q : Queue}

theorem Replaces.comm (hs : Replaces same) (f g : Frame) : same f g = same g f :=
  Bool.eq_iff_iff.mpr ⟨hs.symm f g, hs.symm g f⟩

/-- An empty queue is in order. -/
theorem queueInv_nil (n : Nat) : QueueInv same ⟨[], n⟩ := by constructor <;> simp

/-- Some of the entries of a queue in order, in their order, are in order. -/
theorem QueueInv.sublist (h : QueueInv same q) {l : List Entry} (hl : l.Sublist q.entries) :
    QueueInv same { q with entries := l } where
  atMost := hl.length_le.trans h.atMost
  ordered := h.ordered.sublist hl
  orders := h.orders.sublist (hl.map _)
  fresh e he := h.fresh e (hl.subset he)
  distinct := h.distinct.sublist hl

/-- A change of entries that keeps their frames, classes and orders keeps the order. -/
theorem QueueInv.map (h : QueueInv same q) {g : Entry → Entry}
    (hg : ∀ e, (g e).frame = e.frame ∧ (g e).effClass = e.effClass ∧ (g e).order = e.order) :
    QueueInv same { q with entries := q.entries.map g } where
  atMost := by simpa using h.atMost
  ordered := List.pairwise_map.mpr (h.ordered.imp fun {x y} hxy => by
    simpa only [Entry.before, (hg x).2.1, (hg x).2.2, (hg y).2.1, (hg y).2.2] using hxy)
  orders := by
    have horders : q.entries.map ((·.order) ∘ g) = q.entries.map (·.order) :=
      List.map_congr_left fun e _ => (hg e).2.2
    rw [List.map_map, horders]
    exact h.orders
  fresh e he := by
    obtain ⟨x, hx, rfl⟩ := List.mem_map.mp he
    rw [(hg x).2.2]
    exact h.fresh x hx
  distinct := List.pairwise_map.mpr (h.distinct.imp fun {x y} hxy => by rwa [(hg x).1, (hg y).1])

/-- An entry of another order and frame put at its place in a queue with room keeps the order. -/
theorem QueueInv.insert (hs : Replaces same) (h : QueueInv same q) (hroom : q.entries.length < 8) {e : Entry}
    (hne : ∀ x ∈ q.entries, x.order ≠ e.order) (hframe : ∀ x ∈ q.entries, same e.frame x.frame = false) {n : Nat}
    (hn : ∀ x ∈ e :: q.entries, x.order < n) : QueueInv same ⟨insertEntry e q.entries, n⟩ where
  atMost := by rw [length_insertEntry]; omega
  ordered := insertEntry_ordered h.ordered hne
  orders := by
    refine ((insertEntry_perm e q.entries).map (·.order)).nodup_iff.mpr (List.nodup_cons.mpr ⟨fun hmem => ?_, h.orders⟩)
    obtain ⟨x, hx, heq⟩ := List.mem_map.mp hmem
    exact hne x hx heq
  fresh x hx := hn x (List.mem_cons.mpr (mem_insertEntry.mp hx))
  distinct := ((insertEntry_perm e q.entries).pairwise_iff (fun {x y} hxy => by rwa [hs.comm])).mpr
    (List.pairwise_cons.mpr ⟨hframe, h.distinct⟩)

theorem QueueInv.remove (h : QueueInv same q) (n : Nat) : QueueInv same (q.remove n) := h.sublist List.filter_sublist

theorem remove_length (q : Queue) (n : Nat) : (q.remove n).entries.length ≤ q.entries.length := List.length_filter_le _ _

/-- R16: a frame that replaces none joins a queue in order that has room. -/
theorem QueueInv.join (hs : Replaces same) (h : QueueInv same q) (hroom : q.entries.length < 8) {f : Frame}
    (hf : ∀ x ∈ q.entries, same f x.frame = false) (n : Nat) : QueueInv same (q.join f n) := by
  refine h.insert hs hroom (e := Entry.new f n q.nextOrder) (fun x hx => (h.fresh x hx).ne) hf fun x hx => ?_
  rcases List.mem_cons.mp hx with rfl | hx
  · exact Nat.lt_succ_self _
  · exact (h.fresh x hx).trans (Nat.lt_succ_self _)

theorem newest_mem {l : List Entry} {v : Entry} (h : newest l = some v) : v ∈ l := by
  induction l generalizing v with
  | nil => cases h
  | cons e es ih =>
    unfold newest at h
    cases hn : newest es with
    | none => rw [hn] at h; cases h; exact List.mem_cons_self ..
    | some x =>
      rw [hn] at h
      dsimp only at h
      split at h
      · cases h; exact List.mem_cons_self ..
      · cases h; exact List.mem_cons_of_mem _ (ih hn)

/-- A queue without one of its entries is shorter. -/
theorem remove_length_lt {v : Entry} (hv : v ∈ q.entries) : (q.remove v.order).entries.length < q.entries.length := by
  refine List.length_filter_lt_length_iff_exists.mpr ⟨v, hv, by simp⟩

/-- R17, R27: a frame that replaces an entry stands in its place. -/
theorem QueueInv.replace (hs : Replaces same) (h : QueueInv same q) (f : Frame) (n : Nat) :
    QueueInv same { q with entries := q.entries.map (fun e => if same f e.frame then e.replace f n else e) } := by
  have hkept : ∀ e : Entry, (if same f e.frame then e.replace f n else e).effClass = e.effClass ∧
      (if same f e.frame then e.replace f n else e).order = e.order := fun e => by split <;> exact ⟨rfl, rfl⟩
  refine ⟨by simpa using h.atMost, List.pairwise_map.mpr (h.ordered.imp fun {x y} hxy => ?_), ?_, fun e he => ?_,
    List.pairwise_map.mpr (h.distinct.imp fun {x y} hxy => ?_)⟩
  · simpa only [Entry.before, (hkept x).1, (hkept x).2, (hkept y).1, (hkept y).2] using hxy
  · have horders : q.entries.map ((·.order) ∘ fun e => if same f e.frame then e.replace f n else e) =
        q.entries.map (·.order) := List.map_congr_left fun e _ => (hkept e).2
    rw [List.map_map, horders]
    exact h.orders
  · obtain ⟨x, hx, rfl⟩ := List.mem_map.mp he
    rw [(hkept x).2]
    exact h.fresh x hx
  · by_cases hx : same f x.frame = true <;> by_cases hy : same f y.frame = true
    · rw [hs.trans _ _ _ (hs.symm _ _ hx) hy] at hxy
      cases hxy
    · simpa [hx, hy, Entry.replace] using hy
    · simpa [hx, hy, Entry.replace, hs.comm x.frame f] using hx
    · simpa [hx, hy] using hxy

/-- R16 to R18, R26 to R28: a frame put to a queue in order leaves it in order. -/
theorem QueueInv.takeIn (hs : Replaces same) (h : QueueInv same q) (f : Frame) (n : Nat) :
    QueueInv same (q.takeIn (same f) f n).1 := by
  cases hsame : q.entries.any (fun e => same f e.frame) with
  | true =>
    rw [takeIn_replaces q (same f) f n hsame]
    exact h.replace hs f n
  | false =>
    have hnone : ∀ x ∈ q.entries, same f x.frame = false := by simpa using hsame
    by_cases hroom : q.entries.length < 8
    · rw [takeIn_joins q (same f) f n hsame hroom]
      exact h.join hs hroom hnone n
    · cases hnew : newest (q.entries.filter (Entry.removable f.cls)) with
      | none =>
        rw [takeIn_drops q (same f) f n hsame (by omega) hnew]
        exact h
      | some v =>
        rw [takeIn_removes q (same f) f n hsame (by omega) hnew]
        have hv : v ∈ q.entries := List.mem_of_mem_filter (newest_mem hnew)
        exact (h.remove v.order).join hs ((remove_length_lt hv).trans_le h.atMost)
          (fun x hx => hnone x (List.mem_of_mem_filter hx)) n

/-- A frame put to a queue makes it longer by one at most. -/
theorem takeIn_length_le (q : Queue) (same : Frame → Bool) (f : Frame) (n : Nat) :
    (q.takeIn same f n).1.entries.length ≤ q.entries.length + 1 := by
  cases hsame : q.entries.any (fun e => same e.frame) with
  | true =>
    rw [takeIn_replaces q same f n hsame]
    simp
  | false =>
    by_cases hroom : q.entries.length < 8
    · exact takeIn_length q same f n hroom
    · cases hnew : newest (q.entries.filter (Entry.removable f.cls)) with
      | none =>
        rw [takeIn_drops q same f n hsame (by omega) hnew]
        simp
      | some v =>
        rw [takeIn_removes q same f n hsame (by omega) hnew]
        simp [Queue.join, length_insertEntry, remove_length]

/-! Deferral, attempts and their ends (R6 to R8) -/

theorem Entry.defer_same (e : Entry) : e.defer.frame = e.frame ∧ e.defer.order = e.order := by
  unfold Entry.defer; split <;> exact ⟨rfl, rfl⟩

theorem QueueInv.defer (hs : Replaces same) (h : QueueInv same q) (n : Nat) : QueueInv same (q.defer n) := by
  unfold Queue.defer
  split
  · exact h
  · rename_i e he
    have hmem := List.mem_of_find?_eq_some he
    have horder : e.order = n := by simpa using List.find?_some he
    obtain ⟨hframe, hdefer⟩ := e.defer_same
    subst horder
    have hother : ∀ x ∈ (q.remove e.order).entries, x.order ≠ e.order := fun x hx => by
      simpa using (List.mem_filter.mp hx).2
    refine (h.remove e.order).insert hs ((remove_length_lt hmem).trans_le h.atMost) (by rwa [hdefer])
      (fun x hx => ?_) (fun x hx => ?_)
    · rw [hframe]
      have hx' := List.mem_of_mem_filter hx
      have hne : e ≠ x := fun heq => hother x hx (by rw [heq])
      have hsymm : Std.Symm fun x y : Entry => same x.frame y.frame = false := ⟨fun a b hab => by rwa [hs.comm]⟩
      exact h.distinct.forall hmem hx' hne
    · rcases List.mem_cons.mp hx with rfl | hx
      · rw [hdefer]; exact h.fresh e hmem
      · exact h.fresh x (List.mem_of_mem_filter hx)

theorem defer_length (q : Queue) (n : Nat) : (q.defer n).entries.length ≤ q.entries.length := by
  unfold Queue.defer
  split
  · exact le_rfl
  · rename_i e he
    have horder : e.order = n := by simpa using List.find?_some he
    have := remove_length_lt (q := q) (List.mem_of_find?_eq_some he)
    rw [horder] at this
    simp only [length_insertEntry]
    omega

theorem QueueInv.update (h : QueueInv same q) (n : Nat) {g : Entry → Entry}
    (hg : ∀ e, (g e).frame = e.frame ∧ (g e).effClass = e.effClass ∧ (g e).order = e.order) :
    QueueInv same (q.update n g) :=
  h.map fun e => by
    split
    · exact hg e
    · exact ⟨rfl, rfl, rfl⟩

theorem update_length (q : Queue) (n : Nat) (g : Entry → Entry) : (q.update n g).entries.length ≤ q.entries.length := by
  simp [Queue.update]

theorem QueueInv.complete (h : QueueInv same q) (n : Nat) : QueueInv same (q.complete n) := by
  unfold Queue.complete
  split
  · exact h.update n fun _ => ⟨rfl, rfl, rfl⟩
  · exact h.remove n

theorem complete_length (q : Queue) (n : Nat) : (q.complete n).entries.length ≤ q.entries.length := by
  unfold Queue.complete
  split
  · exact update_length q n _
  · exact remove_length q n

theorem QueueInv.endAttempts (h : QueueInv same q) : QueueInv same q.endAttempts := h.map fun _ => ⟨rfl, rfl, rfl⟩

end

end Sys2Proof.Machine
end

