-- ==== Sys2Proof/Proofs/TripMoves.lean ====
section
/-! PROOFS. Sys2Proof/Proofs/TripMoves.lean: the operations of a drum's units (chapters 3 to 6 and 9) as chains of changes. -/
set_option Elab.async false

namespace Sys2Proof.Machine

/-- What a closing touches (R113): the trip with its envelope, the maintenance requests, TRIP EXPIRED, and the report. -/
abbrev closingBlocks : List Block := [.trip, .depth, .event 8, .offers]

/-- What a delivery touches (R164): the cause list, SAFETY TRIP and CAUSES LOST, and what a closing touches. -/
abbrev deliveryBlocks : List Block := [.safety, .event 15, .event 12, .trip, .depth, .event 8, .offers]

variable {bs : List Block} (s : State)

/-! Events -/

theorem raise_moves (e : Event) : Moves [.event e.code] s (raise e s) := by
  unfold raise
  refine .when ((Move.event e s _ fun i hi => ?_).moves (List.mem_singleton_self _))
  simp [Event.getLsbD_mask, hi.symm]

theorem leave_moves (e : Event) : Moves [.event e.code] s (leave e s) := by
  refine (Move.event e s _ fun i hi => ?_).moves (List.mem_singleton_self _)
  by_cases h : i < 16
  · simp only [BitVec.getLsbD_and, BitVec.getLsbD_not, Event.getLsbD_mask, hi.symm, h]
    simp
  · rw [BitVec.getLsbD_of_ge _ _ (by omega), BitVec.getLsbD_of_ge _ _ (by omega)]

/-! Laws of the blocks that the trip's operations change -/

theorem CallInv.of_eq {t : State} (h : CallInv s) (ht : t.trip.calls = s.trip.calls) : CallInv t :=
  ⟨by rw [ht]; exact h.atMost, by rw [ht]; exact h.distinct⟩

/-- Some of the calls, in their order, are a call list again. -/
theorem CallInv.sublist {t : State} (h : CallInv s) (ht : t.trip.calls.Sublist s.trip.calls) : CallInv t :=
  ⟨ht.length_le.trans h.atMost, h.distinct.sublist (ht.map _)⟩

theorem permitted_of_unsupervised (h : s.supervised = false) : s.permitted = 0 := by
  unfold State.permitted; rw [h]

/-- R82, R85, R89: a recomputing keeps the laws of the envelope. -/
theorem EnvelopeInv.recompute (h : EnvelopeInv s) : EnvelopeInv (recompute s) where
  threshold := rfl
  limitWord := rfl
  unsupervised hs := by
    obtain ⟨-, hw, hc⟩ := h.unsupervised hs
    exact ⟨permitted_of_unsupervised s hs, hw, hc⟩
  count := h.count

/-- With a trip supervised the warning and a count up to 2 may change. -/
theorem EnvelopeInv.of_supervised (h : EnvelopeInv s) (hs : s.supervised = true) (w : Bool) {n : Nat} (hn : n ≤ 2) (o : Bool) :
    EnvelopeInv (s.setEnv { s.env with warning := w, count := n, outside := o }) where
  threshold := h.threshold
  limitWord := h.limitWord
  unsupervised hf := by
    have hs' : (s.setEnv { s.env with warning := w, count := n, outside := o }).supervised = true := hs
    rw [hs'] at hf
    cases hf
  count := hn

theorem EnvelopeInv.clearOverspeed (h : EnvelopeInv s) : EnvelopeInv (clearOverspeed s) where
  threshold := h.threshold
  limitWord := h.limitWord
  unsupervised hs := ⟨(h.unsupervised hs).1, rfl, rfl⟩
  count := Nat.zero_le 2

theorem EnvelopeInv.outside (h : EnvelopeInv s) (o : Bool) : EnvelopeInv (s.setEnv { s.env with outside := o }) where
  threshold := h.threshold
  limitWord := h.limitWord
  unsupervised := h.unsupervised
  count := h.count

/-- R76: a partial evaluation leaves the laws of the envelope in force, whatever the trip was, if the count is at most 2. -/
theorem partialEvaluation_envelopeInv (h : s.env.count ≤ 2) : EnvelopeInv (partialEvaluation s) := by
  cases hs : s.supervised with
  | false =>
    rw [partialEvaluation_off s hs]
    exact ⟨by simp, by simp, fun _ => ⟨rfl, rfl, rfl⟩, Nat.zero_le 2⟩
  | true =>
    have hs' : (Machine.recompute s).supervised = true := hs
    unfold partialEvaluation
    simp only [hs', if_true]
    exact ⟨rfl, rfl, fun hf => absurd (hs'.symm.trans hf) (by decide), h⟩

/-- R164: the record of a cause that is not listed joins a list with room. -/
theorem CauseInv.record (h : CauseInv s) {c : Cause} (hc : ¬listed c s.safety.causes = true)
    (hroom : s.safety.causes.length < 8) :
    CauseInv (s.setSafety { s.safety with causes := s.safety.causes ++ [causeRecord c s] }) where
  atMost := by simp; omega
  distinct := by
    simp only [State.setSafety_safety, List.map_append, List.map_cons, List.map_nil]
    refine List.nodup_append.mpr ⟨h.distinct, List.nodup_singleton _, fun a ha b hb heq => hc ?_⟩
    obtain ⟨r, hr, rfl⟩ := List.mem_map.mp ha
    rw [List.mem_singleton.mp hb] at heq
    injection heq with hkind horigin
    exact (listed_iff c _).mpr ⟨r, hr, hkind, horigin⟩
  lost hl := by
    have := h.lost hl
    omega

/-! The trip record (chapter 6) -/

theorem originate_moves (p : Payload) : Moves [.offers] s (originate p s) := (Move.originate s p).moves

theorem reportTrip_moves (d : Depth) (o : WindingOutcome) : Moves [.offers] s (reportTrip d o s) := by
  rcases reportTrip_originates s d o with h | ⟨p, h⟩ <;> rw [h]
  · exact .refl s
  · exact originate_moves s p

/-- A change of the trip record that leaves the call list, with its partial evaluation. -/
theorem evaluated_moves (x : TripUnit) (h : x.calls = s.trip.calls) :
    Moves [.trip] s (partialEvaluation (s.setTrip x)) :=
  (Move.evaluated s x fun hs => hs.of_eq s h).moves

/-- A change of the trip record that leaves the call list, with its partial evaluation and its report (R76, R122). -/
theorem reported_moves (x : TripUnit) (d : Depth) (o : WindingOutcome) (h : x.calls = s.trip.calls) :
    Moves [.trip, .offers] s (reportTrip d o (partialEvaluation (s.setTrip x))) :=
  .trans (evaluated_moves s x h).of (reportTrip_moves _ d o).of

theorem callsAfter_sublist (r : TripResult) (x : TripRecord) (l : List CallEntry) : (callsAfter r x l).Sublist l := by
  unfold callsAfter
  split
  · exact List.filter_sublist
  · exact List.Sublist.refl _

theorem closeTrip_moves (r : TripResult) : Moves closingBlocks s (closeTrip r s) := by
  unfold closeTrip
  dsimp only
  have hclosed : Moves closingBlocks s (takePending (partialEvaluation (s.setTrip
      { s.trip with record := s.trip.record.closed r, calls := callsAfter r s.trip.record s.trip.calls,
                    autoStartMs := none }))) :=
    .trans (Move.evaluated s { s.trip with record := s.trip.record.closed r, calls := callsAfter r s.trip.record s.trip.calls,
                                           autoStartMs := none } fun hs =>
      hs.sublist s (callsAfter_sublist _ _ _)).moves (Move.depth _ _).moves
  refine Moves.trans (.ite ?_ hclosed) (reportTrip_moves _ _ _).of
  exact .trans hclosed (raise_moves _ .tripExpired).of

theorem enterStoppingOn_moves (x : SampleSet) : Moves [.trip, .offers] s (enterStoppingOn x s) := by
  unfold enterStoppingOn
  split
  · exact .refl s
  · exact reported_moves s { s.trip with record := _ } _ _ (by rfl)

theorem enterStopping_moves : Moves [.trip, .offers] s (enterStopping s) := enterStoppingOn_moves s _

theorem enterRunning_moves : Moves [.trip, .offers] s (enterRunning s) :=
  reported_moves s _ _ _ (by rfl)

theorem enterSuspended_moves : Moves [.trip, .offers] s (enterSuspended s) :=
  reported_moves s { s.trip with record := _ } _ _ (by rfl)

theorem arm_moves (n : TripNumber) (t : TripDetails) : Moves [.trip, .offers] s (arm n t s) := by
  unfold arm
  exact reported_moves s _ _ _ (by rfl)

theorem openTrip_moves (t : TripDetails) : Moves [.event 8, .trip, .offers] s (openTrip t s) :=
  .trans (leave_moves s .tripExpired).of (arm_moves _ _ _).of

theorem openRecovery_moves : Moves [.event 8, .trip, .offers] s (openRecovery s) := by
  unfold openRecovery
  refine Moves.trans (leave_moves s .tripExpired).of ?_
  exact (reported_moves (leave .tripExpired s) { (leave .tripExpired s).trip with record := _ } _ _ (by rfl)).of

/-! The cause list (chapter 9) -/

theorem tripTold_moves : Moves closingBlocks s (tripTold s) := .when (closeTrip_moves s _)

theorem deliver_moves (c : Cause) : Moves deliveryBlocks s (deliver c s) := by
  by_cases h : listed c s.safety.causes = true
  · rw [deliver_of_listed h]
    exact .refl s
  by_cases hroom : s.safety.causes.length < 8
  · rw [deliver_of_room h hroom]
    have hset : Moves deliveryBlocks s
        (s.setSafety { s.safety with causes := s.safety.causes ++ [causeRecord c s] }) :=
      (Move.safety s _ fun hs => hs.record s h hroom).moves
    have hrecorded : Moves deliveryBlocks s (recordCause c s) :=
      .ite (.trans hset (raise_moves _ .safetyTrip).of) hset
    exact .trans hrecorded (tripTold_moves _).of
  · rw [deliver_of_full h (by omega)]
    refine .ite (.refl s) ?_
    exact .trans (Move.safety s { s.safety with causesLost := true } fun hs =>
      ⟨hs.atMost, hs.distinct, fun _ => by have := hs.atMost; simp only [State.setSafety_safety]; omega⟩).moves
      (raise_moves _ .causesLost).of

theorem deliverAll_moves (cs : List Cause) : Moves deliveryBlocks s (deliverAll cs s) := by
  induction cs generalizing s with
  | nil => exact .refl s
  | cons c cs ih => exact (deliver_moves s c).trans (ih _)

theorem pressReset_moves : Moves [.safety, .event 13, .event 15, .event 8, .trip, .offers] s (pressReset s) := by
  unfold pressReset
  refine .ite (.refl s) ?_
  split
  · rename_i r _
    exact .trans (Move.safety s { s.safety with refusal := some r } fun hs => ⟨hs.atMost, hs.distinct, hs.lost⟩).moves
      (raise_moves _ .resetRefused).of
  · have hcleared := (Move.safety s { causes := [], causesLost := false, refusal := none } fun _ =>
      ⟨by simp, by simp, by simp⟩).moves (bs := [.safety, .event 13, .event 15, .event 8, .trip, .offers])
    have hleft := hcleared.trans (.trans (leave_moves _ .safetyTrip).of (leave_moves _ .resetRefused).of)
    exact .ite hleft (.trans hleft (openRecovery_moves _).of)

/-! The full evaluation (R75) and the path (R102) -/

/-- What the full evaluation touches: the envelope and OVERSPEED WARNING, and what a delivery touches. -/
abbrev evaluationBlocks : List Block :=
  [.env, .event 14, .safety, .event 15, .event 12, .trip, .depth, .event 8, .offers]

theorem nextCount_le (v : Int) (e : Envelope) : nextCount v e ≤ 2 := by
  unfold nextCount; split <;> omega

theorem judgeWarning_moves (v : Int) (h : s.supervised = true) : Moves [.env, .event 14] s (judgeWarning v s) := by
  unfold judgeWarning
  have hset : Moves [.env, .event 14] s (s.setEnv { s.env with warning := decide (s.env.vPerm.val < v.natAbs) }) :=
    (Move.env s _ fun hs => hs.of_supervised s h _ hs.count _).moves
  exact .ite (.trans hset (raise_moves _ .overspeedWarning).of) hset

@[simp] theorem judgeWarning_trip (v : Int) : (judgeWarning v s).trip = s.trip := by
  unfold judgeWarning; dsimp only; split <;> simp

theorem fullEvaluation_moves : Moves evaluationBlocks s (fullEvaluation s) := by
  have hrecompute : Moves evaluationBlocks s (recompute s) := (Move.env s _ fun hs => hs.recompute s).moves
  unfold fullEvaluation
  dsimp only
  refine Moves.trans ?_ (deliverAll_moves _ _).of
  refine Moves.trans ?_ (Move.env _ _ fun hs => hs.outside _ _).moves
  refine hrecompute.trans ?_
  split
  · rename_i hs
    refine .trans (judgeWarning_moves _ _ hs).of (Move.env _ _ fun h => ?_).moves
    refine h.of_supervised _ ?_ _ (nextCount_le _ _) _
    unfold State.supervised State.tripState at hs ⊢
    rwa [judgeWarning_trip]
  · exact (Move.env _ _ fun h => h.clearOverspeed _).moves

theorem evaluatePathOn_moves (x : SampleSet) : Moves deliveryBlocks s (evaluatePathOn x s) := by
  unfold evaluatePathOn
  split
  · exact .refl s
  · dsimp only
    split
    · exact .when (closeTrip_moves s _).of
    · exact .ite (deliver_moves s _) (.when (enterStoppingOn_moves s _).of)
    · exact .when (deliver_moves s _)
    · exact .refl s

theorem evaluatePath_moves : Moves deliveryBlocks s (evaluatePath s) := evaluatePathOn_moves s _

/-! Signals and calls (R95 to R99, R120, R121), holds and the loss of the line (R116, R118) -/

theorem takeGo_moves (origin dest : Station) (cls : TripClass) (auto : Bool) :
    Moves closingBlocks s (takeGo origin dest cls auto s) := by
  unfold takeGo
  split
  · exact (originate_moves s _).of
  · exact .ite (arm_moves s _ _).of (openTrip_moves s _).of

theorem takeStop_moves : Moves closingBlocks s (takeStop s) := by
  unfold takeStop
  split
  · exact closeTrip_moves s _
  · exact (enterStopping_moves s).of
  · exact .refl s

theorem takeCancel_moves (origin : Station) : Moves closingBlocks s (takeCancel origin s) := by
  unfold takeCancel
  split
  · exact .when (closeTrip_moves s _)
  · exact .when (enterStopping_moves s).of
  · exact closeTrip_moves s _
  · exact .refl s

theorem takeSignal_moves (origin dest : Station) (cls : TripClass) (word : SignalWord) (auto : Bool) :
    Moves closingBlocks s (takeSignal origin dest cls word auto s) := by
  cases word with
  | go => exact takeGo_moves s origin dest cls auto
  | stop => exact takeStop_moves s
  | cancel => exact takeCancel_moves s origin

/-- R120: a REGISTER keeps the call list at 8 entries at most, one per origin. -/
theorem registerCall_callInv (origin : Station) (cls : TripClass) (now : Nat) (h : CallInv s) :
    CallInv (s.setTrip { s.trip with calls := registerCall origin cls now s.trip.calls }) := by
  unfold registerCall
  split
  · refine ⟨by simpa using h.atMost, ?_⟩
    have horigins : s.trip.calls.map ((·.origin) ∘ fun e : CallEntry =>
        if e.origin == origin then { e with cls := higherClass e.cls cls } else e) = s.trip.calls.map (·.origin) :=
      List.map_congr_left fun e _ => by dsimp only [Function.comp]; split <;> rfl
    simp only [State.setTrip_trip, List.map_map, horigins]
    exact h.distinct
  · rename_i hnone
    split
    · rename_i hroom
      refine ⟨by simpa [Config.listCapacity] using hroom, ?_⟩
      simp only [State.setTrip_trip, List.map_append, List.map_cons, List.map_nil]
      refine List.nodup_append.mpr ⟨h.distinct, List.nodup_singleton _, fun a ha b hb heq => hnone ?_⟩
      obtain ⟨e, he, rfl⟩ := List.mem_map.mp ha
      rw [List.mem_singleton.mp hb] at heq
      exact List.any_eq_true.mpr ⟨e, he, by simpa using heq⟩
    · exact h

theorem takeCall_moves (origin : Station) (cls : TripClass) (word : CallWord) :
    Moves [.trip] s (takeCall origin cls word s) := by
  cases word with
  | register =>
    unfold takeCall takeRegister
    exact (Move.trip s _ (by rfl) (registerCall_callInv s origin cls s.clock.now)).moves
  | cancel =>
    unfold takeCall takeCallCancel
    exact (Move.trip s { s.trip with calls := removeCall origin s.trip.calls } (by rfl) fun h =>
      h.sublist s List.filter_sublist).moves

theorem holdJoined_moves : Moves closingBlocks s (holdJoined s) := by
  unfold holdJoined
  refine .ite (.refl s) ?_
  split
  · exact closeTrip_moves s _
  · exact (enterStopping_moves s).of
  · exact .refl s

theorem lineLost_moves : Moves closingBlocks s (lineLost s) := by
  unfold lineLost
  split
  · exact closeTrip_moves s _
  · exact (enterStopping_moves s).of
  · exact .refl s

/-! The station table and the hold set (R40 to R48) -/

/-- What a report of the Picture Store touches at a drum. -/
abbrev tableBlocks : List Block :=
  [.entries, .holdSet, .event 11, .event 10, .safety, .event 15, .event 12, .trip, .depth, .event 8, .offers]

theorem joinHold_moves (n : Station) : Moves tableBlocks s (joinHold n s) := by
  have hset : Moves tableBlocks s (setHoldSet (stationJoin s.stations.holdSet n) s) := (Move.holdSet s _).moves
  exact Moves.trans (.ite (.trans hset (raise_moves _ .hold).of) hset) (holdJoined_moves _).of

theorem judgeHold_moves (n : Station) (hold : Bool) : Moves tableBlocks s (judgeHold n hold s) :=
  .ite (.ite (.refl s) (joinHold_moves s n)) (.when (Move.holdSet s _).moves)

theorem judgeEstop_moves (n : Station) : Moves tableBlocks s (judgeEstop n s) := .when (deliver_moves s _).of

theorem takeAssent_moves (n : Station) (r : AssentReport) : Moves tableBlocks s (takeAssent n r s) :=
  .trans (Move.entry s n (assentEntry r s.stations.entries[n]) (by simp [assentEntry])).moves <|
    .trans (judgeHold_moves _ _ _) <| .trans (judgeEstop_moves _ _) (evaluatePath_moves _).of

/-- R41: an ANNOUNCE leaves no entry UNKNOWN. -/
theorem announceEntry_known (body : AnnounceBody) (e : StationEntry) : (announceEntry body e).state ≠ .unknown := by
  unfold announceEntry
  dsimp only
  split
  · simp
  · assumption

theorem takeAnnounce_moves (n : Station) (body : AnnounceBody) : Moves tableBlocks s (takeAnnounce n body s) :=
  .trans (Move.entry s n _ (announceEntry_known body _)).moves (evaluatePath_moves _).of

theorem expireEntry_moves (n : Station) : Moves tableBlocks s (expireEntry n s) := by
  have hset : Moves tableBlocks s (setEntry n { s.stations.entries[n] with state := .stale } s) :=
    (Move.entry s n _ (by simp)).moves
  exact Moves.trans (.ite (.trans hset (raise_moves _ .staleHolder).of) hset) (evaluatePath_moves _).of

theorem overrideHolds_moves : Moves tableBlocks s (overrideHolds s) :=
  .when (.trans (Move.holdSet s _).moves (evaluatePath_moves _).of)

/-! The Depth Unit (chapter 4) -/

theorem illegalChange_moves : Moves deliveryBlocks s (illegalChange s) := by
  have hset : Moves deliveryBlocks s (unverify (s.setDepth { s.depth with faultMs := some 0 })) :=
    .trans (Move.depth s _).moves (Move.depth _ _).moves
  exact .ite (hset.trans (deliver_moves _ _)) hset

theorem channelChange_moves (ch : Level × Level) : Moves deliveryBlocks s (channelChange ch s) := by
  unfold channelChange
  dsimp only
  refine Moves.trans (Move.depth s { s.depth with channel := some ch }).moves ?_
  split
  · exact .refl _
  · exact (Move.depth _ _).moves
  · exact (Move.depth _ _).moves
  · exact illegalChange_moves _

theorem takeMark_moves (surveyed : Depth) : Moves deliveryBlocks s (takeMark surveyed s) := by
  unfold takeMark
  split
  · exact .refl s
  · refine .ite (.refl s) <| .ite (Move.depth s _).moves <| .ite ?_ (.when (Move.depth s _).moves)
    exact .trans (Move.depth s _).moves (deliver_moves _ _)

theorem requestMode_moves : Moves [.depth, .event 7] s (requestMode s) := by
  unfold requestMode
  refine .ite (Move.depth s _).moves (.ite ?_ (Move.depth s _).moves)
  exact .trans (Move.depth s _).moves (raise_moves _ .correctionPending).of

theorem requestClear_moves : Moves [.depth, .event 7] s (requestClear s) := by
  unfold requestClear
  refine .ite (.ite (.refl s) ?_) (Move.depth s _).moves
  exact .trans (Move.depth s _).moves (raise_moves _ .correctionPending).of

/-! The sample (R55, R103 to R115, R123) -/

/-- What a sample touches. -/
abbrev sampleBlocks : List Block :=
  [.clock, .picture, .env, .event 14, .safety, .event 15, .event 12, .trip, .depth, .event 8, .offers]

theorem motionTest_moves : Moves deliveryBlocks s (motionTest s) := by
  have hset : Moves deliveryBlocks s (s.setTrip { s.trip with unauthorised := s.unauthorisedNow }) :=
    (Move.trip s { s.trip with unauthorised := s.unauthorisedNow } (by rfl) fun h => ⟨h.atMost, h.distinct⟩).moves
  exact .ite (hset.trans (deliver_moves _ _)) hset

theorem armedTest_moves (x : SampleSet) (t : TripDetails) (v : Int) : Moves deliveryBlocks s (armedTest x t v s) :=
  Moves.trans (.ite (enterRunning_moves s).of (.when (deliver_moves s _))) (evaluatePathOn_moves _ _)

theorem stateTest_moves (x : SampleSet) : Moves deliveryBlocks s (stateTest x s) := by
  unfold stateTest
  split
  · exact armedTest_moves s _ _ _
  · exact .ite (closeTrip_moves s _).of (evaluatePathOn_moves s _)
  · exact .ite (closeTrip_moves s _).of (.ite (enterSuspended_moves s).of (evaluatePathOn_moves s _))
  · exact .refl s

theorem tripSample_moves (x : SampleSet) : Moves deliveryBlocks s (tripSample x s) :=
  (stateTest_moves s x).trans (motionTest_moves _)

theorem writeOwnRecords_moves : Moves [.picture] s (writeOwnRecords s) :=
  (Move.picture s s.cfg.winder (some s.ownCarrying) (some s.ownCounterweight) fun _ => rfl).moves

theorem buildPosition_moves : Moves [.trip, .picture, .offers] s (buildPosition s) := by
  unfold buildPosition
  refine .when (Moves.trans (.trans ?_ (writeOwnRecords_moves _).of) (originate_moves _ _).of)
  exact (Move.trip s { s.trip with positionSeq := _, sincePosition := some 0 } (by rfl) fun h =>
    ⟨h.atMost, h.distinct⟩).moves

theorem takeSample_moves : Moves [.depth] s (takeSample s) := (Move.depth s _).moves

theorem sampleStep_moves (first : Bool) : Moves sampleBlocks s (sampleStep first s) := by
  unfold sampleStep
  dsimp only
  refine Moves.trans ?_ (.trans (writeOwnRecords_moves _).of (buildPosition_moves _).of)
  have htaken : Moves sampleBlocks s (takeSample (countSampleTime s)) :=
    .trans (Move.trip s { s.trip with sincePosition := s.trip.sincePosition.map (· + Config.sampleTime) } (by rfl) fun h =>
      ⟨h.atMost, h.distinct⟩).moves <| .trans (Move.clock _ _).moves (takeSample_moves _).of
  refine htaken.trans (.ite ?_ ?_)
  · exact .trans (fullEvaluation_moves _).of (tripSample_moves _ _).of
  · exact .trans (tripSample_moves _ _).of (fullEvaluation_moves _).of

end Sys2Proof.Machine
end

