-- ==== Sys2Proof/Proofs/GateMoves.lean ====
section
/-! PROOFS. Sys2Proof/Proofs/GateMoves.lean: the operations of the Gate and Key Unit and of the Loading Sequencer (chapters 7 and
8), and of the lamps' keys (chapter 10), as chains of changes. -/
set_option Elab.async false

namespace Sys2Proof.Machine

theorem StartInv.of_eq {s t : State} (h : StartInv s) (hl : t.loader = s.loader) (hc : t.cfg = s.cfg) : StartInv t := by
  obtain ⟨hreset, hreading, hlisten, hrole⟩ := h
  refine ⟨?_, ?_, ?_, ?_⟩
  · simpa only [State.inReset, State.phase, hl] using hreset
  · simpa only [State.phase, hl] using hreading
  · simpa only [State.phase, hl] using hlisten
  · simpa only [State.working, State.phase, hl, hc] using hrole

variable (s : State)

/-- A change of the sequencer keeps its laws where it enters DISCHARGE at a loading station in RUN alone, and leaves no timer or
arrival number behind in a state that it leaves. -/
theorem SequencerInv.change {s : State} (h : SequencerInv s) {q : Sequencer}
    (hdischarge : q.cycle = s.seq.cycle ∨ q.cycle ≠ .discharge ∨ (s.isLoading = true ∧ s.phase = .run) := by simp)
    (hdoor : q.doorMs = none ∨ q.cycle = .doorClosing ∨
      (q.doorMs = s.seq.doorMs ∧ (q.cycle = s.seq.cycle ∨ s.seq.cycle ≠ .doorClosing)) := by simp)
    (hdwell : q.dwellMs = none ∨ q.tip = .dwell ∨
      (q.dwellMs = s.seq.dwellMs ∧ (q.tip = s.seq.tip ∨ s.seq.tip ≠ .dwell)) := by simp)
    (hreply : q.auto.replyMs = none ∨ q.auto.status = .awaiting ∨
      (q.auto.replyMs = s.seq.auto.replyMs ∧ q.auto.status = s.seq.auto.status) := by simp)
    (harrival : q.arrival = none ∨ q.tip = .tipWait ∨
      (q.arrival = s.seq.arrival ∧ (q.tip = s.seq.tip ∨ s.seq.tip ≠ .tipWait)) := by simp) :
    SequencerInv (s.setSeq q) where
  start := h.start.of_eq rfl rfl
  discharge hq := by
    rcases hdischarge with he | hne | hat
    · exact h.discharge (he ▸ hq)
    · exact absurd hq hne
    · exact hat
  door hq := by
    rcases hdoor with he | hc | ⟨he, hc⟩
    · exact absurd he hq
    · exact hc
    · have hwas := h.door (he ▸ hq)
      exact hc.elim (fun hc => hc.trans hwas) (absurd hwas)
  dwell hq := by
    rcases hdwell with he | hc | ⟨he, hc⟩
    · exact absurd he hq
    · exact hc
    · have hwas := h.dwell (he ▸ hq)
      exact hc.elim (fun hc => hc.trans hwas) (absurd hwas)
  reply hq := by
    rcases hreply with he | hc | ⟨he, hc⟩
    · exact absurd he hq
    · exact hc
    · exact hc.trans (h.reply (he ▸ hq))
  arrival hq := by
    rcases harrival with he | hc | ⟨he, hc⟩
    · exact absurd he hq
    · exact hc
    · have hwas := h.arrival (he ▸ hq)
      exact hc.elim (fun hc => hc.trans hwas) (absurd hwas)

/-! The automatic GO (R155, R156, R158) -/

@[simp] theorem originateGo_seq : (originateGo s).seq =
    { s.seq with auto := { s.seq.auto with status := .awaiting, number := none, replyMs := some 0 } } := by
  simp [originateGo]

theorem originateGo_moves : Moves [.seq, .offers] s (originateGo s) :=
  .trans (originate_moves s _).of (Move.seq _ _ fun h => h.change).moves

theorem judgeLoadGo_moves : Moves [.seq, .offers] s (judgeLoadGo s) := by
  unfold judgeLoadGo
  split
  · rename_i hcond
    have hc : s.seq.cycle = .loaded := by simp at hcond; exact hcond.1.1.2
    exact .trans (originateGo_moves s) (Move.seq _ _ fun h => h.change (by simp) (by simp [hc])).moves
  · exact .refl s

theorem judgeTipGo_moves : Moves [.seq, .offers] s (judgeTipGo s) := by
  unfold judgeTipGo
  split
  · rename_i hcond
    have ht : s.seq.tip = .ready := by simp at hcond; exact hcond.1.1.2
    exact .trans (originateGo_moves s)
      (Move.seq _ _ fun h => h.change (hdwell := by simp [ht]) (harrival := by simp [ht])).moves
  · exact .refl s

theorem judgeGo_moves : Moves [.seq, .offers] s (judgeGo s) := .trans (judgeLoadGo_moves s) (judgeTipGo_moves _)

/-- R155: a station calls in two states of its cycle. -/
theorem calling_iff : s.calling = true ↔
    if s.isLoading then s.seq.cycle = .loaded ∨ s.seq.cycle = .waitDepart else s.seq.tip = .ready ∨ s.seq.tip = .returnSent := by
  unfold State.calling
  split <;> simp

theorem tellCycle_moves : Moves [.seq] s (tellCycle s) := by
  unfold tellCycle
  split
  · rename_i hcall
    rw [calling_iff] at hcall
    by_cases hl : s.isLoading = true
    · rw [if_pos hl] at hcall
      have hne : s.seq.cycle ≠ .doorClosing := by rcases hcall with h | h <;> simp [h]
      simp only [hl, if_true]
      exact (Move.seq s _ fun h => h.change (by simp) (by simp [hne])).moves
    · rw [if_neg hl] at hcall
      have hdwell : s.seq.tip ≠ .dwell := by rcases hcall with h | h <;> simp [h]
      have hwait : s.seq.tip ≠ .tipWait := by rcases hcall with h | h <;> simp [h]
      simp only [hl, Bool.false_eq_true, if_false]
      exact (Move.seq s _ fun h => h.change (hdwell := by simp [hdwell]) (harrival := by simp [hwait])).moves
  · exact .refl s

theorem autoEnds_moves : Moves [.seq] s (autoEnds s) :=
  .trans (Move.seq s _ fun h => h.change).moves (tellCycle_moves _)

theorem autoAccepts_moves (n : TripNumber) : Moves [.seq] s (autoAccepts n s) := (Move.seq s _ fun h => h.change).moves

theorem autoReport_moves (r : WindingReport) : Moves [.seq] s (autoReport r s) := by
  unfold autoReport
  split
  · exact autoEnds_moves s
  · exact .refl s
  · exact autoEnds_moves s
  · exact .when (autoEnds_moves s)
  · exact .refl s
  · exact .when (autoAccepts_moves s _)
  · exact autoAccepts_moves s _
  · exact autoAccepts_moves s _

theorem autoPosition_moves (r : PositionReport) : Moves [.seq] s (autoPosition r s) := .when (autoEnds_moves s)

/-! The flask cycle and the interlocks (R150 to R153, R156) -/

theorem judgeDischarge_moves : Moves [.seq] s (judgeDischarge s) := by
  unfold judgeDischarge
  split
  · rename_i hcond
    obtain ⟨⟨⟨hl, hr⟩, hc⟩, -⟩ : ((s.isLoading = true ∧ s.phase = .run) ∧ s.seq.cycle = .waitSkip) ∧
        s.dischargeCondition = true := by simpa using hcond
    exact (Move.seq s _ fun h => h.change (.inr (.inr ⟨hl, hr⟩)) (by simp [hc])).moves
  · exact .refl s

theorem enterWaitSkip_moves (h : s.seq.doorMs = none ∨ s.seq.cycle ≠ .doorClosing) : Moves [.seq] s (enterWaitSkip s) := by
  refine .trans (Move.seq s { s.seq with cycle := .waitSkip } fun hs => hs.change (by simp) ?_).moves (judgeDischarge_moves _)
  rcases h with h | h
  · exact .inl h
  · exact .inr (.inr ⟨rfl, .inr h⟩)

theorem doorReadsClosed_moves : Moves [.seq] s (doorReadsClosed s) := by
  unfold doorReadsClosed
  refine .when (.ite (Move.seq s _ fun h => h.change).moves ?_)
  exact .trans (Move.seq s { s.seq with doorMs := none } fun h => h.change).moves (enterWaitSkip_moves _ (.inl rfl))

theorem endDischarge_moves (complete : Bool) : Moves [.seq] s (endDischarge complete s) := by
  unfold endDischarge
  have hends : Moves [.seq] s (s.setSeq { s.seq with cycle := .doorClosing, complete := complete, doorMs := some 0 }) :=
    (Move.seq s _ fun h => h.change).moves
  exact .when (.ite (.trans hends (doorReadsClosed_moves _)) hends)

theorem interlock_moves (reason : HaltReason) (e : Event) : Moves [.offers, .event e.code] s (interlock reason e s) :=
  .trans ((originate_moves s _).of (by simp)) ((raise_moves _ e).of (by simp))

theorem judgeSkipMoved_moves : Moves [.seq, .offers, .event 14] s (judgeSkipMoved s) := by
  have hset : Moves [.seq, .offers, .event 14] s (s.setSeq { s.seq with skipMoved := s.skipMovesOpen }) :=
    (Move.seq s _ fun h => h.change).moves
  exact .ite (.trans hset (interlock_moves _ .skipMoved .skipMoved).of) hset

theorem skipDeparts_moves (h : s.seq.cycle ≠ .doorClosing) : Moves [.seq] s (skipDeparts s) :=
  .trans (Move.seq s _ fun hs => hs.change).moves (enterWaitSkip_moves _ (.inr h))

/-! The tip dwell, records and reports (R149 to R157, R159) -/

theorem judgeDwell_moves : Moves [.seq] s (judgeDwell s) := .when (Move.seq s _ fun h => h.change).moves

theorem tipLeaves_moves : Moves [.seq] s (tipLeaves s) :=
  (Move.seq s _ fun h => h.change (hreply := .inl rfl)).moves

theorem arrivalReport_moves (r : WindingReport) : Moves [.seq] s (arrivalReport r s) := by
  unfold arrivalReport
  split
  · rename_i hcond
    have ht : s.seq.tip = .tipWait := by simp at hcond; exact hcond.1.1.2
    refine .ite ?_ (.when (Move.seq s _ fun h => h.change).moves)
    exact .trans (Move.seq s { s.seq with arrival := some r.number } fun h => h.change (harrival := .inr (.inl ht))).moves
      (judgeDwell_moves _)
  · exact .refl s

theorem skipRecordChange_moves : Moves [.seq, .offers, .event 14] s (skipRecordChange s) := by
  unfold skipRecordChange
  refine .when (.ite (.trans ?_ (judgeSkipMoved_moves _)) (.when ?_))
  · split
    · exact (judgeDischarge_moves s).of
    · exact .ite (.refl s) (endDischarge_moves s _).of
    · exact .refl s
    · rename_i hc
      exact .when (skipDeparts_moves s (by simp [hc])).of
    · rename_i hc
      exact .when (skipDeparts_moves s (by simp [hc])).of
  · split
    · exact (judgeDwell_moves s).of
    · exact .when (tipLeaves_moves s).of
    · exact .when (tipLeaves_moves s).of
    · exact .when (tipLeaves_moves s).of

theorem sequencerReport_moves (r : WindingReport) : Moves [.seq] s (sequencerReport r s) :=
  .when (.ite (.trans (arrivalReport_moves s r) (autoReport_moves _ r)) (arrivalReport_moves s r))

theorem standingHalt_moves (stands : Bool) (reason : HaltReason) : Moves [.offers] s (standingHalt stands reason s) :=
  .when (originate_moves s _)

theorem sequencerEntersRun_moves : Moves [.seq, .offers] s (sequencerEntersRun s) := by
  have hmoved : ∀ (b : Bool) (u : State), Moves [.seq, .offers] u (u.setSeq { u.seq with skipMoved := b }) := fun b u =>
    (Move.seq u _ fun h => h.change).moves
  refine .ite ?_ (judgeDwell_moves s).of
  exact .trans (judgeDischarge_moves s).of <| .trans (hmoved _ _) <| .trans (standingHalt_moves _ _ _).of <|
    .trans (standingHalt_moves _ _ _).of (standingHalt_moves _ _ _).of

/-! Gate records (R128 to R134, R147) -/

theorem gateCondition_run {w : Winder} (h : s.gateCondition w = true) : s.phase = .run := by
  unfold State.gateCondition at h
  simp at h
  exact h.1

/-- A gate record takes a state other than RELEASABLE. -/
theorem setGate_moves (w : Winder) (g : GateRecord) (hs : g.settleMs ≠ none → g.state = .locked)
    (hr : g.state ≠ .releasable) : Moves [.records] s (setGate w g s) :=
  (Move.record s w g hs fun h => absurd h hr).moves

/-- In RUN a gate record may become RELEASABLE (R147). -/
theorem setGate_releasable_moves (w : Winder) (h : s.phase = .run) :
    Moves [.records] s (setGate w (GateRecord.inState .releasable) s) :=
  (Move.record s w _ (by simp [GateRecord.inState]) fun _ => h).moves

theorem setGate_locked_moves (w : Winder) (n : Option Nat) : Moves [.records] s (setGate w (GateRecord.locked n) s) :=
  setGate_moves s w _ (fun _ => rfl) (by simp [GateRecord.locked])

theorem judgeOpen_moves (w : Winder) : Moves [.records] s (judgeOpen w s) := by
  unfold judgeOpen
  refine .when ?_
  split
  · rename_i hc
    exact setGate_releasable_moves s w (gateCondition_run s hc)
  · exact .when (setGate_locked_moves s w _)

theorem conditionJudged_moves (was : Bool) (w : Winder) : Moves [.records] s (conditionJudged was w s) := by
  unfold conditionJudged
  split
  · rename_i hcond
    have hr : s.phase = .run := by simp at hcond; exact hcond.1.2
    split
    · exact .when (setGate_releasable_moves s w hr)
    · exact .ite (.refl s) (setGate_locked_moves s w _)
    · exact judgeOpen_moves s w
    · exact .refl s
  · exact .refl s

theorem setGate_inState_moves (w : Winder) {st : GateState} (h : st ≠ .releasable) :
    Moves [.records] s (setGate w (GateRecord.inState st) s) :=
  setGate_moves s w _ (by simp [GateRecord.inState]) h

theorem gateOpens_moves (w : Winder) : Moves [.records, .offers, .event 15] s (gateOpens w s) := by
  unfold gateOpens
  split
  · exact .trans (setGate_inState_moves s w (by decide)).of <| .trans (originate_moves _ _).of (raise_moves _ .gateForced).of
  · exact (setGate_inState_moves s w (by decide)).of
  · exact .refl s
  · exact .refl s

theorem gateCloses_moves (w : Winder) : Moves [.records] s (gateCloses w s) := by
  unfold gateCloses
  split
  · exact judgeOpen_moves s w
  · exact .refl s
  · exact .refl s
  · exact .refl s

theorem lockChanges_moves (engaged : Bool) (w : Winder) : Moves [.records] s (lockChanges engaged w s) := by
  unfold lockChanges
  split
  · exact .when (setGate_locked_moves s w _)
  · exact judgeOpen_moves s w
  · exact .refl s
  · exact .refl s

/-- What is done winder by winder is a chain of what is done for one winder. -/
theorem foldl_moves {bs : List Block} {f : State → Winder → State} {P : State → Prop}
    (hf : ∀ s w, P s → Moves bs s (f s w) ∧ P (f s w)) (ws : List Winder) (h : P s) : Moves bs s (ws.foldl f s) := by
  induction ws generalizing s with
  | nil => exact .refl s
  | cons w ws ih => exact .trans (hf s w h).1 (ih _ (hf s w h).2)

theorem acknowledgeGates_moves : Moves [.records] s (acknowledgeGates s) := by
  refine .when (foldl_moves s (P := fun _ => True) (fun u w _ => ⟨?_, trivial⟩) _ trivial)
  exact .when (.when (setGate_locked_moves u w _))

theorem gatesEnterRun_moves (h : s.phase = .run) : Moves [.records] s (gatesEnterRun s) := by
  refine foldl_moves s (P := fun u => u.phase = .run) (fun u w hu => ⟨?_, ?_⟩) _ h
  · exact .when (.ite (.ite (setGate_releasable_moves u w hu) (setGate_locked_moves u w _))
      (setGate_inState_moves u w (by decide)))
  · unfold gateEntersRun
    split
    · split
      · split <;> exact hu
      · exact hu
    · exact hu

/-- R135, R136: the ASSENT timer restarts and the ASSENT is offered, in RUN. -/
theorem originateAssent_moves : Moves [.assentMs, .offers] s (originateAssent s) := by
  unfold originateAssent
  split
  · rename_i hcond
    have hr : s.phase = .run := by simp at hcond; exact hcond.2
    exact .trans (Move.assentMs s _ fun _ => hr).moves (originate_moves _ _).of
  · exact .refl s

/-! The signal and call records (R138 to R143) -/

theorem signalBecomes_moves (st : SignalStatus) (n : Option TripNumber) : Moves [.signal] s (signalBecomes st n s) :=
  (Move.signal s _ (by simp) fun _ => by simp).moves

theorem signalRefused_moves (c : Option RefusalCause) :
    Moves [.signal, .refusedCause, .event 11] s (signalRefused c s) :=
  .trans (Move.signal s _ (by simp) fun _ => by simp).moves <|
    .trans (Move.refusedCause _ c).moves (raise_moves _ .refused).of

theorem signalExpires_moves (n : TripNumber) : Moves [.signal, .event 9] s (signalExpires n s) :=
  .trans (signalBecomes_moves s _ _).of (raise_moves _ .expired).of

/-- What a WINDING may touch of the signal record and its events. -/
abbrev signalBlocks : List Block := [.signal, .refusedCause, .event 11, .event 9]

theorem matchingReport_moves (r : WindingReport) : Moves signalBlocks s (matchingReport r s) := by
  have hends : ∀ c : Bool, Moves signalBlocks s
      (if c = true then signalExpires r.number s else signalBecomes .idle (some r.number) s) := fun c =>
    .ite (signalExpires_moves s _).of (signalBecomes_moves s _ _).of
  unfold matchingReport
  dsimp only
  split
  · exact (signalRefused_moves s _).of
  · split
    · exact hends _
    · exact hends _
    · exact .when (hends _)
    · exact .when (signalExpires_moves s _).of
    · exact .refl s
    · exact .refl s
  · exact (signalBecomes_moves s _ _).of

theorem signalReport_moves (r : WindingReport) : Moves signalBlocks s (signalReport r s) :=
  .when (.ite (matchingReport_moves s r) (.when (signalBecomes_moves s _ _).of))

theorem signalPosition_moves (r : PositionReport) : Moves [.signal] s (signalPosition r s) :=
  .when (signalBecomes_moves s _ _)

/-- R142: a call record takes a miss count of its own or one up to 2. -/
theorem setCall_moves (w : Winder) (r : CallRecord) (h : r.misses = s.gate.calls[w].misses ∨ r.misses ≤ 2) :
    Moves [.calls] s (setCall w r s) :=
  (Move.call s w r fun hm => h.elim (fun h => h ▸ hm) id).moves

/-- What the judging of a call record may touch. -/
abbrev callBlocks : List Block := [.calls, .missed, .event 8]

theorem missed_moves (ws : WinderSet) : Moves [.missed] s (setNotRegistered ws s) := (Move.missed s ws).moves

theorem callMissed_moves (w : Winder) : Moves callBlocks s (callMissed w s) :=
  .trans (setCall_moves s w _ (.inr (by decide))).of <| .trans (Move.missed _ _).moves (raise_moves _ .callNotRegistered).of

theorem callPosition_moves (r : PositionReport) : Moves callBlocks s (callPosition r s) := by
  have hcall : ∀ c : CallRecord, c.misses = s.gate.calls[r.winder].misses ∨ c.misses ≤ 2 →
      Moves callBlocks s (setCall r.winder c s) := fun c h => (setCall_moves s _ c h).of
  unfold callPosition
  dsimp only
  split
  · exact .refl s
  · refine .ite (hcall _ (.inl rfl)) ?_
    split
    · exact hcall _ (.inr (by dsimp only; omega))
    · exact callMissed_moves s _
  · exact .ite (.refl s) (hcall _ (.inl rfl))
  · split
    · refine .trans ?_ (missed_moves _ _).of
      exact hcall _ (.inl rfl)
    · exact .refl s

theorem sentSignal_moves (w : Winder) : Moves [.signal] s (setSignal (sentSignal w) s) :=
  (Move.signal s _ (fun _ => rfl) fun _ h => absurd rfl h).moves

theorem pressSend_moves (dest : Station) (cls : TripClass) :
    Moves [.signal, .offers, .event 11, .event 9, .event 10] s (pressSend dest cls s) := by
  unfold pressSend
  dsimp only
  refine Moves.trans ?_ (leave_moves _ .noReply).of
  refine Moves.trans ?_ (leave_moves _ .expired).of
  refine Moves.trans ?_ (leave_moves _ .refused).of
  exact Moves.trans (originate_moves s _).of (sentSignal_moves _ _).of

theorem pressCall_moves (cls : TripClass) : Moves [.calls, .missed, .offers] s (pressCall cls s) := by
  rw [pressCall_eq]
  dsimp only
  refine Moves.trans (Moves.trans (originate_moves s _).of (setCall_moves _ _ _ ?_).of) (Move.missed _ _).moves
  rw [originate_gate]
  unfold pressedCall
  split
  · exact .inr (Nat.zero_le 2)
  · exact .inl rfl

/-! The Picture Store's POSITION, and keys -/

/-- What a change of a conveyance record may touch, beside the record. -/
abbrev recordBlocks : List Block := [.records, .seq, .offers, .event 14]

theorem recordChange_moves (was : Bool) (w : Winder) : Moves recordBlocks s (recordChange was w s) := by
  unfold recordChange
  refine .trans (.ite ?_ (conditionJudged_moves s was w).of) (judgeGo_moves _).of
  exact .trans (conditionJudged_moves s was w).of (skipRecordChange_moves _).of

/-- What a POSITION may touch. -/
abbrev positionBlocks : List Block :=
  [.picture, .signal, .calls, .missed, .event 8, .records, .seq, .offers, .event 14]

theorem acceptPosition_moves (r : PositionReport) : Moves positionBlocks s (acceptPosition r s) := by
  have hframe : ∀ u : State, Moves positionBlocks u
      (if u.hasGates then autoPosition r (callPosition r (signalPosition r u)) else u) := fun u =>
    .when (.trans (signalPosition_moves u r).of <| .trans (callPosition_moves _ r).of (autoPosition_moves _ r).of)
  exact .trans (Move.picture s _ _ _ fun _ => rfl).moves <| .trans (recordChange_moves _ _ _).of (hframe _)

theorem takePosition_moves (r : PositionReport) : Moves positionBlocks s (takePosition r s) :=
  .when (acceptPosition_moves s r)

theorem expireRecord_moves (w : Winder) :
    Moves [.picture, .event 6, .records, .seq, .offers, .event 14] s (expireRecord w s) := by
  unfold expireRecord
  dsimp only
  have hset : Moves [.picture, .event 6, .records, .seq, .offers, .event 14] s
      (writeRecords w (s.picture.carrying[w].map Carrying.stale) (s.picture.counterweight[w].map Counterweight.stale) s) := by
    refine (Move.picture s w _ _ fun h => ?_).moves
    cases hx : s.picture.carrying[w] <;> cases hy : s.picture.counterweight[w] <;> rw [hx, hy] at h <;>
      simp_all [Carrying.stale, Counterweight.stale]
  refine .trans (.ite ?_ hset) (recordChange_moves _ _ _).of
  exact .trans hset (raise_moves _ .pictureStale).of

theorem acknowledgeEvent_moves : Moves [.events, .missed] s (acknowledgeEvent s) := by
  have hset : ∀ events : BitVec 16, Moves [.events, .missed] s (setEvents events s) := fun events =>
    (Move.events s events).moves
  unfold acknowledgeEvent
  split
  · exact .refl s
  · exact Moves.trans (hset _) (.when (missed_moves _ 0).of)

/-! The flask's inputs (R150 to R153) -/

theorem flaskEmptyChanged_moves (on : Bool) : Moves [.seq] s (flaskEmptyChanged on s) :=
  .when (.ite (.when (endDischarge_moves s _)) (judgeDischarge_moves s))

theorem doorChanged_moves (closed : Bool) : Moves [.seq, .offers, .event 12, .event 14] s (doorChanged closed s) := by
  unfold doorChanged
  refine .when (.trans (.ite ?_ (.ite (.refl s) (interlock_moves s .flaskDoor .flaskDoor).of)) (judgeSkipMoved_moves _).of)
  exact .trans (doorReadsClosed_moves s).of (judgeDischarge_moves _).of

theorem spillageChanged_moves (active : Bool) : Moves [.seq, .offers, .event 13] s (spillageChanged active s) := by
  unfold spillageChanged
  refine .when (.ite ?_ (judgeDischarge_moves s).of)
  exact .trans (endDischarge_moves s _).of (interlock_moves _ .spillage .spillage).of

end Sys2Proof.Machine
end

