-- ==== Sys2Proof/Proofs/LineMoves.lean ====
section
/-! PROOFS. Sys2Proof/Proofs/LineMoves.lean: the line ports, the Frame Handler and the Relay Unit (chapters 1 and 2), the entry to
LISTEN-ONLY, the phases, and the end of a step as chains of changes. -/
set_option Elab.async false

namespace Sys2Proof.Machine

variable (s : State)

/-! The entry to LISTEN-ONLY (R185) -/

theorem originate_of_not_run {s : State} (h : s.phase ≠ .run) (p : Payload) : originate p s = s := by
  unfold originate; rw [if_neg h]

theorem reportTrip_of_not_run {s : State} (h : s.phase ≠ .run) (d : Depth) (o : WindingOutcome) : reportTrip d o s = s := by
  rcases reportTrip_originates s d o with h' | ⟨p, h'⟩ <;> rw [h']
  exact originate_of_not_run h p

/-- R76: a partial evaluation does not read the gate unit or the sequencer. -/
theorem partialEvaluation_setGate_setSeq (g : GateUnit) (q : Sequencer) :
    partialEvaluation ((s.setGate g).setSeq q) = ((partialEvaluation s).setGate g).setSeq q := by
  unfold partialEvaluation
  have h : (recompute ((s.setGate g).setSeq q)).supervised = (recompute s).supervised := rfl
  dsimp only
  rw [h]
  cases (recompute s).supervised <;> rfl

@[simp] theorem partialEvaluation_loader : (partialEvaluation s).loader = s.loader := (partialEvaluation_besideTrip s).loader

/-- R118: the loss of the line touches the trip and what its reports touch. -/
theorem lineLost_besideTrip : BesideTrip s (lineLost s) := by
  unfold lineLost
  split
  · exact closeTrip_besideTrip s _
  · exact enterStopping_besideTrip s
  · exact .refl s

/-- R113: outside RUN a closing is not reported. -/
theorem closeTrip_of_not_run {s : State} (h : s.phase ≠ .run) : closeTrip .cancelled s =
    takePending (partialEvaluation (s.setTrip { s.trip with
      record := s.trip.record.closed .cancelled, calls := callsAfter .cancelled s.trip.record s.trip.calls,
      autoStartMs := none })) := by
  unfold closeTrip
  exact reportTrip_of_not_run (by simpa [State.phase, (takePending_besideTrip _).loader] using h) _ _

/-- R109: outside RUN an entry to STOPPING is not reported. -/
theorem enterStopping_of_not_run {s : State} (h : s.phase ≠ .run) {t : TripDetails} (ht : s.trip.record.details = some t) :
    enterStopping s = partialEvaluation (s.setRecord { s.trip.record with
      state := .stopping, stopDepth := some (stopPoint s.cfg t.direction s.lastSample) }) := by
  unfold enterStopping enterStoppingOn
  rw [ht]
  exact reportTrip_of_not_run (by simpa [State.phase] using h) _ _

/-- R118, R185: the trip's part of the entry does not read the gate unit or the sequencer, nor they the trip. -/
theorem lineLost_setGate_setSeq {s : State} (h : s.phase ≠ .run) (g : GateUnit) (q : Sequencer) :
    lineLost ((s.setGate g).setSeq q) = ((lineLost s).setGate g).setSeq q := by
  have h' : ((s.setGate g).setSeq q).phase ≠ .run := h
  unfold lineLost
  have hstate : ((s.setGate g).setSeq q).tripState = s.tripState := rfl
  rw [hstate]
  cases s.tripState with
  | armed =>
    simp only [closeTrip_of_not_run h, closeTrip_of_not_run h']
    exact congrArg takePending (partialEvaluation_setGate_setSeq (s.setTrip _) g q)
  | running =>
    cases ht : s.trip.record.details with
    | none =>
      unfold enterStopping enterStoppingOn
      simp only [State.setSeq_trip, State.setGate_trip, ht]
    | some t =>
      simp only [enterStopping_of_not_run h ht, enterStopping_of_not_run h' ht]
      exact partialEvaluation_setGate_setSeq (s.setRecord _) g q
  | idle => rfl
  | stopping => rfl
  | suspended => rfl

/-- R185: the trip's part of the entry may be taken last. -/
theorem enterListenOnly_eq (h : s.phase = .listen ∨ s.phase = .run) : enterListenOnly s = lineLost (lostLine s) := by
  have hrun : (emptyQueues (s.setLoader { s.loader with phase := .listenOnly, listenMs := none })).phase ≠ .run := by
    simp [State.phase, emptyQueues, State.setPort]
  unfold enterListenOnly
  rw [if_pos h, lostLine_eq, lineLost_setGate_setSeq hrun]
  have hbeside := lineLost_besideTrip
    (emptyQueues (s.setLoader { s.loader with phase := .listenOnly, listenMs := none }))
  dsimp only
  rw [gatesLoseLine_eq, endDischarge_of_not_run (by simpa [State.phase, hbeside.loader] using hrun)]
  simp only [State.setGate_seq, State.setGate_inputs, hbeside.gate, hbeside.seq, hbeside.inputs]
  rfl

/-- What the entry to LISTEN-ONLY touches. -/
abbrev lostBlocks : List Block := [.phase, .trip, .depth, .event 8, .offers]

theorem enterListenOnly_moves : Moves lostBlocks s (enterListenOnly s) := by
  by_cases h : s.phase = .listen ∨ s.phase = .run
  · rw [enterListenOnly_eq s h]
    exact .trans (Move.listenOnly s h).moves (lineLost_moves _).of
  · unfold enterListenOnly
    rw [if_neg h]
    exact .refl s

/-! Discarded frames and the Relay Unit (R14, R22 to R29) -/

/-- A change of a port beside its transmit queue. -/
theorem port_moves (p : PortId) (x : Port) (h : x.tx = (s.port p).tx) : Moves [.ports] s (s.setPort p x) :=
  (Move.port s p x h).moves

theorem countError_moves (p : PortId) : Moves [.ports, .event 5] s (countError p s) := by
  have hset : Moves [.ports, .event 5] s (s.setPort p { s.port p with
      buckets := put (s.port p).buckets (s.port p).pointer (min 255 ((s.port p).buckets[(s.port p).pointer] + 1)) }) :=
    (port_moves s p { s.port p with buckets := _ } (by rfl)).of
  exact .ite (.trans hset (raise_moves _ .lineDegraded).of) hset

theorem latchDrop_moves (p : PortId) : Moves [.relay, .event 4] s (latchDrop p s) := by
  unfold latchDrop
  refine .ite (.refl s) (.trans ?_ (raise_moves _ .relayDrop).of)
  cases p
  · exact (Move.dropFlags s true s.relay.downDrop).moves
  · exact (Move.dropFlags s s.relay.upDrop true).moves

theorem placeCopy_moves (p : PortId) (f : Frame) (h : s.phase = .listen ∨ s.phase = .run) :
    Moves [.relay, .event 4] s (placeCopy p f s) := by
  have hset : Moves [.relay, .event 4] s (s.setRelayQueue p ((s.relayQueue p).takeIn (sameRelayed f) f 0).1) :=
    (Move.relayQueue s p _ (fun hq => hq.takeIn sameRelayed_replaces f 0) (h.imp_right .inl)).moves
  exact .ite (.trans hset (latchDrop_moves _ p)) hset

theorem relayFrame_moves (p : PortId) (f : Frame) : Moves [.relay, .event 4, .event 3] s (relayFrame p f s) := by
  unfold relayFrame
  split
  · rename_i hcond
    have hphase : s.phase = .listen ∨ s.phase = .run := by simp at hcond; exact hcond.1.2
    exact .ite (placeCopy_moves s _ _ hphase).of (raise_moves s .hopDrop).of
  · exact .refl s

/-! Taking a frame (R13) -/

/-- What a frame taken may touch. -/
abbrev frameBlocks : List Block :=
  [.phase, .ports, .relay, .event 3, .event 4, .event 5, .entries, .holdSet, .safety, .trip, .depth, .offers, .picture, .signal,
    .refusedCause, .calls, .missed, .records, .seq, .event 8, .event 9, .event 10, .event 11, .event 12, .event 14, .event 15]

theorem takeHalt_moves (n : Station) (r : HaltReason) : Moves deliveryBlocks s (takeHalt n r s) := deliver_moves s _

theorem deliverToDrum_moves (f : Frame) : Moves frameBlocks s (deliverToDrum f s) := by
  unfold deliverToDrum
  split
  · exact .when (takeHalt_moves s _ _).of
  · exact .when (takeSignal_moves s _ _ _ _ _).of
  · exact .refl s
  · exact (takePosition_moves s _).of
  · exact (takeAssent_moves s _ _).of
  · exact .when (takeMark_moves s _).of
  · exact .when (takeCall_moves s _ _ _).of
  · exact (takeAnnounce_moves s _ _).of

theorem deliverToLanding_moves (f : Frame) : Moves frameBlocks s (deliverToLanding f s) := by
  unfold deliverToLanding
  split
  · exact .trans (signalReport_moves s _).of (sequencerReport_moves _ _).of
  · exact (takePosition_moves s _).of
  · exact .refl s

theorem deliverFrame_moves (f : Frame) : Moves frameBlocks s (deliverFrame f s) :=
  .ite (deliverToDrum_moves s f) (.when (deliverToLanding_moves s f))

theorem receiveGood_moves (p : PortId) (f : Frame) : Moves frameBlocks s (receiveGood p f s) := by
  have hread : Moves frameBlocks s (s.setPort p { s.port p with completed := none }) := (port_moves s p _ (by rfl)).of
  unfold receiveGood
  refine .ite hread (.ite (.refl s) (.ite (enterListenOnly_moves s).of ?_))
  exact .trans (relayFrame_moves s p f).of (deliverFrame_moves _ f)

theorem receiveFrame_moves (h : Heading) (p : Payload) : Moves frameBlocks s (receiveFrame h p s) :=
  .when (.ite (receiveGood_moves s _ _) (countError_moves s _).of)

/-! The candidate and the queues (R5 to R8) -/

/-- A change that every queue law survives, of a queue that gets no longer. -/
theorem changeQueue_moves (p : PortId) (relayed : Bool) (g : Queue → Queue)
    (h : ∀ {same : Frame → Frame → Bool} {q : Queue}, Replaces same → QueueInv same q → QueueInv same (g q))
    (hl : ∀ q, (g q).entries.length ≤ q.entries.length) : Moves [.queues, .relay] s (changeQueue p relayed g s) :=
  .ite (Move.relayQueue s p _ (h sameRelayed_replaces) (.inr (.inr (hl _)))).moves
    (Move.ownQueue s p _ (h sameReport_replaces) (hl _)).moves

theorem deferCandidate_moves (p : PortId) : Moves [.queues, .relay] s (deferCandidate p s) := by
  unfold deferCandidate
  split
  · exact changeQueue_moves s p _ _ (fun hs h => h.defer hs _) (fun q => defer_length q _)
  · exact .refl s

theorem lineBusy_moves (p : PortId) : Moves [.queues, .relay, .ports] s (lineBusy p s) :=
  Moves.trans (t := if (s.port p).line = .idle ∧ (s.port p).attempt = none then deferCandidate p s else s)
    (.when (deferCandidate_moves s p).of) (port_moves _ p (Port.dominant _) (by rfl)).of

/-! Frame assembly (R11, R12) -/

theorem setAssembly_moves (p : PortId) (a : Assembly) : Moves [.ports] s (setAssembly p a s) := port_moves s p _ rfl

theorem checkFrame_moves (p : PortId) (chars : List Byte) : Moves frameBlocks s (checkFrame p chars s) := by
  unfold checkFrame
  refine .ite ?_ (countError_moves s p).of
  split
  · exact receiveGood_moves s p _
  · exact (countError_moves s p).of

theorem appendChar_moves (p : PortId) (chars : List Byte) (b : Byte) : Moves frameBlocks s (appendChar p chars b s) :=
  .ite (.trans (setAssembly_moves s p _).of (checkFrame_moves _ p _)) (setAssembly_moves s p _).of

/-- A frame is discarded, and the assembly takes a state. -/
theorem discard_moves (p : PortId) (a : Assembly) : Moves [.ports, .event 5] s (setAssembly p a (countError p s)) :=
  .trans (countError_moves s p) (setAssembly_moves _ p a).of

theorem assemble_moves (p : PortId) (o : CharOutcome) : Moves frameBlocks s (assemble p o s) := by
  unfold assemble
  split
  · exact .refl s
  · exact (discard_moves s p _).of
  · exact (setAssembly_moves s p _).of
  · exact (discard_moves s p _).of
  · exact appendChar_moves s p _ _
  · exact .refl s
  · exact .refl s
  · exact (discard_moves s p _).of
  · exact .refl s
  · exact (discard_moves s p _).of

/-- What a character may touch. -/
abbrev charBlocks : List Block := .queues :: frameBlocks

theorem receiveChar_moves (p : PortId) (r : CharReading) : Moves charBlocks s (receiveChar p r s) :=
  have hengine : ∀ (e : Engine) (u : State), Moves charBlocks u (u.setPort p { u.port p with engine := e }) := fun _ u =>
    (port_moves u p _ (by rfl)).of
  .trans (lineBusy_moves s p).of <| .trans (hengine _ _) (assemble_moves _ p _).of

/-! Line state and access (R4 to R8) -/

theorem lineIdle_moves (p : PortId) (n : Nat) : Moves [.ports, .event 5] s (lineIdle p n s) := by
  have hset : Moves [.ports, .event 5] s (setAssembly p .wait (s.setPort p ((s.port p).becomesIdle n))) :=
    .trans (port_moves s p (Port.becomesIdle _ n) (by rfl)).of (setAssembly_moves _ p _).of
  unfold lineIdle
  dsimp only
  split
  · exact .trans hset (countError_moves _ p)
  · exact hset

theorem countRecessive_moves (p : PortId) (n : Nat) : Moves [.ports, .event 5] s (countRecessive p n s) := by
  unfold countRecessive
  dsimp only
  split
  · split
    · exact (port_moves s p { s.port p with recessive := _ } (by rfl)).of
    · exact lineIdle_moves s p _
  · exact (port_moves s p { s.port p with idleCount := _ } (by rfl)).of

theorem passBitTimes_moves (p : PortId) (n : Nat) : Moves [.ports, .event 5] s (passBitTimes p n s) := by
  have hset : Moves [.ports, .event 5] s (if 0 < n then s.setPort p { s.port p with engine := .waiting } else s) :=
    .when (port_moves s p { s.port p with engine := .waiting } (by rfl)).of
  exact .ite (.trans hset (countRecessive_moves _ p n)) hset

theorem startSending_moves (p : PortId) : Moves [.queues, .relay, .ports] s (startSending p s) := by
  unfold startSending
  split
  · rename_i relayed e _
    have hbegins : Moves [.queues, .relay, .ports] s
        (changeQueue p relayed (fun q => q.update e.order Entry.beginsSending) s) :=
      (changeQueue_moves s p relayed _ (fun _ h => h.update _ fun _ => ⟨by rfl, by rfl, by rfl⟩) fun q => update_length q _ _).of
    split
    · exact .trans hbegins (port_moves _ p { Port.dominant _ with attempt := _, completed := none } (by rfl)).of
    · exact .refl s
  · exact .refl s

/-- What a collision may touch. -/
abbrev collisionBlocks : List Block := [.queues, .relay, .ports, .phase, .trip, .depth, .event 8, .offers]

theorem collide_moves (p : PortId) (a : Attempt) : Moves collisionBlocks s (collide p a s) := by
  have hkept : Moves collisionBlocks s (changeQueue p a.relayed (fun q => q.update a.order Entry.collides)
      (s.setPort p { s.port p with attempt := none })) :=
    .trans (port_moves s p { s.port p with attempt := none } (by rfl)).of
      (changeQueue_moves _ p _ _ (fun _ h => h.update _ fun _ => ⟨by rfl, by rfl, by rfl⟩) fun q => update_length q _ _).of
  exact .ite (.trans hkept (enterListenOnly_moves _).of) hkept

theorem readBack_moves (p : PortId) (n : Nat) (r : BitReading) : Moves collisionBlocks s (readBack p n r s) := by
  unfold readBack
  split
  · split
    · exact .when (collide_moves s p _)
    · exact .refl s
  · exact .refl s

theorem markSent_moves (p : PortId) (a : Attempt) : Moves [.seq, .offers] s (markSent p a s) := by
  have hset : Moves [.seq, .offers] s (s.setSeq { s.seq with sendMark := true }) := (Move.seq s _ fun h => h.change).moves
  exact .when (.trans hset (judgeGo_moves _))

theorem completeAttempt_moves (p : PortId) (a : Attempt) :
    Moves [.queues, .relay, .ports, .seq, .offers] s (completeAttempt p a s) := by
  have hended : Moves [.queues, .relay, .ports, .seq, .offers] s
      (s.setPort p { s.port p with attempt := none, completed := some a.frame }) := (port_moves s p _ (by rfl)).of
  refine .trans (.trans hended ?_) (markSent_moves _ p a).of
  exact (changeQueue_moves _ p _ _ (fun _ h => h.complete _) fun q => complete_length q _).of

/-! The phases (R183, R184) and the end of a step -/

/-- What the entry to RUN touches beside the phase. -/
abbrev runBlocks : List Block := [.offers, .records, .seq, .assentMs, .event 9]

/-- R183, R184: what the blocks do once the phase is RUN. -/
theorem enterRun_moves_of_run : Moves runBlocks (s.setLoader { s.loader with phase := .run, listenMs := none }) (enterRun s) := by
  have hassent : ∀ u : State, Moves runBlocks u (originateAssent (if u.hasSequencer then sequencerEntersRun u else u)) :=
    fun u => .trans (.when (sequencerEntersRun_moves u).of) (originateAssent_moves _).of
  unfold enterRun
  dsimp only
  have hrun : ∀ p, Moves runBlocks (s.setLoader { s.loader with phase := .run, listenMs := none })
      (gatesEnterRun (originate p (s.setLoader { s.loader with phase := .run, listenMs := none }))) := fun p =>
    .trans (originate_moves _ p).of (gatesEnterRun_moves _ (by simp [State.phase])).of
  refine .trans ?_ (.when (raise_moves _ .requiredStation).of)
  exact .trans (hrun _) (hassent _)

theorem enterRun_moves (h : s.phase = .listen) : Moves (.phase :: runBlocks) s (enterRun s) :=
  .trans (Move.run s h).moves (enterRun_moves_of_run s).of

/-- What the end of a step touches. -/
abbrev finishBlocks : List Block := [.event 6, .assentMs, .offers, .events]

theorem finish_moves (e : State) : Moves finishBlocks s (finish e s) := by
  unfold finish
  refine .trans (.trans ?_ (.when (originateAssent_moves _).of)) (Move.events _ _).moves
  exact .when (raise_moves s .shaftLine).of

end Sys2Proof.Machine
end

