-- ==== Sys2Proof/Proofs/Changes.lean ====
section
/-! PROOFS. Sys2Proof/Proofs/Changes.lean: what every command and every step can do, said once: a chain of changes, each a `Move` of
one block, or one of the changes of power, reset and the timebase listed here. -/
set_option Elab.async false

namespace Sys2Proof.Machine

/-- R183: the fields of an accepted record, and the entry to LISTEN. -/
def recordApplied (x : Ranged Params) (s : State) : State :=
  { s with cfg := x.1 }.setLoader
    { s.loader with phase := .listen, listenMs := some 0, reading := false, clamped := x.2, rate := x.1.rate }

/-- R181, R32: the refused record leaves CONFIG_FAULT with every queue empty. -/
def recordRefused (s : State) : State :=
  emptyQueues (s.setLoader { s.loader with phase := .configFault, reading := false, clamped := false })

/-- R8: the state without power. -/
def powerLost (s : State) : State :=
  (endAttempts s).setLoader { s.loader with powered := false, reading := false }

/-- One change in a step: of a block, of the power, of the reset and the reading of the record, or of a count of the timebase. -/
inductive Change : Bool → State → State → Prop where
  | move {k : Bool} {b : Block} {s t : State} (h : Move b s t) : Change k s t
  | strobe {k : Bool} (s : State) (n : Option Nat) (h : s.panel.strobeMs ≠ some 0) :
      Change k s { s with panel := { s.panel with strobeMs := n } }
  | powerLoss {k : Bool} (s : State) : Change k s (powerLost s)
  | resetEnds {k : Bool} (s : State) (x : Loader) (h : s.inReset = true) (hp : x.phase = s.loader.phase)
      (hl : x.listenMs = s.loader.listenMs) : Change k s (s.setLoader x)
  | buffer {k : Bool} (s : State) (b : List Byte) : Change k s (s.setLoader { s.loader with buffer := b })
  | accepted {k : Bool} (s : State) (x : Ranged Params) (hr : s.inReset = false) (h : s.loader.reading = true)
      (hrole : x.1.role ≠ none) : Change k s (recordApplied x s)
  | refused {k : Bool} (s : State) (hr : s.inReset = false) (h : s.loader.reading = true) : Change k s (recordRefused s)
  | ages (s : State) : Change true s (tickAges s)
  | listenMs (s : State) : Change true s (s.setLoader { s.loader with listenMs := count s.loader.listenMs })
  | tripMs (s : State) : Change true s (s.setTrip (tickTrip s.trip))
  | gateMs (s : State) : Change true s (s.setGate (tickGate s.gate))
  | seqMs (s : State) : Change true s (s.setSeq (tickSeq s.seq))
  | strobeMs (s : State) : Change true s { s with panel := { s.panel with strobeMs := count s.panel.strobeMs } }

/-- A chain of changes. -/
def Changes (k : Bool) : State → State → Prop := Relation.ReflTransGen (Change k)

namespace Changes

variable {k : Bool} {s t u : State}

theorem refl (s : State) : Changes k s s := Relation.ReflTransGen.refl
theorem trans (h : Changes k s t) (h' : Changes k t u) : Changes k s u := Relation.ReflTransGen.trans h h'

/-- A law that every change keeps is kept by a chain. -/
theorem keeps {P : State → Prop} (hP : ∀ s t, Change k s t → P s → P t) (h : Changes k s t) (hs : P s) : P t := by
  induction h with
  | refl => exact hs
  | tail _ hstep ih => exact hP _ _ hstep ih

/-- What is done where a condition holds. -/
theorem when {c : Prop} [Decidable c] (h : c → Changes k s t) : Changes k s (if c then t else s) := by
  split
  · rename_i hc
    exact h hc
  · exact refl s

end Changes

theorem Change.changes {k : Bool} {s t : State} (h : Change k s t) : Changes k s t := Relation.ReflTransGen.single h

theorem Moves.changes {k : Bool} {bs : List Block} {s t : State} (h : Moves bs s t) : Changes k s t :=
  Relation.ReflTransGen.mono (fun _ _ ⟨_, _, h⟩ => .move h) _ _ h

/-! When a command acts -/

theorem inReset_of_live {s : State} (h : s.live = true) : s.inReset = false := by
  simp only [State.live, Bool.and_eq_true, Bool.not_eq_true'] at h
  exact h.2

/-- A command that acts on a live station alone answers a state that stands in a relation, if the unchanged one does and if,
in a live station, what the command makes does. -/
theorem act_answers {Q : State → Prop} {f : State → State} {s : State} (hrefl : Q s)
    (h : s.live = true → Q (finish s (f s))) : ∃ t, act f s = .next t ∧ Q t := by
  unfold act
  split
  · rename_i hlive
    exact ⟨_, rfl, h hlive⟩
  · exact ⟨_, rfl, hrefl⟩

/-- An input's change answers the unchanged state, the new level, or what the command makes of it. -/
theorem onInput_answers {Q : State → Prop} {c : Bool} {set f : State → State} {s : State} (hrefl : Q s)
    (hset : Q (set s)) (h : s.inReset = false → Q (finish s (f (set s)))) : ∃ t, onInput c set f s = .next t ∧ Q t := by
  unfold onInput
  split
  · cases hr : s.inReset with
    | true => exact ⟨_, rfl, hset⟩
    | false => exact ⟨_, rfl, h hr⟩
  · exact ⟨_, rfl, hrefl⟩

variable {k : Bool} (s : State)

theorem act_changes {f : State → State} (h : Changes k s (f s)) : ∃ t, act f s = .next t ∧ Changes k s t :=
  act_answers (.refl s) fun _ => .trans h (finish_moves _ s).changes

theorem onInput_changes {c : Bool} {x : State → Inputs} {f : State → State} (h : ∀ u, Changes k u (f u)) :
    ∃ t, onInput c (fun s => s.setInputs (x s)) f s = .next t ∧ Changes k s t := by
  have hset : Changes k s (s.setInputs (x s)) := (Change.move (.inputs s (x s))).changes
  exact onInput_answers (.refl s) hset fun _ => .trans hset <| .trans (h _) (finish_moves _ s).changes

/-! Power, reset and the record -/

theorem judgeRecord_role {b : List Byte} {x : Ranged Params} (h : judgeRecord b = some x) : x.1.role ≠ none := by
  unfold judgeRecord at h
  split at h
  · split at h
    · dsimp only at h
      split at h
      · cases h
      · injection h with h
        rw [← h]
        simp [recordParams]
    · cases h
  · cases h

theorem depthEndsInit_moves : Moves [.depth, .loadDue] s (depthEndsInit s) := by
  have hset : ∀ d, Moves [.depth, .loadDue] s (s.setDepth d) := fun d => (Move.depth s d).moves
  unfold depthEndsInit
  exact .ite (.trans (hset _) (Move.loadDue _ false).moves) (hset _)

theorem ownEntry_changes : Changes k s (setEntry s.cfg.station ownEntry (depthEndsInit s)) :=
  .trans (depthEndsInit_moves s).changes (Change.move (.entry _ _ _ (by simp [ownEntry]))).changes

theorem drumEndsInit_changes : Changes k s (drumEndsInit s) := by
  have hsample : Changes k s _ := (ownEntry_changes s).trans (sampleStep_moves _ true).changes
  unfold drumEndsInit
  dsimp only
  split
  · exact .trans hsample (deliver_moves _ _).changes
  · exact hsample

theorem acceptRecord_changes (x : Ranged Params) (hr : s.inReset = false) (h : s.loader.reading = true) (hrole : x.1.role ≠ none) :
    Changes k s (acceptRecord x s) := by
  have happlied : Changes k s (recordApplied x s) := (Change.accepted s x hr h hrole).changes
  have hdrum : Changes k s (if (recordApplied x s).isDrum then drumEndsInit (recordApplied x s) else recordApplied x s) := by
    split
    · exact happlied.trans (drumEndsInit_changes _)
    · exact happlied
  unfold acceptRecord
  dsimp only
  split
  · exact .trans hdrum (raise_moves _ .configClamped).changes
  · exact hdrum

theorem refuseRecord_changes (hr : s.inReset = false) (h : s.loader.reading = true) : Changes k s (refuseRecord s) :=
  .trans (Change.refused s hr h).changes (deliver_moves (recordRefused s) _).changes

/-- R181: the judging of a buffer. -/
def bufferJudged (b : List Byte) (s : State) : State :=
  let s := s.setLoader { s.loader with buffer := b }
  match judgeRecord b with
  | some x => acceptRecord x s
  | none => refuseRecord s

/-- The levels clocked in matter by the bytes they make alone. -/
theorem readComplete_eq : readComplete = fun levels => bufferJudged (recordBuffer levels) := rfl

theorem bufferJudged_changes (b : List Byte) (hr : s.inReset = false) (h : s.loader.reading = true) : Changes k s (bufferJudged b s) := by
  have hbuffer : Changes k s _ := (Change.buffer s b).changes
  unfold bufferJudged
  dsimp only
  split
  · rename_i x hx
    exact hbuffer.trans (acceptRecord_changes _ x hr h (judgeRecord_role hx))
  · exact hbuffer.trans (refuseRecord_changes _ hr h)

theorem endReset_changes (x : Loader) (h : s.inReset = true) (hp : x.phase = s.loader.phase)
    (hl : x.listenMs = s.loader.listenMs) : Changes k s (endReset (s.setLoader x)) :=
  .trans (Change.resetEnds s { x with reading := true, buffer := [] } h hp hl).changes
    (Change.move (.clock _ Clock.reset)).changes

/-! Every command -/

/-- POWER_ON and WARM_RESET bring back the state of the reset. -/
def Restarts (c : Instr) (s t : State) : Prop :=
  (c = .powerOn ∧ t = powerOnState s) ∨ (c = .warmReset ∧ s.loader.powered = true ∧ t = warmReset s)

/-- What every command answers: the state of the reset, or the end of a chain of changes. -/
def Answered (c : Instr) (s t : State) : Prop := Restarts c s t ∨ Changes false s t

theorem Answered.of_changes {c : Instr} {s : State} {a : Answer} (h : ∃ t, a = .next t ∧ Changes false s t) :
    ∃ t, a = .next t ∧ Answered c s t := by
  obtain ⟨t, ht, hc⟩ := h
  exact ⟨t, ht, .inr hc⟩

theorem execOscillatorStartExpiry_changes : ∃ t, execOscillatorStartExpiry s = .next t ∧ Changes k s t := by
  unfold execOscillatorStartExpiry
  split
  · rename_i hcond
    have hreset : s.inReset = true := by simp at hcond; simp [State.inReset, hcond.2]
    refine ⟨_, rfl, ?_⟩
    split
    · exact (Change.resetEnds s _ hreset (by rfl) (by rfl)).changes
    · exact endReset_changes s _ hreset (by rfl) (by rfl)
  · exact ⟨_, rfl, .refl s⟩

theorem execResetPinRelease_changes : ∃ t, execResetPinRelease s = .next t ∧ Changes k s t := by
  unfold execResetPinRelease
  split
  · rename_i hcond
    have hreset : s.inReset = true := by simp at hcond; simp [State.inReset, hcond.2]
    refine ⟨_, rfl, ?_⟩
    split
    · exact (Change.resetEnds s _ hreset (by rfl) (by rfl)).changes
    · exact endReset_changes s _ hreset (by rfl) (by rfl)
  · exact ⟨_, rfl, .refl s⟩

theorem execEncoderChannelChange_changes (a b : Level) :
    ∃ t, execEncoderChannelChange a b s = .next t ∧ Changes k s t := by
  have hchannel : Changes k s _ := (channelChange_moves s (a, b)).changes
  unfold execEncoderChannelChange
  split
  · split
    · exact ⟨_, rfl, hchannel⟩
    · exact ⟨_, rfl, hchannel.trans (finish_moves _ s).changes⟩
  · exact ⟨_, rfl, .refl s⟩

theorem execEncoderFaultClear_changes : ∃ t, execEncoderFaultClear s = .next t ∧ Changes k s t := by
  unfold execEncoderFaultClear
  split
  · exact ⟨_, rfl, (Change.move (.depth s _)).changes⟩
  · exact ⟨_, rfl, .refl s⟩

theorem execRecordReadComplete_changes (levels : List Level) :
    ∃ t, execRecordReadComplete levels s = .next t ∧ Changes k s t := by
  unfold execRecordReadComplete
  refine act_answers (.refl s) fun hlive => .trans ?_ (finish_moves _ s).changes
  rw [readComplete_eq]
  exact .when fun h => bufferJudged_changes s _ (inReset_of_live hlive) h

/-- R14: the windows of both ports move on. -/
def windowsAdvance (s : State) : State :=
  ((s.setPort .a s.portA.advance).setPort .b s.portB.advance).setClock { s.clock with windowMs := 0 }

theorem windowsAdvance_moves : Moves [.ports, .clock] s (windowsAdvance s) :=
  Moves.trans (.trans (port_moves s .a s.portA.advance (by rfl)).of
    (port_moves (s.setPort .a s.portA.advance) .b s.portB.advance (by rfl)).of) (Move.clock _ _).moves

theorem execErrorWindowAdvance_eq : execErrorWindowAdvance s = act windowsAdvance s := rfl

theorem autoStartEnds_moves : Moves [.trip] s (s.setTrip { s.trip with autoStartMs := none }) :=
  (Move.trip s { s.trip with autoStartMs := none } (by rfl) fun h => ⟨h.atMost, h.distinct⟩).moves

theorem execCallLifeExpiry_changes (n : Station) : ∃ t, execCallLifeExpiry n s = .next t ∧ Changes k s t := by
  unfold execCallLifeExpiry
  refine act_changes s ?_
  exact (Change.move (.trip s { s.trip with calls := _ } (by rfl) fun h => h.sublist s List.filter_sublist)).changes

/-! The timers of the gate and key unit and of the sequencer -/

/-- R141: the reply timer leaves AWAITING with no cause held, if none was. -/
theorem replyTimer_moves (h : s.gate.signal.status = .awaiting) : Moves [.signal, .event 10] s
    (raise .noReply (setSignal { s.gate.signal with status := .noReply, replyMs := none } s)) := by
  refine .trans (Move.signal s _ (by simp) fun hc hne => ?_).moves (raise_moves _ .noReply).of
  exact absurd (h.symm.trans (hc hne)) (by decide)

theorem doorTimer_moves : Moves [.seq, .offers, .event 12] s
    (interlock .flaskDoor .flaskDoor (s.setSeq { s.seq with doorMs := none })) :=
  .trans (Move.seq s _ fun h => h.change).moves (interlock_moves _ .flaskDoor .flaskDoor).of

theorem retryTimer_moves : Moves [.seq, .offers] s
    (judgeGo (s.setSeq { s.seq with auto := { s.seq.auto with retryMs := none } })) :=
  .trans (Move.seq s _ fun h => h.change).moves (judgeGo_moves _)

theorem dwellTimer_moves (h : s.seq.tip = .dwell) : Moves [.seq, .offers] s
    (judgeGo (s.setSeq { s.seq with tip := .ready, dwellMs := none })) :=
  .trans (Move.seq s _ fun hs => hs.change (harrival := by simp [h])).moves (judgeGo_moves _)

theorem execTransmissionComplete_changes (p : PortId) : ∃ t, execTransmissionComplete p s = .next t ∧ Changes k s t := by
  unfold execTransmissionComplete
  refine act_changes s ?_
  split
  · exact (completeAttempt_moves s p _).changes
  · exact .refl s

theorem execTripResetKey_changes : ∃ t, execTripResetKey s = .next t ∧ Changes k s t := by
  unfold execTripResetKey
  refine act_changes s ?_
  split
  · exact .refl s
  · exact (pressReset_moves s).changes

theorem execAcknowledgeKey_changes : ∃ t, execAcknowledgeKey s = .next t ∧ Changes k s t := by
  unfold execAcknowledgeKey
  refine act_changes s ?_
  exact .trans (acknowledgeEvent_moves s).changes <| .trans (Change.move (.dropFlags _ false false)).changes <|
    .trans (acknowledgeGates_moves _).changes (judgeGo_moves _).changes

/-- R177: a strobe pulse that has lasted its time has not just begun. -/
theorem running_of_reached {timer : Option Nat} (h : reached timer Config.strobeTime = true) : timer ≠ some 0 := by
  rintro rfl
  exact absurd h (by decide)

/-- A gate switch turns. -/
theorem gateTurns_moves (w : Winder) (closed : Bool) :
    Moves [.records, .offers, .event 15] s (if closed then gateCloses w s else gateOpens w s) :=
  .ite (gateCloses_moves s w).of (gateOpens_moves s w)

/-- Every command answers a next state, by one of the two ways. -/
theorem exec_answers (c : Instr) : ∃ t, exec c s = .next t ∧ Answered c s t := by
  have of {a : Answer} : (∃ t, a = .next t ∧ Changes false s t) → ∃ t, a = .next t ∧ Answered c s t := Answered.of_changes
  cases c with
  | powerOn => exact ⟨_, rfl, .inl (.inl ⟨rfl, rfl⟩)⟩
  | powerLoss => exact ⟨_, rfl, .inr (Change.powerLoss s).changes⟩
  | oscillatorStartExpiry => exact of (execOscillatorStartExpiry_changes s)
  | warmReset =>
    change ∃ t, execWarmReset s = .next t ∧ _
    unfold execWarmReset
    split
    · rename_i hp
      exact ⟨_, rfl, .inl (.inr ⟨rfl, hp, rfl⟩)⟩
    · exact ⟨_, rfl, .inr (.refl s)⟩
  | resetPinRelease => exact of (execResetPinRelease_changes s)
  | recordReadComplete levels => exact of (execRecordReadComplete_changes s levels)
  | listenTimerExpiry => exact of (act_changes s (.when fun h => (enterRun_moves s h.1).changes))
  | characterReceived p r => exact of (act_changes s (.when fun _ => (receiveChar_moves s p r).changes))
  | lineBecomesIdle x => exact of (act_changes s (.when fun _ => (passBitTimes_moves s _ _).changes))
  | lineBecomesBusy p => exact of (act_changes s (.when fun _ => (lineBusy_moves s p).changes))
  | transmissionStart p n =>
    exact of (act_changes s (.when fun _ => (passBitTimes_moves s p n).changes.trans (startSending_moves _ p).changes))
  | collision p n r => exact of (act_changes s (.when fun _ => (readBack_moves s p n r).changes))
  | transmissionComplete p =>
    exact of (execTransmissionComplete_changes s p)
  | errorWindowAdvance =>
    change ∃ t, execErrorWindowAdvance s = .next t ∧ _
    rw [execErrorWindowAdvance_eq]
    exact of (act_changes s (windowsAdvance_moves s).changes)
  | haltTaken h ws reason => exact of (a := execHaltTaken h ws reason s) (act_changes s (receiveFrame_moves s h _).changes)
  | signalGo h w dest cls auto => exact of (a := execSignalGo h w dest cls auto s) (act_changes s (receiveFrame_moves s h _).changes)
  | signalStop h w dest cls auto => exact of (a := execSignalStop h w dest cls auto s) (act_changes s (receiveFrame_moves s h _).changes)
  | signalCancel h w dest cls auto => exact of (a := execSignalCancel h w dest cls auto s) (act_changes s (receiveFrame_moves s h _).changes)
  | callRegister h w cls => exact of (a := execCallRegister h w cls s) (act_changes s (receiveFrame_moves s h _).changes)
  | callCancel h w cls => exact of (a := execCallCancel h w cls s) (act_changes s (receiveFrame_moves s h _).changes)
  | positionTaken h r => exact of (a := execPositionTaken h r s) (act_changes s (receiveFrame_moves s h _).changes)
  | conveyanceRecordExpiry w => exact of (a := execConveyanceRecordExpiry w s) (act_changes s (.when fun _ => (expireRecord_moves s w).changes))
  | assentTaken h r => exact of (a := execAssentTaken h r s) (act_changes s (receiveFrame_moves s h _).changes)
  | announceTaken h body seg dig => exact of (a := execAnnounceTaken h body seg dig s) (act_changes s (receiveFrame_moves s h _).changes)
  | stationEntryExpiry n => exact of (a := execStationEntryExpiry n s) (act_changes s (.when fun _ => (expireEntry_moves s n).changes))
  | holdOverrideKey => exact of (a := execHoldOverrideKey s) (act_changes s (.when fun _ => (overrideHolds_moves s).changes))
  | encoderChannelChange a b => exact of (execEncoderChannelChange_changes s a b)
  | encoderFaultClear => exact of (execEncoderFaultClear_changes s)
  | sample first => exact of (a := execSample first s) (act_changes s (.when fun _ => (sampleStep_moves s first).changes))
  | markTaken h w d => exact of (a := execMarkTaken h w d s) (act_changes s (receiveFrame_moves s h _).changes)
  | correctionOffInputChange on =>
    exact of (a := execCorrectionOffInputChange on s)
      (onInput_changes s fun u => .when fun _ => (requestMode_moves u).changes)
  | tableClearKey => exact of (a := execTableClearKey s) (act_changes s (.when fun _ => (requestClear_moves s).changes))
  | armTimerExpiry => exact of (a := execArmTimerExpiry s) (act_changes s (.when fun _ => (closeTrip_moves s _).changes))
  | autoEnableInputChange on =>
    exact of (a := execAutoEnableInputChange on s) (onInput_changes s fun u => .when fun _ => (closeTrip_moves u _).changes)
  | autoStartPulseEnd =>
    exact of (act_changes s (.when fun _ => (autoStartEnds_moves s).changes))
  | callLifeExpiry n =>
    exact of (execCallLifeExpiry_changes s n)
  | localEstopInputChange on =>
    exact of (a := execLocalEstopInputChange on s) (onInput_changes s fun u => .when fun _ => (deliver_moves u _).changes)
  | tripResetKey =>
    exact of (execTripResetKey_changes s)
  | gateSwitchChange w on =>
    exact of (a := execGateSwitchChange w on s) (onInput_changes s fun u => .when fun _ => (gateTurns_moves u w on).changes.trans (judgeGo_moves _).changes)
  | lockContactChange w on =>
    exact of (a := execLockContactChange w on s)
      (onInput_changes s fun u => .when fun _ => (lockChanges_moves u on w).changes.trans (judgeGo_moves _).changes)
  | lockSettleTimerExpiry w =>
    exact of (act_changes s (.when fun _ => (setGate_locked_moves s w none).changes.trans (judgeGo_moves _).changes))
  | assentTimerExpiry => exact of (a := execAssentTimerExpiry s) (act_changes s (.when fun _ => (originateAssent_moves s).changes))
  | acknowledgeKey =>
    exact of (execAcknowledgeKey_changes s)
  | sendKey dest cls => exact of (a := execSendKey dest cls s) (act_changes s (.when fun _ => (pressSend_moves s dest cls).changes))
  | stopKey dest cls => exact of (a := execStopKey dest cls s) (act_changes s (.when fun _ => (originate_moves s _).changes))
  | cancelKey dest cls => exact of (a := execCancelKey dest cls s) (act_changes s (.when fun _ => (originate_moves s _).changes))
  | callKey cls => exact of (a := execCallKey cls s) (act_changes s (.when fun _ => (pressCall_moves s cls).changes))
  | windingTaken h r => exact of (a := execWindingTaken h r s) (act_changes s (receiveFrame_moves s h _).changes)
  | replyTimerExpiry => exact of (a := execReplyTimerExpiry s) (act_changes s (.when fun h => (replyTimer_moves s h.1).changes))
  | holdSwitchChange on =>
    exact of (a := execHoldSwitchChange on s) (onInput_changes s fun u => .when fun _ => (raise_moves u _).changes)
  | emergencyStopKeyChange on =>
    exact of (a := execEmergencyStopKeyChange on s) (onInput_changes s fun u => .when fun _ => (originate_moves u _).changes)
  | markerInputChange w on =>
    exact of (a := execMarkerInputChange w on s) (onInput_changes s fun u => .when fun _ => (originate_moves u _).changes)
  | flaskFullChange on =>
    exact of (a := execFlaskFullChange on s) (onInput_changes s fun u => .when fun _ => (judgeDischarge_moves u).changes)
  | flaskEmptyChange on =>
    exact of (a := execFlaskEmptyChange on s) (onInput_changes s fun u => (flaskEmptyChanged_moves u on).changes)
  | doorClosedChange on =>
    exact of (a := execDoorClosedChange on s) (onInput_changes s fun u => (doorChanged_moves u on).changes)
  | spillageChange on =>
    exact of (a := execSpillageChange on s) (onInput_changes s fun u => (spillageChanged_moves u on).changes)
  | doorTimerExpiry => exact of (a := execDoorTimerExpiry s) (act_changes s (.when fun _ => (doorTimer_moves s).changes))
  | autoInputChange on =>
    exact of (a := execAutoInputChange on s) (onInput_changes s fun u => (judgeGo_moves u).changes)
  | autoReplyTimerExpiry => exact of (a := execAutoReplyTimerExpiry s) (act_changes s (.when fun _ => (originateGo_moves s).changes))
  | retryTimerExpiry => exact of (a := execRetryTimerExpiry s) (act_changes s (.when fun _ => (retryTimer_moves s).changes))
  | dwellTimerExpiry => exact of (a := execDwellTimerExpiry s) (act_changes s (.when fun h => (dwellTimer_moves s h.1).changes))
  | flashClockHalf => exact of (a := execFlashClockHalf s) (act_changes s (Change.move (.clock s _)).changes)
  | lampTestKeyChange on =>
    exact of (a := execLampTestKeyChange on s) (onInput_changes s fun u => .refl u)
  | darkInputChange on =>
    exact of (a := execDarkInputChange on s) (onInput_changes s fun u => .refl u)
  | strobePulseEnd =>
    exact of (a := execStrobePulseEnd s) (act_changes s (.when fun h => (Change.strobe s none (running_of_reached h)).changes))
  | winderSelectorChange w =>
    exact of (a := execWinderSelectorChange w s) (onInput_changes s fun u => .refl u)
  | recessiveBitTimeAfterFraming p => exact of (a := execRecessiveBitTimeAfterFraming p s) (act_changes s (.when fun _ => (passBitTimes_moves s p 1).changes))

/-! A step -/

theorem tickTimers_changes : Changes true s (tickTimers s) :=
  .trans (Change.listenMs s).changes <| .trans (Change.tripMs _).changes <| .trans (Change.gateMs _).changes <|
    .trans (Change.seqMs _).changes (Change.strobeMs _).changes

theorem tickEncoder_changes : Changes k s (tickEncoder s) := (Change.move (.depth s _)).changes

/-- The queue of commands and the count of the free value's draws. -/
def requeue (cs : List Instr) (n : Nat) (s : State) : State :=
  { s with pending := cs, model := { s.model with draws := n } }

theorem drawSample_enqueue (cs : List Instr) : ∃ cs' n, drawSample (enqueue cs s) = requeue cs' n s := by
  unfold drawSample
  split
  · exact ⟨_, _, rfl⟩
  · exact ⟨_, s.model.draws, rfl⟩

/-- A millisecond of the timebase is a chain of changes, and then commands join the queue. -/
theorem tick_changes : ∃ u cs n, Changes true s u ∧ tick s = requeue cs n u := by
  unfold tick
  split
  · have hclock : Changes true s (tickTimers (tickEncoder (tickClock (tickAges s)))) :=
      .trans (Change.ages s).changes <| .trans (Change.move (.clock _ _)).changes <|
        .trans (tickEncoder_changes _) (tickTimers_changes _)
    obtain ⟨cs, n, h⟩ := drawSample_enqueue (tickTimers (tickEncoder (tickClock (tickAges s)))) _
    exact ⟨_, cs, n, hclock, h⟩
  · split
    · exact ⟨_, _, _, tickEncoder_changes s, rfl⟩
    · exact ⟨s, s.pending, s.model.draws, .refl s, rfl⟩

/-- A law that the state of the reset meets and that every change keeps is kept by every command. -/
theorem exec_keeps {P : State → Prop} (hP : ∀ k s t, Change k s t → P s → P t) (hon : ∀ s, P s → P (powerOnState s))
    (hwarm : ∀ s, P s → P (warmReset s)) {c : Instr} {s t : State} (hs : P s) (h : exec c s = .next t) : P t := by
  obtain ⟨u, hu, hanswered⟩ := exec_answers s c
  rw [h] at hu
  injection hu with hu
  subst hu
  rcases hanswered with (⟨-, rfl⟩ | ⟨-, -, rfl⟩) | hchanges
  · exact hon s hs
  · exact hwarm s hs
  · exact hchanges.keeps (hP _) hs

/-- A law that does not read the queue, that the state of the reset meets and that every change keeps is kept by every step. -/
theorem step_keeps {P : State → Prop} (hP : ∀ k s t, Change k s t → P s → P t) (hon : ∀ s, P s → P (powerOnState s))
    (hwarm : ∀ s, P s → P (warmReset s)) (hqueue : ∀ s cs n, P s → P (requeue cs n s)) {s t : State} (hs : P s)
    (h : step s = .next t) : P t := by
  unfold step at h
  split at h
  · injection h with h
    obtain ⟨u, cs, n, hu, htick⟩ := tick_changes s
    exact h ▸ htick ▸ hqueue u cs n (hu.keeps (hP _) hs)
  · exact exec_keeps hP hon hwarm (hqueue s _ s.model.draws hs) h

end Sys2Proof.Machine
end

