-- ==== Sys2Proof/Proofs/Laws.lean ====
section
/-! PROOFS. Sys2Proof/Proofs/Laws.lean: the laws that every step keeps, change by change: of the start-up, of the lists and the
picture, of the gates and the sequencer, and of the queues. -/
set_option Elab.async false

namespace Sys2Proof.Machine

variable {b : Block} {s t : State}

/-! What a change of a block leaves -/

@[simp] theorem lostLine_cfg (s : State) : (lostLine s).cfg = s.cfg := by
  rw [lostLine_eq]; simp [emptyQueues]

theorem lostLine_loader (s : State) : (lostLine s).loader = { s.loader with phase := .listenOnly, listenMs := none } := by
  rw [lostLine_eq]; simp [emptyQueues]

theorem Move.cfg_eq (h : Move b s t) : t.cfg = s.cfg := by
  cases h <;> simp [(partialEvaluation_besideTrip _).cfg, setNotRegistered, writeRecords, setEntry, setHoldSet, setGate, setSignal, setCall]

theorem Move.pending_eq (h : Move b s t) : t.pending = s.pending := by
  cases h <;> simp [(partialEvaluation_besideTrip _).pending, lostLine_eq, emptyQueues, setNotRegistered, writeRecords, setEntry, setHoldSet, setGate, setSignal, setCall]

theorem Move.loader_eq (h : Move b s t) (hp : b ≠ .phase) (hl : b ≠ .loadDue) : t.loader = s.loader := by
  cases h <;> simp_all [setNotRegistered, writeRecords, setEntry, setHoldSet, setGate, setSignal, setCall]

section

variable (s : State)

@[simp] theorem partialEvaluation_trip : (partialEvaluation s).trip = s.trip := by
  obtain ⟨x, hx⟩ := partialEvaluation_eq s; rw [hx]; rfl
@[simp] theorem partialEvaluation_safety : (partialEvaluation s).safety = s.safety := by
  obtain ⟨x, hx⟩ := partialEvaluation_eq s; rw [hx]; rfl
@[simp] theorem partialEvaluation_depth : (partialEvaluation s).depth = s.depth := by
  obtain ⟨x, hx⟩ := partialEvaluation_eq s; rw [hx]; rfl
@[simp] theorem partialEvaluation_picture : (partialEvaluation s).picture = s.picture := (partialEvaluation_besideTrip s).picture
@[simp] theorem partialEvaluation_stations : (partialEvaluation s).stations = s.stations := (partialEvaluation_besideTrip s).stations
@[simp] theorem partialEvaluation_gate : (partialEvaluation s).gate = s.gate := (partialEvaluation_besideTrip s).gate
@[simp] theorem partialEvaluation_seq : (partialEvaluation s).seq = s.seq := (partialEvaluation_besideTrip s).seq
@[simp] theorem partialEvaluation_relay : (partialEvaluation s).relay = s.relay := (partialEvaluation_besideTrip s).relay
@[simp] theorem partialEvaluation_portA : (partialEvaluation s).portA = s.portA := by
  obtain ⟨x, hx⟩ := partialEvaluation_eq s; rw [hx]; rfl
@[simp] theorem partialEvaluation_portB : (partialEvaluation s).portB = s.portB := by
  obtain ⟨x, hx⟩ := partialEvaluation_eq s; rw [hx]; rfl

end

theorem Move.trip_eq (h : Move b s t) (hb : b ≠ .trip) : t.trip = s.trip := by
  cases h <;> simp_all [setNotRegistered, writeRecords, setEntry, setHoldSet, setGate, setSignal, setCall, lostLine_eq, emptyQueues]

theorem Move.env_eq (h : Move b s t) (hb : b ≠ .trip) (he : b ≠ .env) : t.env = s.env := by
  cases h <;> simp_all [setNotRegistered, writeRecords, setEntry, setHoldSet, setGate, setSignal, setCall, lostLine_eq, emptyQueues]

theorem Move.safety_eq (h : Move b s t) (hb : b ≠ .safety) : t.safety = s.safety := by
  cases h <;> simp_all [setNotRegistered, writeRecords, setEntry, setHoldSet, setGate, setSignal, setCall, lostLine_eq, emptyQueues]

theorem Move.depth_eq (h : Move b s t) (hb : b ≠ .depth) : t.depth = s.depth := by
  cases h <;> simp_all [setNotRegistered, writeRecords, setEntry, setHoldSet, setGate, setSignal, setCall, lostLine_eq, emptyQueues]

theorem Move.picture_eq (h : Move b s t) (hb : b ≠ .picture) : t.picture = s.picture := by
  cases h <;> simp_all [setNotRegistered, writeRecords, setEntry, setHoldSet, setGate, setSignal, setCall, lostLine_eq, emptyQueues]

theorem Move.entries_eq (h : Move b s t) (hb : b ≠ .entries) : t.stations.entries = s.stations.entries := by
  cases h <;> simp_all [setNotRegistered, writeRecords, setEntry, setHoldSet, setGate, setSignal, setCall, lostLine_eq, emptyQueues]

theorem Move.seq_eq (h : Move b s t) (hb : b ≠ .seq) (hp : b ≠ .phase) : t.seq = s.seq := by
  cases h <;> simp_all [setNotRegistered, writeRecords, setEntry, setHoldSet, setGate, setSignal, setCall, lostLine_eq, emptyQueues]

theorem Move.gate_eq (h : Move b s t) (hb : b ∉ [Block.records, .assentMs, .signal, .calls, .phase]) : t.gate = s.gate := by
  cases h <;> simp_all [setNotRegistered, writeRecords, setEntry, setHoldSet, setGate, setSignal, setCall, lostLine_eq, emptyQueues]

theorem Move.phase_eq (h : Move b s t) (hp : b ≠ .phase) : t.phase = s.phase := by
  cases h <;> simp_all [State.phase, setNotRegistered, writeRecords, setEntry, setHoldSet, setGate, setSignal, setCall]

theorem tickAges_loader (s : State) : (tickAges s).loader = s.loader := by unfold tickAges; split <;> rfl

theorem tickAges_cfg (s : State) : (tickAges s).cfg = s.cfg := by unfold tickAges; split <;> rfl

/-! The start-up invariant -/

theorem StartInv.move (hs : StartInv s) (h : Move b s t) : StartInv t := by
  by_cases hl : b = .loadDue
  · subst hl
    cases h
    exact ⟨hs.inReset, hs.reading, hs.listen, hs.role⟩
  by_cases hp : b = .phase
  · subst hp
    have notInit : ∀ {p : Phase}, s.phase = p → p ≠ .init → s.inReset = false ∧ s.loader.reading = false := fun hph hne =>
      ⟨by simpa using fun hr => hne (hph.symm.trans (hs.inReset hr)),
       by simpa using fun hr => hne (hph.symm.trans (hs.reading hr))⟩
    cases h with
    | run _ hph =>
      obtain ⟨hr, hd⟩ := notInit hph (by decide)
      refine ⟨fun h => ?_, fun h => ?_, fun h => absurd rfl h, fun _ => hs.role ?_⟩
      · exact absurd (hr.symm.trans h) (by decide)
      · exact absurd (hd.symm.trans h) (by decide)
      · simp [State.working, hph, Phase.working]
    | listenOnly _ hph =>
      obtain ⟨hr, hd⟩ : s.inReset = false ∧ s.loader.reading = false :=
        hph.elim (notInit · (by decide)) (notInit · (by decide))
      refine ⟨fun h => ?_, fun h => ?_, fun h => ?_, fun _ => ?_⟩
      · simp only [State.inReset, lostLine_loader] at h hr
        exact absurd (hr.symm.trans h) (by decide)
      · simp only [lostLine_loader] at h
        exact absurd (hd.symm.trans h) (by decide)
      · simp [lostLine_loader] at h
      · rw [lostLine_cfg]
        exact hs.role (by rcases hph with hph | hph <;> simp [State.working, hph, Phase.working])
  · exact hs.of_eq (h.loader_eq hp hl) h.cfg_eq

theorem StartInv.change (hs : StartInv s) {k : Bool} (h : Change k s t) : StartInv t := by
  have working : s.working = true → s.phase ≠ .init := fun hw he => by
    rw [State.working, he] at hw; exact absurd hw (by decide)
  cases h with
  | move h => exact hs.move h
  | strobe n => exact hs.of_eq rfl rfl
  | strobeMs => exact hs.of_eq rfl rfl
  | powerLoss => exact ⟨hs.inReset, fun h => absurd h (by simp [powerLost]), hs.listen, hs.role⟩
  | resetEnds _ x hr hp hl =>
    have hinit : x.phase = .init := hp.trans (hs.inReset hr)
    refine ⟨fun _ => hinit, fun _ => hinit, fun h => ?_, fun h => ?_⟩
    · exact absurd (hs.listen (hl ▸ h)) (by rw [hs.inReset hr]; decide)
    · have hw : x.phase.working = true := h
      rw [hinit] at hw
      exact absurd hw (by decide)
  | buffer b => exact ⟨hs.inReset, hs.reading, hs.listen, hs.role⟩
  | accepted _ x hr hd hrole =>
    refine ⟨fun h => absurd (hr.symm.trans h) (by decide), fun h => absurd h (by simp [recordApplied]), fun _ => rfl,
      fun _ => hrole⟩
  | refused _ hr hd =>
    have hl : (recordRefused s).loader = { s.loader with phase := .configFault, reading := false, clamped := false } := by
      simp [recordRefused, emptyQueues]
    have hphase : (recordRefused s).phase = .configFault := by simp [State.phase, hl]
    refine ⟨fun h => ?_, fun h => absurd h (by simp [hl]), fun h => ?_, fun h => ?_⟩
    · simp only [State.inReset, hl] at h hr
      exact absurd (hr.symm.trans h) (by decide)
    · rw [hl] at h
      exact absurd ((hs.reading hd).symm.trans (hs.listen h)) (by decide)
    · rw [State.working, hphase] at h
      exact absurd h (by decide)
  | ages => exact hs.of_eq (tickAges_loader s) (tickAges_cfg s)
  | listenMs =>
    refine ⟨hs.inReset, hs.reading, fun h => hs.listen fun hn => h ?_, hs.role⟩
    simp [hn, count]
  | tripMs => exact hs.of_eq rfl rfl
  | gateMs => exact hs.of_eq rfl rfl
  | seqMs => exact hs.of_eq rfl rfl

/-! The envelope, the cause list, the call list and the picture -/

theorem EnvelopeInv.of_eq (hs : EnvelopeInv s) (he : t.env = s.env) (ht : t.trip.record.state = s.trip.record.state) :
    EnvelopeInv t := by
  have hsup : t.supervised = s.supervised := by simp [State.supervised, State.tripState, ht]
  exact ⟨he ▸ hs.threshold, he ▸ hs.limitWord, fun h => he ▸ hs.unsupervised (hsup ▸ h), he ▸ hs.count⟩

theorem EnvelopeInv.move (hs : EnvelopeInv s) (h : Move b s t) : EnvelopeInv t := by
  by_cases hb : b = .trip
  · subst hb
    cases h with
    | trip _ x hx hc => exact hs.of_eq rfl hx
    | evaluated _ x hc => exact partialEvaluation_envelopeInv _ hs.count
  by_cases he : b = .env
  · subst he
    cases h with
    | env _ e h => exact h hs
  · exact hs.of_eq (h.env_eq hb he) (by rw [h.trip_eq hb])

theorem CauseInv.of_eq (hs : CauseInv s) (h : t.safety = s.safety) : CauseInv t :=
  ⟨h ▸ hs.atMost, h ▸ hs.distinct, h ▸ hs.lost⟩

theorem CauseInv.move (hs : CauseInv s) (h : Move b s t) : CauseInv t := by
  by_cases hb : b = .safety
  · subst hb
    cases h with
    | safety _ x h => exact h hs
  · exact hs.of_eq (h.safety_eq hb)

theorem CallInv.move (hs : CallInv s) (h : Move b s t) : CallInv t := by
  by_cases hb : b = .trip
  · subst hb
    cases h with
    | trip _ x hx hc => exact hc hs
    | evaluated _ x hc => exact (hc hs).of_eq _ (by simp)
  · exact hs.of_eq s (by rw [h.trip_eq hb])

theorem PictureInv.of_eq (hs : PictureInv s) (hp : t.picture = s.picture) (he : t.stations.entries = s.stations.entries) :
    PictureInv t :=
  ⟨hp ▸ hs.together, he ▸ hs.unknown⟩

theorem PictureInv.move (hs : PictureInv s) (h : Move b s t) : PictureInv t := by
  by_cases hp : b = .picture
  · subst hp
    cases h with
    | picture _ w x y h =>
      refine ⟨fun v => ?_, hs.unknown⟩
      simp only [writeRecords, State.setPicture_picture, getElem_put]
      split
      · exact h (hs.together w)
      · exact hs.together v
  by_cases he : b = .entries
  · subst he
    cases h with
    | entry _ n e h =>
      refine ⟨hs.together, fun m hm => ?_⟩
      simp only [setEntry, State.setStations_stations, getElem_put] at hm ⊢
      split at hm
      · exact absurd hm h
      · rename_i hne
        rw [if_neg hne]
        exact hs.unknown m hm
  · exact hs.of_eq (h.picture_eq hp) (h.entries_eq he)

theorem EnvelopeInv.change (hs : EnvelopeInv s) {k : Bool} (h : Change k s t) : EnvelopeInv t := by
  cases h with
  | move h => exact hs.move h
  | powerLoss => exact hs.of_eq (by simp [powerLost, endAttempts]) (by simp [powerLost, endAttempts])
  | refused => exact hs.of_eq (by simp [recordRefused, emptyQueues]) (by simp [recordRefused, emptyQueues])
  | ages => exact hs.of_eq (by unfold tickAges; split <;> rfl) (by unfold tickAges; split <;> rfl)
  | _ => exact hs.of_eq rfl rfl

theorem CauseInv.change (hs : CauseInv s) {k : Bool} (h : Change k s t) : CauseInv t := by
  cases h with
  | move h => exact hs.move h
  | powerLoss => exact hs.of_eq (by simp [powerLost, endAttempts])
  | refused => exact hs.of_eq (by simp [recordRefused, emptyQueues])
  | ages => exact hs.of_eq (by unfold tickAges; split <;> rfl)
  | _ => exact hs.of_eq rfl

theorem CallInv.change (hs : CallInv s) {k : Bool} (h : Change k s t) : CallInv t := by
  cases h with
  | move h => exact hs.move h
  | powerLoss => exact hs.of_eq s (by simp [powerLost, endAttempts])
  | refused => exact hs.of_eq s (by simp [recordRefused, emptyQueues])
  | ages => exact hs.of_eq s (by unfold tickAges; split <;> rfl)
  | _ => exact hs.of_eq s rfl

/-- R37, R43: the ages of the picture leave its laws in force. -/
theorem PictureInv.ages (hs : PictureInv s) : PictureInv (tickAges s) := by
  unfold tickAges
  split
  · refine ⟨fun w => ?_, fun n hn => ?_⟩
    · have h := hs.together w
      simp only [State.setStations_picture, State.setPicture_picture, tickPicture, Fin.getElem_fin, Vector.getElem_ofFn]
      split
      · exact h
      · simpa [Carrying.tick, Counterweight.tick, Function.comp_def] using h
    · simp only [State.setStations_stations, tickStations, State.setPicture_stations, State.setPicture_cfg,
        Fin.getElem_fin, Vector.getElem_ofFn, tickEntry] at hn ⊢
      split at hn
      · rename_i hc
        rw [if_pos hc]
        exact hs.unknown n hn
      · rename_i hc
        exact absurd (Or.inl hn) hc
  · exact hs

theorem PictureInv.change (hs : PictureInv s) {k : Bool} (h : Change k s t) : PictureInv t := by
  cases h with
  | move h => exact hs.move h
  | powerLoss => exact hs.of_eq (by simp [powerLost, endAttempts]) (by simp [powerLost, endAttempts])
  | refused => exact hs.of_eq (by simp [recordRefused, emptyQueues]) (by simp [recordRefused, emptyQueues])
  | ages => exact hs.ages
  | _ => exact hs.of_eq rfl rfl

/-! The state of the reset -/

theorem reset_startInv : StartInv State.reset := ⟨fun _ => rfl, fun _ => rfl, fun h => absurd rfl h, fun h => absurd h (by decide)⟩

theorem reset_envelopeInv : EnvelopeInv State.reset := ⟨rfl, rfl, fun _ => ⟨rfl, rfl, rfl⟩, by decide⟩

theorem reset_causeInv : CauseInv State.reset := ⟨by decide, by decide, by decide⟩

theorem reset_callInv : CallInv State.reset := ⟨by decide, by decide⟩

theorem reset_pictureInv : PictureInv State.reset := ⟨by decide, by decide⟩

theorem powerOnState_startInv (s : State) : StartInv (powerOnState s) := reset_startInv.of_eq rfl rfl

/-- R180: after a warm reset the station is in INIT, reading nothing. -/
theorem warmReset_startInv (s : State) : StartInv (warmReset s) :=
  ⟨fun _ => rfl, fun _ => rfl, fun h => absurd rfl h, fun h => absurd h (by simp [State.working, State.phase, warmReset, Loader.reset, Phase.working])⟩

/-- Settles O60, law by law: each is kept by every change of which a step is a chain, and the state of the reset meets it. -/
theorem everyStepKeepsTheListAndPictureLaws : Obligations.EveryStepKeepsTheListAndPictureLaws := by
  unfold Obligations.EveryStepKeepsTheListAndPictureLaws
  intro s t h
  exact ⟨fun hs => step_keeps (fun _ _ _ hc hs => hs.change hc) (fun _ _ => reset_envelopeInv.of_eq rfl rfl)
      (fun _ _ => reset_envelopeInv.of_eq rfl rfl) (fun _ _ _ hs => hs.of_eq rfl rfl) hs h,
    fun hs => step_keeps (fun _ _ _ hc hs => hs.change hc) (fun _ _ => reset_causeInv.of_eq rfl)
      (fun _ _ => reset_causeInv.of_eq rfl) (fun _ _ _ hs => hs.of_eq rfl) hs h,
    fun hs => step_keeps (fun _ _ _ hc hs => hs.change hc) (fun _ _ => reset_callInv.of_eq _ rfl)
      (fun _ _ => reset_callInv.of_eq _ rfl) (fun _ _ _ hs => hs.of_eq _ rfl) hs h,
    fun hs => step_keeps (fun _ _ _ hc hs => hs.change hc) (fun _ _ => reset_pictureInv.of_eq rfl rfl)
      (fun _ _ => reset_pictureInv.of_eq rfl rfl) (fun _ _ _ hs => hs.of_eq rfl rfl) hs h⟩

/-! The gates and the sequencer -/

theorem State.setGateRecord_getElem (s : State) (w v : Winder) (g : GateRecord) :
    (s.setGateRecord w g).gate.records[v] = if w = v then g else s.gate.records[v] := by
  simp only [State.setGateRecord, getElem_put]

theorem GateInv.of_eq (hs : GateInv s) (ht : StartInv t) (hg : t.gate = s.gate) (hp : t.phase = s.phase) : GateInv t where
  start := ht
  settle w := by simpa only [State.gateState, hg] using hs.settle w
  releasable w := by simpa only [State.gateState, hg, hp] using hs.releasable w
  assent := by simpa only [hg, hp] using hs.assent
  reply := by simpa only [hg] using hs.reply
  cause := by simpa only [hg] using hs.cause
  misses w := by simpa only [hg] using hs.misses w

theorem lost_settleMs {g : GateRecord} (h : g.settleMs ≠ none → g.state = .locked) :
    g.lost.settleMs ≠ none → g.lost.state = .locked := by
  unfold GateRecord.lost
  split
  · exact fun _ => rfl
  · exact h

theorem lost_not_releasable (g : GateRecord) : g.lost.state ≠ .releasable := by
  unfold GateRecord.lost
  split
  · exact nofun
  · assumption

theorem GateInv.move (hs : GateInv s) (h : Move b s t) : GateInv t := by
  have ht : StartInv t := hs.start.move h
  by_cases hb : b ∈ [Block.records, .assentMs, .signal, .calls, .phase]
  · cases h with
    | record _ w g hset hrel =>
      refine ⟨ht, fun v => ?_, fun v => ?_, hs.assent, hs.reply, hs.cause, hs.misses⟩
      · simp only [State.gateState, setGate, State.setGateRecord_getElem]
        split
        · exact hset
        · exact hs.settle v
      · simp only [State.gateState, setGate, State.setGateRecord_getElem]
        split
        · exact hrel
        · exact hs.releasable v
    | assentMs _ n h => exact ⟨ht, hs.settle, hs.releasable, h, hs.reply, hs.cause, hs.misses⟩
    | signal _ r hr hc => exact ⟨ht, hs.settle, hs.releasable, hs.assent, hr, hc hs.cause, hs.misses⟩
    | call _ w r h =>
      refine ⟨ht, hs.settle, hs.releasable, hs.assent, hs.reply, hs.cause, fun v => ?_⟩
      simp only [setCall, State.setGate_gate, getElem_put]
      split
      · exact h (hs.misses w)
      · exact hs.misses v
    | run _ hp => exact ⟨ht, hs.settle, fun _ _ => rfl, fun _ => rfl, hs.reply, hs.cause, hs.misses⟩
    | listenOnly _ hp =>
      have hg : (lostLine s).gate = s.gate.lost := by simp [lostLine_eq]
      refine ⟨ht, fun v => ?_, fun v => ?_, fun h => ?_, ?_, ?_, fun v => ?_⟩
      · simp only [State.gateState, hg, GateUnit.lost, Fin.getElem_fin, Vector.getElem_map]
        exact lost_settleMs (hs.settle v)
      · simp only [State.gateState, hg, GateUnit.lost, Fin.getElem_fin, Vector.getElem_map]
        exact fun h => absurd h (lost_not_releasable _)
      · exact absurd (by rw [hg]; rfl) h
      · rw [hg]; exact hs.reply
      · rw [hg]; exact hs.cause
      · rw [hg]; exact hs.misses v
    | _ => simp at hb
  · exact hs.of_eq ht (h.gate_eq hb) (h.phase_eq (by simp at hb; tauto))

theorem SequencerInv.of_eq (hs : SequencerInv s) (ht : StartInv t) (hq : t.seq = s.seq) (hc : t.cfg = s.cfg)
    (hp : t.phase = s.phase) : SequencerInv t where
  start := ht
  discharge := by simpa only [State.isLoading, hq, hc, hp] using hs.discharge
  door := by simpa only [hq] using hs.door
  dwell := by simpa only [hq] using hs.dwell
  reply := by simpa only [hq] using hs.reply
  arrival := by simpa only [hq] using hs.arrival

/-- R159: the loss of the line leaves the laws of the sequencer in force. -/
theorem SequencerInv.lost (hs : SequencerInv s) (ht : StartInv (lostLine s)) : SequencerInv (lostLine s) := by
  have hq : (lostLine s).seq = s.seq.aborted s.inputs.doorClosed := by simp [lostLine_eq]
  have hne : (s.seq.aborted s.inputs.doorClosed).cycle ≠ .discharge := by
    unfold Sequencer.aborted
    split
    · split <;> simp
    · assumption
  refine ⟨ht, fun h => absurd (hq ▸ h) hne, ?_, ?_, ?_, ?_⟩ <;> rw [hq] <;> unfold Sequencer.aborted
  · split
    · split <;> simp
    · exact hs.door
  · split
    · split <;> exact hs.dwell
    · exact hs.dwell
  · split
    · split <;> exact hs.reply
    · exact hs.reply
  · split
    · split <;> exact hs.arrival
    · exact hs.arrival

theorem SequencerInv.move (hs : SequencerInv s) (h : Move b s t) : SequencerInv t := by
  have ht : StartInv t := hs.start.move h
  by_cases hb : b = .seq
  · subst hb
    cases h with
    | seq _ q h => exact h hs
  by_cases hp : b = .phase
  · subst hp
    cases h with
    | run _ hp => exact ⟨ht, fun h => ⟨(hs.discharge h).1, rfl⟩, hs.door, hs.dwell, hs.reply, hs.arrival⟩
    | listenOnly _ hp => exact hs.lost ht
  · exact hs.of_eq ht (h.seq_eq hb hp) h.cfg_eq (h.phase_eq hp)

theorem count_ne_none {n : Option Nat} (h : count n ≠ none) : n ≠ none := fun hn => h (by simp [hn, count])

theorem GateInv.change (hs : GateInv s) {k : Bool} (h : Change k s t) : GateInv t := by
  have ht : StartInv t := hs.start.change h
  cases h with
  | move h => exact hs.move h
  | powerLoss => exact hs.of_eq ht (by simp [powerLost, endAttempts]) (by simp [powerLost, endAttempts, State.phase])
  | resetEnds _ x hr hp hl => exact hs.of_eq ht rfl hp
  | accepted _ x hr hd hrole =>
    have hinit := hs.start.reading hd
    refine ⟨ht, hs.settle, fun w h => ?_, fun h => ?_, hs.reply, hs.cause, hs.misses⟩
    · exact absurd (hinit.symm.trans (hs.releasable w h)) (by decide)
    · exact absurd (hinit.symm.trans (hs.assent h)) (by decide)
  | refused _ hr hd =>
    have hinit := hs.start.reading hd
    have hg : (recordRefused s).gate = s.gate := by simp [recordRefused, emptyQueues]
    refine ⟨ht, ?_, fun w h => ?_, fun h => ?_, ?_, ?_, ?_⟩
    · simpa only [State.gateState, hg] using hs.settle
    · rw [State.gateState, hg] at h
      exact absurd (hinit.symm.trans (hs.releasable w h)) (by decide)
    · rw [hg] at h
      exact absurd (hinit.symm.trans (hs.assent h)) (by decide)
    · rw [hg]; exact hs.reply
    · rw [hg]; exact hs.cause
    · rw [hg]; exact hs.misses
  | ages => exact hs.of_eq ht (by unfold tickAges; split <;> rfl) (by simp [State.phase, tickAges_loader])
  | gateMs =>
    refine ⟨ht, fun w h => ?_, fun w h => ?_, fun h => hs.assent (count_ne_none h), fun h => hs.reply (count_ne_none h),
      hs.cause, hs.misses⟩
    · simp only [State.gateState, tickGate, State.setGate_gate, Fin.getElem_fin, Vector.getElem_map] at h ⊢
      exact hs.settle w (count_ne_none h)
    · simp only [State.gateState, tickGate, State.setGate_gate, Fin.getElem_fin, Vector.getElem_map] at h
      exact hs.releasable w h
  | _ => exact hs.of_eq ht rfl rfl

theorem SequencerInv.change_keeps (hs : SequencerInv s) {k : Bool} (h : Change k s t) : SequencerInv t := by
  have ht : StartInv t := hs.start.change h
  cases h with
  | move h => exact hs.move h
  | powerLoss =>
    exact hs.of_eq ht (by simp [powerLost, endAttempts]) (by simp [powerLost, endAttempts])
      (by simp [powerLost, endAttempts, State.phase])
  | resetEnds _ x hr hp hl => exact hs.of_eq ht rfl rfl hp
  | accepted _ x hr hd hrole =>
    refine ⟨ht, fun h => ?_, hs.door, hs.dwell, hs.reply, hs.arrival⟩
    exact absurd ((hs.start.reading hd).symm.trans (hs.discharge h).2) (by decide)
  | refused _ hr hd =>
    have hq : (recordRefused s).seq = s.seq := by simp [recordRefused, emptyQueues]
    refine ⟨ht, fun h => ?_, ?_, ?_, ?_, ?_⟩
    · rw [hq] at h
      exact absurd ((hs.start.reading hd).symm.trans (hs.discharge h).2) (by decide)
    · rw [hq]; exact hs.door
    · rw [hq]; exact hs.dwell
    · rw [hq]; exact hs.reply
    · rw [hq]; exact hs.arrival
  | ages => exact hs.of_eq ht (by unfold tickAges; split <;> rfl) (tickAges_cfg s) (by simp [State.phase, tickAges_loader])
  | seqMs =>
    exact ⟨ht, hs.discharge, fun h => hs.door (count_ne_none h), fun h => hs.dwell (count_ne_none h),
      fun h => hs.reply (count_ne_none h), hs.arrival⟩
  | _ => exact hs.of_eq ht rfl rfl rfl

theorem reset_gateInv : GateInv State.reset :=
  ⟨reset_startInv, by decide, by decide, by decide, by decide, by decide, by decide⟩

theorem reset_sequencerInv : SequencerInv State.reset :=
  ⟨reset_startInv, by decide, by decide, by decide, by decide, by decide⟩

theorem warmReset_sequencerInv (s : State) : SequencerInv (warmReset s) :=
  ⟨warmReset_startInv s, nofun, fun h => absurd rfl h, fun h => absurd rfl h, fun h => absurd rfl h, fun h => absurd rfl h⟩

/-- Settles O59: every change of which a step is a chain keeps the laws of the gates and of the sequencer. -/
theorem everyStepKeepsTheGateAndSequencerLaws : Obligations.EveryStepKeepsTheGateAndSequencerLaws := by
  unfold Obligations.EveryStepKeepsTheGateAndSequencerLaws
  intro s t h
  exact ⟨fun hs => step_keeps (fun _ _ _ hc hs => hs.change hc)
      (fun s _ => reset_gateInv.of_eq (powerOnState_startInv s) rfl rfl)
      (fun s _ => reset_gateInv.of_eq (warmReset_startInv s) rfl rfl)
      (fun _ _ _ hs => hs.of_eq (hs.start.of_eq rfl rfl) rfl rfl) hs h,
    fun hs => step_keeps (fun _ _ _ hc hs => hs.change_keeps hc)
      (fun s _ => reset_sequencerInv.of_eq (powerOnState_startInv s) rfl rfl rfl)
      (fun s _ => warmReset_sequencerInv s)
      (fun _ _ _ hs => hs.of_eq (hs.start.of_eq rfl rfl) rfl rfl rfl) hs h⟩

/-! The queues -/

theorem Move.queues_eq (h : Move b s t) (hb : b ∉ [Block.ports, .offers, .queues, .relay, .phase]) :
    t.portA = s.portA ∧ t.portB = s.portB ∧ t.relay = s.relay := by
  cases h <;> simp_all [setNotRegistered, writeRecords, setEntry, setHoldSet, setGate, setSignal, setCall]

theorem LineInv.of_eq (hs : LineInv s) (ht : StartInv t) (ha : t.portA.tx = s.portA.tx) (hb : t.portB.tx = s.portB.tx)
    (hu : t.relay.up = s.relay.up) (hd : t.relay.down = s.relay.down) (hp : t.phase = s.phase) : LineInv t where
  start := ht
  txA := ha ▸ hs.txA
  txB := hb ▸ hs.txB
  up := hu ▸ hs.up
  down := hd ▸ hs.down
  silent := by rw [ha, hb, hp]; exact hs.silent
  still := by rw [hu, hd, hp]; exact hs.still

/-- A queue that gets no longer stays empty. -/
theorem entries_nil_of_length_le {q r : Queue} (h : q.entries.length ≤ r.entries.length) (hr : r.entries = []) :
    q.entries = [] := by
  rw [hr] at h
  exact List.eq_nil_of_length_eq_zero (Nat.le_zero.mp h)

theorem LineInv.port (hs : LineInv s) (ht : StartInv t) {p : PortId} {x : Port} (h : t = s.setPort p x)
    (hx : QueueInv sameReport (s.port p).tx → QueueInv sameReport x.tx)
    (hl : s.phase = .run ∨ x.tx.entries.length ≤ (s.port p).tx.entries.length) : LineInv t := by
  subst h
  cases p with
  | a =>
    refine ⟨ht, hx hs.txA, hs.txB, hs.up, hs.down, fun hp => ⟨?_, (hs.silent hp).2⟩, hs.still⟩
    exact entries_nil_of_length_le (hl.resolve_left hp) (hs.silent hp).1
  | b =>
    refine ⟨ht, hs.txA, hx hs.txB, hs.up, hs.down, fun hp => ⟨(hs.silent hp).1, ?_⟩, hs.still⟩
    exact entries_nil_of_length_le (hl.resolve_left hp) (hs.silent hp).2

theorem LineInv.relayQueue (hs : LineInv s) (ht : StartInv t) {p : PortId} {q : Queue} (h : t = s.setRelayQueue p q)
    (hq : QueueInv sameRelayed (s.relayQueue p) → QueueInv sameRelayed q)
    (hl : s.phase = .listen ∨ s.phase = .run ∨ q.entries.length ≤ (s.relayQueue p).entries.length) : LineInv t := by
  subst h
  cases p with
  | a =>
    refine ⟨ht, hs.txA, hs.txB, hq hs.up, hs.down, hs.silent, fun hr hn => ⟨?_, (hs.still hr hn).2⟩⟩
    exact entries_nil_of_length_le ((hl.resolve_left hn).resolve_left hr) (hs.still hr hn).1
  | b =>
    refine ⟨ht, hs.txA, hs.txB, hs.up, hq hs.down, hs.silent, fun hr hn => ⟨(hs.still hr hn).1, ?_⟩⟩
    exact entries_nil_of_length_le ((hl.resolve_left hn).resolve_left hr) (hs.still hr hn).2

/-- R16: an originated frame joins the queues in RUN. -/
theorem LineInv.originate (hs : LineInv s) (p : Payload) : LineInv (originate p s) := by
  have ht := hs.start.move (.originate s p)
  by_cases hrun : s.phase = .run
  · have hp : (Machine.originate p s).phase = .run := by simpa [State.phase] using hrun
    refine ⟨ht, ?_, ?_, ?_, ?_, fun h => absurd hp h, fun h => absurd hp h⟩
    · rw [originate_portA, if_pos hrun]
      exact hs.txA.takeIn sameReport_replaces _ _
    · rw [originate_portB]
      split
      · exact hs.txB.takeIn sameReport_replaces _ _
      · exact hs.txB
    · rw [originate_relay]; exact hs.up
    · rw [originate_relay]; exact hs.down
  · rwa [originate_of_not_run hrun]

theorem QueueInv.emptied {same : Frame → Frame → Bool} {q : Queue} (h : QueueInv same q) :
    QueueInv same { q with entries := [] } := h.sublist (List.nil_sublist _)

/-- R8, R16, R32: emptied queues are in order in every phase. -/
theorem LineInv.empties (hs : LineInv s) (ht : StartInv t) (ha : t.portA.tx = { s.portA.tx with entries := [] })
    (hb : t.portB.tx = { s.portB.tx with entries := [] }) (hu : t.relay.up = { s.relay.up with entries := [] })
    (hd : t.relay.down = { s.relay.down with entries := [] }) : LineInv t where
  start := ht
  txA := ha ▸ hs.txA.emptied
  txB := hb ▸ hs.txB.emptied
  up := hu ▸ hs.up.emptied
  down := hd ▸ hs.down.emptied
  silent _ := by rw [ha, hb]; exact ⟨rfl, rfl⟩
  still _ _ := by rw [hu, hd]; exact ⟨rfl, rfl⟩

theorem LineInv.move (hs : LineInv s) (h : Move b s t) : LineInv t := by
  have ht : StartInv t := hs.start.move h
  by_cases hb : b ∈ [Block.ports, .offers, .queues, .relay, .phase]
  · cases h with
    | port _ p x h => exact hs.port ht rfl (h ▸ id) (.inr (by rw [h]))
    | originate _ p => exact hs.originate p
    | ownQueue _ p q h hl => exact hs.port ht rfl h (.inr hl)
    | relayQueue _ p q h hl => exact hs.relayQueue ht rfl h hl
    | dropFlags => exact hs.of_eq ht rfl rfl rfl rfl rfl
    | run _ hp =>
      exact ⟨ht, hs.txA, hs.txB, hs.up, hs.down, fun h => absurd rfl h, fun h => absurd rfl h⟩
    | listenOnly _ hp =>
      exact hs.empties ht (by simp [lostLine_eq, emptyQueues, Port.emptied]) (by simp [lostLine_eq, emptyQueues, Port.emptied])
        (by simp [lostLine_eq, emptyQueues]) (by simp [lostLine_eq, emptyQueues])
    | _ => simp at hb
  · obtain ⟨ha, hb', hr⟩ := h.queues_eq hb
    exact hs.of_eq ht (by rw [ha]) (by rw [hb']) (by rw [hr]) (by rw [hr]) (h.phase_eq (by simp at hb; tauto))

theorem LineInv.change (hs : LineInv s) {k : Bool} (h : Change k s t) : LineInv t := by
  have ht : StartInv t := hs.start.change h
  cases h with
  | move h => exact hs.move h
  | powerLoss =>
    refine ⟨ht, hs.txA.endAttempts, hs.txB.endAttempts, hs.up.endAttempts, hs.down.endAttempts, fun h => ?_, fun hr hn => ?_⟩
    · obtain ⟨ha, hb⟩ := hs.silent h
      simp [powerLost, endAttempts, Port.released, Queue.endAttempts, ha, hb]
    · obtain ⟨hu, hd⟩ := hs.still hr hn
      simp [powerLost, endAttempts, Queue.endAttempts, hu, hd]
  | resetEnds _ x hr hp hl => exact hs.of_eq ht rfl rfl rfl rfl hp
  | accepted _ x hr hd hrole =>
    have hinit := hs.start.reading hd
    exact ⟨ht, hs.txA, hs.txB, hs.up, hs.down, fun _ => hs.silent (by rw [hinit]; decide),
      fun _ h => absurd rfl h⟩
  | refused _ hr hd =>
    exact hs.empties ht (by simp [recordRefused, emptyQueues, Port.emptied]) (by simp [recordRefused, emptyQueues, Port.emptied])
      (by simp [recordRefused, emptyQueues]) (by simp [recordRefused, emptyQueues])
  | ages =>
    have hkept : (tickAges s).portA = s.portA ∧ (tickAges s).portB = s.portB ∧ (tickAges s).relay = s.relay := by
      unfold tickAges; split <;> exact ⟨rfl, rfl, rfl⟩
    obtain ⟨ha, hb, hr⟩ := hkept
    exact hs.of_eq ht (by rw [ha]) (by rw [hb]) (by rw [hr]) (by rw [hr]) (by simp [State.phase, tickAges_loader])
  | _ => exact hs.of_eq ht rfl rfl rfl rfl rfl

theorem reset_lineInv : LineInv State.reset :=
  ⟨reset_startInv, queueInv_nil _, queueInv_nil _, queueInv_nil _, queueInv_nil _, fun _ => ⟨rfl, rfl⟩, fun _ _ => ⟨rfl, rfl⟩⟩

/-- Settles O58: every change of which a step is a chain keeps the laws of the queues. -/
theorem everyStepKeepsTheQueueLaws : Obligations.EveryStepKeepsTheQueueLaws := by
  unfold Obligations.EveryStepKeepsTheQueueLaws
  intro s t hs h
  exact step_keeps (fun _ _ _ hc hs => hs.change hc)
    (fun s _ => reset_lineInv.of_eq (powerOnState_startInv s) rfl rfl rfl rfl rfl)
    (fun s _ => reset_lineInv.of_eq (warmReset_startInv s) rfl rfl rfl rfl rfl)
    (fun _ _ _ hs => hs.of_eq (hs.start.of_eq rfl rfl) rfl rfl rfl rfl rfl) hs h

/-! Every command -/

theorem Change.pending_eq {k : Bool} (h : Change k s t) : t.pending = s.pending := by
  cases h with
  | move h => exact h.pending_eq
  | powerLoss => simp [powerLost, endAttempts]
  | refused => simp [recordRefused, emptyQueues]
  | ages => unfold tickAges; split <;> rfl
  | _ => rfl

/-- R185, R181: no change but a reset leaves LISTEN-ONLY or CONFIG_FAULT. -/
theorem Change.phase_stays {k : Bool} (h : Change k s t) (hs : StartInv s) (hphase : s.phase = .listenOnly ∨ s.phase = .configFault) :
    t.phase = s.phase := by
  have hne : s.phase ≠ .init ∧ s.phase ≠ .listen ∧ s.phase ≠ .run := by
    rcases hphase with hp | hp <;> rw [hp] <;> decide
  obtain ⟨hinit, hlisten, hrun⟩ := hne
  cases h with
  | @move _ b _ _ h =>
    by_cases hb : b = .phase
    · subst hb
      cases h with
      | run _ hp => exact absurd hp hlisten
      | listenOnly _ hp => exact hp.elim (absurd · hlisten) (absurd · hrun)
    · exact h.phase_eq hb
  | powerLoss => simp [powerLost, endAttempts, State.phase]
  | resetEnds _ x hr hp hl => exact hp
  | accepted _ x hr hd hrole => exact absurd (hs.reading hd) hinit
  | refused _ hr hd => exact absurd (hs.reading hd) hinit
  | ages => simp [State.phase, tickAges_loader]
  | _ => rfl

/-- Settles O2: every command answers, by a chain of changes that leave the queue or by the state of the reset. -/
theorem everyCommandCompletes : Obligations.EveryCommandCompletes := by
  unfold Obligations.EveryCommandCompletes
  intro c s
  obtain ⟨t, ht, hanswered⟩ := exec_answers s c
  refine ⟨t, ht, ?_⟩
  rcases hanswered with (⟨-, rfl⟩ | ⟨-, -, rfl⟩) | hchanges
  · rfl
  · rfl
  · exact hchanges.keeps (P := fun u => u.pending = s.pending) (fun _ _ hc hu => hc.pending_eq.trans hu) rfl

/-- Settles O20: LISTEN is entered from INIT and RUN from LISTEN, so that no change but a reset leaves the two phases. -/
theorem onlyAResetLeavesListenOnly : Obligations.OnlyAResetLeavesListenOnly := by
  unfold Obligations.OnlyAResetLeavesListenOnly
  intro c s t hs hphase h hon hwarm
  obtain ⟨u, hu, hanswered⟩ := exec_answers s c
  rw [h] at hu
  injection hu with hu
  subst hu
  rcases hanswered with (⟨hc, -⟩ | ⟨hc, -, -⟩) | hchanges
  · exact absurd hc hon
  · exact absurd hc hwarm
  · exact (hchanges.keeps (P := fun u => StartInv u ∧ u.phase = s.phase)
      (fun u v hc ⟨hu, hp⟩ => ⟨hu.change hc, (hc.phase_stays hu (hp ▸ hphase)).trans hp⟩) ⟨hs, rfl⟩).2

end Sys2Proof.Machine
end

