-- ==== Sys2Proof/Proofs/Reset.lean ====
section
/-! PROOFS. Sys2Proof/Proofs/Reset.lean: the front command, the state of the reset, and what power and the reset pin do. -/
set_option Elab.async false

namespace Sys2Proof.Machine

theorem reset_tripInv : TripInv State.reset where
  start := reset_startInv
  tripped _ := rfl
  drum := nofun
  details := nofun
  law _ h := h.elim nofun nofun
  presented := nofun
  faulty := nofun

/-- Settles O56, law by law. -/
theorem invariantsAtReset : Obligations.InvariantsAtReset := by
  unfold Obligations.InvariantsAtReset
  exact ⟨reset_tripInv, reset_envelopeInv, reset_causeInv, reset_callInv, reset_lineInv, reset_pictureInv, reset_gateInv,
    reset_sequencerInv⟩

/-- Settles O1: a step takes the front command and runs it on the state with the queue's rest. -/
theorem stepRunsTheFrontCommand : Obligations.StepRunsTheFrontCommand := by
  unfold Obligations.StepRunsTheFrontCommand
  intros
  rfl

/-! Outputs of a station that is not live -/

section

variable {t : State} (h : t.live = false)
include h

theorem eventCode_of_not_live : t.eventCode = 0 := by simp [State.eventCode, h]
theorem strobe_of_not_live : t.strobe = false := by simp [State.strobe, h]
theorem brakeTrip_of_not_live : t.brakeTrip = true := by simp [State.brakeTrip, h]
theorem permit_of_not_live : t.permit = false := by simp [State.permit, h]
theorem autoStart_of_not_live : t.autoStart = false := by simp [State.autoStart, h]
theorem limitLines_of_not_live : t.limitLines = 0 := by simp [State.limitLines, h]
theorem spiSelect_of_not_live : t.spiSelect = false := by simp [State.spiSelect, h]
theorem doorOpen_of_not_live : t.doorOpen = false := by simp [State.doorOpen, h]
theorem lockRelease_of_not_live (w : Winder) : t.lockRelease w = false := by simp [State.lockRelease, h]
theorem lampOutputs_of_not_live : t.lampOutputs = List.replicate 24 false := by simp [State.lampOutputs, h]

end

/-! The two resets -/

theorem reset_buckets : ∀ i : Fin 10, State.reset.portA.buckets[i] = 0 := by decide

theorem reset_gates : ∀ w : Winder, State.reset.gate.records[w] = { state := .locked, settleMs := none } ∧
    State.reset.gate.calls[w] = { status := .none, misses := 0 } := by decide

/-- A station held in reset whose blocks are those of the reset is as the reset tables say. -/
theorem afterReset_of_blocks {t : State} (hphase : t.phase = .init) (hreset : t.inReset = true)
    (hA : t.portA = State.reset.portA) (hB : t.portB = State.reset.portB) (hrelay : t.relay = State.reset.relay)
    (hpicture : t.picture = State.reset.picture) (hstations : t.stations = State.reset.stations)
    (hdepth : t.depth.history = [] ∧ t.depth.stationary = 0 ∧ t.depth.verified = false ∧ t.depth.modePending = false ∧
      t.depth.clearPending = false ∧ t.depth.sample = none)
    (henv : t.env = State.reset.env) (htrip : t.trip = State.reset.trip) (hsafety : t.safety = State.reset.safety)
    (hgate : t.gate = State.reset.gate) (hseq : t.seq = State.reset.seq) (hpanel : t.panel = State.reset.panel) :
    AfterReset t := by
  have hlive : t.live = false := by simp [State.live, hreset]
  have hworking : t.working = false := by simp [State.working, hphase, Phase.working]
  refine ⟨⟨hphase, hreset⟩, ⟨brakeTrip_of_not_live hlive, permit_of_not_live hlive, autoStart_of_not_live hlive,
    limitLines_of_not_live hlive, doorOpen_of_not_live hlive, spiSelect_of_not_live hlive, lockRelease_of_not_live hlive⟩,
    ?_, hrelay ▸ ⟨rfl, rfl, rfl, rfl⟩, ?_, ?_, hstations ▸ rfl, hdepth, henv ▸ ⟨rfl, rfl, rfl, rfl, rfl, rfl⟩,
    htrip ▸ ⟨rfl, rfl, rfl, rfl, rfl⟩, hsafety ▸ ⟨rfl, rfl, rfl⟩, ?_, hgate ▸ ⟨rfl, rfl⟩,
    hseq ▸ ⟨rfl, rfl, rfl, rfl, rfl, rfl, rfl, rfl, rfl⟩,
    ⟨hpanel ▸ rfl, hpanel ▸ rfl, eventCode_of_not_live hlive, strobe_of_not_live hlive⟩,
    lampOutputs_of_not_live hlive, by simp [State.detail, hworking]⟩
  · have hcandidate : ∀ p : PortId, t.candidate p = none := fun p => by
      cases p <;> simp only [State.candidate, State.port, State.relayQueue, hA, hB, hrelay] <;> rfl
    intro p
    have hport : t.port p = State.reset.portA := by cases p <;> simp only [State.port, hA, hB] <;> rfl
    rw [hport]
    exact ⟨rfl, rfl, rfl, rfl, rfl, rfl, by decide, hcandidate p, rfl, reset_buckets, rfl⟩
  · rw [hpicture]; decide
  · rw [hstations]; decide
  · rw [hgate]
    exact reset_gates

theorem powerOnState_afterReset (s : State) : AfterReset (powerOnState s) :=
  afterReset_of_blocks rfl rfl rfl rfl rfl rfl rfl ⟨rfl, rfl, rfl, rfl, rfl, rfl⟩ rfl rfl rfl rfl rfl rfl

theorem warmReset_afterReset (s : State) : AfterReset (warmReset s) :=
  afterReset_of_blocks rfl (by simp [State.inReset, warmReset]) rfl rfl rfl rfl rfl ⟨rfl, rfl, rfl, rfl, rfl, rfl⟩ rfl rfl rfl
    rfl rfl rfl

/-- Settles O4: both resets leave every block but a few at the values of the reset. -/
theorem powerOnAndWarmReset : Obligations.PowerOnAndWarmReset := by
  unfold Obligations.PowerOnAndWarmReset
  intro s
  refine ⟨⟨_, rfl, powerOnState_afterReset s, rfl, rfl, rfl, rfl, rfl, rfl⟩, fun hp => ?_, fun hp => ?_⟩
  · exact ⟨warmReset s, if_pos hp, warmReset_afterReset s, rfl, rfl, rfl, rfl, rfl, rfl, rfl, rfl⟩
  · exact if_neg (by rw [hp]; decide)

/-! The end of the reset, and the loss of power -/

theorem execOscillatorStartExpiry_of (s : State) (hp : s.loader.powered = true) (ho : s.loader.oscillating = true) :
    exec .oscillatorStartExpiry s = .next
      (if s.loader.pinHeld then s.setLoader { s.loader with oscillating := false }
       else endReset (s.setLoader { s.loader with oscillating := false })) := by
  change execOscillatorStartExpiry s = _
  simp [execOscillatorStartExpiry, hp, ho]

theorem execResetPinRelease_of (s : State) (hp : s.loader.powered = true) (hh : s.loader.pinHeld = true) :
    exec .resetPinRelease s = .next
      (if s.loader.oscillating then s.setLoader { s.loader with pinHeld := false }
       else endReset (s.setLoader { s.loader with pinHeld := false })) := by
  change execResetPinRelease s = _
  simp [execResetPinRelease, hp, hh]

/-- R180: while the record is read the select is on and the command and the address are put out. -/
theorem spi_of_reading {t : State} (hlive : t.live = true) (hr : t.loader.reading = true) :
    t.spiSelect = true ∧
      t.spiDataOut = [false, false, false, false, false, false, true, true] ++ List.replicate 16 false := by
  have hselect : t.spiSelect = true := by simp [State.spiSelect, hlive, hr]
  exact ⟨hselect, by rw [State.spiDataOut, if_pos hselect]; decide⟩

/-- Settles O5: each of the two ends what it names, and the reading begins where the other holds the station no more. -/
theorem resetEndsAndTheReadBegins : Obligations.ResetEndsAndTheReadBegins := by
  unfold Obligations.ResetEndsAndTheReadBegins
  intro s hp
  refine ⟨fun ho hh => ?_, fun ho hh => ?_, fun hh ho => ?_, fun hh ho => ?_, fun hone hreset => ?_⟩
  · rw [execOscillatorStartExpiry_of s hp ho, hh]; rfl
  · rw [execOscillatorStartExpiry_of s hp ho, hh]; rfl
  · rw [execResetPinRelease_of s hp hh, ho]; rfl
  · rw [execResetPinRelease_of s hp hh, ho]; rfl
  · cases ho : s.loader.oscillating with
    | true =>
      have hh : s.loader.pinHeld = false := by simpa [ho] using hone
      refine ⟨_, (execOscillatorStartExpiry_of s hp ho).trans (by rw [hh]), ?_⟩
      exact spi_of_reading (by simp [State.live, State.inReset, endReset, hp, hh]) rfl
    | false =>
      have hh : s.loader.pinHeld = true := by simpa [State.inReset, ho] using hreset
      refine ⟨_, (execResetPinRelease_of s hp hh).trans (by rw [ho]), ?_⟩
      exact spi_of_reading (by simp [State.live, State.inReset, endReset, hp, ho]) rfl

/-- Settles O6: every attempt ends, and without power no output but the brake trip is on. -/
theorem powerLossReleasesEverything : Obligations.PowerLossReleasesEverything := by
  unfold Obligations.PowerLossReleasesEverything
  intro s
  have hlive : (powerLost s).live = false := by simp [State.live, powerLost]
  refine ⟨powerLost s, rfl, fun p => ?_, brakeTrip_of_not_live hlive, permit_of_not_live hlive, autoStart_of_not_live hlive,
    limitLines_of_not_live hlive, lockRelease_of_not_live hlive, doorOpen_of_not_live hlive, eventCode_of_not_live hlive,
    strobe_of_not_live hlive, spiSelect_of_not_live hlive, ?_, lampOutputs_of_not_live hlive⟩
  · cases p <;> exact ⟨rfl, rfl, rfl⟩
  · simp [State.spiDataOut, spiSelect_of_not_live hlive]

end Sys2Proof.Machine
end

