-- ==== Sys2Proof/Proofs/TripLaws.lean ====
section
/-! PROOFS. Sys2Proof/Proofs/TripLaws.lean: every step keeps the laws of the trip (`TripInv`). A change beside the trip, the causes,
the depth unit, the hold set and the phase leaves them; each operation on those is judged once. -/
set_option Elab.async false

namespace Sys2Proof.Machine

variable {s t : State}

/-- The laws of the trip that do not speak of the trip record. -/
structure TripBase (s : State) : Prop where
  start     : StartInv s
  presented : s.lastSample.verified = true → s.depth.verified = true
  faulty    : s.encoderFaulty = true → s.depth.verified = false

/-- The laws of the trip but that of R117, which a hold or a loss of the verification breaks until the trip has acted on it. -/
structure TripRest (s : State) : Prop extends TripBase s where
  tripped : s.safety.causes ≠ [] → s.tripState = .idle
  drum    : s.tripOpen = true → s.isDrum = true ∧ (s.phase = .run ∨ s.phase = .listenOnly)
  details : s.tripOpen = true → s.trip.record.details ≠ none

theorem TripInv.rest (h : TripInv s) : TripRest s where
  start := h.start
  presented := h.presented
  faulty := h.faulty
  tripped := h.tripped
  drum := h.drum
  details := h.details

/-- R117: the law of UNVERIFIED and of the hold set. -/
def TripLaw (s : State) : Prop :=
  s.depth.verified = false ∨ s.stations.holdSet ≠ 0 → s.tripState = .armed ∨ s.tripState = .running →
    s.tripClass = some .inspection

theorem TripRest.inv (h : TripRest s) (hlaw : TripLaw s) : TripInv s where
  start := h.start
  presented := h.presented
  faulty := h.faulty
  tripped := h.tripped
  drum := h.drum
  details := h.details
  law := hlaw

theorem TripBase.of_eq (h : TripBase s) (ht : StartInv t) (hd : t.depth = s.depth) : TripBase t where
  start := ht
  presented := by simpa only [State.lastSample, hd] using h.presented
  faulty := by simpa only [State.encoderFaulty, hd] using h.faulty

theorem TripRest.of_eq (h : TripRest s) (ht : StartInv t) (hd : t.depth = s.depth) (hp : t.phase = s.phase)
    (hc : t.cfg = s.cfg) (hr : t.trip.record = s.trip.record) (hs : t.safety.causes = s.safety.causes) : TripRest t where
  toTripBase := h.toTripBase.of_eq ht hd
  tripped := by simpa only [State.tripState, hr, hs] using h.tripped
  drum := by simpa only [State.tripOpen, State.tripState, State.isDrum, hr, hc, hp] using h.drum
  details := by simpa only [State.tripOpen, State.tripState, hr] using h.details

theorem TripInv.of_eq (h : TripInv s) (ht : StartInv t) (hd : t.depth = s.depth) (hp : t.phase = s.phase)
    (hc : t.cfg = s.cfg) (hr : t.trip.record = s.trip.record) (hs : t.safety.causes = s.safety.causes)
    (hh : t.stations.holdSet = s.stations.holdSet) : TripInv t :=
  (h.rest.of_eq ht hd hp hc hr hs).inv (by
    simpa only [TripLaw, State.tripState, State.tripClass, hd, hh, hr] using h.law)

/-- With no trip open the laws speak of the depth unit and the start alone. -/
theorem TripBase.idle (h : TripBase s) (hi : s.tripState = .idle) : TripInv s where
  start := h.start
  presented := h.presented
  faulty := h.faulty
  tripped _ := hi
  drum ho := by simp [State.tripOpen, hi, TripState.isOpen] at ho
  details ho := by simp [State.tripOpen, hi, TripState.isOpen] at ho
  law _ ha := by simp [hi] at ha

/-- With a trip neither ARMED nor RUNNING the law of R117 says nothing. -/
theorem TripRest.unmoving (h : TripRest s) (ha : s.tripState ≠ .armed) (hr : s.tripState ≠ .running) : TripInv s :=
  h.inv fun _ hm => hm.elim (absurd · ha) (absurd · hr)

/-! What leaves the laws of the trip -/

theorem Move.holdSet_eq {b : Block} (h : Move b s t) (hb : b ≠ .holdSet) : t.stations.holdSet = s.stations.holdSet := by
  cases h <;> simp_all [setNotRegistered, writeRecords, setEntry, setHoldSet, setGate, setSignal, setCall, lostLine_eq, emptyQueues]

/-- The blocks that the laws of the trip speak of. -/
abbrev lawBlocks : List Block := [.trip, .safety, .depth, .holdSet, .phase]

theorem Move.tripInv {b : Block} (h : Move b s t) (hb : b ∉ lawBlocks) (hs : TripInv s) : TripInv t := by
  simp only [List.mem_cons, List.not_mem_nil, or_false, not_or] at hb
  obtain ⟨htrip, hsafety, hdepth, hhold, hphase⟩ := hb
  exact hs.of_eq (hs.start.move h) (h.depth_eq hdepth) (h.phase_eq hphase) h.cfg_eq (by rw [h.trip_eq htrip])
    (by rw [h.safety_eq hsafety]) (h.holdSet_eq hhold)

theorem Move.tripRest {b : Block} (h : Move b s t) (hb : b ∉ lawBlocks) (hs : TripRest s) : TripRest t := by
  simp only [List.mem_cons, List.not_mem_nil, or_false, not_or] at hb
  obtain ⟨htrip, hsafety, hdepth, -, hphase⟩ := hb
  exact hs.of_eq (hs.start.move h) (h.depth_eq hdepth) (h.phase_eq hphase) h.cfg_eq (by rw [h.trip_eq htrip])
    (by rw [h.safety_eq hsafety])

theorem TripInv.moves {bs : List Block} (hs : TripInv s) (h : Moves bs s t) (hb : ∀ b ∈ bs, b ∉ lawBlocks := by decide) :
    TripInv t :=
  h.keeps (fun b hm _ _ hmove hu => hmove.tripInv (hb b hm) hu) hs

theorem TripRest.moves {bs : List Block} (hs : TripRest s) (h : Moves bs s t) (hb : ∀ b ∈ bs, b ∉ lawBlocks := by decide) :
    TripRest t :=
  h.keeps (fun b hm _ _ hmove hu => hmove.tripRest (hb b hm) hu) hs

/-! The transitions of the trip record -/

/-- A change of the trip record with its partial evaluation and report keeps the laws that it leaves in force. -/
theorem TripInv.reported (h : TripInv s) (d : Depth) (o : WindingOutcome) :
    TripInv (reportTrip d o (partialEvaluation s)) := by
  have hp : TripInv (partialEvaluation s) :=
    h.of_eq (h.start.of_eq (by simp) (partialEvaluation_besideTrip s).cfg) (by simp) (by simp [State.phase])
      (partialEvaluation_besideTrip s).cfg (by simp) (by simp) (by simp)
  exact hp.moves (reportTrip_moves _ d o)

@[simp] theorem takePending_verified (s : State) : (takePending s).depth.verified = s.depth.verified := by
  unfold takePending; dsimp only; split <;> split <;> rfl

@[simp] theorem takePending_sample (s : State) : (takePending s).depth.sample = s.depth.sample := by
  unfold takePending; dsimp only; split <;> split <;> rfl

@[simp] theorem takePending_faultMs (s : State) : (takePending s).depth.faultMs = s.depth.faultMs := by
  unfold takePending; dsimp only; split <;> split <;> rfl

/-- R113: a closing takes the maintenance requests and touches nothing else of the depth unit. -/
theorem closeTrip_depth (r : TripResult) (s : State) : (closeTrip r s).depth = (takePending s).depth := by
  have hpending : ∀ u : State, u.depth = s.depth → u.inputs = s.inputs → (takePending u).depth = (takePending s).depth :=
    fun u hd hi => by simp only [takePending, State.requestedMode, State.setDepth_depth, hd, hi]
  have hu : ∀ x, (takePending (partialEvaluation (s.setTrip x))).depth = (takePending s).depth := fun x =>
    hpending _ (by simp) (partialEvaluation_besideTrip _).inputs
  unfold closeTrip
  simp only [reportTrip_depth]
  split
  · rw [raise_depth, hu]
  · exact hu _

theorem closeTrip_tripInv (hs : TripBase s) (r : TripResult) : TripInv (closeTrip r s) := by
  have hbeside := closeTrip_besideTrip s r
  have hd := closeTrip_depth r s
  refine TripBase.idle ⟨hs.start.of_eq hbeside.loader hbeside.cfg, ?_, ?_⟩ ?_
  · simpa only [State.lastSample, hd, takePending_sample, takePending_verified] using hs.presented
  · simpa only [State.encoderFaulty, hd, takePending_faultMs, takePending_verified] using hs.faulty
  · rw [State.tripState, closeTrip_trip]; rfl

/-- A change of the trip record from an open trip to an open trip with details, at a drum in RUN or LISTEN-ONLY. -/
theorem TripRest.setTrip (hs : TripRest s) {x : TripUnit} (ho : s.tripOpen = true) (hd : x.record.details ≠ none) :
    TripRest (s.setTrip x) where
  start := hs.start.of_eq rfl rfl
  presented := hs.presented
  faulty := hs.faulty
  tripped hc := by
    have hidle := hs.tripped hc
    simp [State.tripOpen, hidle, TripState.isOpen] at ho
  drum _ := hs.drum ho
  details _ := hd

theorem enterStoppingOn_tripInv (hs : TripRest s) (ho : s.tripOpen = true) (x : SampleSet) :
    TripInv (enterStoppingOn x s) := by
  have hdet := hs.details ho
  unfold enterStoppingOn
  split
  · rename_i hn
    exact absurd hn hdet
  · rename_i t ht
    have hset : TripInv (s.setRecord { s.trip.record with state := .stopping, stopDepth := some (stopPoint s.cfg t.direction x) }) :=
      (hs.setTrip (x := { s.trip with record := { s.trip.record with
        state := .stopping, stopDepth := some (stopPoint s.cfg t.direction x) } }) ho hdet).unmoving nofun nofun
    exact hset.reported _ _

theorem enterRunning_tripInv (hs : TripInv s) (ha : s.tripState = .armed) : TripInv (enterRunning s) := by
  have ho : s.tripOpen = true := by simp [State.tripOpen, ha, TripState.isOpen]
  exact ((hs.rest.setTrip (x := { s.trip with record := { s.trip.record with state := .running, armMs := none },
                                              autoStartMs := none }) ho (hs.details ho)).inv
    fun hl _ => hs.law hl (.inl ha)).reported _ _

theorem enterSuspended_tripInv (hs : TripRest s) (ho : s.tripOpen = true) : TripInv (enterSuspended s) := by
  have hset : TripInv (s.setRecord { s.trip.record with state := .suspended, stopDepth := none }) :=
    (hs.setTrip (x := { s.trip with record := { s.trip.record with state := .suspended, stopDepth := none } }) ho
      (hs.details ho)).unmoving nofun nofun
  exact hset.reported _ _

theorem isOpen_of_ne {st : TripState} (h : st ≠ .idle) : TripState.isOpen st = true := by
  cases st <;> first | rfl | exact absurd rfl h

theorem deliver_tripInv (hs : TripRest s) (c : Cause) : TripInv (deliver c s) := by
  by_cases hl : listed c s.safety.causes = true
  · rw [deliver_of_listed hl]
    refine hs.toTripBase.idle (hs.tripped fun hn => ?_)
    rw [hn] at hl
    exact absurd hl (by simp [listed])
  by_cases hroom : s.safety.causes.length < 8
  · rw [deliver_of_room hl hroom]
    have hbase : TripBase (recordCause c s) := by
      unfold recordCause
      dsimp only
      split
      · exact hs.toTripBase.of_eq (hs.start.of_eq (by simp) (by simp)) (by simp)
      · exact hs.toTripBase.of_eq (hs.start.of_eq rfl rfl) rfl
    unfold tripTold
    split
    · exact closeTrip_tripInv hbase _
    · rename_i hclosed
      exact hbase.idle (by_contra fun hne => hclosed (isOpen_of_ne hne))
  · rw [deliver_of_full hl (by omega)]
    have hidle : s.tripState = .idle := hs.tripped fun hn => hroom (by simp [hn])
    have hinv := hs.toTripBase.idle hidle
    split
    · exact hinv
    · exact (hinv.of_eq (t := s.setSafety { s.safety with causesLost := true }) (hinv.start.of_eq rfl rfl) rfl rfl rfl rfl rfl
        rfl).moves (raise_moves _ .causesLost)

theorem deliverAll_tripInv (hs : TripInv s) (cs : List Cause) : TripInv (deliverAll cs s) := by
  induction cs generalizing s with
  | nil => exact hs
  | cons c cs ih => exact ih (deliver_tripInv hs.rest c)

theorem enterStopping_tripInv (hs : TripRest s) (ho : s.tripOpen = true) : TripInv (enterStopping s) :=
  enterStoppingOn_tripInv hs ho _

theorem tripOpen_of {st : TripState} (h : s.tripState = st) (hne : st ≠ .idle) : s.tripOpen = true :=
  isOpen_of_ne (h ▸ hne)

theorem takeStop_tripInv (hs : TripInv s) : TripInv (takeStop s) := by
  unfold takeStop
  split
  · exact closeTrip_tripInv hs.rest.toTripBase _
  · rename_i h
    exact enterStopping_tripInv hs.rest (tripOpen_of h (by decide))
  · exact hs

theorem takeCancel_tripInv (hs : TripInv s) (n : Station) : TripInv (takeCancel n s) := by
  unfold takeCancel
  split
  · split
    · exact closeTrip_tripInv hs.rest.toTripBase _
    · exact hs
  · rename_i h
    split
    · exact enterStopping_tripInv hs.rest (tripOpen_of h (by decide))
    · exact hs
  · exact closeTrip_tripInv hs.rest.toTripBase _
  · exact hs

theorem lineLost_tripInv (hs : TripInv s) : TripInv (lineLost s) := by
  unfold lineLost
  split
  · exact closeTrip_tripInv hs.rest.toTripBase _
  · rename_i h
    exact enterStopping_tripInv hs.rest (tripOpen_of h (by decide))
  · exact hs

/-- R116: the trip that a hold meets is of class INSPECTION or moves no more. -/
theorem holdJoined_tripInv (hs : TripRest s) : TripInv (holdJoined s) := by
  unfold holdJoined
  split
  · rename_i hc
    exact hs.inv fun _ _ => hc
  · split
    · exact closeTrip_tripInv hs.toTripBase _
    · rename_i h
      exact enterStopping_tripInv hs (tripOpen_of h (by decide))
    · rename_i ha hr
      exact hs.unmoving ha hr

theorem evaluatePathOn_tripInv (hs : TripInv s) (x : SampleSet) : TripInv (evaluatePathOn x s) := by
  unfold evaluatePathOn
  split
  · exact hs
  · dsimp only
    split
    · split
      · exact closeTrip_tripInv hs.rest.toTripBase _
      · exact hs
    · rename_i h
      split
      · exact deliver_tripInv hs.rest _
      · split
        · exact enterStoppingOn_tripInv hs.rest (tripOpen_of h (by decide)) x
        · exact hs
    · split
      · exact deliver_tripInv hs.rest _
      · exact hs
    · exact hs

/-! Signals (R97, R98, R112) -/

/-- R97: what a GO that is not refused has found. -/
theorem refusalOf_none {origin dest : Station} {cls : TripClass} {auto : Bool} (h : refusalOf s origin dest cls auto = none) :
    s.safety.causes = [] ∧ s.phase = .run ∧ (s.lastSample.verified = false → cls = .inspection) ∧
      (s.stations.holdSet ≠ 0 → cls = .inspection) := by
  unfold refusalOf at h
  repeat' split at h
  all_goals cases h
  rename_i hcauses hphase _ _ _ _ _ hver hhold _
  exact ⟨by simpa using hcauses, by simpa using hphase, by simpa using hver, by simpa using hhold⟩

theorem arm_tripInv (hs : TripInv s) (n : TripNumber) (t : TripDetails) (hc : s.safety.causes = []) (hd : s.isDrum = true)
    (hp : s.phase = .run) (hl : s.depth.verified = false ∨ s.stations.holdSet ≠ 0 → t.cls = .inspection) :
    TripInv (arm n t s) := by
  have hset : TripInv (s.setTrip { s.trip with record := armedRecord n t, autoStartMs := if t.auto then some 0 else none }) :=
    { start := hs.start.of_eq rfl rfl
      presented := hs.presented
      faulty := hs.faulty
      tripped := fun hne => absurd hc hne
      drum := fun _ => ⟨hd, .inl hp⟩
      details := fun _ => nofun
      law := fun hlaw _ => congrArg some (hl hlaw) }
  exact hset.reported _ _

theorem takeGo_tripInv (hs : TripInv s) (hd : s.isDrum = true) (origin dest : Station) (cls : TripClass) (auto : Bool) :
    TripInv (takeGo origin dest cls auto s) := by
  unfold takeGo
  split
  · exact hs.moves (originate_moves s _)
  · rename_i hnone
    obtain ⟨hc, hp, hver, hhold⟩ := refusalOf_none hnone
    have hcls : s.depth.verified = false ∨ s.stations.holdSet ≠ 0 → cls = .inspection := fun h =>
      h.elim (fun hv => hver (by by_contra hn; exact absurd (hs.presented (by simpa using hn)) (by simp [hv]))) hhold
    dsimp only
    split
    · exact arm_tripInv hs _ _ hc hd hp hcls
    · refine arm_tripInv (hs.moves (leave_moves s .tripExpired)) _ _ (by simpa using hc) ?_ ?_ (by simpa [State.goDetails] using hcls)
      · simpa [State.isDrum] using hd
      · simpa [State.phase] using hp

theorem takeSignal_tripInv (hs : TripInv s) (hd : s.isDrum = true) (origin dest : Station) (cls : TripClass) (word : SignalWord)
    (auto : Bool) : TripInv (takeSignal origin dest cls word auto s) := by
  cases word with
  | go => exact takeGo_tripInv hs hd _ _ _ _
  | stop => exact takeStop_tripInv hs
  | cancel => exact takeCancel_tripInv hs _

/-- A change of the trip unit beside its record. -/
theorem TripInv.setTrip (hs : TripInv s) {x : TripUnit} (h : x.record = s.trip.record) : TripInv (s.setTrip x) :=
  hs.of_eq (hs.start.of_eq rfl rfl) rfl rfl rfl h rfl rfl

theorem takeCall_tripInv (hs : TripInv s) (origin : Station) (cls : TripClass) (word : CallWord) :
    TripInv (takeCall origin cls word s) := by
  cases word with
  | register => exact hs.setTrip rfl
  | cancel => exact hs.setTrip rfl

/-! The station table and the hold set (R42, R47, R48) -/

theorem setEntry_tripInv (hs : TripInv s) (n : Station) (e : StationEntry) : TripInv (setEntry n e s) :=
  hs.of_eq (hs.start.of_eq rfl rfl) rfl rfl rfl rfl rfl rfl

/-- A hold set that no station has joined. -/
theorem setHoldSet_tripInv (hs : TripInv s) {h : StationSet} (hh : h ≠ 0 → s.stations.holdSet ≠ 0) :
    TripInv (setHoldSet h s) :=
  TripRest.inv (hs.rest.of_eq (hs.start.of_eq rfl rfl) rfl rfl rfl rfl rfl) fun hl => hs.law (Or.imp_right hh hl)

theorem joinHold_tripInv (hs : TripInv s) (n : Station) : TripInv (joinHold n s) := by
  have hset : TripRest (setHoldSet (stationJoin s.stations.holdSet n) s) :=
    hs.rest.of_eq (hs.start.of_eq rfl rfl) rfl rfl rfl rfl rfl
  unfold joinHold
  dsimp only
  split
  · exact holdJoined_tripInv (hset.moves (raise_moves _ .hold))
  · exact holdJoined_tripInv hset

theorem stationLeave_zero (n : Station) : stationLeave 0 n = 0 := by
  simp [stationLeave]

theorem ne_zero_of_stationLeave {h : StationSet} {n : Station} (hl : stationLeave h n ≠ 0) : h ≠ 0 := by
  rintro rfl
  exact hl (stationLeave_zero n)

theorem judgeHold_tripInv (hs : TripInv s) (n : Station) (hold : Bool) : TripInv (judgeHold n hold s) := by
  unfold judgeHold
  split
  · split
    · exact hs
    · exact joinHold_tripInv hs n
  · split
    · exact setHoldSet_tripInv hs ne_zero_of_stationLeave
    · exact hs

theorem judgeEstop_tripInv (hs : TripInv s) (n : Station) : TripInv (judgeEstop n s) := by
  unfold judgeEstop
  dsimp only
  split
  · exact deliver_tripInv hs.rest _
  · exact hs

theorem takeAssent_tripInv (hs : TripInv s) (n : Station) (r : AssentReport) : TripInv (takeAssent n r s) :=
  evaluatePathOn_tripInv (judgeEstop_tripInv (judgeHold_tripInv (setEntry_tripInv hs _ _) _ _) _) _

theorem takeAnnounce_tripInv (hs : TripInv s) (n : Station) (body : AnnounceBody) : TripInv (takeAnnounce n body s) :=
  evaluatePathOn_tripInv (setEntry_tripInv hs _ _) _

theorem expireEntry_tripInv (hs : TripInv s) (n : Station) : TripInv (expireEntry n s) := by
  have hset := setEntry_tripInv hs n { s.stations.entries[n] with state := .stale }
  unfold expireEntry
  dsimp only
  split
  · exact evaluatePathOn_tripInv (hset.moves (raise_moves _ .staleHolder)) _
  · exact evaluatePathOn_tripInv hset _

/-- R48: a hold set loses stations at an override, and gains none. -/
theorem ne_zero_of_withoutStale (h : s.withoutStale ≠ 0) : s.stations.holdSet ≠ 0 := by
  intro hz
  refine h ?_
  unfold State.withoutStale
  rw [hz]
  refine List.foldlRecOn (motive := fun t => t = 0) _ _ rfl fun t ht n _ => ?_
  split
  · rw [ht, stationLeave_zero]
  · exact ht

theorem overrideHolds_tripInv (hs : TripInv s) : TripInv (overrideHolds s) := by
  unfold overrideHolds
  split
  · exact evaluatePathOn_tripInv (setHoldSet_tripInv hs ne_zero_of_withoutStale) _
  · exact hs

/-! The Depth Unit (R53, R55, R63 to R70) -/

/-- A change of the depth unit that its own laws allow, and that leaves a VERIFIED position VERIFIED. -/
theorem TripInv.setDepth (hs : TripInv s) {d : DepthUnit} (hv : s.depth.verified = true → d.verified = true)
    (hp : (d.sample.getD SampleSet.absent).verified = true → d.verified = true) (hf : d.faultMs.isSome = true → d.verified = false) :
    TripInv (s.setDepth d) where
  start := hs.start.of_eq rfl rfl
  presented := hp
  faulty := hf
  tripped := hs.tripped
  drum := hs.drum
  details := hs.details
  law hl := hs.law (hl.imp_left fun h => by
    by_contra hne
    exact absurd (hv (by simpa using hne)) (by rw [show d.verified = false from h]; decide))

/-- A change of the depth unit beside the verification, the sample set and the encoder fault. -/
theorem TripInv.setDepth_same (hs : TripInv s) {d : DepthUnit} (hv : d.verified = s.depth.verified)
    (hp : d.sample = s.depth.sample) (hf : d.faultMs = s.depth.faultMs) : TripInv (s.setDepth d) :=
  hs.setDepth (hv ▸ id) (by rw [hp, hv]; exact hs.presented) (by rw [hf, hv]; exact hs.faulty)

/-- R64: a position gone UNVERIFIED breaks at most the law of R117. -/
theorem unverify_tripRest (hs : TripInv s) : TripRest (unverify s) where
  start := hs.start.of_eq rfl rfl
  presented h := by
    have hf : (unverify s).lastSample.verified = false := by
      unfold unverify State.lastSample
      cases s.depth.sample <;> rfl
    exact absurd (hf.symm.trans h) (by decide)
  faulty _ := rfl
  tripped := hs.tripped
  drum := hs.drum
  details := hs.details

theorem unverify_faulty_tripRest (hs : TripInv s) (n : Nat) :
    TripRest (unverify (s.setDepth { s.depth with faultMs := some n })) := by
  have h := unverify_tripRest hs
  exact ⟨⟨h.start.of_eq rfl rfl, h.presented, fun _ => rfl⟩, h.tripped, h.drum, h.details⟩

/-- R53: at a drum that is live and working a new fault is delivered; elsewhere no trip moves, or the position was UNVERIFIED. -/
theorem illegalChange_tripInv (hs : TripInv s) (hpower : s.loader.powered = true) : TripInv (illegalChange s) := by
  have hrest := unverify_faulty_tripRest hs 0
  unfold illegalChange
  dsimp only
  split
  · exact deliver_tripInv hrest _
  · rename_i hcond
    refine hrest.inv fun _ hm => ?_
    have hopen : s.tripOpen = true := isOpen_of_ne (by rcases hm with h | h <;> exact fun hn => nomatch h.symm.trans hn)
    obtain ⟨hdrum, hphase⟩ := hs.drum hopen
    have hworking : s.working = true := by rcases hphase with h | h <;> simp [State.working, h, Phase.working]
    have hreset : s.inReset = false := by
      by_contra hr
      rcases hphase with h | h <;> exact nomatch h.symm.trans (hs.start.inReset (by simpa using hr))
    have hcause : ¬(!s.encoderFaulty && s.isDrum && s.live && s.working) = true := hcond
    have hfaulty : s.encoderFaulty = true := by
      by_contra hclear
      exact hcause (by simp [hclear, hdrum, hworking, State.live, hpower, hreset])
    exact hs.law (.inl (hs.faulty hfaulty)) hm

theorem channelChange_tripInv (hs : TripInv s) (hpower : s.loader.powered = true) (ch : Level × Level) :
    TripInv (channelChange ch s) := by
  have hset : TripInv (s.setDepth { s.depth with channel := some ch }) := hs.setDepth_same rfl rfl rfl
  unfold channelChange
  dsimp only
  split
  · exact hset
  · exact hset.setDepth_same rfl rfl rfl
  · exact hset.setDepth_same rfl rfl rfl
  · exact illegalChange_tripInv hset hpower

theorem takeMark_tripInv (hs : TripInv s) (l : Depth) : TripInv (takeMark l s) := by
  unfold takeMark
  split
  · exact hs
  · dsimp only
    split
    · exact hs
    · rename_i hclear
      split
      · refine hs.setDepth (fun _ => rfl) (fun _ => rfl) fun hf => absurd hf ?_
        simpa [State.encoderFaulty] using hclear
      · split
        · exact deliver_tripInv (unverify_tripRest hs) _
        · split
          · exact hs.setDepth_same rfl rfl rfl
          · exact hs

theorem requestMode_tripInv (hs : TripInv s) : TripInv (requestMode s) := by
  unfold requestMode
  split
  · exact hs.setDepth_same rfl rfl rfl
  · split
    · exact (hs.setDepth_same (d := { s.depth with modePending := true }) rfl rfl rfl).moves (raise_moves _ .correctionPending)
    · exact hs.setDepth_same rfl rfl rfl

theorem requestClear_tripInv (hs : TripInv s) : TripInv (requestClear s) := by
  unfold requestClear
  split
  · split
    · exact hs
    · exact (hs.setDepth_same (d := { s.depth with clearPending := true }) rfl rfl rfl).moves (raise_moves _ .correctionPending)
  · exact hs.setDepth_same rfl rfl rfl

/-! The sample (R55, R75, R103 to R115) -/

/-- R75: the full evaluation changes the envelope and then delivers the causes that arose. -/
theorem fullEvaluation_delivers (s : State) :
    ∃ cs u, fullEvaluation s = deliverAll cs u ∧ Moves [.env, .event 14] s u := by
  refine ⟨_, _, rfl, ?_⟩
  refine Moves.trans ?_ (Move.env _ _ fun hs => hs.outside _ _).moves
  refine .trans (Move.env s _ fun hs => hs.recompute s).moves ?_
  split
  · rename_i hs
    refine .trans (judgeWarning_moves _ _ hs).of (Move.env _ _ fun h => ?_).moves
    refine h.of_supervised _ ?_ _ (nextCount_le _ _) _
    unfold State.supervised State.tripState at hs ⊢
    rwa [judgeWarning_trip]
  · exact (Move.env _ _ fun h => h.clearOverspeed _).moves

theorem fullEvaluation_tripInv (hs : TripInv s) : TripInv (fullEvaluation s) := by
  obtain ⟨cs, u, h, hm⟩ := fullEvaluation_delivers s
  rw [h]
  exact deliverAll_tripInv (hs.moves hm) cs

theorem armedTest_tripInv (hs : TripInv s) (ha : s.tripState = .armed) (x : SampleSet) (t : TripDetails) (v : Int) :
    TripInv (armedTest x t v s) := by
  unfold armedTest
  refine evaluatePathOn_tripInv ?_ x
  split
  · exact enterRunning_tripInv hs ha
  · split
    · exact deliver_tripInv hs.rest _
    · exact hs

theorem stateTest_tripInv (hs : TripInv s) (x : SampleSet) : TripInv (stateTest x s) := by
  unfold stateTest
  split
  · rename_i ha _
    exact armedTest_tripInv hs ha x _ _
  · unfold runningTest
    split
    · exact closeTrip_tripInv hs.rest.toTripBase _
    · exact evaluatePathOn_tripInv hs x
  · rename_i hstop _
    unfold stoppingTest
    split
    · exact closeTrip_tripInv hs.rest.toTripBase _
    · split
      · exact enterSuspended_tripInv hs.rest (tripOpen_of hstop (by decide))
      · exact evaluatePathOn_tripInv hs x
  · exact hs

theorem motionTest_tripInv (hs : TripInv s) : TripInv (motionTest s) := by
  have hset : TripInv (s.setTrip { s.trip with unauthorised := s.unauthorisedNow }) := hs.setTrip rfl
  unfold motionTest
  dsimp only
  split
  · exact deliver_tripInv hset.rest _
  · exact hset

theorem tripSample_tripInv (hs : TripInv s) (x : SampleSet) : TripInv (tripSample x s) :=
  motionTest_tripInv (stateTest_tripInv hs x)

theorem buildPosition_tripInv (hs : TripInv s) : TripInv (buildPosition s) := by
  unfold buildPosition
  split
  · have hset : TripInv (s.setTrip { s.trip with positionSeq := s.trip.positionSeq + 1, sincePosition := some 0 }) := hs.setTrip rfl
    exact (hset.moves (writeOwnRecords_moves _)).moves (originate_moves _ _)
  · exact hs

theorem takeSample_tripInv (hs : TripInv s) : TripInv (takeSample s) :=
  hs.setDepth id id hs.faulty

theorem sampleStep_tripInv (hs : TripInv s) (first : Bool) : TripInv (sampleStep first s) := by
  have hcount : TripInv (countSampleTime s) := hs.of_eq (hs.start.of_eq rfl rfl) rfl rfl rfl rfl rfl rfl
  have htaken := takeSample_tripInv hcount
  unfold sampleStep
  dsimp only
  refine buildPosition_tripInv (TripInv.moves ?_ (writeOwnRecords_moves _))
  split
  · exact tripSample_tripInv (fullEvaluation_tripInv htaken) _
  · exact fullEvaluation_tripInv (tripSample_tripInv htaken _)

/-! The trip reset and the loss of the line (R170 to R172, R185) -/

theorem openRecovery_tripInv (hs : TripInv s) (hc : s.safety.causes = []) (hd : s.isDrum = true) (hp : s.phase = .run) :
    TripInv (openRecovery s) := by
  have hleft := hs.moves (leave_moves s .tripExpired)
  have hset : ∀ r : TripRecord, r.state = .suspended → r.details ≠ none → TripInv ((leave .tripExpired s).setRecord r) :=
    fun r hst hdet =>
    { start := hleft.start.of_eq rfl rfl
      presented := hleft.presented
      faulty := hleft.faulty
      tripped := fun hne => absurd (show s.safety.causes = [] from hc) (by simpa using hne)
      drum := fun _ => ⟨by simpa [State.isDrum] using hd, .inl (by simpa [State.phase] using hp)⟩
      details := fun _ => hdet
      law := fun _ hm => by simp [State.tripState, hst] at hm }
  unfold openRecovery
  dsimp only
  exact (hset { number := s.trip.record.number + 1, state := .suspended, details := some _, stopDepth := none, armMs := none,
                result := none } rfl (by simp)).reported _ _

theorem resetRefusal_none (h : resetRefusal s = none) : s.phase = .run := by
  unfold resetRefusal at h
  by_contra hne
  rw [if_pos hne] at h
  cases h

theorem pressReset_tripInv (hs : TripInv s) (hgates : s.hasGates = false) : TripInv (pressReset s) := by
  unfold pressReset
  split
  · exact hs
  · split
    · rename_i r _
      exact (hs.of_eq (t := s.setSafety { s.safety with refusal := some r }) (hs.start.of_eq rfl rfl) rfl rfl rfl rfl rfl
        rfl).moves (raise_moves _ .resetRefused)
    · rename_i hcauses _ hnone
      have hidle : s.tripState = .idle := hs.tripped (by simpa using hcauses)
      have hrun := resetRefusal_none hnone
      have hdrum : s.isDrum = true := by
        have hrole := hs.start.role (by simp [State.working, hrun, Phase.working])
        cases hr : s.cfg.role with
        | none => exact absurd hr hrole
        | some r => cases r <;> simp [State.hasGates, State.isLanding, State.isLoading, State.isDrum, hr] at hgates ⊢
      have hcleared : TripInv (s.setSafety { causes := [], causesLost := false, refusal := none }) :=
        TripBase.idle ⟨hs.start.of_eq rfl rfl, hs.presented, hs.faulty⟩ hidle
      have hleft := (hcleared.moves (leave_moves _ .safetyTrip)).moves (leave_moves _ .resetRefused)
      unfold acceptReset
      dsimp only
      split
      · exact hleft
      · refine openRecovery_tripInv hleft (by simp) ?_ ?_
        · simpa [State.isDrum] using hdrum
        · simpa [State.phase] using hrun

theorem lostLine_tripInv (hs : TripInv s) (h : s.phase = .listen ∨ s.phase = .run) : TripInv (lostLine s) := by
  have hm := Move.listenOnly s h
  have htrip := hm.trip_eq (by decide)
  have hdepth := hm.depth_eq (by decide)
  exact
    { start := hs.start.move hm
      presented := by simpa only [State.lastSample, hdepth] using hs.presented
      faulty := by simpa only [State.encoderFaulty, hdepth] using hs.faulty
      tripped := by simpa only [State.tripState, htrip, hm.safety_eq (by decide)] using hs.tripped
      drum := fun ho => by
        rw [State.tripOpen, State.tripState, htrip] at ho
        exact ⟨by simpa only [State.isDrum, lostLine_cfg] using (hs.drum ho).1, .inr (by simp [State.phase, lostLine_loader])⟩
      details := by simpa only [State.tripOpen, State.tripState, htrip] using hs.details
      law := by
        simpa only [State.tripState, State.tripClass, htrip, hdepth, hm.holdSet_eq (by decide)] using hs.law }

theorem enterListenOnly_tripInv (hs : TripInv s) : TripInv (enterListenOnly s) := by
  by_cases h : s.phase = .listen ∨ s.phase = .run
  · rw [enterListenOnly_eq s h]
    exact lineLost_tripInv (lostLine_tripInv hs h)
  · unfold enterListenOnly
    rwa [if_neg h]

/-! Frames taken (R13) -/

theorem deliverToDrum_tripInv (hs : TripInv s) (hd : s.isDrum = true) (f : Frame) : TripInv (deliverToDrum f s) := by
  unfold deliverToDrum
  split
  · split
    · exact deliver_tripInv hs.rest _
    · exact hs
  · split
    · exact takeSignal_tripInv hs hd _ _ _ _ _
    · exact hs
  · exact hs
  · exact hs.moves (takePosition_moves s _)
  · exact takeAssent_tripInv hs _ _
  · split
    · exact takeMark_tripInv hs _
    · exact hs
  · split
    · exact takeCall_tripInv hs _ _ _
    · exact hs
  · exact takeAnnounce_tripInv hs _ _

theorem deliverToLanding_tripInv (hs : TripInv s) (f : Frame) : TripInv (deliverToLanding f s) := by
  unfold deliverToLanding
  split
  · exact (hs.moves (signalReport_moves s _)).moves (sequencerReport_moves _ _)
  · exact hs.moves (takePosition_moves s _)
  · exact hs

theorem receiveGood_tripInv (hs : TripInv s) (p : PortId) (f : Frame) : TripInv (receiveGood p f s) := by
  have hread : TripInv (s.setPort p { s.port p with completed := none }) := hs.moves (port_moves s p _ (by rfl))
  have hrelayed := hs.moves (relayFrame_moves s p f)
  unfold receiveGood
  dsimp only
  split
  · exact hread
  · split
    · exact hs
    · split
      · exact enterListenOnly_tripInv hs
      · unfold deliverFrame
        split
        · rename_i hd
          exact deliverToDrum_tripInv hrelayed hd f
        · split
          · exact deliverToLanding_tripInv hrelayed f
          · exact hrelayed

theorem receiveFrame_tripInv (hs : TripInv s) (h : Heading) (p : Payload) : TripInv (receiveFrame h p s) := by
  unfold receiveFrame
  split
  · split
    · exact receiveGood_tripInv hs _ _
    · exact hs.moves (countError_moves s _)
  · exact hs

theorem checkFrame_tripInv (hs : TripInv s) (p : PortId) (chars : List Byte) : TripInv (checkFrame p chars s) := by
  unfold checkFrame
  split
  · split
    · exact receiveGood_tripInv hs p _
    · exact hs.moves (countError_moves s p)
  · exact hs.moves (countError_moves s p)

theorem assemble_tripInv (hs : TripInv s) (p : PortId) (o : CharOutcome) : TripInv (assemble p o s) := by
  have hset : ∀ a, TripInv (setAssembly p a s) := fun a => hs.moves (setAssembly_moves s p a)
  have hdiscard : ∀ a, TripInv (setAssembly p a (countError p s)) := fun a => hs.moves (discard_moves s p a)
  unfold assemble
  split
  · exact hs
  · exact hdiscard _
  · exact hset _
  · exact hdiscard _
  · unfold appendChar
    dsimp only
    split
    · exact checkFrame_tripInv (hset _) p _
    · exact hset _
  · exact hs
  · exact hs
  · exact hdiscard _
  · exact hs
  · exact hdiscard _

theorem receiveChar_tripInv (hs : TripInv s) (p : PortId) (r : CharReading) : TripInv (receiveChar p r s) := by
  have hengine : ∀ (e : Engine) (u : State), TripInv u → TripInv (u.setPort p { u.port p with engine := e }) := fun _ u hu =>
    hu.moves (port_moves u p _ (by rfl))
  exact assemble_tripInv (hengine _ _ (hs.moves (lineBusy_moves s p))) p _

theorem readBack_tripInv (hs : TripInv s) (p : PortId) (n : Nat) (r : BitReading) : TripInv (readBack p n r s) := by
  have hcollide : ∀ a : Attempt, TripInv (collide p a s) := fun a => by
    have hkept : TripInv (changeQueue p a.relayed (fun q => q.update a.order Entry.collides)
        (s.setPort p { s.port p with attempt := none })) :=
      (hs.moves (port_moves s p { s.port p with attempt := none } (by rfl))).moves
        (changeQueue_moves _ p _ _ (fun _ h => h.update _ fun _ => ⟨by rfl, by rfl, by rfl⟩) fun q => update_length q _ _)
    unfold collide
    dsimp only
    split
    · exact enterListenOnly_tripInv hkept
    · exact hkept
  unfold readBack
  split
  · split
    · split
      · exact hcollide _
      · exact hs
    · exact hs
  · exact hs

/-! The phases, and the changes of power and of the timebase -/

theorem enterRun_tripInv (hs : TripInv s) (h : s.phase = .listen) : TripInv (enterRun s) := by
  have hidle : s.tripState = .idle := by
    by_contra hne
    rcases (hs.drum (isOpen_of_ne hne)).2 with hp | hp <;> exact nomatch h.symm.trans hp
  have hrun : TripInv (s.setLoader { s.loader with phase := .run, listenMs := none }) :=
    TripBase.idle ⟨hs.start.move (.run s h), hs.presented, hs.faulty⟩ hidle
  exact hrun.moves (enterRun_moves_of_run s)

theorem TripInv.idle_of_init (hs : TripInv s) (h : s.phase = .init) : s.tripState = .idle := by
  by_contra hne
  rcases (hs.drum (isOpen_of_ne hne)).2 with hp | hp <;> exact nomatch h.symm.trans hp

theorem depthEndsInit_tripInv (hs : TripInv s) : TripInv (depthEndsInit s) := by
  unfold depthEndsInit
  dsimp only
  split
  · exact (Move.loadDue _ false).tripInv (by decide) (hs.setDepth_same rfl rfl rfl)
  · exact hs.setDepth_same rfl rfl rfl

theorem drumEndsInit_tripInv (hs : TripInv s) : TripInv (drumEndsInit s) := by
  have hsample := sampleStep_tripInv (setEntry_tripInv (depthEndsInit_tripInv hs) s.cfg.station ownEntry) true
  unfold drumEndsInit
  dsimp only
  split
  · exact deliver_tripInv hsample.rest _
  · exact hsample

theorem acceptRecord_tripInv (hs : TripInv s) (x : Ranged Params) (hr : s.inReset = false) (hd : s.loader.reading = true)
    (hrole : x.1.role ≠ none) : TripInv (acceptRecord x s) := by
  have happlied : TripInv (recordApplied x s) :=
    TripBase.idle ⟨hs.start.change (k := true) (.accepted s x hr hd hrole), hs.presented, hs.faulty⟩
      (hs.idle_of_init (hs.start.reading hd))
  have hdrum : TripInv (if (recordApplied x s).isDrum then drumEndsInit (recordApplied x s) else recordApplied x s) := by
    split
    · exact drumEndsInit_tripInv happlied
    · exact happlied
  unfold acceptRecord
  dsimp only
  split
  · exact hdrum.moves (raise_moves _ .configClamped)
  · exact hdrum

theorem refuseRecord_tripInv (hs : TripInv s) (hr : s.inReset = false) (hd : s.loader.reading = true) :
    TripInv (refuseRecord s) := by
  have hbase : TripBase (recordRefused s) :=
    hs.rest.toTripBase.of_eq (hs.start.change (k := true) (.refused s hr hd)) (by simp [recordRefused, emptyQueues])
  have hidle : (recordRefused s).tripState = .idle := by
    simpa [State.tripState, recordRefused, emptyQueues] using hs.idle_of_init (hs.start.reading hd)
  exact deliver_tripInv (hbase.idle hidle).rest _

theorem bufferJudged_tripInv (hs : TripInv s) (b : List Byte) (hr : s.inReset = false) (hd : s.loader.reading = true) :
    TripInv (bufferJudged b s) := by
  have hbuffer : TripInv (s.setLoader { s.loader with buffer := b }) :=
    hs.of_eq (hs.start.change (k := true) (.buffer s b)) rfl rfl rfl rfl rfl rfl
  unfold bufferJudged
  dsimp only
  split
  · rename_i x hx
    exact acceptRecord_tripInv hbuffer x hr hd (judgeRecord_role hx)
  · exact refuseRecord_tripInv hbuffer hr hd

theorem TripInv.resetEnds (hs : TripInv s) (x : Loader) (hr : s.inReset = true) (hp : x.phase = s.loader.phase)
    (hl : x.listenMs = s.loader.listenMs) : TripInv (s.setLoader x) :=
  hs.of_eq (hs.start.change (k := true) (.resetEnds s x hr hp hl)) rfl hp rfl rfl rfl rfl

theorem TripInv.endReset (hs : TripInv s) (x : Loader) (hr : s.inReset = true) (hp : x.phase = s.loader.phase)
    (hl : x.listenMs = s.loader.listenMs) : TripInv (endReset (s.setLoader x)) :=
  (Move.clock _ Clock.reset).tripInv (by decide)
    (hs.resetEnds { x with reading := true, buffer := [] } hr hp hl)

theorem powerLost_tripInv (hs : TripInv s) : TripInv (powerLost s) :=
  hs.of_eq (hs.start.change (k := true) (.powerLoss s)) (by simp [powerLost, endAttempts]) (by simp [powerLost, endAttempts, State.phase])
    (by simp [powerLost, endAttempts]) (by simp [powerLost, endAttempts]) (by simp [powerLost, endAttempts])
    (by simp [powerLost, endAttempts])

theorem warmReset_tripInv (s : State) : TripInv (warmReset s) where
  start := warmReset_startInv s
  tripped _ := rfl
  drum := nofun
  details := nofun
  law _ h := h.elim nofun nofun
  presented := nofun
  faulty _ := rfl

/-- R53: the time since the last illegal change counts. -/
theorem tickEncoder_tripInv (hs : TripInv s) : TripInv (tickEncoder s) :=
  hs.setDepth id hs.presented fun h => hs.faulty (by
    have hc : (count s.depth.faultMs).isSome = true := h
    simpa [State.encoderFaulty, count] using hc)

theorem tickAges_tripInv (hs : TripInv s) : TripInv (tickAges s) := by
  have hstart := hs.start.change (k := true) (.ages s)
  unfold tickAges at hstart ⊢
  split
  · rename_i hw
    rw [if_pos hw] at hstart
    exact hs.of_eq hstart (by simp) (by simp [State.phase]) (by simp) (by simp) (by simp) (by simp [tickStations])
  · exact hs

theorem tickTimers_tripInv (hs : TripInv s) : TripInv (tickTimers s) where
  start := ((hs.start.change (k := true) (.listenMs s)).of_eq (t := tickTimers s) rfl rfl)
  tripped := hs.tripped
  drum := hs.drum
  details := hs.details
  law := hs.law
  presented := hs.presented
  faulty := hs.faulty

theorem tick_tripInv (hs : TripInv s) : TripInv (tick s) := by
  have hqueue : ∀ {u : State} cs n, TripInv u → TripInv (requeue cs n u) := fun cs n hu =>
    hu.of_eq (hu.start.of_eq rfl rfl) rfl rfl rfl rfl rfl rfl
  unfold tick
  split
  · obtain ⟨cs, n, h⟩ := drawSample_enqueue (tickTimers (tickEncoder (tickClock (tickAges s)))) _
    rw [h]
    exact hqueue _ _ (tickTimers_tripInv (tickEncoder_tripInv
      ((Move.clock _ _).tripInv (by decide) (tickAges_tripInv hs))))
  · split
    · exact hqueue _ s.model.draws (tickEncoder_tripInv hs)
    · exact hs

/-! Every command -/

theorem finish_tripInv {e : State} (hs : TripInv s) : TripInv (finish e s) := hs.moves (finish_moves s e)

theorem act_tripInv {f : State → State} (hs : TripInv s) (h : TripInv (f s)) : ∃ t, act f s = .next t ∧ TripInv t :=
  act_answers hs fun _ => finish_tripInv h

theorem onInput_tripInv {c : Bool} {x : State → Inputs} {f : State → State} (hs : TripInv s)
    (h : ∀ u, TripInv u → TripInv (f u)) : ∃ t, onInput c (fun s => s.setInputs (x s)) f s = .next t ∧ TripInv t := by
  have hset : TripInv (s.setInputs (x s)) := (Move.inputs s (x s)).tripInv (by decide) hs
  exact onInput_answers hs hset fun _ => finish_tripInv (h _ hset)

theorem TripInv.when {c : Prop} [Decidable c] (hs : TripInv s) (h : c → TripInv t) : TripInv (if c then t else s) := by
  split
  · rename_i hc
    exact h hc
  · exact hs

theorem execOscillatorStartExpiry_tripInv (hs : TripInv s) : ∃ t, execOscillatorStartExpiry s = .next t ∧ TripInv t := by
  unfold execOscillatorStartExpiry
  split
  · rename_i hcond
    have hreset : s.inReset = true := by simp at hcond; simp [State.inReset, hcond.2]
    refine ⟨_, rfl, ?_⟩
    split
    · exact hs.resetEnds _ hreset (by rfl) (by rfl)
    · exact hs.endReset _ hreset (by rfl) (by rfl)
  · exact ⟨_, rfl, hs⟩

theorem execResetPinRelease_tripInv (hs : TripInv s) : ∃ t, execResetPinRelease s = .next t ∧ TripInv t := by
  unfold execResetPinRelease
  split
  · rename_i hcond
    have hreset : s.inReset = true := by simp at hcond; simp [State.inReset, hcond.2]
    refine ⟨_, rfl, ?_⟩
    split
    · exact hs.resetEnds _ hreset (by rfl) (by rfl)
    · exact hs.endReset _ hreset (by rfl) (by rfl)
  · exact ⟨_, rfl, hs⟩

theorem execRecordReadComplete_tripInv (hs : TripInv s) (levels : List Level) :
    ∃ t, execRecordReadComplete levels s = .next t ∧ TripInv t := by
  unfold execRecordReadComplete
  refine act_answers hs fun hlive => finish_tripInv ?_
  rw [readComplete_eq]
  exact hs.when fun h => bufferJudged_tripInv hs _ (inReset_of_live hlive) h

theorem execEncoderChannelChange_tripInv (hs : TripInv s) (a b : Level) :
    ∃ t, execEncoderChannelChange a b s = .next t ∧ TripInv t := by
  unfold execEncoderChannelChange
  split
  · rename_i hcond
    have hpower : s.loader.powered = true := by simp at hcond; exact hcond.1
    split
    · exact ⟨_, rfl, channelChange_tripInv hs hpower _⟩
    · exact ⟨_, rfl, finish_tripInv (channelChange_tripInv hs hpower _)⟩
  · exact ⟨_, rfl, hs⟩

theorem execEncoderFaultClear_tripInv (hs : TripInv s) : ∃ t, execEncoderFaultClear s = .next t ∧ TripInv t := by
  unfold execEncoderFaultClear
  split
  · exact ⟨_, rfl, hs.setDepth id hs.presented nofun⟩
  · exact ⟨_, rfl, hs⟩

/-- A command that only makes changes beside the trip. -/
theorem act_moves_tripInv {bs : List Block} {f : State → State} (hs : TripInv s) (h : Moves bs s (f s))
    (hb : ∀ b ∈ bs, b ∉ lawBlocks := by decide) : ∃ t, act f s = .next t ∧ TripInv t :=
  act_tripInv hs (hs.moves h hb)

theorem execTransmissionComplete_tripInv (hs : TripInv s) (p : PortId) :
    ∃ t, execTransmissionComplete p s = .next t ∧ TripInv t := by
  unfold execTransmissionComplete
  refine act_tripInv hs ?_
  split
  · exact hs.moves (completeAttempt_moves s p _)
  · exact hs

theorem execCallLifeExpiry_tripInv (hs : TripInv s) (n : Station) :
    ∃ t, execCallLifeExpiry n s = .next t ∧ TripInv t := by
  unfold execCallLifeExpiry
  exact act_tripInv hs (hs.setTrip rfl)

theorem execTripResetKey_tripInv (hs : TripInv s) : ∃ t, execTripResetKey s = .next t ∧ TripInv t := by
  unfold execTripResetKey
  refine act_tripInv hs ?_
  split
  · exact hs
  · rename_i hgates
    exact pressReset_tripInv hs (by simpa using hgates)

theorem execFlashClockHalf_tripInv (hs : TripInv s) : ∃ t, execFlashClockHalf s = .next t ∧ TripInv t := by
  unfold execFlashClockHalf
  exact act_tripInv hs ((Move.clock s _).tripInv (by decide) hs)

theorem execStrobePulseEnd_tripInv (hs : TripInv s) : ∃ t, execStrobePulseEnd s = .next t ∧ TripInv t := by
  unfold execStrobePulseEnd
  exact act_tripInv hs (hs.when fun _ => hs.of_eq (hs.start.of_eq rfl rfl) rfl rfl rfl rfl rfl rfl)

theorem execAcknowledgeKey_tripInv (hs : TripInv s) : ∃ t, execAcknowledgeKey s = .next t ∧ TripInv t := by
  have hacknowledged := hs.moves (acknowledgeEvent_moves s)
  have hflags : TripInv (clearDropFlags (acknowledgeEvent s)) := (Move.dropFlags _ false false).tripInv (by decide) hacknowledged
  unfold execAcknowledgeKey
  exact act_tripInv hs ((hflags.moves (acknowledgeGates_moves _)).moves (judgeGo_moves _))

theorem exec_tripInv (hs : TripInv s) (c : Instr) : ∃ t, exec c s = .next t ∧ TripInv t := by
  have of {a : Answer} (h : ∃ t, a = .next t ∧ TripInv t) : ∃ t, a = .next t ∧ TripInv t := h
  have hframe : ∀ h p, ∃ t, frameTaken h p s = .next t ∧ TripInv t := fun h p => act_tripInv hs (receiveFrame_tripInv hs h p)
  cases c with
  | powerOn => exact ⟨_, rfl, reset_tripInv.of_eq (powerOnState_startInv s) rfl rfl rfl rfl rfl rfl⟩
  | powerLoss => exact ⟨_, rfl, powerLost_tripInv hs⟩
  | oscillatorStartExpiry => exact execOscillatorStartExpiry_tripInv hs
  | warmReset =>
    change ∃ t, execWarmReset s = .next t ∧ _
    unfold execWarmReset
    split
    · exact ⟨_, rfl, warmReset_tripInv s⟩
    · exact ⟨_, rfl, hs⟩
  | resetPinRelease => exact execResetPinRelease_tripInv hs
  | recordReadComplete levels => exact execRecordReadComplete_tripInv hs levels
  | listenTimerExpiry => exact of (act_tripInv hs (hs.when fun h => enterRun_tripInv hs h.1))
  | characterReceived p r => exact of (act_tripInv hs (hs.when fun _ => receiveChar_tripInv hs p r))
  | lineBecomesIdle x => exact of (act_tripInv hs (hs.when fun _ => hs.moves (passBitTimes_moves s _ _)))
  | lineBecomesBusy p => exact of (act_tripInv hs (hs.when fun _ => hs.moves (lineBusy_moves s p)))
  | transmissionStart p n =>
    exact of (act_tripInv hs (hs.when fun _ => (hs.moves (passBitTimes_moves s p n)).moves (startSending_moves _ p)))
  | collision p n r => exact of (act_tripInv hs (hs.when fun _ => readBack_tripInv hs p n r))
  | transmissionComplete p => exact execTransmissionComplete_tripInv hs p
  | errorWindowAdvance =>
    change ∃ t, execErrorWindowAdvance s = .next t ∧ _
    rw [execErrorWindowAdvance_eq]
    exact act_moves_tripInv hs (windowsAdvance_moves s)
  | haltTaken h ws reason => exact hframe h _
  | signalGo h w dest cls auto => exact hframe h _
  | signalStop h w dest cls auto => exact hframe h _
  | signalCancel h w dest cls auto => exact hframe h _
  | callRegister h w cls => exact hframe h _
  | callCancel h w cls => exact hframe h _
  | positionTaken h r => exact hframe h _
  | assentTaken h r => exact hframe h _
  | announceTaken h body seg dig => exact hframe h _
  | markTaken h w d => exact hframe h _
  | windingTaken h r => exact hframe h _
  | conveyanceRecordExpiry w => exact of (act_tripInv hs (hs.when fun _ => hs.moves (expireRecord_moves s w)))
  | stationEntryExpiry n => exact of (act_tripInv hs (hs.when fun _ => expireEntry_tripInv hs n))
  | holdOverrideKey => exact of (act_tripInv hs (hs.when fun _ => overrideHolds_tripInv hs))
  | encoderChannelChange a b => exact execEncoderChannelChange_tripInv hs a b
  | encoderFaultClear => exact execEncoderFaultClear_tripInv hs
  | sample first => exact of (act_tripInv hs (hs.when fun _ => sampleStep_tripInv hs first))
  | correctionOffInputChange on =>
    exact of (a := execCorrectionOffInputChange on s) (onInput_tripInv hs fun _ hu => hu.when fun _ => requestMode_tripInv hu)
  | tableClearKey => exact of (act_tripInv hs (hs.when fun _ => requestClear_tripInv hs))
  | armTimerExpiry => exact of (act_tripInv hs (hs.when fun _ => closeTrip_tripInv hs.rest.toTripBase _))
  | autoEnableInputChange on =>
    exact of (a := execAutoEnableInputChange on s)
      (onInput_tripInv hs fun _ hu => hu.when fun _ => closeTrip_tripInv hu.rest.toTripBase _)
  | autoStartPulseEnd => exact of (act_tripInv hs (hs.when fun _ => hs.setTrip (by rfl)))
  | callLifeExpiry n => exact execCallLifeExpiry_tripInv hs n
  | localEstopInputChange on =>
    exact of (a := execLocalEstopInputChange on s)
      (onInput_tripInv hs fun _ hu => hu.when fun _ => deliver_tripInv hu.rest _)
  | tripResetKey => exact execTripResetKey_tripInv hs
  | gateSwitchChange w on =>
    refine of (a := execGateSwitchChange w on s) (onInput_tripInv hs fun u hu => hu.when fun _ => ?_)
    exact TripInv.moves (TripInv.moves hu (gateTurns_moves u w on)) (judgeGo_moves _)
  | lockContactChange w on =>
    exact of (a := execLockContactChange w on s)
      (onInput_tripInv hs fun u hu => hu.when fun _ => (hu.moves (lockChanges_moves u on w)).moves (judgeGo_moves _))
  | lockSettleTimerExpiry w =>
    exact of (act_tripInv hs (hs.when fun _ => (hs.moves (setGate_locked_moves s w none)).moves (judgeGo_moves _)))
  | assentTimerExpiry => exact of (act_tripInv hs (hs.when fun _ => hs.moves (originateAssent_moves s)))
  | acknowledgeKey => exact execAcknowledgeKey_tripInv hs
  | sendKey dest cls => exact of (act_tripInv hs (hs.when fun _ => hs.moves (pressSend_moves s dest cls)))
  | stopKey dest cls => exact of (act_tripInv hs (hs.when fun _ => hs.moves (originate_moves s _)))
  | cancelKey dest cls => exact of (act_tripInv hs (hs.when fun _ => hs.moves (originate_moves s _)))
  | callKey cls => exact of (act_tripInv hs (hs.when fun _ => hs.moves (pressCall_moves s cls)))
  | replyTimerExpiry => exact of (act_tripInv hs (hs.when fun h => hs.moves (replyTimer_moves s h.1)))
  | holdSwitchChange on =>
    exact of (a := execHoldSwitchChange on s)
      (onInput_tripInv hs fun u hu => hu.when fun _ => hu.moves (raise_moves u .holdUnacknowledged))
  | emergencyStopKeyChange on =>
    exact of (a := execEmergencyStopKeyChange on s)
      (onInput_tripInv hs fun u hu => hu.when fun _ => hu.moves (originate_moves u _))
  | markerInputChange w on =>
    exact of (a := execMarkerInputChange w on s)
      (onInput_tripInv hs fun u hu => hu.when fun _ => hu.moves (originate_moves u _))
  | flaskFullChange on =>
    exact of (a := execFlaskFullChange on s)
      (onInput_tripInv hs fun u hu => hu.when fun _ => hu.moves (judgeDischarge_moves u))
  | flaskEmptyChange on =>
    exact of (a := execFlaskEmptyChange on s) (onInput_tripInv hs fun u hu => hu.moves (flaskEmptyChanged_moves u on))
  | doorClosedChange on =>
    exact of (a := execDoorClosedChange on s) (onInput_tripInv hs fun u hu => hu.moves (doorChanged_moves u on))
  | spillageChange on =>
    exact of (a := execSpillageChange on s) (onInput_tripInv hs fun u hu => hu.moves (spillageChanged_moves u on))
  | doorTimerExpiry => exact of (act_tripInv hs (hs.when fun _ => hs.moves (doorTimer_moves s)))
  | autoInputChange on =>
    exact of (a := execAutoInputChange on s) (onInput_tripInv hs fun u hu => hu.moves (judgeGo_moves u))
  | autoReplyTimerExpiry => exact of (act_tripInv hs (hs.when fun _ => hs.moves (originateGo_moves s)))
  | retryTimerExpiry => exact of (act_tripInv hs (hs.when fun _ => hs.moves (retryTimer_moves s)))
  | dwellTimerExpiry => exact of (act_tripInv hs (hs.when fun h => hs.moves (dwellTimer_moves s h.1)))
  | flashClockHalf => exact execFlashClockHalf_tripInv hs
  | lampTestKeyChange on => exact of (a := execLampTestKeyChange on s) (onInput_tripInv hs fun _ hu => hu)
  | darkInputChange on => exact of (a := execDarkInputChange on s) (onInput_tripInv hs fun _ hu => hu)
  | strobePulseEnd => exact execStrobePulseEnd_tripInv hs
  | winderSelectorChange w => exact of (a := execWinderSelectorChange w s) (onInput_tripInv hs fun _ hu => hu)
  | recessiveBitTimeAfterFraming p => exact of (act_tripInv hs (hs.when fun _ => hs.moves (passBitTimes_moves s p 1)))

/-- Settles O57: a step is a millisecond of the timebase or a command, and each keeps the laws of the trip. -/
theorem everyStepKeepsTheTripLaws : Obligations.EveryStepKeepsTheTripLaws := by
  unfold Obligations.EveryStepKeepsTheTripLaws
  intro s t hs h
  unfold step at h
  split at h
  · injection h with h
    exact h ▸ tick_tripInv hs
  · rename_i c rest _
    have hrest : TripInv { s with pending := rest } := hs.of_eq (hs.start.of_eq rfl rfl) rfl rfl rfl rfl rfl rfl
    obtain ⟨u, hu, hinv⟩ := exec_tripInv hrest c
    rw [hu] at h
    injection h with h
    exact h ▸ hinv

end Sys2Proof.Machine
end

