-- ==== Sys2Proof/Proofs/Reports.lean ====
section
/-! PROOFS. Sys2Proof/Proofs/Reports.lean: what later chapters share: what the Relay Unit leaves before a delivery (R22), when an
event leaves at the end of a step (Table 10-2), and the closings and entries to STOPPING with their WINDINGs (R109, R113, R122). -/
set_option Elab.async false

namespace Sys2Proof.Machine

/-! A frame taken (R13, R22) -/

section

variable (s : State) (h : Heading) (p : Payload)

/-- R22: the Relay Unit changes its own queues and flags, and the event lines. -/
theorem relayed_same : s.relayed h p = { s with relay := (s.relayed h p).relay, panel := (s.relayed h p).panel } := by
  have hraise : ∀ (u : State) (e : Event), u = { s with relay := u.relay, panel := u.panel } →
      raise e u = { s with relay := (raise e u).relay, panel := (raise e u).panel } := fun u e hu => by
    rw [raise_same u e]; rw [hu]
  have hqueue : ∀ (x : PortId) (q : Queue), s.setRelayQueue x q =
      { s with relay := (s.setRelayQueue x q).relay, panel := (s.setRelayQueue x q).panel } := fun x q => by cases x <;> rfl
  have hflag : ∀ (x : PortId) (u : State), u = { s with relay := u.relay, panel := u.panel } → setDropFlag x u =
      { s with relay := (setDropFlag x u).relay, panel := (setDropFlag x u).panel } := fun x u hu => by
    rw [hu]; cases x <;> rfl
  unfold State.relayed relayFrame
  split
  · split
    · unfold placeCopy
      dsimp only
      split
      · unfold latchDrop
        split
        · exact hqueue _ _
        · exact hraise _ _ (hflag _ _ (hqueue _ _))
      · exact hqueue _ _
    · exact hraise s _ rfl
  · rfl

@[simp] theorem relayed_pending : (s.relayed h p).pending = s.pending := by rw [relayed_same]
@[simp] theorem relayed_loader : (s.relayed h p).loader = s.loader := by rw [relayed_same]
@[simp] theorem relayed_cfg : (s.relayed h p).cfg = s.cfg := by rw [relayed_same]
@[simp] theorem relayed_inputs : (s.relayed h p).inputs = s.inputs := by rw [relayed_same]
@[simp] theorem relayed_clock : (s.relayed h p).clock = s.clock := by rw [relayed_same]
@[simp] theorem relayed_portA : (s.relayed h p).portA = s.portA := by rw [relayed_same]
@[simp] theorem relayed_portB : (s.relayed h p).portB = s.portB := by rw [relayed_same]
@[simp] theorem relayed_picture : (s.relayed h p).picture = s.picture := by rw [relayed_same]
@[simp] theorem relayed_stations : (s.relayed h p).stations = s.stations := by rw [relayed_same]
@[simp] theorem relayed_depth : (s.relayed h p).depth = s.depth := by rw [relayed_same]
@[simp] theorem relayed_env : (s.relayed h p).env = s.env := by rw [relayed_same]
@[simp] theorem relayed_trip : (s.relayed h p).trip = s.trip := by rw [relayed_same]
@[simp] theorem relayed_safety : (s.relayed h p).safety = s.safety := by rw [relayed_same]
@[simp] theorem relayed_gate : (s.relayed h p).gate = s.gate := by rw [relayed_same]
@[simp] theorem relayed_seq : (s.relayed h p).seq = s.seq := by rw [relayed_same]
@[simp] theorem relayed_model : (s.relayed h p).model = s.model := by rw [relayed_same]

variable {s h p}

theorem isDrum_congr {u : State} (hcfg : u.cfg = s.cfg) : u.isDrum = s.isDrum := by
  unfold State.isDrum; rw [hcfg]

/-- Table 1-5: what a drum makes of a frame taken. -/
theorem exec_taken_drum (ht : Taken h p s) (hd : s.isDrum = true) :
    exec (takenCommand h p) s = .next (finish s (deliverToDrum (frameOf h p) (s.relayed h p))) := by
  rw [exec_taken ht, deliverFrame, if_pos ((isDrum_congr (relayed_cfg s h p)).trans hd)]

theorem not_isDrum_of_hasGates (hg : s.hasGates = true) : s.isDrum = false := by
  unfold State.hasGates State.isLanding State.isLoading at hg
  unfold State.isDrum
  cases hr : s.cfg.role with
  | none => rfl
  | some r => cases r <;> simp_all

/-- Table 1-5: what a landing or loading station makes of a frame taken. -/
theorem exec_taken_gates (ht : Taken h p s) (hg : s.hasGates = true) :
    exec (takenCommand h p) s = .next (finish s (deliverToLanding (frameOf h p) (s.relayed h p))) := by
  have hdrum : (s.relayed h p).isDrum = false := (isDrum_congr (relayed_cfg s h p)).trans (not_isDrum_of_hasGates hg)
  rw [exec_taken ht, deliverFrame, hdrum, if_neg (by simp), if_pos ((hasGates_congr (relayed_cfg s h p)).trans hg)]

end

/-! A step that changes nothing else (R176) -/

/-- A command that leaves the state leaves it quietly. -/
theorem finish_self (s : State) : Quiet s (finish s s) := finish_quiet s s (fun _ => rfl) (fun _ h => h)

/-- R135: at a station without gates the end of a step originates nothing. -/
theorem finish_of_no_gates {before e : State} (hg : e.hasGates = false) :
    finish before e = judgeLeaving (shaftLineOnChange before e) := by
  have hgates : (shaftLineOnChange before e).hasGates = false :=
    (hasGates_congr (shaftLineOnChange_agrees e before).cfg).trans hg
  have hsame : assentOnChange before (shaftLineOnChange before e) = shaftLineOnChange before e := by
    rcases assentOnChange_eq before (shaftLineOnChange before e) with h | h <;> rw [h]
    exact originateAssent_not _ (by simp [hgates])
  rw [finish, hsame]

theorem not_hasGates_of_isDrum {s : State} (hd : s.isDrum = true) : s.hasGates = false := by
  cases hg : s.hasGates with
  | false => rfl
  | true => rw [not_isDrum_of_hasGates hg] at hd; cases hd

theorem finish_besideTrip (before : State) {e : State} (hg : e.hasGates = false) : BesideTrip e (finish before e) := by
  rw [finish_of_no_gates hg]
  have hraised : BesideTrip e (shaftLineOnChange before e) := by
    rcases shaftLineOnChange_eq before e with h | h <;> rw [h]
    · exact .refl e
    · exact raise_besideTrip e _
  exact hraised.trans (by unfold judgeLeaving; constructor <;> simp)

/-! When an event leaves at the end of a step (Table 10-2) -/

/-- An event of a drum that the end of a step does not remove there. -/
theorem leavingMask_of_drum {s : State} (hd : s.isDrum = true) {e : Event}
    (he : e = .safetyTrip ∨ e = .resetRefused ∨ e = .tripExpired) : (leavingMask s).getLsbD e.code = false := by
  unfold leavingMask commonLeaving drumLeaving
  rw [if_pos hd, if_neg (by simp [not_hasGates_of_isDrum hd])]
  simp only [BitVec.getLsbD_or, getLsbD_maskIf]
  rcases he with rfl | rfl | rfl <;> simp [Event.code]

/-- An event of a landing or loading station that the end of a step does not remove there. -/
theorem leavingMask_of_gates {s : State} (hg : s.hasGates = true) {e : Event}
    (he : e = .gateForced ∨ e = .skipMoved ∨ e = .spillage ∨ e = .flaskDoor ∨ e = .refused ∨ e = .noReply ∨ e = .expired) :
    (leavingMask s).getLsbD e.code = false := by
  unfold leavingMask commonLeaving gateLeaving
  rw [if_pos hg, if_neg (by simp [not_isDrum_of_hasGates hg])]
  simp only [BitVec.getLsbD_or, getLsbD_maskIf]
  rcases he with rfl | rfl | rfl | rfl | rfl | rfl | rfl <;> simp [Event.code]

/-- An event of a drum leaves by its own condition. -/
theorem leavingMask_drum {s : State} (hd : s.isDrum = true) :
    (leavingMask s).getLsbD Event.overspeedWarning.code = !s.env.warning ∧
    (leavingMask s).getLsbD Event.causesLost.code = !s.safety.causesLost ∧
    (leavingMask s).getLsbD Event.hold.code = (s.stations.holdSet == 0) ∧
    (leavingMask s).getLsbD Event.staleHolder.code = !s.staleHolder ∧
    (leavingMask s).getLsbD Event.requiredStation.code = !s.anyMissing ∧
    (leavingMask s).getLsbD Event.correctionPending.code = (!s.depth.modePending && !s.depth.clearPending) ∧
    (leavingMask s).getLsbD Event.shaftLine.code = !s.shaftLine := by
  unfold leavingMask commonLeaving drumLeaving
  rw [if_pos hd, if_neg (by simp [not_hasGates_of_isDrum hd])]
  simp only [BitVec.getLsbD_or, getLsbD_maskIf]
  simp [Event.code]

/-- An event of a landing or loading station leaves by its own condition. -/
theorem leavingMask_gates {s : State} (hg : s.hasGates = true) :
    (leavingMask s).getLsbD Event.holdUnacknowledged.code = (!s.inputs.hold || s.holdAcknowledged) ∧
    (leavingMask s).getLsbD Event.pictureStale.code = s.servedCurrent := by
  unfold leavingMask commonLeaving gateLeaving
  rw [if_pos hg, if_neg (by simp [not_isDrum_of_hasGates hg])]
  simp only [BitVec.getLsbD_or, getLsbD_maskIf]
  simp [Event.code]

/-- LINE DEGRADED leaves at every station while the line quality stands. -/
theorem leavingMask_lineDegraded (s : State) : (leavingMask s).getLsbD Event.lineDegraded.code = !s.lineDegraded := by
  unfold leavingMask commonLeaving drumLeaving gateLeaving
  split <;> split <;> simp only [BitVec.getLsbD_or, getLsbD_maskIf] <;> simp [Event.code]

/-- An event pending once a command has acted is pending at the end of the step, unless it leaves there. -/
theorem Ends.pending_of {u t : State} (h : Ends u t) {e : Event} (hp : u.isPending e = true)
    (hl : (leavingMask u).getLsbD e.code = false) : t.isPending e = true := by
  obtain ⟨more, -, hevents⟩ := h.events
  have hbit : u.panel.pendingEvents.getLsbD e.code = true := hp
  unfold State.isPending
  rw [hevents, BitVec.getLsbD_and, BitVec.getLsbD_or, BitVec.getLsbD_not, hbit, hl]
  simp [e.code_lt]

/-! A frame originated last (R16 to R18, R122) -/

/-- `v` has the ports, the configuration and the phase of `s`: a frame that `v` originates, `s` offers. -/
structure SameLine (s v : State) : Prop where
  loader : v.loader = s.loader
  cfg    : v.cfg = s.cfg
  portA  : v.portA = s.portA
  portB  : v.portB = s.portB

/-- A frame originated last by a command, other than an ASSENT, is offered by the state it began with. -/
theorem SameLine.offered {s v t : State} (hv : SameLine s v) (p : Payload) (h : Ends (originate p v) t)
    (hrun : s.phase = .run) (hkind : p.kind ≠ .assent) : Offered s t (s.own p) := by
  have hoffered := offered_of_originate p h (by unfold State.phase at hrun ⊢; rwa [hv.loader]) hkind
  unfold Offered State.own at hoffered ⊢
  rwa [hv.portA, hv.portB, hv.cfg] at hoffered

/-- R122: the WINDING that reports the trip record of a state. -/
def State.tripReport (s : State) (d : TripDetails) (depth : Depth) (o : WindingOutcome) : Payload :=
  .winding { winder := s.cfg.winder, number := s.trip.record.number, state := .trip s.trip.record.state, cls := d.cls,
             auto := d.auto, origin := d.origin, dest := d.dest, depth := depth, outcome := o, blocking := none }

theorem reportTrip_of_details {s : State} {d : TripDetails} (hd : s.trip.record.details = some d) (x : Depth)
    (o : WindingOutcome) : reportTrip x o s = originate (s.tripReport d x o) s := by
  unfold reportTrip
  rw [hd]
  rfl

/-! The end of an open trip (R113) -/

/-- R113, R122: a closing ends with its WINDING, originated on the ports as they stood. -/
theorem closeTrip_reports {s : State} (result : TripResult) {d : TripDetails} (hd : s.trip.record.details = some d) :
    ∃ v, closeTrip result s =
      originate (.winding { winder := s.cfg.winder, number := s.trip.record.number, state := .trip .idle, cls := d.cls,
                            auto := d.auto, origin := d.origin, dest := d.dest, depth := d.target,
                            outcome := .result result, blocking := none }) v ∧ SameLine s v := by
  have hclosed : ∀ v : State, v.trip.record = s.trip.record.closed result → v.cfg = s.cfg → v.loader = s.loader →
      v.portA = s.portA → v.portB = s.portB → ∃ w, reportTrip v.trip.record.target (.result result) v =
        originate (.winding { winder := s.cfg.winder, number := s.trip.record.number, state := .trip .idle, cls := d.cls,
                              auto := d.auto, origin := d.origin, dest := d.dest, depth := d.target,
                              outcome := .result result, blocking := none }) w ∧ SameLine s w :=
    fun v hr hc hl ha hb => ⟨v, by
      rw [reportTrip_of_details (by rw [hr]; exact hd), State.tripReport, hr, hc]
      simp [TripRecord.target, TripRecord.closed, hd], ⟨hl, hc, ha, hb⟩⟩
  unfold closeTrip
  dsimp only
  split <;> exact hclosed _ (by simp [takePending]) (by simp [takePending, (partialEvaluation_besideTrip _).cfg])
    (by simp [takePending]) (by simp [takePending]) (by simp [takePending])

/-- R113: a closing, with what a step ends with, is as `Closed` has it. -/
theorem closeTrip_closed {s t : State} (result : TripResult) (h : Ends (closeTrip result s) t) : Closed result s t := by
  have htrip : t.trip = _ := h.trip.trans (closeTrip_trip s result)
  have hdepth : t.depth = (takePending s).depth := h.depth.trans (closeTrip_depth result s)
  refine ⟨by rw [htrip]; rfl, ⟨?_, by rw [htrip]⟩, h.env.trans (closeTrip_env s result), ?_, ?_, ?_, ?_, ?_, ?_⟩
  · simp [State.permit, State.tripState, htrip, TripRecord.closed]
  · rw [hdepth]; unfold takePending; dsimp only; split <;> split <;> rfl
  · rw [hdepth]; unfold takePending; dsimp only; split <;> split <;> simp_all [State.requestedMode]
  · rw [hdepth]; unfold takePending; dsimp only; split <;> split <;> simp_all
  · rw [hdepth]; simp
  · have hcalls : t.trip.calls = callsAfter result s.trip.record s.trip.calls := by rw [htrip]
    rw [hcalls]
    unfold callsAfter
    split <;> simp_all [removeCall]
  · intro hrun d hd
    obtain ⟨v, hv, hline⟩ := closeTrip_reports result hd
    rw [hv] at h
    exact hline.offered _ h hrun nofun

/-! The partial evaluation with a trip supervised, and the entry to STOPPING (R76, R83, R109) -/

/-- R76, R82, R85, R89: with a trip supervised v_perm is that of the last sample set, and the threshold and the limit word
follow it. -/
theorem partialEvaluation_on {s : State} {d : TripDetails} {y : SampleSet} (hs : s.supervised = true)
    (hd : s.trip.record.details = some d) (hy : s.depth.sample = some y) :
    partialEvaluation s =
      let v := permittedSpeed s.cfg s.trip.record d y
      s.setEnv { s.env with vPerm := v, vThr := v.val + v.val / 16 + 50, limitWord := v.val / 10 } := by
  have hpermitted : s.permitted = permittedSpeed s.cfg s.trip.record d y := by
    unfold State.permitted; rw [hs, hd, hy]
  unfold partialEvaluation
  rw [if_pos (show (recompute s).supervised = true from hs), recompute, hpermitted]
  rfl

/-- R83: the stop point is the stop depth of the rule, the ceiling written out. -/
theorem stopPoint_eq (c : Params) (dir : Direction) (x : SampleSet) :
    stopPoint c dir x = stopDepthOf c dir x.speed x.corrected := by
  cases dir <;> rfl

/-- R109, R122: an entry to STOPPING is a change of the record, the partial evaluation, and the WINDING. -/
theorem enterStoppingOn_eq {s : State} {d : TripDetails} (hd : s.trip.record.details = some d) (x : SampleSet) :
    enterStoppingOn x s = reportTrip (stopPoint s.cfg d.direction x) .none (partialEvaluation
      (s.setRecord { s.trip.record with state := .stopping, stopDepth := some (stopPoint s.cfg d.direction x) })) := by
  unfold enterStoppingOn; rw [hd]

/-- R109: an entry to STOPPING, with what a step ends with, is as `Stopping` has it. -/
theorem enterStoppingOn_stopping {s t : State} {d : TripDetails} (hd : s.trip.record.details = some d) (x : SampleSet)
    (h : Ends (enterStoppingOn x s) t) : Stopping x s t d := by
  rw [enterStoppingOn_eq hd] at h
  refine ⟨?_, ?_, ?_, fun hrun => ?_, h.safety.trans (by simp), h.depth.trans (by simp), fun y hy => ?_⟩
  · rw [h.trip, ← stopPoint_eq]; simp
  · simp [State.permit, State.tripState, h.trip]
  · rw [h.trip]; simp
  · rw [reportTrip_of_details (d := d) (by simpa using hd)] at h
    have hline : SameLine s (partialEvaluation (s.setRecord
        { s.trip.record with state := .stopping, stopDepth := some (stopPoint s.cfg d.direction x) })) :=
      ⟨by simp, (partialEvaluation_besideTrip _).cfg, by simp, by simp⟩
    rw [State.tripReport, hline.cfg] at h
    simpa [stopPoint_eq] using hline.offered _ h hrun nofun
  · unfold PartlyEvaluated
    rw [h.env, h.trip, reportTrip_env, partialEvaluation_on (d := d) (y := y) rfl (by simpa using hd) (by simpa using hy)]
    simp

end Sys2Proof.Machine
end

