-- ==== Sys2Proof/Proofs/DrumKeys.lean ====
section
/-! PROOFS. Sys2Proof/Proofs/DrumKeys.lean: the maintenance requests (R69, R70), a MARK (R65 to R68), the call list (R120, R121),
the trip's timers (R104, R119), and STOP and CANCEL (R105, R108, R111). -/
set_option Elab.async false

namespace Sys2Proof.Machine

variable {s : State}

/-! Maintenance requests -/

/-- R69: a change of the correction-off input is requested of the depth unit of a working drum. -/
theorem exec_correctionOffInputChange (hlive : s.live = true) (hd : s.isDrum = true) (hw : s.working = true) {on : Bool}
    (hc : s.inputs.correctionOff ≠ on) : exec (.correctionOffInputChange on) s =
      .next (finish s (requestMode { s with inputs := { s.inputs with correctionOff := on } })) := by
  change execCorrectionOffInputChange on s = _
  have hacts : ((s.setInputs { s.inputs with correctionOff := on }).isDrum &&
      (s.setInputs { s.inputs with correctionOff := on }).working) = true := by
    rw [Bool.and_eq_true]; exact ⟨hd, hw⟩
  rw [execCorrectionOffInputChange, onInput_of_live hlive (by simpa using hc), if_pos hacts]
  rfl

/-- R70: a press of the table-clear key is requested of the depth unit of a working drum. -/
theorem exec_tableClearKey (hlive : s.live = true) (hd : s.isDrum = true) (hw : s.working = true) :
    exec .tableClearKey s = .next (finish s (requestClear s)) := by
  change execTableClearKey s = _
  rw [execTableClearKey, act_of_live hlive, if_pos (by rw [hd, hw]; rfl)]

/-- R69, R70, Table 10-2: CORRECTION PENDING stays while a request is PENDING. -/
theorem Ends.correctionPending {v t : State} (h : Ends (raise .correctionPending v) t) (hd : v.isDrum = true)
    (hw : v.working = true) (hp : v.depth.modePending = true ∨ v.depth.clearPending = true) :
    t.isPending .correctionPending = true := by
  have hdrum : (raise .correctionPending v).isDrum = true := (isDrum_congr (raise_cfg v _)).trans hd
  refine h.pending_of (isPending_raise_self v _ hw) ?_
  rw [(leavingMask_drum hdrum).2.2.2.2.2.1, raise_depth]
  rcases hp with hp | hp <;> simp [hp]

/-- Settles O29. A request changes the depth unit at once or marks it pending, by whether a trip is open. -/
theorem maintenanceRequests : Obligations.MaintenanceRequests := by
  unfold Obligations.MaintenanceRequests
  intro s hlive hd hw
  refine ⟨fun on hc => ?_, _, exec_tableClearKey hlive hd hw, fun ho => ?_, fun ho => ?_⟩
  · intro e
    have hmode : e.requestedMode = !on := rfl
    have hopen : e.tripOpen = s.tripOpen := rfl
    refine ⟨_, exec_correctionOffInputChange hlive hd hw hc, fun hm => ?_, fun hm ho => ?_, fun hm ho => ?_⟩ <;>
      unfold requestMode
    · rw [if_pos (hmode.trans hm.symm)]
      exact finish_agrees _ s
    · rw [if_neg (fun h => hm (h.symm.trans hmode)), if_neg (Bool.eq_false_iff.mp (hopen.trans ho))]
      exact finish_agrees _ s
    · rw [if_neg (fun h => hm (h.symm.trans hmode)), if_pos (hopen.trans ho)]
      exact ⟨(raise_agrees _ _).trans (finish_agrees _ s), (finish_ends s _).correctionPending hd hw (.inl rfl)⟩
  · rw [requestClear, if_neg (by simp [ho])]
    exact finish_agrees _ s
  · rw [requestClear, if_pos ho]
    split
    · rename_i hclear
      rw [show ({ s with depth := { s.depth with clearPending := true } } : State) = s by rw [← hclear]]
      exact ⟨finish_agrees s s, fun h => by simp [hclear] at h⟩
    · exact ⟨(raise_agrees _ _).trans (finish_agrees _ s), fun _ => (finish_ends s _).correctionPending hd hw (.inr rfl)⟩

/-! A MARK (R65 to R68) -/

theorem encoderFaulty_iff (s : State) : s.encoderFaulty = true ↔ s.depth.faultMs ≠ none := by
  simp [State.encoderFaulty, Option.isSome_iff_ne_none]

/-- R65: a MARK before the first sample, or under an encoder fault, does nothing. -/
theorem takeMark_of_no_sample (d : Depth) (h : s.depth.sample = none ∨ s.depth.faultMs ≠ none) : takeMark d s = s := by
  unfold takeMark
  split
  · rfl
  · rename_i x hx
    exact if_pos ((encoderFaulty_iff s).mpr (h.resolve_left (by simp [hx])))

/-- R66 to R68: a MARK of a drum with a sample and a clear encoder. -/
theorem takeMark_of_sample (d : Depth) {x : SampleSet} (hx : s.depth.sample = some x) (hf : s.depth.faultMs = none) :
    takeMark d s =
      if s.depth.verified = false then rezero ((d.val : Int) - x.corrected.val) s
      else if s.cfg.disagreeLim < ((d.val : Int) - x.corrected.val).natAbs then
        deliver (Cause.plain .depthDisagree) (unverify s)
      else if s.depth.correctionOn ∧ x.speed.natAbs ≤ s.cfg.vLearn then learn x.raw ((d.val : Int) - x.corrected.val) s
      else s := by
  unfold takeMark
  rw [hx]
  exact if_neg (mt (encoderFaulty_iff s).mp (by simp [hf]))

/-- R164: with what a step ends with, a delivery at a drum is as `Delivered` has it. -/
theorem Delivered.of_ends {k : CauseKind} {o : Option Station} {u v t : State} (h : Delivered k o u v) (hends : Ends v t)
    (hd : v.isDrum = true) : Delivered k o u t where
  stood hl := hends.safety.trans (h.stood hl)
  recorded hl hroom := by
    obtain ⟨hcauses, hbrake, hidle, hevent⟩ := h.recorded hl hroom
    have hne : t.safety.causes ≠ [] := by rw [hends.safety, hcauses]; simp
    refine ⟨by rw [hends.safety, hcauses], brakeTrip_of_causes hne, ?_, fun hw he => ?_⟩
    · unfold State.tripState at hidle ⊢; rw [hends.trip, hidle]
    · exact hends.pending_of (hevent hw he) (leavingMask_of_drum hd (.inl rfl))
  lost hl hfull := by
    obtain ⟨hcauses, hlost, hevent⟩ := h.lost hl hfull
    refine ⟨by rw [hends.safety, hcauses], by rw [hends.safety, hlost], fun hw hc => ?_⟩
    exact hends.pending_of (hevent hw hc) (by rw [(leavingMask_drum hd).2.1, hlost]; rfl)

/-- A delivery reads neither the verification nor the encoder's fault indication: the record of a cause, and what the list makes
of it, are as from before they changed. -/
theorem Delivered.of_unverified {k : CauseKind} {o : Option Station} {u v t : State} (h : Delivered k o v t)
    (hsafety : v.safety = u.safety) (htrip : v.trip = u.trip) (hclock : v.clock = u.clock) (hloader : v.loader = u.loader)
    (hd : v.depth.sample.map (·.corrected) = u.depth.sample.map (·.corrected))
    (hs : v.depth.sample.map (·.speed) = u.depth.sample.map (·.speed)) : Delivered k o u t := by
  have hw : v.working = u.working := by unfold State.working State.phase; rw [hloader]
  obtain ⟨hstood, hrecorded, hlost⟩ := h
  rw [hsafety] at hstood hrecorded hlost
  rw [hd, hs, htrip, hclock, hw] at hrecorded
  rw [hw] at hlost
  exact ⟨hstood, hrecorded, hlost⟩

/-- R114, R53: a delivery leaves the depth unit but for the maintenance requests that a closing takes. -/
theorem deliver_depth (c : Cause) (s : State) : (deliver c s).depth = s.depth ∨ (deliver c s).depth = (takePending s).depth := by
  by_cases hl : listed c s.safety.causes = true
  · exact .inl (by rw [deliver_of_listed hl])
  by_cases hroom : s.safety.causes.length < 8
  · have hrecord : (recordCause c s).depth = s.depth := by unfold recordCause; dsimp only; split <;> simp
    rw [deliver_of_room hl hroom, tripTold]
    split
    · refine .inr ?_
      have hinputs : (recordCause c s).inputs = s.inputs := by unfold recordCause; dsimp only; split <;> simp
      rw [closeTrip_depth]
      unfold takePending State.requestedMode
      rw [hrecord, hinputs]
      rfl
    · exact .inl hrecord
  · rw [deliver_of_full hl (by omega)]
    split
    · exact .inl rfl
    · exact .inl (by simp)

@[simp] theorem deliver_verified (c : Cause) (s : State) : (deliver c s).depth.verified = s.depth.verified := by
  rcases deliver_depth c s with h | h <;> rw [h]
  simp

@[simp] theorem deliver_sample (c : Cause) (s : State) : (deliver c s).depth.sample = s.depth.sample := by
  rcases deliver_depth c s with h | h <;> rw [h]
  simp

@[simp] theorem deliver_faultMs (c : Cause) (s : State) : (deliver c s).depth.faultMs = s.depth.faultMs := by
  rcases deliver_depth c s with h | h <;> rw [h]
  simp

/-- A closing takes the table and the mode of the requests, and nothing of the position. -/
theorem takePending_zeroOffset (s : State) : (takePending s).depth.zeroOffset = s.depth.zeroOffset ∧
    (takePending s).depth.count = s.depth.count ∧ (takePending s).depth.channel = s.depth.channel := by
  unfold takePending
  dsimp only
  split <;> split <;> exact ⟨rfl, rfl, rfl⟩

theorem deliver_position (c : Cause) (s : State) : (deliver c s).depth.zeroOffset = s.depth.zeroOffset ∧
    (deliver c s).depth.count = s.depth.count ∧ (deliver c s).depth.channel = s.depth.channel := by
  rcases deliver_depth c s with h | h <;> rw [h]
  · exact ⟨rfl, rfl, rfl⟩
  · exact takePending_zeroOffset s

/-- R68: the entry learned is that of the nearer page boundary. -/
theorem learnedEntry_eq (raw : Depth) :
    learnedEntry raw =
      if h63 : (pageOf raw).val < 63 then if raw.val % 65536 < 32768 then pageOf raw else ⟨(pageOf raw).val + 1, by omega⟩
      else pageOf raw := by
  unfold learnedEntry offsetOf
  dsimp only
  by_cases hp : (pageOf raw).val + 1 < 64
  · rw [dif_pos hp, dif_pos (by omega)]
  · rw [dif_neg hp, dif_neg (by omega)]

/-- Settles O28. -/
theorem markTaken : Obligations.MarkTaken := by
  unfold Obligations.MarkTaken
  intro s h w d ht hd u
  have hcfg : u.cfg = s.cfg := relayed_cfg s h _
  have hdepth : u.depth = s.depth := relayed_depth s h _
  have hends := fun v => finish_ends s v
  have hdelivers : deliverToDrum (frameOf h (.mark w d)) u = if w = s.cfg.winder then takeMark d u else u := by
    rw [← hcfg]; rfl
  refine ⟨_, exec_taken_drum ht hd, fun hnone => ?_, fun x hw hx hf => ?_⟩
  · rw [show s.relayed h (.mark w d) = u from rfl, hdelivers]
    split
    · rw [takeMark_of_no_sample d (by rw [hdepth]; exact hnone.resolve_left (by simpa))]
      exact hends u
    · exact hends u
  · intro e p k
    have hk : learnedEntry x.raw = k := learnedEntry_eq x.raw
    rw [show s.relayed h (.mark w d) = u from rfl, hdelivers, if_pos hw,
      takeMark_of_sample d (x := x) (by rw [hdepth, hx]) (by rw [hdepth, hf])]
    rw [← hcfg]
    simp only [← hdepth]
    refine ⟨fun hv => ?_, fun hv hlim => ?_, fun hv hlim => ⟨fun hon hslow => ?_, fun hoff => ?_⟩⟩
    · rw [if_pos hv]
      exact hends _
    · rw [if_neg (by simp [hv]), if_pos hlim]
      have hbeside : BesideTrip u (deliver (Cause.plain .depthDisagree) (unverify u)) :=
        (show BesideTrip u (unverify u) by constructor <;> rfl).trans (deliver_besideTrip _ _)
      have hdrum : (deliver (Cause.plain .depthDisagree) (unverify u)).isDrum = true :=
        (isDrum_congr (hbeside.cfg.trans hcfg)).trans hd
      have hend := hends (deliver (Cause.plain .depthDisagree) (unverify u))
      refine ⟨?_, hbeside.trans (finish_besideTrip s (not_hasGates_of_isDrum hdrum)), ?_, ?_, ?_⟩
      · refine Delivered.of_ends ((deliver_delivered (Cause.plain .depthDisagree) (unverify u)).of_unverified rfl rfl rfl rfl
          ?_ ?_) hend hdrum <;> simp [unverify, Function.comp_def]
      · rw [hend.depth, deliver_verified]; rfl
      · rw [State.lastSample, hend.depth, deliver_sample]
        simp [unverify, hdepth, hx]
      · rw [hend.depth, (deliver_position _ _).1]; rfl
    · rw [if_neg (by simp [hv]), if_neg (by omega), if_pos ⟨hon, hslow⟩]
      simp only [learn, hk]
      exact hends _
    · rw [if_neg (by simp [hv]), if_neg (by omega), if_neg (by rintro ⟨hon, hslow⟩; simp [hon] at hoff; omega)]
      exact hends u

/-! The call list (R120, R121) -/

/-- R120: a REGISTER from a listed origin raises the class of its entry. -/
theorem registerCall_of_listed {origin : Station} {calls : List CallEntry} (h : ∃ e ∈ calls, e.origin = origin)
    (cls : TripClass) (now : Nat) : registerCall origin cls now calls =
      calls.map (fun e => if e.origin = origin ∧ classRank e.cls < classRank cls then { e with cls := cls } else e) := by
  have hany : calls.any (fun e => e.origin == origin) = true := by simpa using h
  have hentry : ∀ e : CallEntry, (if e.origin == origin then { e with cls := higherClass e.cls cls } else e) =
      if e.origin = origin ∧ classRank e.cls < classRank cls then { e with cls := cls } else e := fun e => by
    unfold higherClass
    by_cases ho : e.origin = origin
    · subst ho
      by_cases hr : classRank e.cls < classRank cls
      · simp [hr]
      · simp [hr]
    · simp [ho]
  rw [registerCall, if_pos hany]
  exact List.map_congr_left fun e _ => hentry e

/-- R120: a REGISTER from another origin joins at the end of a list with room, and is dropped by a full one. -/
theorem registerCall_of_not_listed {origin : Station} {calls : List CallEntry} (h : ¬∃ e ∈ calls, e.origin = origin)
    (cls : TripClass) (now : Nat) : registerCall origin cls now calls =
      if calls.length < 8 then calls ++ [{ origin := origin, cls := cls, registered := now }] else calls := by
  have hany : ¬calls.any (fun e => e.origin == origin) = true := by simpa using h
  rw [registerCall, if_neg hany]
  rfl

/-- Settles O36. -/
theorem callList : Obligations.CallList := by
  unfold Obligations.CallList
  refine ⟨by decide, fun s hd => ⟨fun h cls ht => ?_, fun h cls ht => ?_, fun n hlive => ?_⟩⟩
  · intro u
    have hregisters : deliverToDrum (frameOf h (.call s.cfg.winder cls .register)) u =
        { u with trip := { s.trip with calls := registerCall h.origin cls s.clock.now s.trip.calls } } := by
      change (if s.cfg.winder = u.cfg.winder then takeRegister h.origin cls u else u) = _
      rw [if_pos (by simp [u]), takeRegister]
      simp [u, State.setTrip]
    have hends := finish_ends s (deliverToDrum (frameOf h (.call s.cfg.winder cls .register)) u)
    refine ⟨_, exec_taken_drum ht hd, fun hlisted => ?_, fun hnew hroom => ?_, fun hnew hfull => ?_⟩
    · rwa [hregisters, registerCall_of_listed hlisted] at hends ⊢
    · rwa [hregisters, registerCall_of_not_listed hnew, if_pos hroom] at hends ⊢
    · rw [hregisters, registerCall_of_not_listed hnew, if_neg (by omega)] at hends
      have hsame : ({ u with trip := { s.trip with calls := s.trip.calls } } : State) = u := by
        rw [← show u.trip = s.trip from relayed_trip s h _]
      rw [hregisters, registerCall_of_not_listed hnew, if_neg (by omega), hsame]
      rwa [hsame] at hends
  · have hcancels : deliverToDrum (frameOf h (.call s.cfg.winder cls .cancel)) (s.relayed h (.call s.cfg.winder cls .cancel)) =
        { s.relayed h (.call s.cfg.winder cls .cancel) with
          trip := { s.trip with calls := s.trip.calls.filter (fun e => e.origin != h.origin) } } := by
      change (if s.cfg.winder = (s.relayed h _).cfg.winder then takeCallCancel h.origin (s.relayed h _) else _) = _
      rw [if_pos (by simp), takeCallCancel]
      simp [State.setTrip, removeCall]
    refine ⟨_, exec_taken_drum ht hd, ?_⟩
    rw [hcancels]
    exact finish_ends s _
  · refine ⟨_, ?_, finish_quiet s _ (fun _ => rfl) (fun _ h => h)⟩
    change execCallLifeExpiry n s = _
    rw [execCallLifeExpiry, act_of_live hlive]
    rfl

/-! The trip's timers and the auto-enable input (R104, R105, R119) -/

theorem reached_iff {timer : Option Nat} {n : Nat} (h : timer = some n) (limit : Nat) :
    reached timer limit = true ↔ limit ≤ n := by
  simp [reached, h]

/-- R113, Table 10-2: a closing EXPIRED raises TRIP EXPIRED. -/
theorem closeTrip_expired (hw : s.working = true) : (closeTrip .expired s).isPending .tripExpired = true := by
  unfold closeTrip
  dsimp only
  rw [isPending_reportTrip_of_ne _ _ _ (by decide), if_pos rfl]
  exact isPending_raise_self _ _ (by simpa [State.working, State.phase, takePending] using hw)

/-- R105, R119: a change of the auto-enable input of a live station. -/
theorem exec_autoEnableInputChange (hlive : s.live = true) {on : Bool} (hc : s.inputs.autoEnable ≠ on) :
    let e := s.setInputs { s.inputs with autoEnable := on }
    exec (.autoEnableInputChange on) s = .next (finish s
      (if on = false ∧ s.tripState = .armed ∧ s.trip.record.details.any (·.auto) = true then closeTrip .cancelled e else e)) := by
  change execAutoEnableInputChange on s = _
  rw [execAutoEnableInputChange, onInput_of_live hlive (by simpa using hc)]
  cases on <;> simp [State.tripState]

/-- Settles O35. -/
theorem tripTimersAndAutoEnable : Obligations.TripTimersAndAutoEnable := by
  unfold Obligations.TripTimersAndAutoEnable
  intro s hlive hd hw
  refine ⟨fun n harmed hn => ?_, fun hon => ?_, fun hoff => ?_, fun n hn => ?_⟩
  · have hexec : exec .armTimerExpiry s = .next (finish s (if s.cfg.armTimeout * 1000 ≤ n then closeTrip .expired s else s)) := by
      change execArmTimerExpiry s = _
      rw [execArmTimerExpiry, act_of_live hlive]
      simp [harmed, reached_iff hn]
    refine ⟨_, hexec, fun hdue => ?_, fun hearly => ?_⟩
    · rw [if_pos hdue]
      have hends := finish_ends s (closeTrip .expired s)
      have hbeside := closeTrip_besideTrip s .expired
      have hdrum : (closeTrip .expired s).isDrum = true := (isDrum_congr hbeside.cfg).trans hd
      exact ⟨closeTrip_closed .expired hends, hbeside.trans (finish_besideTrip s (not_hasGates_of_isDrum hdrum)),
        hends.pending_of (closeTrip_expired hw) (leavingMask_of_drum hdrum (.inr (.inr rfl)))⟩
    · rw [if_neg (by omega)]
      exact finish_self s
  · intro e
    refine ⟨_, exec_autoEnableInputChange hlive (by simp [hon]), fun d hdet harmed hauto => ?_, fun hnot => ?_⟩
    · rw [if_pos ⟨rfl, harmed, by simpa [hdet] using hauto⟩]
      have hbeside := closeTrip_besideTrip e .cancelled
      have hdrum : (closeTrip .cancelled e).isDrum = true := (isDrum_congr hbeside.cfg).trans hd
      exact ⟨closeTrip_closed .cancelled (finish_ends s _),
        hbeside.trans (finish_besideTrip s (not_hasGates_of_isDrum hdrum))⟩
    · rw [if_neg]
      · exact finish_quiet s e (fun _ => rfl) (fun _ h => h)
      · rintro ⟨-, harmed, hauto⟩
        rcases hnot with hnot | hnot
        · exact hnot harmed
        · cases hdet : s.trip.record.details with
          | none => simp [hdet] at hauto
          | some d => simp [hdet, hnot d hdet] at hauto
  · refine ⟨_, exec_autoEnableInputChange hlive (by simp [hoff]), ?_⟩
    rw [if_neg (by simp)]
    exact finish_quiet s _ (fun _ => rfl) (fun _ h => h)
  · have hexec : exec .autoStartPulseEnd s =
        .next (finish s (if 200 ≤ n then s.setTrip { s.trip with autoStartMs := none } else s)) := by
      change execAutoStartPulseEnd s = _
      rw [execAutoStartPulseEnd, act_of_live hlive]
      simp [reached_iff hn, Config.autoStartTime]
    refine ⟨_, hexec, fun hdue => ?_, fun hearly => ?_⟩
    · rw [if_pos hdue]
      have hquiet := finish_quiet s (s.setTrip { s.trip with autoStartMs := none }) (fun _ => rfl) (fun _ h => h)
      exact ⟨hquiet, by simp [State.autoStart, hquiet.trip]⟩
    · rw [if_neg (by omega)]
      exact finish_self s

/-! STOP and CANCEL (R105, R108, R111) -/

/-- R105, R108: a STOP. -/
theorem takeStop_of {u : State} :
    (u.tripState = .armed → takeStop u = closeTrip .cancelled u) ∧
    (u.tripState = .running → takeStop u = enterStoppingOn u.lastSample u) ∧
    (u.tripState ≠ .armed → u.tripState ≠ .running → takeStop u = u) := by
  unfold takeStop enterStopping
  refine ⟨fun h => by rw [h], fun h => by rw [h], fun ha hr => ?_⟩
  split <;> simp_all

/-- R105, R108, R111: a CANCEL of the trip's origin, of another station, and of a SUSPENDED trip. -/
theorem takeCancel_of {u : State} {origin : Station} :
    (u.tripOrigin = some origin → u.tripState = .armed → takeCancel origin u = closeTrip .cancelled u) ∧
    (u.tripOrigin = some origin → u.tripState = .running → takeCancel origin u = enterStoppingOn u.lastSample u) ∧
    (u.tripState = .suspended → takeCancel origin u = closeTrip .cancelled u) ∧
    (u.tripState = .idle ∨ u.tripState = .stopping → takeCancel origin u = u) ∧
    (u.tripState ≠ .suspended → u.tripOrigin ≠ some origin → takeCancel origin u = u) := by
  unfold takeCancel enterStopping
  refine ⟨fun ho h => by rw [h, ho]; simp, fun ho h => by rw [h, ho]; simp, fun h => by rw [h], fun h => ?_, fun hs ho => ?_⟩
  · rcases h with h | h <;> rw [h]
  · split <;> simp_all

/-- A closing or an entry to STOPPING of a drum, or neither, leaves what stands beside the trip. -/
theorem takeSignal_besideTrip (u : State) (origin dest : Station) (cls : TripClass) (auto : Bool) :
    BesideTrip u (takeSignal origin dest cls .stop auto u) ∧ BesideTrip u (takeSignal origin dest cls .cancel auto u) := by
  constructor
  · change BesideTrip u (takeStop u)
    unfold takeStop
    split
    · exact closeTrip_besideTrip u _
    · exact enterStopping_besideTrip u
    · exact .refl u
  · change BesideTrip u (takeCancel origin u)
    unfold takeCancel
    split
    · split
      · exact closeTrip_besideTrip u _
      · exact .refl u
    · split
      · exact enterStopping_besideTrip u
      · exact .refl u
    · exact closeTrip_besideTrip u _
    · exact .refl u

/-- Settles O34. -/
theorem stopAndCancel : Obligations.StopAndCancel := by
  unfold Obligations.StopAndCancel
  intro s h w dest cls auto hd
  have hfinish : ∀ {u v : State}, u.cfg = s.cfg → BesideTrip u v → BesideTrip u (finish s v) := fun hcfg hb =>
    hb.trans (finish_besideTrip s (not_hasGates_of_isDrum ((isDrum_congr (hb.cfg.trans hcfg)).trans hd)))
  constructor
  · intro ht u
    have hcfg : u.cfg = s.cfg := relayed_cfg s h _
    have htrip : u.trip = s.trip := relayed_trip s h _
    have hstate : u.tripState = s.tripState := by unfold State.tripState; rw [htrip]
    obtain ⟨harmed, hrunning, hother⟩ := takeStop_of (u := u)
    have htakes : deliverToDrum (frameOf h (.signal w dest cls .stop auto)) u = if w = s.cfg.winder then takeStop u else u := by
      rw [← hcfg]; rfl
    refine ⟨_, exec_taken_drum ht hd, ?_⟩
    rw [show s.relayed h _ = u from rfl, htakes]
    refine ⟨hfinish hcfg ?_, fun hw ha => ?_, fun d hdet hw hr => ?_, fun hn => ?_⟩
    · split
      · exact (takeSignal_besideTrip u h.origin dest cls auto).1
      · exact .refl u
    · rw [if_pos hw, harmed (hstate.trans ha)]
      exact closeTrip_closed .cancelled (finish_ends s _)
    · rw [if_pos hw, hrunning (hstate.trans hr)]
      exact enterStoppingOn_stopping (by rw [htrip, hdet]) _ (finish_ends s _)
    · split
      · rename_i hw
        have hn := hn.resolve_left (by simpa)
        rw [hother (by rw [hstate]; rcases hn with hn | hn | hn <;> simp [hn])
          (by rw [hstate]; rcases hn with hn | hn | hn <;> simp [hn])]
        exact finish_ends s u
      · exact finish_ends s u
  · intro ht u
    have hcfg : u.cfg = s.cfg := relayed_cfg s h _
    have htrip : u.trip = s.trip := relayed_trip s h _
    have hstate : u.tripState = s.tripState := by unfold State.tripState; rw [htrip]
    have horigin : u.tripOrigin = s.trip.record.details.map (·.origin) := by unfold State.tripOrigin; rw [htrip]
    obtain ⟨harmed, hrunning, hsuspended, hclosed, hforeign⟩ := takeCancel_of (u := u) (origin := h.origin)
    have htakes : deliverToDrum (frameOf h (.signal w dest cls .cancel auto)) u =
        if w = s.cfg.winder then takeCancel h.origin u else u := by
      rw [← hcfg]; rfl
    refine ⟨_, exec_taken_drum ht hd, ?_⟩
    rw [show s.relayed h _ = u from rfl, htakes]
    refine ⟨hfinish hcfg ?_, fun d hdet hw ho => ?_, fun hw hs => ?_, fun hn => ?_⟩
    · split
      · exact (takeSignal_besideTrip u h.origin dest cls auto).2
      · exact .refl u
    · have ho' : u.tripOrigin = some h.origin := by rw [horigin, hdet, ho]; rfl
      refine ⟨fun ha => ?_, fun hr => ?_⟩
      · rw [if_pos hw, harmed ho' (hstate.trans ha)]
        exact closeTrip_closed .cancelled (finish_ends s _)
      · rw [if_pos hw, hrunning ho' (hstate.trans hr)]
        exact enterStoppingOn_stopping (by rw [htrip, hdet]) _ (finish_ends s _)
    · rw [if_pos hw, hsuspended (hstate.trans hs)]
      exact closeTrip_closed .cancelled (finish_ends s _)
    · split
      · rename_i hw
        have hn := hn.resolve_left (by simpa)
        have hkept : takeCancel h.origin u = u := by
          rcases hn with hn | hn | ⟨hs, hn⟩
          · exact hclosed (.inl (hstate.trans hn))
          · exact hclosed (.inr (hstate.trans hn))
          · refine hforeign (by rwa [hstate]) fun ho => ?_
            rw [horigin] at ho
            obtain ⟨d, hdet, hd'⟩ := Option.map_eq_some_iff.mp ho
            exact hn d hdet hd'.symm
        rw [hkept]
        exact finish_ends s u
      · exact finish_ends s u

end Sys2Proof.Machine
end

