-- ==== Sys2Proof/Proofs/GoAndReset.lean ====
section
/-! PROOFS. Sys2Proof/Proofs/GoAndReset.lean: a GO refused or accepted (R96 to R99, R112), a HALT and the local emergency stop
(R166, R168), and the trip reset (R170 to R172). -/
set_option Elab.async false

namespace Sys2Proof.Machine

variable {s : State}

/-! The tests of a GO (Table 6-3) -/

theorem firstRefusal_cons (b : Bool) (c : RefusalCause) (l : List (Bool × RefusalCause)) :
    firstRefusal ((b, c) :: l) = if b = true then some c else firstRefusal l := by
  cases b <;> rfl

theorem destUnknown_eq (s : State) (dest : Station) : s.destUnknown dest =
    (s.stations.entries[dest].state == .unknown || s.stations.entries[dest].role == some .drum ||
      s.stations.entries[dest].level == none || s.stations.entries[dest].served.any (fun ws => !winderIn ws s.cfg.winder)) := by
  unfold State.destUnknown
  dsimp only
  generalize s.stations.entries[dest] = e
  unfold StationEntry.mayServe
  cases e.served <;> cases e.level <;> simp

theorem atOrigin_eq (s : State) (origin : Station) :
    s.atOrigin origin = s.stations.entries[origin].level.any (fun l => s.standsAt l) := by
  unfold State.atOrigin
  cases s.stations.entries[origin].level <;> rfl

theorem pathBlocker_eq (s : State) (dest : Station) : s.pathBlocker dest = stationNumbers.find? (fun n => s.blocks
    ((min s.lastSample.corrected.val (s.stations.entries[dest].level.getD 0).val : Nat) - (s.cfg.pathGuard : Int))
    ((max s.lastSample.corrected.val (s.stations.entries[dest].level.getD 0).val : Nat) + (s.cfg.pathGuard : Int)) n) := rfl

/-- R97, Table 6-3: the refusal is that of the first test that fails. -/
theorem refusalOf_eq (s : State) (origin dest : Station) (cls : TripClass) (auto : Bool) :
    refusalOf s origin dest cls auto = firstRefusal (goTests s origin dest cls auto) := by
  unfold refusalOf goTests
  simp only [firstRefusal_cons]
  refine ite_congr (by simp) (fun _ => rfl) fun _ => ?_
  refine ite_congr (by simp) (fun _ => rfl) fun _ => ?_
  refine ite_congr (by simp [or_assoc]) (fun _ => rfl) fun _ => ?_
  refine ite_congr rfl (fun _ => rfl) fun _ => ?_
  refine ite_congr (by rw [destUnknown_eq]) (fun _ => rfl) fun _ => ?_
  refine ite_congr (by simp) (fun _ => rfl) fun _ => ?_
  refine ite_congr (by rw [atOrigin_eq]; simp) (fun _ => rfl) fun _ => ?_
  refine ite_congr (by simp) (fun _ => rfl) fun _ => ?_
  refine ite_congr (by simp) (fun _ => rfl) fun _ => ?_
  exact ite_congr (by rw [pathBlocker_eq, List.find?_isSome, List.any_eq_true]) (fun _ => rfl) fun _ => rfl

/-- The Relay Unit changes nothing that the tests read. -/
theorem goTests_relayed (s : State) (h : Heading) (p : Payload) (origin dest : Station) (cls : TripClass) (auto : Bool) :
    goTests (s.relayed h p) origin dest cls auto = goTests s origin dest cls auto := by
  rw [relayed_same]; rfl

theorem takeGo_of_refusal {origin dest : Station} {cls : TripClass} {auto : Bool} {c : RefusalCause}
    (h : refusalOf s origin dest cls auto = some c) : takeGo origin dest cls auto s = reportRefusal origin dest cls auto c s := by
  unfold takeGo; rw [h]

theorem takeGo_of_none {origin dest : Station} {cls : TripClass} {auto : Bool} (h : refusalOf s origin dest cls auto = none) :
    takeGo origin dest cls auto s =
      if s.tripState = .suspended then rearmTrip (s.goDetails origin dest cls auto) s
      else openTrip (s.goDetails origin dest cls auto) s := by
  unfold takeGo; rw [h]

/-- R99, Table 6-6: the contents of the WINDING that reports a refused GO. -/
def State.refusalReport (s : State) (origin dest : Station) (cls : TripClass) (auto : Bool) (c : RefusalCause) : Payload :=
  .winding { winder := s.cfg.winder, number := s.trip.record.number, state := .refusal, cls := cls, auto := auto,
             origin := origin, dest := dest, depth := s.levelOf dest, outcome := .refusal c,
             blocking := if c = .pathBlocked then s.pathBlocker dest else none }

/-- The Relay Unit changes nothing that the report gives. -/
theorem refusalReport_relayed (s : State) (h : Heading) (p : Payload) (origin dest : Station) (cls : TripClass) (auto : Bool)
    (c : RefusalCause) : (s.relayed h p).refusalReport origin dest cls auto c = s.refusalReport origin dest cls auto c := by
  rw [relayed_same]; rfl

theorem own_relayed (s : State) (h : Heading) (p q : Payload) : (s.relayed h p).own q = s.own q := by
  rw [relayed_same]; rfl

theorem reportRefusal_eq (origin dest : Station) (cls : TripClass) (auto : Bool) (c : RefusalCause) :
    reportRefusal origin dest cls auto c s = originate (s.refusalReport origin dest cls auto c) s := rfl

/-- A drum takes a GO of its winder; one for another winder is the end of a step and nothing else. -/
theorem deliverToDrum_go (u : State) (h : Heading) (w : Winder) (dest : Station) (cls : TripClass) (auto : Bool) :
    deliverToDrum (frameOf h (.signal w dest cls .go auto)) u =
      if w = u.cfg.winder then takeGo h.origin dest cls auto u else u := rfl

/-- At a drum a transmit queue is as its command leaves it. -/
theorem finish_ports_of_drum (before : State) {e : State} (hd : e.isDrum = true) :
    (finish before e).portA = e.portA ∧ (finish before e).portB = e.portB := by
  rw [finish_of_no_gates (not_hasGates_of_isDrum hd)]
  unfold judgeLeaving
  rcases shaftLineOnChange_eq before e with h | h <;> rw [h] <;> simp

/-- Settles O33. -/
theorem refusedGo : Obligations.RefusedGo := by
  unfold Obligations.RefusedGo
  intro s h w dest cls auto ht hd u target lo hi
  have hcfg : u.cfg = s.cfg := relayed_cfg s h _
  have hdrum : u.isDrum = true := (isDrum_congr hcfg).trans hd
  have hexec := exec_taken_drum ht hd
  rw [deliverToDrum_go] at hexec
  refine ⟨fun c hw hc => ⟨_, hexec, ?_⟩, fun hw => ⟨_, hexec, ?_⟩⟩
  · have hrefused : refusalOf u h.origin dest cls auto = some c := by rw [refusalOf_eq, goTests_relayed]; exact hc
    rw [if_pos (hw.trans (congrArg Params.winder hcfg.symm)), takeGo_of_refusal hrefused, reportRefusal_eq]
    have hends := finish_ends s (originate (u.refusalReport h.origin dest cls auto c) u)
    have hdrum' := (isDrum_congr (originate_cfg u (u.refusalReport h.origin dest cls auto c))).trans hdrum
    have hports := finish_ports_of_drum s hdrum'
    refine ⟨hends.trip.trans (by simp [u]), hends.env.trans (by simp [u]), hends.safety.trans (by simp [u]),
      hends.depth.trans (by simp [u]), (originate_besideTrip u _).trans (finish_besideTrip s (not_hasGates_of_isDrum hdrum')),
      fun hrun => ?_, fun hrun => ?_⟩
    · have hoffered := offered_of_originate _ hends (by simpa [u, State.phase] using hrun) nofun
      rw [own_relayed, refusalReport_relayed] at hoffered
      rw [hw, refusalReport_relayed]
      exact hoffered
    · rw [hports.1, hports.2, originate_of_not_run (by simpa [u, State.phase] using hrun)]
      simp [u]
  · rw [if_neg (fun h => hw (h.trans (congrArg Params.winder hcfg)))]
    exact finish_ends s u

/-! A GO accepted (R98, R112) -/

/-- R122: the contents of the WINDING that reports an armed trip. -/
def armedReport (w : Winder) (n : TripNumber) (d : TripDetails) : Payload :=
  .winding { winder := w, number := n, state := .trip .armed, cls := d.cls, auto := d.auto, origin := d.origin, dest := d.dest,
             depth := d.target, outcome := .none, blocking := none }

/-- R98, R119: an armed trip is a change of the trip unit, the partial evaluation, and the WINDING. -/
theorem arm_eq (n : TripNumber) (d : TripDetails) (v : State) :
    arm n d v = originate (armedReport v.cfg.winder n d) (partialEvaluation
      (v.setTrip { v.trip with record := armedRecord n d, autoStartMs := if d.auto then some 0 else none })) := by
  unfold arm
  rw [reportTrip_of_details (d := d) (by simp [armedRecord]), State.tripReport, (partialEvaluation_besideTrip _).cfg]
  simp [armedRecord, armedReport]

/-- What an arming leaves, with what a step ends with. -/
structure Armed (n : TripNumber) (d : TripDetails) (u t : State) : Prop where
  trip   : t.trip = { u.trip with record := armedRecord n d, autoStartMs := if d.auto then some 0 else none }
  env    : ∀ x, u.depth.sample = some x → PartlyEvaluated x u t d
  safety : t.safety = u.safety
  depth  : t.depth = u.depth
  beside : BesideTrip u t
  report : u.phase = .run → Offered u t (u.own (armedReport u.cfg.winder n d))

theorem arm_armed (n : TripNumber) (d : TripDetails) (before : State) {v : State} (hd : v.isDrum = true) :
    Armed n d v (finish before (arm n d v)) := by
  rw [arm_eq]
  have hset : ∀ x : TripUnit, BesideTrip v (partialEvaluation (v.setTrip x)) := fun x =>
    (show BesideTrip v (v.setTrip x) by constructor <;> rfl).trans (partialEvaluation_besideTrip _)
  have hbeside := fun x => (hset x).trans (originate_besideTrip _ (armedReport v.cfg.winder n d))
  have hends := finish_ends before (originate (armedReport v.cfg.winder n d) (partialEvaluation
      (v.setTrip { v.trip with record := armedRecord n d, autoStartMs := if d.auto then some 0 else none })))
  refine ⟨hends.trip.trans (by simp), fun x hx => ?_, hends.safety.trans (by simp), hends.depth.trans (by simp),
    (hbeside _).trans (finish_besideTrip before (not_hasGates_of_isDrum ((isDrum_congr (hbeside _).cfg).trans hd))),
    fun hrun => ?_⟩
  · unfold PartlyEvaluated
    rw [hends.env, hends.trip, originate_env, originate_trip, partialEvaluation_on (d := d) (y := x) rfl rfl (by simpa using hx)]
    simp
  · exact SameLine.offered ⟨(hset _).loader, (hset _).cfg, by simp, by simp⟩ _ hends hrun nofun

/-- TRIP EXPIRED leaves before a trip opens, and nothing else does. -/
theorem Armed.of_leave {n : TripNumber} {d : TripDetails} {u t : State} {e : Event} (h : Armed n d (leave e u) t) :
    Armed n d u t := by
  obtain ⟨htrip, henv, hsafety, hdepth, hbeside, hreport⟩ := h
  refine ⟨by simpa using htrip, fun x hx => ?_, by simpa using hsafety, by simpa using hdepth,
    (leave_besideTrip u e).trans hbeside, fun hrun => ?_⟩
  · simpa [PartlyEvaluated] using henv x (by simpa using hx)
  · simpa [Offered, State.own] using hreport (by simpa [State.phase] using hrun)

/-- R98, R112: an accepted GO arms the trip, from SUSPENDED with its number and from IDLE with the next. -/
theorem takeGo_armed (before : State) {u : State} {origin dest : Station} {cls : TripClass} {auto : Bool}
    (hd : u.isDrum = true) (h : refusalOf u origin dest cls auto = none) :
    Armed (if u.tripState = .suspended then u.trip.record.number else u.trip.record.number + 1)
      (u.goDetails origin dest cls auto) u (finish before (takeGo origin dest cls auto u)) := by
  rw [takeGo_of_none h]
  split
  · exact arm_armed _ _ before hd
  · rw [openTrip]
    exact (arm_armed _ _ before ((isDrum_congr (leave_cfg u _)).trans hd)).of_leave

theorem firstRefusal_none {l : List (Bool × RefusalCause)} (h : firstRefusal l = none) {x : Bool × RefusalCause}
    (hx : x ∈ l) : x.1 = false := by
  unfold firstRefusal at h
  simpa using List.find?_eq_none.mp (Option.map_eq_none_iff.mp h) x hx

theorem permit_iff (s : State) :
    s.permit = true ↔ s.live = true ∧ s.phase ≠ .init ∧ (s.tripState = .armed ∨ s.tripState = .running) := by
  simp [State.permit, and_assoc]

/-- Settles O32. -/
theorem acceptedGo : Obligations.AcceptedGo := by
  unfold Obligations.AcceptedGo
  refine ⟨fun s => ⟨permit_iff s, ?_⟩, ?_⟩
  · simp [State.autoStart, and_assoc, Option.isSome_iff_ne_none]
  intro s h w dest cls auto ht hd hw hpass u target number
  have hcfg : u.cfg = s.cfg := relayed_cfg s h _
  have hnone : refusalOf u h.origin dest cls auto = none := by rw [refusalOf_eq, goTests_relayed]; exact hpass
  have hrun : s.phase = .run := by
    have hphase := firstRefusal_none hpass (x := (s.phase != .run, .line)) (by simp [goTests])
    simpa using hphase
  have hexec := exec_taken_drum ht hd
  rw [deliverToDrum_go, if_pos (hw.trans (congrArg Params.winder hcfg.symm))] at hexec
  obtain ⟨htrip, henv, hsafety, hdepth, hbeside, hreport⟩ := takeGo_armed s ((isDrum_congr hcfg).trans hd) hnone
  have hdetails : u.goDetails h.origin dest cls auto = s.goDetails h.origin dest cls auto := by
    rw [show u = s.relayed h _ from rfl, relayed_same]; rfl
  have hnumber : (if u.tripState = .suspended then u.trip.record.number else u.trip.record.number + 1) = number := by
    rw [show u = s.relayed h _ from rfl, relayed_same]; rfl
  have hloader := hbeside.loader
  rw [hnumber, hdetails] at htrip hreport
  refine ⟨_, hexec, by rw [htrip]; rfl, ?_, by rw [htrip]; rfl, ?_, fun d x hdet hx => ?_, by rw [hsafety]; simp [u],
    by rw [hdepth]; simp [u], hbeside, ?_⟩
  · rw [htrip]; simp [u]
  · refine (permit_iff _).mpr ⟨?_, ?_, .inl ?_⟩
    · unfold State.live State.inReset
      rw [hloader, relayed_loader]
      exact ht.live
    · unfold State.phase at hrun ⊢
      rw [hloader, relayed_loader, hrun]
      nofun
    · rw [State.tripState, htrip]; rfl
  · have hpart := henv x (by simpa [u] using hx)
    rw [htrip] at hdet
    have hd' : d = s.goDetails h.origin dest cls auto := (Option.some.inj hdet).symm
    subst hd'
    rw [hdetails] at hpart
    simpa [PartlyEvaluated, u] using hpart
  · have hoffered := hreport (by simpa [u, State.phase] using hrun)
    rw [own_relayed, relayed_cfg, ← hw] at hoffered
    exact hoffered

/-! A HALT and the local emergency stop (R166, R168) -/

/-- R161: the brake trip is released in RUN with an empty cause list alone. -/
theorem brakeTrip_eq_false_iff (s : State) :
    s.brakeTrip = false ↔ s.live = true ∧ s.phase = .run ∧ s.safety.causes = [] := by
  simp [State.brakeTrip, and_assoc]

/-- R168: a change of the local emergency stop of a live station. -/
theorem exec_localEstopInputChange (hlive : s.live = true) (hd : s.isDrum = true) (hw : s.working = true) {active : Bool}
    (hc : s.inputs.localEstop ≠ active) :
    let e := s.setInputs { s.inputs with localEstop := active }
    exec (.localEstopInputChange active) s =
      .next (finish s (if active = true then deliver (Cause.plain .estopLocal) e else e)) := by
  intro e
  change execLocalEstopInputChange active s = _
  rw [execLocalEstopInputChange, onInput_of_live hlive (by simpa using hc)]
  have hdrum : e.isDrum = true := hd
  have hworking : e.working = true := hw
  cases active <;> simp [e, hdrum, hworking] at *

/-- R164: a delivery at a drum, with what a step ends with. -/
theorem finish_delivers (before : State) {u : State} (c : Cause) (hd : u.isDrum = true) :
    Delivered c.kind c.origin u (finish before (deliver c u)) ∧ BesideTrip u (finish before (deliver c u)) := by
  have hbeside := deliver_besideTrip u c
  have hdrum := (isDrum_congr hbeside.cfg).trans hd
  exact ⟨(deliver_delivered c u).of_ends (finish_ends before _) hdrum,
    hbeside.trans (finish_besideTrip before (not_hasGates_of_isDrum hdrum))⟩

/-- Settles O39. -/
theorem haltAndLocalStop : Obligations.HaltAndLocalStop := by
  unfold Obligations.HaltAndLocalStop
  refine ⟨brakeTrip_eq_false_iff, fun s hd => ⟨fun h ws reason ht => ?_, fun active hlive hw hc => ?_⟩⟩
  · intro u
    have hcfg : u.cfg = s.cfg := relayed_cfg s h _
    have htakes : deliverToDrum (frameOf h (.halt ws reason)) u =
        if winderIn ws s.cfg.winder = true then takeHalt h.origin reason u else u := by
      rw [← hcfg]; rfl
    refine ⟨_, exec_taken_drum ht hd, fun hin => ?_, fun hout => ?_⟩ <;> rw [show s.relayed h _ = u from rfl, htakes]
    · rw [if_pos hin]
      exact finish_delivers s { kind := .halt reason, origin := some h.origin } ((isDrum_congr hcfg).trans hd)
    · rw [if_neg (by simp [hout])]
      exact finish_ends s u
  · intro e
    refine ⟨_, exec_localEstopInputChange hlive hd hw hc, fun ha => ?_, fun ha => ?_⟩
    · rw [if_pos ha]
      exact finish_delivers s (Cause.plain .estopLocal) hd
    · rw [if_neg (by simp [ha])]
      exact finish_quiet s _ (fun _ => rfl) (fun _ h => h)

/-! The trip reset (R170 to R172) -/

/-- Table 9-3: the refusal is that of the first condition that fails. -/
theorem resetRefusal_eq (s : State) : resetRefusal s = ((resetTests s).find? (·.1)).map (·.2) := by
  have hcons : ∀ (b : Bool) (r : ResetRefusal) (l : List (Bool × ResetRefusal)),
      (((b, r) :: l).find? (·.1)).map (·.2) = if b = true then some r else (l.find? (·.1)).map (·.2) := fun b r l => by
    cases b <;> rfl
  unfold resetRefusal resetTests
  simp only [hcons]
  refine ite_congr (by simp) (fun _ => rfl) fun _ => ?_
  exact ite_congr (by simp [Config.resetRest]) (fun _ => rfl) fun _ => rfl

/-- R170: a press of a live drum. -/
theorem exec_tripResetKey (hlive : s.live = true) (hd : s.isDrum = true) :
    exec .tripResetKey s = .next (finish s (pressReset s)) := by
  change execTripResetKey s = _
  rw [execTripResetKey, act_of_live hlive, not_hasGates_of_isDrum hd]
  rfl

/-- R172: the conveyance stands at a level of the station table. -/
theorem atLevel_iff (s : State) : s.atLevel = true ↔ ∃ n : Station, ∃ l,
    (s.stations.entries[n].role = some .landing ∨ s.stations.entries[n].role = some .loading) ∧
    s.stations.entries[n].level = some l ∧ (l.val : Int) - s.cfg.landingHw ≤ s.lastSample.corrected.val ∧
    s.lastSample.corrected.val ≤ l.val + s.cfg.landingHw := by
  have hrole : ∀ r : Option Role, isLandingRole r = true ↔ r = some .landing ∨ r = some .loading := fun r => by
    cases r with
    | none => simp [isLandingRole]
    | some r => cases r <;> simp [isLandingRole]
  unfold State.atLevel stationNumbers
  simp only [List.any_eq_true, List.mem_finRange, true_and, Bool.and_eq_true, hrole]
  refine exists_congr fun n => ?_
  cases hl : s.stations.entries[n].level with
  | none => simp
  | some l =>
    simp only [inWindow, Bool.and_eq_true, decide_eq_true_eq]
    constructor
    · rintro ⟨hr, hlo, hhi⟩
      exact ⟨l, hr, rfl, hlo, by omega⟩
    · rintro ⟨_, hr, hlevel, hlo, hhi⟩
      cases hlevel
      exact ⟨hr, hlo, by omega⟩

/-- R172: the fields of the recovery trip. -/
def State.recoveryDetails (s : State) : TripDetails where
  cls := .inspection
  auto := false
  origin := s.cfg.station
  dest := s.cfg.station
  target := s.lastSample.corrected
  direction := .down

/-- R172: the record of the recovery trip. -/
def State.recoveryRecord (s : State) : TripRecord where
  number := s.trip.record.number + 1
  state := .suspended
  details := some s.recoveryDetails
  stopDepth := none
  armMs := none
  result := none

/-- R172, R122: the contents of the WINDING that reports the recovery trip. -/
def State.recoveryReport (s : State) : Payload :=
  .winding { winder := s.cfg.winder, number := s.trip.record.number + 1, state := .trip .suspended, cls := .inspection,
             auto := false, origin := s.cfg.station, dest := s.cfg.station, depth := s.lastSample.corrected, outcome := .none,
             blocking := none }

/-- R172: the opening of the recovery trip is a change of the record, the partial evaluation, and the WINDING. -/
theorem openRecovery_eq (s : State) :
    openRecovery s = originate s.recoveryReport (partialEvaluation ((leave .tripExpired s).setRecord s.recoveryRecord)) := by
  have hreports : openRecovery s = reportTrip s.lastSample.corrected .none
      (partialEvaluation ((leave .tripExpired s).setRecord s.recoveryRecord)) := by
    unfold openRecovery State.recoveryRecord State.recoveryDetails
    simp
  rw [hreports, reportTrip_of_details (d := s.recoveryDetails) (by simp [State.recoveryRecord]), State.tripReport,
    (partialEvaluation_besideTrip _).cfg]
  simp [State.recoveryRecord, State.recoveryDetails, State.recoveryReport]

/-- R170: the state of an accepted press before the conveyance is looked for. -/
def clearedTrip (s : State) : State :=
  leave .resetRefused (leave .safetyTrip (s.setSafety { causes := [], causesLost := false, refusal := none }))

theorem acceptReset_eq (s : State) :
    acceptReset s = if s.atLevel = true then clearedTrip s else openRecovery (clearedTrip s) := by
  have hlevel : (clearedTrip s).atLevel = s.atLevel := by
    unfold clearedTrip State.atLevel State.lastSample
    simp
  rw [← hlevel]
  rfl

/-- R170, R172: what an accepted press leaves, and the recovery trip that it opens away from every level. -/
theorem acceptReset_leaves (s : State) :
    (acceptReset s).safety = { causes := [], causesLost := false, refusal := none } ∧ (acceptReset s).depth = s.depth ∧
    BesideTrip s (acceptReset s) ∧
    (∀ e : Event, e = .safetyTrip ∨ e = .resetRefused → (acceptReset s).isPending e = false) ∧
    (s.atLevel = true → (acceptReset s).trip = s.trip) ∧
    (¬s.atLevel = true → (acceptReset s).trip.record = s.recoveryRecord ∧
      ∃ v, acceptReset s = originate s.recoveryReport v ∧ SameLine s v) := by
  have hbeside : BesideTrip s (clearedTrip s) :=
    (show BesideTrip s (s.setSafety { causes := [], causesLost := false, refusal := none }) by constructor <;> rfl).trans
      ((leave_besideTrip _ _).trans (leave_besideTrip _ _))
  have hpending : ∀ e : Event, e = .safetyTrip ∨ e = .resetRefused → (clearedTrip s).isPending e = false := by
    rintro e (rfl | rfl)
    · rw [clearedTrip, isPending_leave_of_ne _ (by decide), isPending_leave_self]
    · exact isPending_leave_self _ _
  have hrecovers : (clearedTrip s).recoveryReport = s.recoveryReport ∧ (clearedTrip s).recoveryRecord = s.recoveryRecord := by
    unfold State.recoveryReport State.recoveryRecord State.recoveryDetails State.lastSample clearedTrip
    simp
  rw [acceptReset_eq]
  by_cases hlevel : s.atLevel = true
  · rw [if_pos hlevel]
    exact ⟨by simp [clearedTrip], by simp [clearedTrip], hbeside, hpending, fun _ => by simp [clearedTrip],
      fun h => absurd hlevel h⟩
  · rw [if_neg hlevel, openRecovery_eq, hrecovers.1, hrecovers.2]
    have hset : BesideTrip (leave .tripExpired (clearedTrip s))
        (partialEvaluation ((leave .tripExpired (clearedTrip s)).setRecord s.recoveryRecord)) :=
      (show BesideTrip _ ((leave .tripExpired (clearedTrip s)).setRecord s.recoveryRecord) by constructor <;> rfl).trans
        (partialEvaluation_besideTrip _)
    refine ⟨by simp [clearedTrip], by simp [clearedTrip],
      hbeside.trans ((leave_besideTrip _ _).trans (hset.trans (originate_besideTrip _ _))), fun e he => ?_,
      fun h => absurd h hlevel, fun _ => ⟨by simp, _, rfl, ⟨?_, ?_, ?_, ?_⟩⟩⟩
    · have hne : Event.txOverflow.code ≠ e.code ∧ Event.tripExpired.code ≠ e.code := by
        rcases he with rfl | rfl <;> decide
      rw [isPending_originate_of_ne _ _ hne.1]
      have hkept : (partialEvaluation ((leave .tripExpired (clearedTrip s)).setRecord s.recoveryRecord)).isPending e =
          (leave .tripExpired (clearedTrip s)).isPending e := by
        unfold State.isPending; rw [partialEvaluation_panel]; rfl
      rw [hkept, isPending_leave_of_ne _ hne.2, hpending e he]
    all_goals simp [clearedTrip, (partialEvaluation_besideTrip _).cfg]

/-- Settles O40. -/
theorem tripReset : Obligations.TripReset := by
  unfold Obligations.TripReset
  intro s hlive hd hw
  refine ⟨fun hnone => ?_, fun r hsome hr => ?_, fun hsome hidle hpass => ?_⟩
  · refine ⟨_, exec_tripResetKey hlive hd, ?_⟩
    rw [pressReset, if_pos (by simp [hnone])]
    exact finish_self s
  · have hpress : pressReset s = raise .resetRefused (s.setSafety { s.safety with refusal := some r }) := by
      rw [pressReset, if_neg (by simpa using hsome), resetRefusal_eq, hr]
    refine ⟨_, exec_tripResetKey hlive hd, ?_⟩
    rw [hpress]
    have hdrum : (raise .resetRefused (s.setSafety { s.safety with refusal := some r })).isDrum = true :=
      (isDrum_congr (raise_cfg _ _)).trans hd
    have hends := finish_ends s (raise .resetRefused (s.setSafety { s.safety with refusal := some r }))
    exact ⟨(raise_agrees _ _).trans (finish_agrees _ s),
      hends.pending_of (isPending_raise_self _ _ hw) (leavingMask_of_drum hdrum (.inr (.inl rfl))),
      brakeTrip_of_causes (by rw [hends.safety]; simpa using hsome)⟩
  · intro d standing
    have hrefusal : resetRefusal s = none := by rw [resetRefusal_eq, hpass]; rfl
    have hrun : s.phase = .run := by
      by_contra h
      simp [resetRefusal, h] at hrefusal
    have hpress : pressReset s = acceptReset s := by
      rw [pressReset, if_neg (by simpa using hsome), hrefusal]
    obtain ⟨hsafety, hdepth, hbeside, hpending, htrip, hopened⟩ := acceptReset_leaves s
    have hends := finish_ends s (acceptReset s)
    refine ⟨_, exec_tripResetKey hlive hd, ?_⟩
    rw [hpress]
    have hloader : (finish s (acceptReset s)).loader = s.loader := hends.loader.trans hbeside.loader
    refine ⟨hbeside.trans (finish_besideTrip s (not_hasGates_of_isDrum ((isDrum_congr hbeside.cfg).trans hd))),
      hends.safety.trans hsafety, (brakeTrip_eq_false_iff _).mpr ⟨?_, ?_, by rw [hends.safety, hsafety]⟩,
      hends.depth.trans hdepth, hends.not_pending (hpending _ (.inl rfl)), hends.not_pending (hpending _ (.inr rfl)),
      fun hstands => hends.trip.trans (htrip ((atLevel_iff s).mpr hstands)), fun haway => ?_⟩
    · unfold State.live State.inReset
      rw [hloader]
      exact hlive
    · unfold State.phase at hrun ⊢
      rw [hloader, hrun]
    · obtain ⟨hrecord, v, hv, hline⟩ := hopened (mt (atLevel_iff s).mp haway)
      refine ⟨by rw [hends.trip, hrecord]; rfl, ?_⟩
      rw [hv] at hends ⊢
      exact hline.offered _ hends hrun nofun

end Sys2Proof.Machine
end

