-- ==== Sys2Proof/Proofs/Encoder.lean ====
section
/-! PROOFS. Sys2Proof/Proofs/Encoder.lean: the quadrature count and the encoder's fault indication (R52 to R54). -/
set_option Elab.async false

namespace Sys2Proof.Machine

variable {s : State}

/-! A change of the channels (Table 4-1) -/

/-- Table 4-1: a change is forward, reverse, illegal or none by the levels it leads to. -/
theorem turnOf_eq (a b a' b' : Bool) :
    turnOf (a, b) (a', b') = if (a', b') = (b, !a) then .forward else if (a', b') = (!b, a) then .reverse
      else if (a', b') = (!a, !b) then .illegal else .same := by
  revert a b a' b'; decide

/-- R52: a change of the channels of a station past power-on ends with the end of a step, unless the station is in reset. -/
theorem exec_encoderChannelChange (hp : s.loader.powered = true) (ho : s.loader.oscillating = false) (a b : Bool) :
    (s.live = true ∧ exec (.encoderChannelChange a b) s = .next (finish s (channelChange (a, b) s))) ∨
    (s.live = false ∧ exec (.encoderChannelChange a b) s = .next (channelChange (a, b) s)) := by
  have hexec : exec (.encoderChannelChange a b) s =
      if s.inReset = true then .next (channelChange (a, b) s) else .next (finish s (channelChange (a, b) s)) := by
    change execEncoderChannelChange a b s = _
    rw [execEncoderChannelChange, if_pos (by simp [hp, ho])]
  unfold State.live
  cases hr : s.inReset with
  | true => exact .inr ⟨by simp, by rw [hexec, if_pos hr]⟩
  | false => exact .inl ⟨by simp [hp], by rw [hexec, if_neg (by simp [hr])]⟩

theorem Agrees.refl (s : State) : Agrees s s := agrees_panel s s.panel

/-- R52: what a change of the channels makes agrees with what the step ends with. -/
theorem exec_encoderChannelChange_agrees (hp : s.loader.powered = true) (ho : s.loader.oscillating = false) (a b : Bool) :
    ∃ t, exec (.encoderChannelChange a b) s = .next t ∧ Agrees (channelChange (a, b) s) t := by
  rcases exec_encoderChannelChange hp ho a b with ⟨-, h⟩ | ⟨-, h⟩
  · exact ⟨_, h, finish_agrees _ s⟩
  · exact ⟨_, h, Agrees.refl _⟩

theorem channelChange_first (h : s.depth.channel = none) (ch : Level × Level) :
    channelChange ch s = s.setDepth { s.depth with channel := some ch } := by
  unfold channelChange; rw [h]

/-- R52, R54: what each change of the channels makes. -/
theorem channelChange_of {a b : Bool} (h : s.depth.channel = some (a, b)) (a' b' : Bool) :
    channelChange (a', b') s =
      let u := s.setDepth { s.depth with channel := some (a', b') }
      if (a', b') = (b, !a) then stepCount true u else if (a', b') = (!b, a) then stepCount false u
        else if (a', b') = (!a, !b) then illegalChange u else u := by
  unfold channelChange
  rw [h]
  dsimp only
  rw [turnOf_eq]
  by_cases hforward : (a', b') = (b, !a)
  · rw [if_pos hforward, if_pos hforward]
  by_cases hreverse : (a', b') = (!b, a)
  · rw [if_neg hforward, if_pos hreverse, if_neg hforward, if_pos hreverse]
  by_cases hillegal : (a', b') = (!a, !b)
  · rw [if_neg hforward, if_neg hreverse, if_pos hillegal, if_neg hforward, if_neg hreverse, if_pos hillegal]
  · rw [if_neg hforward, if_neg hreverse, if_neg hillegal, if_neg hforward, if_neg hreverse, if_neg hillegal]

/-- R53: the illegal change before its cause is delivered. -/
def faulted (s : State) : State := unverify (s.setDepth { s.depth with faultMs := some 0 })

/-- R53: an illegal change delivers the cause at a live working drum whose encoder was clear. -/
theorem illegalChange_eq (s : State) :
    illegalChange s =
      if s.depth.faultMs = none ∧ s.isDrum = true ∧ s.live = true ∧ s.working = true then
        deliver (Cause.plain .encoder) (faulted s)
      else faulted s := by
  unfold illegalChange
  dsimp only
  refine ite_congr ?_ (fun _ => rfl) fun _ => rfl
  simp only [Bool.and_eq_true, Bool.not_eq_true', eq_iff_iff, and_assoc]
  refine and_congr ?_ Iff.rfl
  rw [← Bool.not_eq_true, encoderFaulty_iff, not_not]

/-- R53, R54: an illegal change leaves the count and the channel state. -/
theorem illegalChange_position (s : State) : (illegalChange s).depth.count = s.depth.count ∧
    (illegalChange s).depth.channel = s.depth.channel := by
  rw [illegalChange_eq]
  split
  · exact ⟨(deliver_position _ _).2.1, (deliver_position _ _).2.2⟩
  · exact ⟨rfl, rfl⟩

/-- R53: an illegal change leaves the encoder FAULTY and the position UNVERIFIED, in the last sample set too. -/
theorem illegalChange_depth (s : State) : (illegalChange s).depth.faultMs = some 0 ∧
    (illegalChange s).depth.verified = false ∧ (illegalChange s).lastSample.verified = false := by
  have hsample : (faulted s).lastSample.verified = false := by
    unfold State.lastSample
    cases h : s.depth.sample <;> simp [faulted, unverify, h, SampleSet.absent]
  rw [illegalChange_eq]
  split
  · rw [deliver_faultMs, deliver_verified, State.lastSample, deliver_sample]
    exact ⟨rfl, rfl, hsample⟩
  · exact ⟨rfl, rfl, hsample⟩

/-- Settles O25. -/
theorem countFollowsTheChannels : Obligations.CountFollowsTheChannels := by
  unfold Obligations.CountFollowsTheChannels
  refine ⟨fun s a' b' hp ho hnone => ?_, fun s a b a' b' hp ho hch => ?_, by decide, by decide, fun s => ?_, fun s => ?_⟩
  · obtain ⟨t, ht, hagrees⟩ := exec_encoderChannelChange_agrees hp ho a' b'
    rw [channelChange_first hnone] at hagrees
    exact ⟨t, ht, hagrees⟩
  · obtain ⟨t, ht, hagrees⟩ := exec_encoderChannelChange_agrees hp ho a' b'
    rw [channelChange_of hch] at hagrees
    refine ⟨t, ht, ?_⟩
    dsimp only at hagrees
    split_ifs at hagrees with hforward hreverse hillegal
    · have hcount : t.depth.count = if s.cfg.inverted then s.depth.count - 1 else s.depth.count + 1 := by
        rw [hagrees.depth]
        cases hi : s.cfg.inverted <;> simp [stepCount, hi]
      refine ⟨by rw [hagrees.depth]; rfl, by rw [if_pos hforward, hcount], fun _ => ?_⟩
      rw [hagrees.depth]
      exact hagrees
    · have hcount : t.depth.count = if s.cfg.inverted then s.depth.count + 1 else s.depth.count - 1 := by
        rw [hagrees.depth]
        cases hi : s.cfg.inverted <;> simp [stepCount, hi]
      refine ⟨by rw [hagrees.depth]; rfl, by rw [if_neg hforward, if_pos hreverse, hcount], fun _ => ?_⟩
      rw [hagrees.depth]
      exact hagrees
    · obtain ⟨hcount, hchannel⟩ := illegalChange_position (s.setDepth { s.depth with channel := some (a', b') })
      refine ⟨by rw [hagrees.depth, hchannel]; rfl, ?_, fun h => absurd hillegal h⟩
      rw [if_neg hforward, if_neg hreverse, hagrees.depth, hcount]
      rfl
    · refine ⟨by rw [hagrees.depth]; rfl, by rw [if_neg hforward, if_neg hreverse, hagrees.depth]; rfl, fun _ => ?_⟩
      rw [hagrees.depth]
      exact hagrees
  · exact ⟨_, rfl, rfl⟩
  · change ∃ t, execWarmReset s = .next t ∧ _
    unfold execWarmReset
    split
    · exact ⟨_, rfl, rfl⟩
    · exact ⟨_, rfl, rfl⟩

/-- A step that originates nothing leaves what stands beside the trip. -/
theorem Quiet.besideTrip {e t : State} (h : Quiet e t) : BesideTrip e t where
  pending  := h.pending
  loader   := h.loader
  cfg      := h.cfg
  inputs   := h.inputs
  clock    := h.clock
  portA    := h.portA
  portB    := h.portB
  relay    := h.relay
  picture  := h.picture
  stations := h.stations
  gate     := h.gate
  seq      := h.seq
  draws    := h.draws

/-- Settles O26. -/
theorem encoderFault : Obligations.EncoderFault := by
  unfold Obligations.EncoderFault
  refine ⟨fun s a b hp ho hch => ?_, fun s n hp ho hn => ?_⟩
  · have hillegal : channelChange (!a, !b) s =
        illegalChange (s.setDepth { s.depth with channel := some (!a, !b) }) := by
      rw [channelChange_of hch]
      cases a <;> cases b <;> rfl
    obtain ⟨hcount, -⟩ := illegalChange_position (s.setDepth { s.depth with channel := some (!a, !b) })
    obtain ⟨hfault, hverified, hsample⟩ := illegalChange_depth (s.setDepth { s.depth with channel := some (!a, !b) })
    have hdelivers : illegalChange (s.setDepth { s.depth with channel := some (!a, !b) }) =
        if s.depth.faultMs = none ∧ s.isDrum = true ∧ s.live = true ∧ s.working = true then
          deliver (Cause.plain .encoder) (faulted (s.setDepth { s.depth with channel := some (!a, !b) }))
        else faulted (s.setDepth { s.depth with channel := some (!a, !b) }) := illegalChange_eq _
    have hbeside : BesideTrip s (faulted (s.setDepth { s.depth with channel := some (!a, !b) })) := by constructor <;> rfl
    obtain ⟨t, ht, hagrees, hend⟩ : ∃ t, exec (.encoderChannelChange (!a) (!b)) s = .next t ∧
        Agrees (illegalChange (s.setDepth { s.depth with channel := some (!a, !b) })) t ∧
        BesideTrip s t ∧ (s.live = true → s.isDrum = true → s.working = true → s.depth.faultMs = none →
          Delivered .encoder none s t) ∧
        (s.live = false ∨ s.isDrum = false ∨ s.working = false ∨ s.depth.faultMs ≠ none → t.safety = s.safety) := by
      rcases exec_encoderChannelChange hp ho (!a) (!b) with ⟨hlive, hexec⟩ | ⟨hlive, hexec⟩ <;> rw [hillegal] at hexec
      · refine ⟨_, hexec, finish_agrees _ s, ?_⟩
        rw [hdelivers]
        by_cases hacts : s.depth.faultMs = none ∧ s.isDrum = true ∧ s.live = true ∧ s.working = true
        · rw [if_pos hacts]
          obtain ⟨hdelivered, hstands⟩ := finish_delivers s (Cause.plain .encoder)
            (u := faulted (s.setDepth { s.depth with channel := some (!a, !b) })) hacts.2.1
          refine ⟨hbeside.trans hstands, fun _ _ _ _ => ?_, fun hnot => ?_⟩
          · refine hdelivered.of_unverified rfl rfl rfl rfl ?_ ?_ <;> simp [faulted, unverify, Function.comp_def]
          · obtain ⟨hf, hd, hl, hw⟩ := hacts
            simp [hf, hd, hl, hw] at hnot
        · rw [if_neg hacts]
          have hquiet := finish_quiet s (faulted (s.setDepth { s.depth with channel := some (!a, !b) })) (fun _ => rfl)
            (fun _ h => h)
          exact ⟨hbeside.trans hquiet.besideTrip, fun hl hd hw hf => absurd ⟨hf, hd, hl, hw⟩ hacts, fun _ => hquiet.safety⟩
      · refine ⟨_, hexec, Agrees.refl _, ?_⟩
        rw [hdelivers, if_neg (by simp [hlive])]
        exact ⟨hbeside, fun hl => by simp [hlive] at hl, fun _ => rfl⟩
    refine ⟨t, ht, by rw [hagrees.depth, hfault], by rw [hagrees.depth, hverified], ?_, by rw [hagrees.depth, hcount]; rfl, hend⟩
    unfold State.lastSample at hsample ⊢
    rw [hagrees.depth, hsample]
  · change execEncoderFaultClear s = _
    rw [execEncoderFaultClear]
    by_cases hdue : 10 ≤ n
    · rw [if_pos (by simp [hp, ho, reached_iff hn, Config.encoderClearTime, hdue]), if_pos hdue]
      rfl
    · rw [if_neg (by simp [hp, ho, reached_iff hn, Config.encoderClearTime]; omega), if_neg hdue]

end Sys2Proof.Machine
end

