-- ==== Sys2Proof/Proofs/Timebase.lean ====
section
/-! PROOFS. Sys2Proof/Proofs/Timebase.lean: one millisecond of the timebase (log entry 1): what counts, and what is due. -/
set_option Elab.async false

namespace Sys2Proof.Machine

variable (s : State)

/-! What counts in a live station -/

/-- A live station once its counts have moved on by a millisecond, before anything joins the queue. -/
def counted : State := tickTimers (tickEncoder (tickClock (tickAges s)))

@[simp] theorem tickAges_picture : (tickAges s).picture = if s.working then tickPicture s else s.picture := by
  unfold tickAges; split <;> rfl

@[simp] theorem tickAges_stations : (tickAges s).stations = if s.working then tickStations s else s.stations := by
  unfold tickAges; split <;> rfl

/-- The ages are those of the conveyance table and of the station table, and nothing else. -/
theorem tickAges_same : tickAges s = { s with picture := (tickAges s).picture, stations := (tickAges s).stations } := by
  unfold tickAges; split <;> rfl

/-- What a millisecond counts, block by block. -/
theorem counted_eq : counted s =
    { s with
      loader := { s.loader with listenMs := count s.loader.listenMs }
      clock := { s.clock with now := s.clock.now + 1, windowMs := s.clock.windowMs + 1, flashMs := s.clock.flashMs + 1,
                              sampleMs := s.clock.sampleMs + 1 }
      picture := (tickAges s).picture
      stations := (tickAges s).stations
      depth := { s.depth with faultMs := count s.depth.faultMs }
      trip := tickTrip s.trip
      gate := tickGate s.gate
      seq := tickSeq s.seq
      panel := { s.panel with strobeMs := count s.panel.strobeMs } } := by
  unfold counted
  rw [tickAges_same]
  rfl

@[simp] theorem counted_pending : (counted s).pending = s.pending := by rw [counted_eq]
@[simp] theorem counted_loader : (counted s).loader = { s.loader with listenMs := count s.loader.listenMs } := by
  rw [counted_eq]
@[simp] theorem counted_cfg : (counted s).cfg = s.cfg := by rw [counted_eq]
@[simp] theorem counted_clock : (counted s).clock = { s.clock with
    now := s.clock.now + 1, windowMs := s.clock.windowMs + 1, flashMs := s.clock.flashMs + 1
    sampleMs := s.clock.sampleMs + 1 } := by rw [counted_eq]
@[simp] theorem counted_picture : (counted s).picture = (tickAges s).picture := by rw [counted_eq]
@[simp] theorem counted_stations : (counted s).stations = (tickAges s).stations := by rw [counted_eq]
@[simp] theorem counted_depth : (counted s).depth = { s.depth with faultMs := count s.depth.faultMs } := by rw [counted_eq]
@[simp] theorem counted_trip : (counted s).trip = tickTrip s.trip := by rw [counted_eq]
@[simp] theorem counted_gate : (counted s).gate = tickGate s.gate := by rw [counted_eq]
@[simp] theorem counted_seq : (counted s).seq = tickSeq s.seq := by rw [counted_eq]
@[simp] theorem counted_panel : (counted s).panel = { s.panel with strobeMs := count s.panel.strobeMs } := by rw [counted_eq]
@[simp] theorem counted_model : (counted s).model = s.model := by rw [counted_eq]

@[simp] theorem counted_working : (counted s).working = s.working := by simp [State.working, State.phase]
@[simp] theorem counted_isDrum : (counted s).isDrum = s.isDrum := isDrum_congr (counted_cfg s)

/-- What is due in a live station once its counts have moved on. -/
def allDue (u : State) : List Instr := dueEncoder u ++ dueClock u ++ duePicture u ++ dueDrum u ++ dueGates u

/-- A live station's millisecond. -/
theorem tick_of_live (h : s.live = true) : tick s = drawSample (enqueue (allDue (counted s)) (counted s)) := by
  unfold tick; rw [if_pos h]; rfl

/-- A station in reset past the oscillator's start counts the encoder's clear time alone. -/
theorem tick_of_reset (h : s.live = false) (hp : s.loader.powered = true) (ho : s.loader.oscillating = false) :
    tick s = enqueue (dueEncoder (tickEncoder s)) (tickEncoder s) := by
  unfold tick; rw [if_neg (by simp [h]), if_pos (by simp [hp, ho])]

/-- Without power, or while the oscillator starts, nothing counts. -/
theorem tick_of_dead (h : s.loader.powered = false ∨ s.loader.oscillating = true) : tick s = s := by
  have hlive : s.live = false := by
    unfold State.live State.inReset
    rcases h with h | h <;> simp [h]
  unfold tick
  rw [if_neg (by simp [hlive]), if_neg (by rcases h with h | h <;> simp [h])]

theorem step_of_idle (h : s.pending = []) : step s = .next (tick s) := by
  unfold step; rw [h]

/-! What is due -/

theorem mem_due {b : Bool} {i c : Instr} : c ∈ due b i ↔ c = i ∧ b = true := by
  unfold due; split <;> simp_all

/-- A timer that has counted one millisecond more has reached its limit. -/
theorem reached_count (timer : Option Nat) (limit : Nat) :
    reached (count timer) limit = true ↔ ∃ n, timer = some n ∧ limit ≤ n + 1 := by
  cases timer <;> simp [reached, count]

/-- What is drawn joins what is due. -/
theorem mem_drawSample (u : State) (cs : List Instr) (h : u.pending = []) (c : Instr) :
    c ∈ (drawSample (enqueue cs u)).pending ↔
      c ∈ cs ∨ (c = .sample (Config.sampleOrder u.model.draws) ∧ u.sampleDue = true) := by
  have hdue : (enqueue cs u).sampleDue = u.sampleDue := rfl
  unfold drawSample
  split
  · rename_i hs
    simp [enqueue, h, hdue ▸ hs]
  · rename_i hs
    simp [enqueue, h, hdue ▸ hs]

/-- What joins the queue leaves every block but the queue and the count of draws. -/
theorem drawSample_same (u : State) (cs : List Instr) : ∃ n, drawSample (enqueue cs u) =
    { u with pending := (drawSample (enqueue cs u)).pending, model := { u.model with draws := n } } := by
  unfold drawSample
  split
  · exact ⟨_, rfl⟩
  · exact ⟨u.model.draws, rfl⟩

theorem mem_dueClock (u : State) (c : Instr) : c ∈ dueClock u ↔
    (c = .errorWindowAdvance ∧ 1000 ≤ u.clock.windowMs) ∨ (c = .flashClockHalf ∧ 500 ≤ u.clock.flashMs) ∨
    (c = .strobePulseEnd ∧ reached u.panel.strobeMs 20 = true) ∨
    (c = .listenTimerExpiry ∧ reached u.loader.listenMs 2000 = true) := by
  simp only [dueClock, List.mem_append, mem_due, decide_eq_true_eq, or_assoc]
  rfl

theorem mem_winders (w : Winder) : w ∈ winders := by
  revert w; decide

theorem mem_duePicture (u : State) (c : Instr) : c ∈ duePicture u ↔
    (u.working = true ∧ ∃ w : Winder, c = .conveyanceRecordExpiry w ∧
      ∃ x, u.picture.carrying[w] = some x ∧ x.current = true ∧ x.staleness ≤ x.age) ∨
    (u.working = true ∧ u.isDrum = true ∧ ∃ n : Station, c = .stationEntryExpiry n ∧
      u.stations.entries[n].state = .current ∧ 3000 ≤ u.stations.entries[n].age) := by
  unfold duePicture
  have hcarrying : ∀ o : Option Carrying, o.any Carrying.over = true ↔
      ∃ x, o = some x ∧ x.current = true ∧ x.staleness ≤ x.age := fun o => by
    cases o <;> simp [Carrying.over]
  have hentry : ∀ e : StationEntry, e.over = true ↔ e.state = .current ∧ 3000 ≤ e.age := fun e => by
    simp only [StationEntry.over, Bool.and_eq_true, beq_iff_eq, decide_eq_true_eq]
    rfl
  by_cases hw : u.working = true
  · by_cases hd : u.isDrum = true
    · simp [hw, hd, mem_due, mem_winders, stationNumbers, hcarrying, hentry]
    · simp [hw, hd, mem_due, mem_winders, hcarrying]
  · simp [hw]

theorem mem_dueDrum (u : State) (c : Instr) : c ∈ dueDrum u ↔
    (c = .armTimerExpiry ∧ reached u.trip.record.armMs (u.cfg.armTimeout * 1000) = true) ∨
    (c = .autoStartPulseEnd ∧ reached u.trip.autoStartMs 200 = true) ∨
    (∃ e ∈ u.trip.calls, c = .callLifeExpiry e.origin ∧ u.cfg.callLife * 60000 ≤ u.clock.now - e.registered) := by
  simp only [dueDrum, List.mem_append, mem_due, or_assoc, List.mem_map, List.mem_filter, State.callOver, decide_eq_true_eq]
  refine or_congr Iff.rfl (or_congr Iff.rfl (exists_congr fun e => ?_))
  constructor
  · rintro ⟨⟨he, hover⟩, rfl⟩
    exact ⟨he, rfl, hover⟩
  · rintro ⟨he, rfl, hover⟩
    exact ⟨⟨he, hover⟩, rfl⟩

theorem mem_dueGates (u : State) (c : Instr) : c ∈ dueGates u ↔
    (∃ w : Winder, c = .lockSettleTimerExpiry w ∧ reached u.gate.records[w].settleMs 500 = true) ∨
    (c = .assentTimerExpiry ∧ reached u.gate.assentMs 1000 = true) ∨
    (c = .replyTimerExpiry ∧ reached u.gate.signal.replyMs 2000 = true) ∨
    (c = .doorTimerExpiry ∧ reached u.seq.doorMs (u.cfg.doorTimeout * 1000) = true) ∨
    (c = .autoReplyTimerExpiry ∧ reached u.seq.auto.replyMs 2000 = true) ∨
    (c = .retryTimerExpiry ∧ reached u.seq.auto.retryMs 2000 = true) ∨
    (c = .dwellTimerExpiry ∧ reached u.seq.dwellMs (u.cfg.dwell * 1000) = true) := by
  simp only [dueGates, List.mem_append, List.mem_flatMap, mem_winders, true_and, mem_due, or_assoc]
  rfl

/-! The millisecond whole -/

/-- R37, R38: the records of the conveyance table after a millisecond. -/
theorem tickAges_records (w : Winder) :
    (tickAges s).picture.carrying[w] = (if s.working = true ∧ ¬(s.isDrum = true ∧ w = s.cfg.winder) then
      s.picture.carrying[w].map Carrying.tick else s.picture.carrying[w]) ∧
    (tickAges s).picture.counterweight[w] = (if s.working = true ∧ ¬(s.isDrum = true ∧ w = s.cfg.winder) then
      s.picture.counterweight[w].map Counterweight.tick else s.picture.counterweight[w]) := by
  rw [tickAges_picture]
  by_cases hw : s.working = true
  · rw [if_pos hw]
    by_cases hown : s.isDrum = true ∧ w = s.cfg.winder
    · simp [tickPicture, State.ownRecord, hown.1, hown.2]
    · have howned : ¬s.ownRecord w = true := by simpa [State.ownRecord] using hown
      rw [if_pos ⟨hw, hown⟩, if_pos ⟨hw, hown⟩]
      simp [tickPicture, howned]
  · rw [if_neg hw, if_neg (fun h => hw h.1), if_neg (fun h => hw h.1)]
    exact ⟨rfl, rfl⟩

/-- R40, R43: the entries of the station table after a millisecond. -/
theorem tickAges_entries (n : Station) :
    (tickAges s).stations.entries[n] =
      if s.working = true ∧ s.stations.entries[n].state ≠ .unknown ∧ n ≠ s.cfg.station then
        { s.stations.entries[n] with age := min 65535 (s.stations.entries[n].age + 1) }
      else s.stations.entries[n] := by
  rw [tickAges_stations]
  by_cases hw : s.working = true
  · rw [if_pos hw]
    have hentry : (tickStations s).entries[n] = tickEntry s.cfg.station n s.stations.entries[n] := by simp [tickStations]
    rw [hentry, tickEntry]
    by_cases hkept : s.stations.entries[n].state = .unknown ∨ n = s.cfg.station
    · rw [if_pos hkept, if_neg (fun h => hkept.elim h.2.1 h.2.2)]
    · rw [if_neg hkept, if_pos ⟨hw, fun h => hkept (.inl h), fun h => hkept (.inr h)⟩]
      rfl
  · rw [if_neg hw, if_neg (fun h => hw h.1)]

theorem tickAges_holdSet : (tickAges s).stations.holdSet = s.stations.holdSet := by
  rw [tickAges_stations, tickStations]; split <;> simp

/-- What a millisecond of a live station changes beside its counts: the queue and the count of draws. -/
theorem tick_same (h : s.live = true) : ∃ n, tick s =
    { counted s with pending := (tick s).pending, model := { s.model with draws := n } } := by
  rw [tick_of_live s h]
  obtain ⟨n, hsame⟩ := drawSample_same (counted s) (allDue (counted s))
  rw [counted_model] at hsame
  exact ⟨n, hsame⟩

/-- The commands that are due after a millisecond of a live station. -/
theorem mem_tick (h : s.live = true) (hidle : s.pending = []) (c : Instr) : c ∈ (tick s).pending ↔
    (c = .encoderFaultClear ∧ reached (count s.depth.faultMs) 10 = true) ∨ c ∈ dueClock (counted s) ∨
    c ∈ duePicture (counted s) ∨ c ∈ dueDrum (counted s) ∨ c ∈ dueGates (counted s) ∨
    (c = .sample (Config.sampleOrder s.model.draws) ∧ (counted s).sampleDue = true) := by
  rw [tick_of_live s h, mem_drawSample _ _ (by simpa using hidle), allDue, List.mem_append, List.mem_append, List.mem_append,
    List.mem_append, dueEncoder, mem_due, counted_model, counted_depth]
  simp only [or_assoc]
  rfl

/-- Settles O3. -/
theorem idleStepIsOneMillisecond : Obligations.IdleStepIsOneMillisecond := by
  unfold Obligations.IdleStepIsOneMillisecond
  intro s hidle older next due foreign
  have hdead : s.loader.powered = false ∨ s.loader.oscillating = true → tick s = s := tick_of_dead s
  by_cases hlive : s.live = true
  · obtain ⟨hp, ho⟩ : s.loader.powered = true ∧ s.loader.oscillating = false := by
      unfold State.live State.inReset at hlive
      simp at hlive
      exact ⟨hlive.1, hlive.2.1⟩
    obtain ⟨n, htick⟩ := tick_same s hlive
    have hpicture : (tick s).picture = (tickAges s).picture := by rw [htick, counted_picture]
    have hstations : (tick s).stations = (tickAges s).stations := by rw [htick, counted_stations]
    have hmem := mem_tick s hlive hidle
    simp only [mem_dueClock, mem_duePicture, mem_dueDrum, mem_dueGates, counted_working, counted_isDrum, counted_clock,
      counted_panel, counted_loader, counted_picture, counted_stations, counted_trip, counted_cfg, counted_gate, counted_seq,
      ← hpicture, ← hstations, State.sampleDue, Bool.and_eq_true, decide_eq_true_eq, tickTrip, tickGate, tickSeq,
      Vector.getElem_map, Fin.getElem_fin, reached_count, or_assoc, and_assoc] at hmem
    refine ⟨tick s, step_of_idle s hidle, ?_⟩
    refine ⟨by rw [htick, counted_eq], by rw [htick, counted_eq], by rw [htick, counted_eq], by rw [htick, counted_eq],
      by rw [htick, counted_eq], by rw [htick, counted_eq], by rw [htick, counted_eq],
      by rw [hstations]; exact tickAges_holdSet s, by rw [htick], fun h => hdead h,
      fun _ _ => ⟨by rw [htick, counted_depth]; rfl, ?_⟩, fun h => by simp [hlive] at h,
      fun _ => ⟨by rw [htick, counted_clock], by rw [htick, counted_loader]; rfl, by rw [htick, counted_trip]; rfl,
        by rw [htick, counted_gate]; rfl, by rw [htick, counted_gate]; rfl, by rw [htick, counted_gate]; rfl,
        fun w => ?_, by rw [htick, counted_seq]; rfl, by rw [htick, counted_panel]; rfl, fun w => ⟨fun hf => ?_, fun hf => ?_⟩,
        fun n => ?_, hmem⟩⟩
    · rw [hmem]
      simp [due]
    · rw [htick, counted_gate]; simp [tickGate]; rfl
    · rw [hpicture, (tickAges_records s w).1, (tickAges_records s w).2, if_pos hf, if_pos hf]
      exact ⟨rfl, rfl⟩
    · rw [hpicture, (tickAges_records s w).1, (tickAges_records s w).2, if_neg hf, if_neg hf]
      exact ⟨rfl, rfl⟩
    · rw [hstations]
      exact tickAges_entries s n
  · have hlive : s.live = false := by simpa using hlive
    refine ⟨tick s, step_of_idle s hidle, ?_⟩
    by_cases hpower : s.loader.powered = true ∧ s.loader.oscillating = false
    · have htick := tick_of_reset s hlive hpower.1 hpower.2
      have hpending : (tick s).pending = dueEncoder (tickEncoder s) := by
        rw [htick]
        change s.pending ++ _ = _
        rw [hidle, List.nil_append]
      have hmem : ∀ c, c ∈ (tick s).pending ↔ c = .encoderFaultClear ∧ due s.depth.faultMs 10 := fun c => by
        rw [hpending, dueEncoder, mem_due]
        exact and_congr_right fun _ => reached_count _ _
      refine ⟨by rw [htick]; rfl, by rw [htick]; rfl, by rw [htick]; rfl, by rw [htick]; rfl, by rw [htick]; rfl,
        by rw [htick]; rfl, by rw [htick]; rfl, by rw [htick]; rfl, by rw [htick]; rfl, hdead,
        fun _ _ => ⟨by rw [htick]; rfl, by rw [hmem]; simp⟩, fun _ => ⟨by rw [htick]; rfl, fun c hc => ((hmem c).mp hc).1⟩,
        fun h => by simp [hlive] at h⟩
    · have hsame : tick s = s := hdead (by
        by_contra h
        push Not at h
        exact hpower ⟨by simpa using h.1, by simpa using h.2⟩)
      rw [hsame]
      exact ⟨rfl, rfl, rfl, rfl, rfl, rfl, rfl, rfl, rfl, fun _ => rfl, fun hp ho => absurd ⟨hp, ho⟩ hpower,
        fun _ => ⟨rfl, fun c hc => by simp [hidle] at hc⟩, fun h => by simp [hlive] at h⟩

end Sys2Proof.Machine
end

