-- ==== Sys2Proof/Proofs/ErrorWindow.lean ====
section
/-! PROOFS. Sys2Proof/Proofs/ErrorWindow.lean: the error window and the line quality (R14, R15). -/
set_option Elab.async false

namespace Sys2Proof.Machine

variable (s : State)

/-! The window sum -/

/-- The ten entries of a vector add up to the sum of its list. -/
theorem sum_toList_ten (v : Vector Nat 10) : v.toList.sum = ∑ i : Fin 10, v[i] := by
  have hv : v.toList = List.ofFn (fun i : Fin 10 => v[i]) := by
    apply List.ext_getElem
    · simp
    · intro i h1 h2
      rw [Vector.getElem_toList, List.getElem_ofFn]
      rfl
  rw [hv, List.sum_ofFn]

/-- R14: a bucket one larger makes the window sum one larger. -/
theorem windowSum_counted (x : Port) (h : x.buckets[x.pointer] < 255) : x.counted.windowSum = x.windowSum + 1 := by
  have hbucket : ∀ i : Fin 10, x.counted.buckets[i] = x.buckets[i] + if x.pointer = i then 1 else 0 := fun i => by
    unfold Port.counted
    rw [getElem_put]
    split
    · rename_i heq; subst heq; omega
    · rfl
  unfold Port.windowSum
  rw [sum_toList_ten, sum_toList_ten, Finset.sum_congr rfl fun i _ => hbucket i, Finset.sum_add_distrib, Finset.sum_ite_eq]
  simp

theorem degraded_iff (x : Port) : x.degraded = true ↔ 9 ≤ x.windowSum := by
  rw [Port.degraded, decide_eq_true_eq]
  exact Iff.rfl

/-! An errored frame counted -/

@[simp] theorem countError_port (p : PortId) : (countError p s).port p = (s.port p).counted := by
  unfold countError
  dsimp only
  have hraise : ∀ (u : State) (e : Event), (raise e u).port p = u.port p := fun u e => by
    unfold State.port; rw [raise_portA, raise_portB]
  split
  · rw [hraise, setPort_port]; rfl
  · rw [setPort_port]; rfl

/-- R15, Table 10-2: a port that goes DEGRADED raises LINE DEGRADED. -/
theorem countError_raises (p : PortId) (hw : s.working = true) (hsum : (s.port p).windowSum = 8)
    (hb : (s.port p).buckets[(s.port p).pointer] < 255) : (countError p s).isPending .lineDegraded = true := by
  have hdegrades : (s.port p).counted.degraded = true ∧ (s.port p).degraded = false := by
    constructor
    · rw [degraded_iff, windowSum_counted _ hb, hsum]
    · rw [← Bool.not_eq_true, degraded_iff, hsum]; omega
  unfold countError
  dsimp only
  rw [if_pos]
  · exact isPending_raise_self _ _ (by cases p <;> exact hw)
  · change ((s.port p).counted.degraded && !(s.port p).degraded) = true
    rw [hdegrades.1, hdegrades.2]
    rfl

theorem lineDegraded_iff : s.lineDegraded = true ↔
    9 ≤ s.portA.windowSum ∨ (s.cfg.repeater = true ∧ 9 ≤ s.portB.windowSum) := by
  simp [State.lineDegraded, degraded_iff]

/-- A DEGRADED port in use degrades the station. -/
theorem lineDegraded_of_port {p : PortId} (hu : s.uses p = true) (hw : s.working = true) (h : 9 ≤ (s.port p).windowSum) :
    s.lineDegraded = true := by
  rw [lineDegraded_iff]
  cases p with
  | a => exact .inl h
  | b => exact .inr ⟨by simpa [State.uses, hw] using hu, h⟩

/-! The window advances -/

theorem exec_errorWindowAdvance (h : s.live = true) : exec .errorWindowAdvance s = .next (finish s (windowsAdvance s)) := by
  change execErrorWindowAdvance s = _
  rw [execErrorWindowAdvance_eq, act_of_live h]

theorem windowsAdvance_port (p : PortId) : (windowsAdvance s).port p = (s.port p).advance := by
  cases p <;> rfl

/-- What a step ends with leaves a port's window. -/
theorem Agrees.window {e t : State} (h : Agrees e t) (p : PortId) :
    (t.port p).buckets = (e.port p).buckets ∧ (t.port p).pointer = (e.port p).pointer := by
  cases p with
  | a => change t.portA.buckets = _ ∧ t.portA.pointer = _; rw [h.portA]; exact ⟨rfl, rfl⟩
  | b => change t.portB.buckets = _ ∧ t.portB.pointer = _; rw [h.portB]; exact ⟨rfl, rfl⟩

/-- Settles O17. -/
theorem errorWindow : Obligations.ErrorWindow := by
  unfold Obligations.ErrorWindow
  refine ⟨fun s hlive => ?_, fun s p => ?_, fun x => ?_, degraded_iff, lineDegraded_iff, fun s p hw hsum hb => ?_,
    fun s h r hlive hw hu hr hsum hb => ?_, fun s hlive => ?_, fun s hidle hlive hms => ?_, fun s c hc => ?_⟩
  · have hagrees := finish_agrees (windowsAdvance s) s
    refine ⟨_, exec_errorWindowAdvance s hlive, by rw [hagrees.clock]; rfl, fun p => ?_⟩
    obtain ⟨hbuckets, hpointer⟩ := hagrees.window p
    rw [hbuckets, hpointer, windowsAdvance_port]
    refine ⟨rfl, fun i => ?_⟩
    rw [Port.advance, getElem_put]
    exact if_congr (by rw [Fin.ext_iff, eq_comm]; rfl) rfl rfl
  · rw [countError_port]
    refine ⟨rfl, fun i => ?_⟩
    rw [Port.counted, getElem_put]
    split
    · rename_i heq
      rw [if_pos heq.symm]
      simp only [heq]
    · rename_i hne
      rw [if_neg fun h => hne h.symm]
  · rw [Port.windowSum, sum_toList_ten]
    simp only [Fin.sum_univ_succ, Finset.univ_eq_empty, Finset.sum_empty, Nat.add_zero, ← Nat.add_assoc]
    rfl
  · exact ⟨countError_raises s p hw hsum hb, by rw [countError_port, windowSum_counted _ hb, hsum]⟩
  · have hexec : exec (.positionTaken h r) s = .next (finish s (countError h.port s)) := by
      change frameTaken h (.position r) s = _
      rw [frameTaken, act_of_live hlive, receiveFrame, if_pos hu, if_neg]
      simpa [Frame.wellFormed, frameOf, Payload.wellFormed] using hr
    refine ⟨_, hexec, (finish_ends s _).pending_of (countError_raises s h.port hw hsum hb) ?_⟩
    have hline : (countError h.port s).lineDegraded = true := by
      refine lineDegraded_of_port _ (p := h.port) ?_ (by simpa [State.working, State.phase] using hw) ?_
      · unfold State.uses State.working State.phase at hu ⊢
        rwa [countError_cfg, countError_loader]
      · rw [countError_port, windowSum_counted _ hb, hsum]
    rw [leavingMask_lineDegraded, hline]
    rfl
  · have hends := finish_ends s (windowsAdvance s)
    refine ⟨_, exec_errorWindowAdvance s hlive, fun hstands => hends.not_pending_of_leaving ?_⟩
    rw [leavingMask_lineDegraded, ← hends.lineDegraded, hstands]
    rfl
  · refine ⟨_, step_of_idle s hidle, (mem_tick s hlive hidle _).mpr (.inr (.inl ?_))⟩
    rw [mem_dueClock, counted_clock]
    exact .inl ⟨rfl, by change 1000 ≤ s.clock.windowMs + 1; omega⟩
  · have hreset : ∀ t : State, t.portA = State.reset.portA → t.portB = State.reset.portB →
        ∀ p : PortId, (t.port p).pointer = 0 ∧ ∀ i : Fin 10, (t.port p).buckets[i] = 0 := fun t hA hB p => by
      cases p with
      | a => change t.portA.pointer = 0 ∧ ∀ i : Fin 10, t.portA.buckets[i] = 0; rw [hA]; decide
      | b => change t.portB.pointer = 0 ∧ ∀ i : Fin 10, t.portB.buckets[i] = 0; rw [hB]; decide
    rcases hc with rfl | ⟨rfl, hp⟩
    · exact ⟨powerOnState s, rfl, hreset _ rfl rfl⟩
    · exact ⟨warmReset s, if_pos hp, hreset _ rfl rfl⟩

end Sys2Proof.Machine
end

