-- ==== Sys2Proof/Proofs/EventLines.lean ====
section
/-! PROOFS. Sys2Proof/Proofs/EventLines.lean: the code and the strobe of the event lines (R177, R179), and the flash clock, the lamp
test and the dark input (R175). -/
set_option Elab.async false

namespace Sys2Proof.Machine

/-! The code (R177) -/

/-- The highest code of a set below a bound. -/
theorem highest_below (events : BitVec 16) (n : Nat) :
    let top := (List.range n).foldl (fun acc c => if events.getLsbD c then c else acc) 0
    (∀ k, k < n → events.getLsbD k = true → k ≤ top) ∧ (top ≠ 0 → events.getLsbD top = true) := by
  induction n with
  | zero => simp
  | succ n ih =>
    obtain ⟨hle, hmem⟩ := ih
    intro top
    have htop : top = if events.getLsbD n then n else
        (List.range n).foldl (fun acc c => if events.getLsbD c then c else acc) 0 := by
      simp only [top, List.range_succ, List.foldl_append, List.foldl_cons, List.foldl_nil]
    rw [htop]
    by_cases hn : events.getLsbD n = true
    · rw [if_pos hn]
      exact ⟨fun k hk _ => by omega, fun _ => hn⟩
    · rw [if_neg hn]
      refine ⟨fun k hk hbit => hle k ?_ hbit, hmem⟩
      have hne : k ≠ n := fun h => hn (h ▸ hbit)
      omega

theorem eventCode_of_working {s : State} (hl : s.live = true) (hw : s.working = true) :
    s.eventCode = highestCode s.panel.pendingEvents := by
  unfold State.eventCode; rw [hl, hw]; rfl

/-! The strobe (R177) -/

/-- `v` has the phase and the power of `u`, and, if the code that it shows is another, its strobe pulse begins. -/
structure Strobes (u v : State) : Prop where
  loader : v.loader = u.loader
  strobe : v.panel.strobeMs = some 0 ∨ (v.panel.strobeMs = u.panel.strobeMs ∧ v.eventCode = u.eventCode)

namespace Strobes

variable {u v w : State}

theorem trans (h : Strobes u v) (h' : Strobes v w) : Strobes u w := by
  refine ⟨h'.loader.trans h.loader, ?_⟩
  rcases h'.strobe with h0 | ⟨hs', hc'⟩
  · exact .inl h0
  · rcases h.strobe with h0 | ⟨hs, hc⟩
    · exact .inl (hs'.trans h0)
    · exact .inr ⟨hs'.trans hs, hc'.trans hc⟩

/-- The code follows the power, the phase and the pending set. -/
theorem of_eq (hl : v.loader = u.loader) (he : v.panel.pendingEvents = u.panel.pendingEvents)
    (hs : v.panel.strobeMs = u.panel.strobeMs) : Strobes u v := by
  refine ⟨hl, .inr ⟨hs, ?_⟩⟩
  unfold State.eventCode State.live State.working State.inReset State.phase
  rw [hl, he]

end Strobes

theorem setEvents_strobes (s : State) (events : BitVec 16) : Strobes s (setEvents events s) := by
  refine ⟨by simp, ?_⟩
  unfold setEvents
  dsimp only
  split
  · rename_i hcode
    exact .inr ⟨rfl, hcode⟩
  · exact .inl rfl

theorem raise_strobes (s : State) (e : Event) : Strobes s (raise e s) := by
  unfold raise
  split
  · exact setEvents_strobes s _
  · exact .of_eq rfl rfl rfl

theorem offer_strobes (s : State) (p : PortId) (f : Frame) (n : Nat) : Strobes s (offer p f n s) := by
  have hset : ∀ x : Port, Strobes s (s.setPort p x) := fun x => by cases p <;> exact .of_eq rfl rfl rfl
  unfold offer
  dsimp only
  split
  · exact (hset _).trans (raise_strobes _ _)
  · exact hset _

theorem originate_strobes (s : State) (p : Payload) : Strobes s (originate p s) := by
  have hstamp : ∀ m, Strobes s { s with model := m } := fun m => .of_eq rfl rfl rfl
  unfold originate
  split
  · dsimp only
    split
    · exact ((hstamp _).trans (offer_strobes _ _ _ _)).trans (offer_strobes _ _ _ _)
    · exact (hstamp _).trans (offer_strobes _ _ _ _)
  · exact .of_eq rfl rfl rfl

theorem partialEvaluation_strobes (s : State) : Strobes s (partialEvaluation s) := by
  obtain ⟨x, hx⟩ := partialEvaluation_eq s
  rw [hx]
  exact .of_eq rfl rfl rfl

/-- Every change of a block but the phase and the loader strobes what it shows. -/
theorem Move.strobes {b : Block} {u v : State} (h : Move b u v) (hp : b ≠ .phase) (hl : b ≠ .loadDue) : Strobes u v := by
  cases h with
  | event e _ events => exact setEvents_strobes _ _
  | events => exact setEvents_strobes _ _
  | originate _ p => exact originate_strobes _ p
  | evaluated _ x => exact Strobes.trans (v := u.setTrip x) (.of_eq rfl rfl rfl) (partialEvaluation_strobes _)
  | port _ p => cases p <;> exact .of_eq rfl rfl rfl
  | ownQueue _ p => cases p <;> exact .of_eq rfl rfl rfl
  | relayQueue _ p => cases p <;> exact .of_eq rfl rfl rfl
  | loadDue => exact absurd rfl hl
  | run => exact absurd rfl hp
  | listenOnly => exact absurd rfl hp
  | _ => exact .of_eq rfl rfl rfl

/-- What a command makes of a working station that showed a code: it works, and shows that code or has begun a pulse; or it has
lost its power or its record, and is not to work again in this step. -/
def Shows (code : Nat) (u : State) : Prop :=
  (u.live = true ∧ u.working = true ∧ (u.panel.strobeMs = some 0 ∨ u.eventCode = code)) ∨
    (u.loader.reading = false ∧ u.inReset = false ∧ (u.loader.powered = false ∨ u.phase = .configFault))

theorem Shows.not_inReset {code : Nat} {u : State} (hs : Shows code u) : u.inReset = false :=
  hs.elim (fun h => inReset_of_live h.1) fun h => h.2.1

theorem Shows.of_strobes {code : Nat} {u v : State} (hs : Shows code u) (h : Strobes u v) : Shows code v := by
  have hsame : v.live = u.live ∧ v.working = u.working ∧ v.inReset = u.inReset ∧ v.phase = u.phase := by
    unfold State.live State.working State.inReset State.phase
    rw [h.loader]
    exact ⟨rfl, rfl, rfl, rfl⟩
  obtain ⟨hlive, hworking, hreset, hphase⟩ := hsame
  unfold Shows
  rw [hlive, hworking, hreset, hphase, h.loader]
  refine hs.imp_left fun ⟨hl, hw, hcode⟩ => ⟨hl, hw, ?_⟩
  rcases h.strobe with h0 | ⟨hstrobe, hcode'⟩
  · exact .inl h0
  · rwa [hstrobe, hcode']

/-- A change of the loader, or of what is not shown, that leaves the pending set and the pulse. -/
theorem Shows.of_kept {code : Nat} {u v : State} (hs : Shows code u) (hp : v.panel = u.panel)
    (hpower : v.loader.powered = u.loader.powered) (hreset : v.inReset = u.inReset) (hr : v.loader.reading = u.loader.reading)
    (hw : u.working = true → v.working = true) (hc : u.phase = .configFault → v.phase = .configFault) : Shows code v := by
  rcases hs with ⟨hl, hw', hcode⟩ | ⟨hr', hreset', hlost⟩
  · have hl' : v.live = true := by unfold State.live at hl ⊢; rw [hpower, hreset]; exact hl
    refine .inl ⟨hl', hw hw', ?_⟩
    rw [eventCode_of_working hl' (hw hw'), hp, ← eventCode_of_working hl hw']
    exact hcode
  · exact .inr ⟨hr.trans hr', hreset.trans hreset', hlost.imp (hpower.trans ·) hc⟩

theorem Shows.change {code : Nat} {u v : State} (hs : Shows code u) (h : Change false u v) : Shows code v := by
  cases h with
  | @move _ b _ _ h =>
    by_cases hp : b = .phase
    · subst hp
      cases h with
      | run _ hlisten => exact hs.of_kept rfl rfl rfl rfl (fun _ => rfl) (fun h => by rw [hlisten] at h; cases h)
      | listenOnly _ hphase =>
        refine hs.of_kept (by rw [lostLine_eq]; simp [emptyQueues]) (by rw [lostLine_loader]) ?_ (by rw [lostLine_loader])
          (fun _ => ?_) (fun h => ?_)
        · unfold State.inReset; rw [lostLine_loader]
        · unfold State.working State.phase; rw [lostLine_loader]; rfl
        · rcases hphase with hphase | hphase <;> rw [hphase] at h <;> cases h
    · by_cases hl : b = .loadDue
      · subst hl
        cases h with
        | loadDue => exact hs.of_kept rfl rfl rfl rfl id id
      · exact hs.of_strobes (h.strobes hp hl)
  | strobe _ n hn =>
    rcases hs with ⟨hl, hw, hcode⟩ | hlost
    · exact .inl ⟨hl, hw, .inr (hcode.resolve_left hn)⟩
    · exact .inr hlost
  | powerLoss =>
    have hreset : (powerLost u).inReset = u.inReset := by simp [State.inReset, powerLost, endAttempts]
    exact .inr ⟨by simp [powerLost], hreset.trans hs.not_inReset, .inl (by simp [powerLost])⟩
  | resetEnds _ x hr => rw [hs.not_inReset] at hr; cases hr
  | buffer => exact hs.of_kept rfl rfl rfl rfl id id
  | accepted _ x hr hreading =>
    rcases hs with ⟨hl, hw, hcode⟩ | ⟨hlost, -, -⟩
    · have hl' : (recordApplied x u).live = true := hl
      refine .inl ⟨hl', rfl, ?_⟩
      rw [eventCode_of_working hl' rfl]
      rw [eventCode_of_working hl hw] at hcode
      exact hcode
    · rw [hreading] at hlost; cases hlost
  | refused _ hr =>
    refine .inr ⟨by simp [recordRefused, emptyQueues], ?_, .inr (by simp [recordRefused, emptyQueues, State.phase])⟩
    simpa [recordRefused, emptyQueues, State.inReset] using hr

/-! What the commands of the Lamp Driver make (R175, R177) -/

theorem exec_lampInputs {s : State} (hlive : s.live = true) (b : Bool) :
    (s.inputs.lampTest ≠ b → exec (.lampTestKeyChange b) s =
      .next (finish s { s with inputs := { s.inputs with lampTest := b } })) ∧
    (s.inputs.dark ≠ b → exec (.darkInputChange b) s = .next (finish s { s with inputs := { s.inputs with dark := b } })) := by
  refine ⟨fun hc => ?_, fun hc => ?_⟩
  · change execLampTestKeyChange b s = _
    exact onInput_of_live hlive (by simpa using hc)
  · change execDarkInputChange b s = _
    exact onInput_of_live hlive (by simpa using hc)

theorem exec_strobePulseEnd {s : State} (hlive : s.live = true) {n : Nat} (hn : s.panel.strobeMs = some n) :
    exec .strobePulseEnd s =
      .next (finish s (if 20 ≤ n then { s with panel := { s.panel with strobeMs := none } } else s)) := by
  change execStrobePulseEnd s = _
  rw [execStrobePulseEnd, act_of_live hlive]
  simp only [reached_iff hn, Config.strobeTime]

/-- Settles O54. That a command which changes the code begins the strobe pulse is judged change by change (`Shows`). -/
theorem lampsAndEventLines : Obligations.LampsAndEventLines := by
  unfold Obligations.LampsAndEventLines
  refine ⟨fun s => ⟨?_, fun h => ?_⟩, fun s hlive => ⟨?_, fun held hc => ?_, fun on hc => ?_, fun n hn => ?_, fun hw => ?_,
    fun c t hw h hl' hw' hcode => ?_⟩⟩
  · simp [State.strobe, and_assoc, Option.isSome_iff_ne_none]
  · unfold State.eventCode
    rcases h with h | h <;> simp [h]
  · refine ⟨_, ?_, finish_quiet s _ (fun _ => rfl) (fun _ h => h)⟩
    change execFlashClockHalf s = _
    rw [execFlashClockHalf, act_of_live hlive]
    rfl
  · exact ⟨_, (exec_lampInputs hlive held).1 hc, finish_quiet s _ (fun _ => rfl) (fun _ h => h)⟩
  · exact ⟨_, (exec_lampInputs hlive on).2 hc, finish_quiet s _ (fun _ => rfl) (fun _ h => h)⟩
  · refine ⟨_, exec_strobePulseEnd hlive hn, fun hdue => ?_, fun hearly => ?_⟩
    · rw [if_pos hdue]
      exact finish_quiet s _ (fun _ => rfl) (fun _ h => h)
    · rw [if_neg (by omega)]
      exact finish_self s
  · rw [eventCode_of_working hlive hw]
    exact highest_below s.panel.pendingEvents 16
  · obtain ⟨u, hu, hanswered⟩ := exec_answers s c
    rw [h] at hu
    injection hu with hu
    subst hu
    rcases hanswered with (⟨-, rfl⟩ | ⟨-, -, rfl⟩) | hchanges
    · cases hw'
    · cases hw'
    · have hshows : Shows s.eventCode t :=
        hchanges.keeps (P := Shows s.eventCode) (fun _ _ hc hs => hs.change hc) (.inl ⟨hlive, hw, .inr rfl⟩)
      rcases hshows with ⟨-, -, hstrobe⟩ | ⟨-, -, hlost⟩
      · exact hstrobe.resolve_right hcode
      · rcases hlost with hlost | hlost
        · simp [State.live, hlost] at hl'
        · simp [State.working, hlost, Phase.working] at hw'

end Sys2Proof.Machine
end

