-- ==== Sys2Proof/Proofs/LampPanel.lean ====
section
/-! PROOFS. Sys2Proof/Proofs/LampPanel.lean: the lamps of Table 10-1, the detail number, and the panel modes of Table 10-3. -/
set_option Elab.async false

namespace Sys2Proof.Machine

variable {s : State}

/-! One lamp of the primary image -/

/-- A lamp that is ON while a condition holds. -/
theorem LampShows.of_if {k : Nat} {c : Bool} {on : Prop} (hl : s.lampImage[k]? = some (lampIf c)) (hc : c = true ↔ on) :
    LampShows s k on False := by
  refine ⟨_, hl, ?_, ?_⟩
  · rw [← hc]; cases c <;> simp [lampIf]
  · cases c <;> simp [lampIf]

/-- A lamp that flashes while a condition holds, and is otherwise ON while another does. -/
theorem LampShows.of_flash {k : Nat} {c f : Bool} {on flash : Prop} (hl : s.lampImage[k]? = some (lampFlash f c))
    (hc : c = true ↔ on) (hf : f = true ↔ flash) : LampShows s k on flash := by
  refine ⟨_, hl, ?_, ?_⟩
  · rw [← hf, ← hc]; cases c <;> cases f <;> simp [lampFlash, lampIf]
  · rw [← hf]; cases c <;> cases f <;> simp [lampFlash, lampIf]

theorem lampImage_of_drum (hd : s.isDrum = true) : s.lampImage = s.drumImage := by
  unfold State.lampImage; rw [if_pos hd]

theorem lampImage_of_gates (hg : s.hasGates = true) : s.lampImage = s.gateImage := by
  unfold State.lampImage; rw [if_neg (by simp [not_isDrum_of_hasGates hg]), if_pos hg]

theorem phase_iff (p : Phase) : (s.phase == p) = true ↔ s.phase = p := by simp

/-- R174: lamps 16 and 17 of a drum. -/
theorem callLamp_shows {k : Nat} {on flash : TripClass} (hl : s.lampImage[k]? = some (s.callLamp on flash)) :
    LampShows s k (∃ e, s.trip.calls.head? = some e ∧ e.cls = on) (∃ e, s.trip.calls.head? = some e ∧ e.cls = flash) := by
  unfold State.callLamp at hl
  cases hcalls : s.trip.calls with
  | nil => rw [hcalls] at hl; exact ⟨_, hl, by simp, by simp⟩
  | cons e es =>
    rw [hcalls] at hl
    exact LampShows.of_flash hl (by simp) (by simp)

theorem relayDrop_iff : s.relayDrop = true ↔ s.cfg.repeater = true ∧ (s.relay.upDrop = true ∨ s.relay.downDrop = true) := by
  simp [State.relayDrop]

theorem any_stationNumbers {f : Station → Bool} : stationNumbers.any f = true ↔ ∃ n, f n = true := by
  simp [stationNumbers]

/-- The 20 lamps of a drum beside lamp 0. -/
theorem drum_shows (hd : s.isDrum = true) :
    let x := s.lastSample
    let head (c : TripClass) : Prop := ∃ e, s.trip.calls.head? = some e ∧ e.cls = c
    let entry (n : Station) : StationEntry := s.stations.entries[n]
    LampShows s 1 (s.brakeTrip = true) False ∧ LampShows s 2 (s.permit = true) False ∧
    LampShows s 3 (s.safety.causesLost = true) False ∧
    LampShows s 4 (s.tripState = .armed) (s.tripState = .suspended) ∧
    LampShows s 5 (s.tripState = .running) (s.tripState = .stopping) ∧ LampShows s 6 (s.env.warning = true) False ∧
    LampShows s 7 (x.verified = false) False ∧ LampShows s 8 (s.depth.faultMs ≠ none) False ∧
    LampShows s 9 (x.correctionOn = false) (x.modePending = true) ∧ LampShows s 10 (x.clearPending = true) False ∧
    LampShows s 11 (s.stations.holdSet ≠ 0) (∃ n, stationIn s.stations.holdSet n = true ∧ (entry n).state = .stale) ∧
    LampShows s 12 (∃ n, stationIn s.cfg.required n = true ∧ (entry n).state = .unknown) False ∧
    LampShows s 13 (s.lineDegraded = true) False ∧
    LampShows s 14 (∃ n, (entry n).state = .current ∧ ((entry n).lineDegraded = true ∨ (entry n).relayDrop = true)) False ∧
    LampShows s 15 (s.cfg.repeater = true ∧ (s.relay.upDrop = true ∨ s.relay.downDrop = true)) False ∧
    LampShows s 16 (head .persons) (head .material) ∧
    LampShows s 17 (head .ore) (head .inspection) ∧ LampShows s 18 (s.env.outside = true) False ∧
    LampShows s 19 (s.inputs.autoEnable = true) (s.autoStart = true) := by
  have himage := lampImage_of_drum hd
  refine ⟨.of_if (by rw [himage]; rfl) Iff.rfl, .of_if (by rw [himage]; rfl) Iff.rfl, .of_if (by rw [himage]; rfl) Iff.rfl,
    .of_flash (by rw [himage]; rfl) (by simp) (by simp), .of_flash (by rw [himage]; rfl) (by simp) (by simp),
    .of_if (by rw [himage]; rfl) Iff.rfl, .of_if (by rw [himage]; rfl) (by simp),
    .of_if (by rw [himage]; rfl) (encoderFaulty_iff s), .of_flash (by rw [himage]; rfl) (by simp) Iff.rfl,
    .of_if (by rw [himage]; rfl) Iff.rfl, .of_flash (by rw [himage]; rfl) (by simp) ?_,
    .of_if (by rw [himage]; rfl) ?_, .of_if (by rw [himage]; rfl) Iff.rfl, .of_if (by rw [himage]; rfl) ?_,
    .of_if (by rw [himage]; rfl) relayDrop_iff, callLamp_shows (by rw [himage]; rfl),
    callLamp_shows (by rw [himage]; rfl), .of_if (by rw [himage]; rfl) Iff.rfl,
    .of_flash (by rw [himage]; rfl) Iff.rfl Iff.rfl⟩
  · unfold State.staleHolder
    rw [any_stationNumbers]; simp
  · unfold State.anyMissing State.missing
    rw [any_stationNumbers]; simp
  · unfold State.shaftLine
    rw [any_stationNumbers]; simp

/-! A landing or loading station -/

/-- A lamp that is off. -/
theorem LampShows.of_off {k : Nat} (hl : s.lampImage[k]? = some .off) : LampShows s k False False :=
  ⟨_, hl, by simp, by simp⟩

theorem LampShows.congr {k : Nat} {on on' flash flash' : Prop} (h : LampShows s k on flash) (ho : on ↔ on')
    (hf : flash ↔ flash') : LampShows s k on' flash' := by
  obtain ⟨l, hl, h1, h2⟩ := h
  exact ⟨l, hl, by rw [h1, ho, hf], by rw [h2, hf]⟩

theorem currentRecord_iff (s : State) (w : Winder) (x : Carrying) :
    s.currentRecord w = some x ↔ s.picture.carrying[w] = some x ∧ x.current = true := by
  unfold State.currentRecord
  cases s.picture.carrying[w] with
  | none => simp
  | some r =>
    dsimp only
    split
    · rename_i hr
      simp only [Option.some.injEq]
      exact ⟨fun h => ⟨h, h ▸ hr⟩, fun h => h.1⟩
    · rename_i hr
      simp only [Option.some.injEq]
      exact ⟨nofun, fun ⟨h, hx⟩ => absurd (h ▸ hx) hr⟩

/-- R39: the landing condition holds of a CURRENT record that stands in the window with no trip in motion. -/
theorem landingCondition_iff (s : State) (w : Winder) :
    s.landingCondition w = true ↔ ∃ x, s.picture.carrying[w] = some x ∧ x.current = true ∧ x.speed.natAbs ≤ 50 ∧
      (s.cfg.level.val : Int) - s.cfg.landingHw ≤ x.depth.val ∧ x.depth.val ≤ s.cfg.level.val + s.cfg.landingHw ∧
      (x.state = .idle ∨ x.state = .suspended) := by
  have hrecord : s.landingCondition w = true ↔
      ∃ x, s.currentRecord w = some x ∧ (x.stands s.cfg.level s.cfg.landingHw && !x.inMotion) = true := by
    unfold State.landingCondition
    cases s.currentRecord w <;> simp
  have hwindow : ∀ d : Depth, (d.val : Int) ≤ s.cfg.level.val + s.cfg.landingHw ↔ d.val ≤ s.cfg.level.val + s.cfg.landingHw :=
    fun d => by omega
  rw [hrecord]
  refine exists_congr fun x => ?_
  rw [currentRecord_iff, and_assoc]
  refine and_congr_right fun _ => and_congr_right fun _ => ?_
  simp only [Carrying.stands, Carrying.inMotion, Bool.and_eq_true, Bool.not_eq_true', decide_eq_true_eq, hwindow, and_assoc]
  refine and_congr_right fun _ => and_congr_right fun _ => and_congr_right fun _ => ?_
  cases x.state <;> simp

/-- R49: the hold is acknowledged. -/
theorem holdAcknowledged_iff (s : State) : s.holdAcknowledged = true ↔ (∃ v, (s.currentRecord v).isSome = true) ∧
    ∀ v x, s.currentRecord v = some x → stationIn x.holdSet s.cfg.station = true := by
  unfold State.holdAcknowledged
  rw [Bool.and_eq_true, List.any_eq_true, List.all_eq_true]
  refine and_congr ⟨fun ⟨v, _, h⟩ => ⟨v, h⟩, fun ⟨v, h⟩ => ⟨v, mem_winders v, h⟩⟩
    ⟨fun h v x hx => ?_, fun h v _ => ?_⟩
  · have hv := h v (mem_winders v)
    rwa [hx] at hv
  · cases hx : s.currentRecord v with
    | none => rfl
    | some x => exact h v x hx

/-- The lamps of a landing or loading station below the sequencer's. -/
theorem gates_show (hg : s.hasGates = true) :
    let w := s.inputs.winderSelector
    let g := s.gate.signal.status
    let call := s.gate.calls[w].status
    let seen (p : Carrying → Prop) : Prop := ∃ x, s.picture.carrying[w] = some x ∧ x.current = true ∧ p x
    let acknowledged := (∃ v, (s.currentRecord v).isSome = true) ∧
      ∀ v x, s.currentRecord v = some x → stationIn x.holdSet s.cfg.station = true
    (∀ v : Winder, LampShows s (1 + v.val) (s.serves v = true ∧ s.gateState v = .releasable)
      (s.serves v = true ∧ (s.gateState v = .opened ∨ s.gateState v = .forced))) ∧
    LampShows s 5 (s.clearSet = s.cfg.served) False ∧
    LampShows s 6 (s.inputs.hold = true ∧ acknowledged) (s.inputs.hold = true ∧ ¬acknowledged) ∧
    LampShows s 7 (s.inputs.estop = true) False ∧ LampShows s 8 (g = .accepted) (g = .awaiting) ∧
    LampShows s 9 (g = .refused ∨ g = .expired) (g = .noReply) ∧
    LampShows s 10 (call = .listed) (call = .sent ∨ call = .notRegistered) ∧
    LampShows s 11 (s.serves w = true ∧ seen (fun x => x.speed.natAbs ≤ 50 ∧
      (s.cfg.level.val : Int) - s.cfg.landingHw ≤ x.depth.val ∧ x.depth.val ≤ s.cfg.level.val + s.cfg.landingHw ∧
      (x.state = .idle ∨ x.state = .suspended))) False ∧
    LampShows s 12 (seen (fun _ => True)) (∃ x, s.picture.carrying[w] = some x ∧ x.current = false) ∧
    LampShows s 13 (seen (fun x => x.tripped = true)) False ∧ LampShows s 14 (s.lineDegraded = true) False ∧
    LampShows s 15 (s.cfg.repeater = true ∧ (s.relay.upDrop = true ∨ s.relay.downDrop = true)) False := by
  have himage := lampImage_of_gates hg
  intro w g call seen acknowledged
  refine ⟨fun v => ?_, .of_if (by rw [himage]; rfl) (by simp), ?_, .of_if (by rw [himage]; rfl) Iff.rfl,
    .of_flash (by rw [himage]; rfl) (by simp [g]) (by simp [g]), .of_flash (by rw [himage]; rfl) (by simp [g]) (by simp [g]), ?_,
    .of_if (by rw [himage]; rfl) ?_, ?_, .of_if (by rw [himage]; rfl) ?_, .of_if (by rw [himage]; rfl) Iff.rfl,
    .of_if (by rw [himage]; rfl) relayDrop_iff⟩
  · have hlamp : s.lampImage[1 + v.val]? = some (s.gateLamp v) := by
      rw [himage]
      fin_cases v <;> rfl
    unfold State.gateLamp at hlamp
    by_cases hs : s.serves v = true
    · rw [if_pos hs] at hlamp
      exact .of_flash hlamp (by simp [hs]) (by simp [hs])
    · rw [if_neg hs] at hlamp
      exact (LampShows.of_off hlamp).congr (by simp [hs]) (by simp [hs])
  · have hlamp : s.lampImage[6]? = some s.holdLamp := by rw [himage]; rfl
    have hack : s.holdAcknowledged = true ↔ acknowledged := holdAcknowledged_iff s
    unfold State.holdLamp at hlamp
    refine ⟨_, hlamp, ?_, ?_⟩ <;> rw [← hack] <;> cases s.inputs.hold <;> cases s.holdAcknowledged <;> simp
  · have hlamp : s.lampImage[10]? = some s.callRecordLamp := by rw [himage]; rfl
    unfold State.callRecordLamp at hlamp
    refine ⟨_, hlamp, ?_, ?_⟩ <;> simp only [call] <;> cases s.gate.calls[w].status <;> simp
  · rw [Bool.and_eq_true, landingCondition_iff]
  · have hlamp : s.lampImage[12]? = some s.pictureLamp := by rw [himage]; rfl
    unfold State.pictureLamp at hlamp
    refine ⟨_, hlamp, ?_, ?_⟩
    · simp only [seen]
      cases s.picture.carrying[w] with
      | none => simp
      | some x => cases hx : x.current <;> simp [hx]
    · cases s.picture.carrying[w] with
      | none => simp
      | some x => cases hx : x.current <;> simp [hx]
  · have hany : ∀ o : Option Carrying, o.any (·.tripped) = true ↔ ∃ x, o = some x ∧ x.tripped = true := fun o => by
      cases o <;> simp
    rw [State.winderTripped, hany]
    exact exists_congr fun x => by rw [currentRecord_iff, and_assoc]

/-- Lamps 16 to 19 of a landing or loading station are the sequencer's. -/
theorem sequencerLamps_getElem (hg : s.hasGates = true) {k : Nat} (hlo : 16 ≤ k) (hhi : k < 20) :
    s.lampImage[k]? = s.sequencerLamps[k - 16]? := by
  have hlength : s.sequencerLamps.length = 4 := by
    unfold State.sequencerLamps; split <;> [rfl; (split <;> rfl)]
  rw [lampImage_of_gates hg]
  unfold State.gateImage
  rw [List.getElem?_append_left (by simp [hlength]; omega), List.getElem?_append_right (by simpa using hlo)]
  rfl

theorem not_isLoading_of_isTip (ht : s.isTip = true) : s.isLoading = false := by
  unfold State.isTip State.isLanding at ht
  unfold State.isLoading
  cases hr : s.cfg.role with
  | none => rfl
  | some r => cases r <;> simp_all

/-- Lamps 20 to 23 are the bits of the detail number. -/
theorem detail_shows (h : s.isDrum = true ∨ s.hasGates = true) (k : Fin 4) :
    LampShows s (20 + k.val) (s.detail.testBit k.val = true) False := by
  refine .of_if (c := s.detail.testBit k.val) ?_ Iff.rfl
  rcases h with hd | hg
  · rw [lampImage_of_drum hd]
    fin_cases k <;> rfl
  · have hlength : s.sequencerLamps.length = 4 := by
      unfold State.sequencerLamps; split <;> [rfl; (split <;> rfl)]
    rw [lampImage_of_gates hg]
    unfold State.gateImage
    rw [List.getElem?_append_right (by simp [hlength])]
    simp only [List.length_append, hlength, List.length_cons, List.length_nil]
    fin_cases k <;> rfl

/-- Table 10-2: the lowest winder of a set, plus 1. -/
theorem lowestWinder_eq {ws : WinderSet} {v : Winder} (hv : winderIn ws v = true)
    (hleast : ∀ u : Winder, winderIn ws u = true → v ≤ u) : lowestWinder ws = v.val + 1 := by
  have hfind : winders.find? (winderIn ws) = some v := by
    have hall : ∀ (ws : WinderSet) (v : Winder), winderIn ws v = true → (∀ u : Winder, winderIn ws u = true → v ≤ u) →
        winders.find? (winderIn ws) = some v := by decide
    exact hall ws v hv hleast
  rw [lowestWinder, hfind]

theorem detail_of_callNotRegistered (hw : s.working = true) (hd : s.isDrum = false) (hg : s.hasGates = true)
    (hcode : s.eventCode = 8) : s.detail = lowestWinder s.panel.callNotRegistered := by
  simp [State.detail, hw, hd, hg, State.gateDetail, hcode]

/-- Table 10-3: ALERT. -/
theorem alert_iff (h : s.isDrum = true ∨ s.hasGates = true) : s.alert = true ↔
    (s.isDrum = true ∧ s.safety.causes ≠ []) ∨
      (s.hasGates = true ∧ ∃ v, s.serves v = true ∧ s.gateState v = .forced) := by
  unfold State.alert
  rcases h with hd | hg
  · simp [hd, not_hasGates_of_isDrum hd]
  · simp [hg, not_isDrum_of_hasGates hg, mem_winders]

/-- Settles O55. -/
theorem lampPanel : Obligations.LampPanel := by
  unfold Obligations.LampPanel
  intro s hrole listenOnly degraded relay
  refine ⟨?_, detail_shows hrole, fun hd => ?_, fun hg => ?_, fun hdark => ?_, fun hlive hserving k l hl => ?_⟩
  · have hlamp : s.lampImage[0]? = some s.runLamp := by
      rcases hrole with hd | hg
      · rw [lampImage_of_drum hd]; rfl
      · rw [lampImage_of_gates hg]; rfl
    exact .of_flash hlamp (by simp) (by simp [listenOnly])
  · intro x head entry
    obtain ⟨h1, h2, h3, h4, h5, h6, h7, h8, h9, h10, h11, h12, h13, h14, h15, h16, h17, h18, h19⟩ := drum_shows hd
    refine ⟨h1, h2, h3, h4, h5, h6, h7, h8, h9, h10, h11, h12, h13, h14, h15, h16, h17, h18, h19,
      fun hw hcode => ⟨fun hnone => ?_, fun c hc => ?_⟩, fun hw hcode => ?_⟩
    · simp [State.detail, hw, hd, State.drumDetail, hcode, State.firstUp, hnone]
    · have hhead : s.firstUp = causeNumber c.kind := by
        unfold State.firstUp
        cases hcauses : s.safety.causes with
        | nil => simp [hcauses] at hc
        | cons e es => simp [hcauses] at hc; rw [hc]
      have hdetail : s.detail = causeNumber c.kind := by
        simp [State.detail, hw, hd, State.drumDetail, hcode, hhead]
      rw [hdetail]
      cases c.kind <;> rfl
    · have hdetail : s.detail = (s.safety.refusal.map resetRefusalOrder).getD 0 := by
        simp [State.detail, hw, hd, State.drumDetail, hcode]
      rw [hdetail]
      cases s.safety.refusal with
      | none => rfl
      | some r => cases r <;> rfl
  · intro w g call seen acknowledged
    obtain ⟨h1, h5, h6, h7, h8, h9, h10, h11, h12, h13, h14, h15⟩ := gates_show hg
    have hdrum := not_isDrum_of_hasGates hg
    refine ⟨h1, h5, h6, h7, h8, h9, h10, h11, h12, h13, h14, h15, fun hload => ?_, fun htip => ?_, fun hseq => ?_,
      fun hload htip k hlo hhi => ?_, fun hw hcode => ?_, fun hw hcode => ⟨fun hnone => ?_, fun v hv hleast => ?_⟩,
      fun hw h11 h8 => ?_⟩
    · have hlamps : ∀ k, 16 ≤ k → k < 20 → s.lampImage[k]? = _ := fun k => sequencerLamps_getElem hg
      rw [State.sequencerLamps, if_pos hload] at hlamps
      exact ⟨.of_flash (hlamps 16 (by omega) (by omega)) (by simp) (by simp),
        .of_flash (hlamps 17 (by omega) (by omega)) (by simp) (by simp),
        .of_flash (hlamps 18 (by omega) (by omega)) Iff.rfl (by simp)⟩
    · have hlamps : ∀ k, 16 ≤ k → k < 20 → s.lampImage[k]? = _ := fun k => sequencerLamps_getElem hg
      rw [State.sequencerLamps, if_neg (by simp [not_isLoading_of_isTip htip]), if_pos htip] at hlamps
      exact ⟨.of_if (hlamps 16 (by omega) (by omega)) (by simp),
        .of_flash (hlamps 17 (by omega) (by omega)) (by simp) (by simp), .of_off (hlamps 18 (by omega) (by omega))⟩
    · have hlamp : s.lampImage[19]? = some s.autoLamp := by
        rw [sequencerLamps_getElem hg (by omega) (by omega), State.sequencerLamps]
        rcases hseq with hload | htip
        · rw [if_pos hload]; rfl
        · rw [if_neg (by simp [not_isLoading_of_isTip htip]), if_pos htip]; rfl
      exact .of_flash hlamp (by simp) (by simp)
    · have hlamp := sequencerLamps_getElem hg hlo hhi
      rw [State.sequencerLamps, if_neg (by simp [hload]), if_neg (by simp [htip])] at hlamp
      refine .of_off (hlamp.trans ?_)
      interval_cases k <;> rfl
    · have hdetail : s.detail = (s.panel.refusedCause.map refusalOrder).getD 0 := by
        simp [State.detail, hw, hdrum, hg, State.gateDetail, hcode]
      rw [hdetail]
      cases s.panel.refusedCause with
      | none => rfl
      | some r => cases r <;> rfl
    · rw [detail_of_callNotRegistered hw hdrum hg hcode, hnone]
      decide
    · rw [detail_of_callNotRegistered hw hdrum hg hcode]
      exact lowestWinder_eq hv hleast
    · simp [State.detail, hw, hdrum, hg, State.gateDetail, h11, h8]
  · unfold State.lampOutputs
    rw [if_neg]
    rw [Bool.and_eq_true]
    rintro ⟨hl, hs⟩
    refine hdark ⟨hl, ?_⟩
    unfold State.serving at hs
    cases hp : s.phase <;> simp [hp, Phase.serving, listenOnly] at hs ⊢
  · have houtput : s.lampOutputs[k]? = some (lampOutput s.panelMode s.clock.flashLit l) := by
      unfold State.lampOutputs
      rw [if_pos, List.getElem?_map, hl]
      · rfl
      · rw [hlive, State.serving]
        rcases hserving with hp | hp
        · rw [hp]; rfl
        · rw [show s.phase = .listenOnly from hp]; rfl
    intro alert lit shown
    have halert : s.alert = true ↔ alert := alert_iff hrole
    have hmode : ∀ m, s.panelMode = m → ∀ p : Prop, (lampOutput m s.clock.flashLit l = true ↔ p) → shown p :=
      fun m hm p hp => ⟨_, houtput, by rw [hm]; exact hp⟩
    refine ⟨fun ha => hmode .alert (by simp [State.panelMode, halert.mpr ha]) _ ?_,
      fun ha ht => hmode .test (by simp [State.panelMode, mt halert.mp ha, ht]) _ ?_,
      fun ha ht hd => hmode .dark (by simp [State.panelMode, mt halert.mp ha, ht, hd]) _ ?_,
      fun ha ht hd => hmode .normal (by simp [State.panelMode, mt halert.mp ha, ht, hd]) _ ?_⟩
    · simp [lampOutput, lit, and_comm]
    · cases hlit : s.clock.flashLit <;> simp [lampOutput]
    · simp [lampOutput]
    · simp [lampOutput, lit, and_comm]

end Sys2Proof.Machine
end

