-- ==== Sys2Proof/Proofs/QueueRules.lean ====
section
/-! PROOFS. Sys2Proof/Proofs/QueueRules.lean: what a frame put to a transmit or a relay queue does (R16 to R18, R26 to R28): it
replaces, joins at its place, takes the place of the newest entry of greater class, or is dropped. -/
set_option Elab.async false

namespace Sys2Proof.Machine

/-- The newest of some entries is of the latest order. -/
theorem newest_latest {l : List Entry} {v : Entry} (h : newest l = some v) {x : Entry} (hx : x ∈ l) : x.order ≤ v.order := by
  induction l generalizing v with
  | nil => cases hx
  | cons e es ih =>
    unfold newest at h
    cases hn : newest es with
    | none =>
      rw [hn] at h
      cases h
      rcases List.mem_cons.mp hx with rfl | hx
      · exact le_rfl
      · obtain ⟨w, hw⟩ := exists_newest (List.ne_nil_of_mem hx)
        rw [hn] at hw
        cases hw
    | some w =>
      rw [hn] at h
      dsimp only at h
      split at h <;> cases h <;> rcases List.mem_cons.mp hx with rfl | hx
      · exact le_rfl
      · have := ih hn hx; omega
      · omega
      · exact ih hn hx

theorem removable_iff {c : Nat} {e : Entry} : Entry.removable c e = true ↔ e.sending = false ∧ c < e.effClass := by
  simp [Entry.removable]

/-- R18: a full queue gives up an entry that may be removed and that none removable is newer than. -/
theorem takeIn_gives_up {q : Queue} {same : Frame → Bool} {f : Frame} {n : Nat}
    (hsame : q.entries.any (fun e => same e.frame) = false) (hfull : 8 ≤ q.entries.length) {v : Entry} (hv : v ∈ q.entries)
    (hremovable : Entry.removable f.cls v = true) :
    ∃ w ∈ q.entries, Entry.removable f.cls w = true ∧
      (∀ x ∈ q.entries, Entry.removable f.cls x = true → x.order ≤ w.order) ∧
      q.takeIn same f n = ((q.remove w.order).join f n, true) := by
  have hmem : v ∈ q.entries.filter (Entry.removable f.cls) := List.mem_filter.mpr ⟨hv, hremovable⟩
  obtain ⟨w, hw⟩ := exists_newest (List.ne_nil_of_mem hmem)
  obtain ⟨hin, hrw⟩ := List.mem_filter.mp (newest_mem hw)
  exact ⟨w, hin, hrw, fun x hx hr => newest_latest hw (List.mem_filter.mpr ⟨hx, hr⟩), takeIn_removes q same f n hsame hfull hw⟩

/-- R18: a full queue none of whose entries may be removed drops the frame. -/
theorem takeIn_refuses {q : Queue} {same : Frame → Bool} {f : Frame} {n : Nat}
    (hsame : q.entries.any (fun e => same e.frame) = false) (hfull : 8 ≤ q.entries.length)
    (hnone : ∀ v ∈ q.entries, ¬Entry.removable f.cls v = true) : q.takeIn same f n = (q, true) :=
  takeIn_drops q same f n hsame hfull (by rw [List.filter_eq_nil_iff.mpr hnone]; rfl)

theorem remove_join_perm (q : Queue) (f : Frame) (n order : Nat) :
    ((q.remove order).join f n).entries.Perm (Entry.new f n q.nextOrder :: q.entries.filter (fun x => x.order != order)) :=
  insertEntry_perm _ _

/-- R16: an entry newer than every other stands behind those of its class or a smaller one. -/
theorem insertEntry_split {e : Entry} {l : List Entry} (h : ∀ x ∈ l, x.order < e.order) :
    insertEntry e l = l.takeWhile (fun x => decide (x.effClass ≤ e.effClass)) ++
      e :: l.dropWhile (fun x => decide (x.effClass ≤ e.effClass)) := by
  induction l with
  | nil => rfl
  | cons x xs ih =>
    have hx := h x (List.mem_cons_self ..)
    by_cases hc : x.effClass ≤ e.effClass
    · have hb : ¬e.before x = true := by rw [Entry.before_iff]; omega
      rw [insertEntry, if_neg hb, ih fun y hy => h y (List.mem_cons_of_mem _ hy), List.takeWhile_cons_of_pos (by simpa using hc),
        List.dropWhile_cons_of_pos (by simpa using hc), List.cons_append]
    · have hb : e.before x = true := by rw [Entry.before_iff]; omega
      rw [insertEntry, if_pos hb, List.takeWhile_cons_of_neg (by simpa using hc),
        List.dropWhile_cons_of_neg (by simpa using hc), List.nil_append]

/-- R16: in a queue in order every entry from the first of a greater class on has a greater class. -/
theorem lt_of_mem_dropWhile {c : Nat} {l : List Entry} (h : l.Pairwise (fun x y => x.before y = true)) {x : Entry}
    (hx : x ∈ l.dropWhile (fun y => decide (y.effClass ≤ c))) : c < x.effClass := by
  induction l with
  | nil => cases hx
  | cons y ys ih =>
    obtain ⟨hy, hys⟩ := List.pairwise_cons.mp h
    by_cases hc : y.effClass ≤ c
    · rw [List.dropWhile_cons_of_pos (by simpa using hc)] at hx
      exact ih hys hx
    · rw [List.dropWhile_cons_of_neg (by simpa using hc)] at hx
      rcases List.mem_cons.mp hx with rfl | hx
      · omega
      · have := (Entry.before_iff y x).mp (hy x hx)
        omega

theorem take_length_takeWhile {α : Type} (p : α → Bool) (l : List α) : l.take (l.takeWhile p).length = l.takeWhile p :=
  (List.prefix_iff_eq_take.mp (List.takeWhile_prefix p)).symm

theorem drop_length_takeWhile {α : Type} (p : α → Bool) (l : List α) : l.drop (l.takeWhile p).length = l.dropWhile p := by
  have h := List.drop_left' (l₁ := l.takeWhile p) (l₂ := l.dropWhile p) rfl
  rwa [List.takeWhile_append_dropWhile] at h

/-- R16: a frame joins a queue in order behind every entry of its class or a smaller one, before every one of a greater. -/
theorem join_split {same : Frame → Frame → Bool} {q : Queue} (h : QueueInv same q) (f : Frame) (n : Nat) :
    let k := (q.entries.takeWhile (fun x => decide (x.effClass ≤ f.cls))).length
    q.join f n =
        { entries := q.entries.take k ++ Entry.new f n q.nextOrder :: q.entries.drop k, nextOrder := q.nextOrder + 1 } ∧
      (∀ x ∈ q.entries.take k, x.effClass ≤ f.cls) ∧ ∀ x ∈ q.entries.drop k, f.cls < x.effClass := by
  dsimp only
  rw [take_length_takeWhile, drop_length_takeWhile]
  refine ⟨?_, fun x hx => by simpa using List.mem_takeWhile_imp hx, fun x hx => lt_of_mem_dropWhile h.ordered hx⟩
  unfold Queue.join
  rw [insertEntry_split (e := Entry.new f n q.nextOrder) h.fresh]
  rfl

/-- R16: an offer puts the frame to the transmit queue of its port. -/
theorem offer_port (s : State) (p : PortId) (f : Frame) (n : Nat) :
    (offer p f n s).port p = { s.port p with tx := ((s.port p).tx.takeIn (sameReport f) f n).1 } := by
  unfold offer
  dsimp only
  split
  · cases p <;> simp [State.port, State.setPort]
  · exact setPort_port s p _

/-- R18: a loss raises TX OVERFLOW. -/
theorem offer_overflows {s : State} {p : PortId} {f : Frame} {n : Nat} (hw : s.working = true)
    (hlost : ((s.port p).tx.takeIn (sameReport f) f n).2 = true) : (offer p f n s).isPending .txOverflow = true := by
  unfold offer
  dsimp only
  rw [if_pos hlost]
  refine isPending_raise_self _ _ ?_
  cases p <;> exact hw

/-- Settles O18. The cases of a frame put to a queue are those of `Queue.takeIn`: a replacement, a queue with room, an entry that
may be removed, and none. -/
theorem fullTransmitQueue : Obligations.FullTransmitQueue := by
  unfold Obligations.FullTransmitQueue
  refine ⟨fun q f n hlen hnodup hnone => ?_, fun s p f n => offer_port s p f n, sameReport_iff, fun f g => ⟨fun h => ?_, ?_, ?_⟩,
    fun q f n same hsame => ⟨?_, fun hinv hnone hroom => ?_⟩⟩
  · have hsame : q.entries.any (fun e => sameReport f e.frame) = false := by simpa using hnone
    by_cases hremovable : ∃ v ∈ q.entries, Entry.removable f.cls v = true
    · obtain ⟨v, hv, hr⟩ := hremovable
      obtain ⟨w, hw, hrw, hlatest, htake⟩ := takeIn_gives_up (n := n) hsame hlen.ge hv hr
      rw [htake]
      refine ⟨fun x hx hstill hcls hnewest => ?_, fun h => ?_, fun x hx hsending => ?_, fun s p hworking hq => ⟨?_, ?_⟩⟩
      · obtain ⟨hws, hwc⟩ := removable_iff.mp hrw
        have horder : w.order = x.order := le_antisymm (hnewest w hw hws hwc) (hlatest x hx (removable_iff.mpr ⟨hstill, hcls⟩))
        rw [horder]
        exact remove_join_perm q f n x.order
      · obtain ⟨hs, hc⟩ := removable_iff.mp hr
        rcases h v hv with h | h
        · rw [hs] at h; cases h
        · omega
      · refine (remove_join_perm q f n w.order).mem_iff.mpr (List.mem_cons_of_mem _ (List.mem_filter.mpr ⟨hx, ?_⟩))
        have hne : x ≠ w := fun heq => by rw [heq, (removable_iff.mp hrw).1] at hsending; cases hsending
        simpa using fun heq => hne (List.inj_on_of_nodup_map hnodup hx hw heq)
      · rw [offer_port, hq, htake]
      · exact offer_overflows hworking (by rw [hq, htake])
    · push Not at hremovable
      have htake : q.takeIn (sameReport f) f n = (q, true) := takeIn_refuses hsame hlen.ge hremovable
      rw [htake]
      refine ⟨fun x hx hstill hcls _ => absurd (removable_iff.mpr ⟨hstill, hcls⟩) (hremovable x hx), fun _ => rfl,
        fun x hx _ => hx, fun s p hworking hq => ⟨by rw [offer_port, hq, htake], ?_⟩⟩
      exact offer_overflows hworking (by rw [hq, htake])
  · rcases (sameRelayed_iff f g).mp h with ⟨r, r', hf, hg, _⟩ | ⟨r, r', hf, hg, _⟩ <;> simp [Frame.kind, hf, hg, Payload.kind]
  · intro hf hg
    unfold Frame.kind at hf hg
    unfold sameRelayed
    cases hpf : f.payload <;> rw [hpf] at hf <;> cases hf
    cases hpg : g.payload <;> rw [hpg] at hg <;> cases hg
    simp
  · intro r r' hf hg
    simp [sameRelayed, hf, hg]
  · rintro ⟨e, he, hs⟩
    exact takeIn_replaces q (same f) f n (List.any_eq_true.mpr ⟨e, he, hs⟩)
  · have hany : q.entries.any (fun e => same f e.frame) = false := by simpa using hnone
    obtain ⟨hjoin, hbelow, habove⟩ := join_split hinv f n
    exact ⟨by rw [takeIn_joins q (same f) f n hany hroom, hjoin]; rfl, hbelow, habove⟩

end Sys2Proof.Machine
end

