-- ==== Sys2Proof/Proofs/FrameCodec.lean ====
section
/-! PROOFS. Sys2Proof/Proofs/FrameCodec.lean: a character and a frame are read back as they were sent (R1 to R3, R9 to R12). Each
field's reading is the inverse of its writing; a frame's fields are found at their places. -/
set_option Elab.async false

namespace Sys2Proof

open Machine

/-! Numbers in bytes, and flags in numbers -/

theorem natOf_append (a b : List Byte) : natOf (a ++ b) = natOf a * 256 ^ b.length + natOf b := by
  induction b using List.reverseRecOn with
  | nil => simp [natOf]
  | append_singleton l x ih =>
    have h : ∀ c : List Byte, natOf (c ++ [x]) = natOf c * 256 + x.toNat := fun c => by simp [natOf]
    rw [← List.append_assoc, h, h, ih]
    simp only [List.length_append, List.length_singleton, pow_succ]
    ring

@[simp] theorem bytesOf_length (n v : Nat) : (bytesOf n v).length = n := by
  induction n with
  | zero => rfl
  | succ n ih => simp [bytesOf, ih]

/-- The bytes of a number spell it. -/
theorem natOf_bytesOf (n v : Nat) : natOf (bytesOf n v) = v % 256 ^ n := by
  induction n with
  | zero => simp [bytesOf, natOf, Nat.mod_one]
  | succ n ih =>
    have hcons : bytesOf (n + 1) v = [BitVec.ofNat 8 (v / 256 ^ n)] ++ bytesOf n v := rfl
    have hbyte : natOf [BitVec.ofNat 8 (v / 256 ^ n)] = v / 256 ^ n % 256 := by simp [natOf]
    rw [hcons, natOf_append, hbyte, bytesOf_length, ih, pow_succ, Nat.mod_mul, mul_comm, add_comm]

/-- The field at the front. -/
@[simp] theorem field_front (n v : Nat) (l : List Byte) : field (bytesOf n v ++ l) 0 n = v % 256 ^ n := by
  unfold field
  rw [List.drop_zero, List.take_left' (bytesOf_length n v), natOf_bytesOf]

@[simp] theorem field_alone (n v : Nat) : field (bytesOf n v) 0 n = v % 256 ^ n := by
  simpa using field_front n v []

/-- A field behind another. -/
@[simp] theorem field_behind {m i : Nat} (n v : Nat) (l : List Byte) (h : m ≤ i) :
    field (bytesOf m v ++ l) i n = field l (i - m) n := by
  unfold field
  rw [List.drop_append, List.drop_of_length_le (by simpa using h), bytesOf_length, List.nil_append]

/-! Each field's value from its code (Table 1-3) -/

@[simp] theorem winderOf_val (w : Winder) : winderOf (w.val % 256) = some w := by
  have hw := w.isLt
  rw [Nat.mod_eq_of_lt (by omega)]
  simp [winderOf]

@[simp] theorem stationOf_val (n : Station) : stationOf (n.val % 256) = some n := by
  have hn := n.isLt
  rw [Nat.mod_eq_of_lt (by omega)]
  simp [stationOf]

@[simp] theorem optStationOf_code (n : Option Station) : optStationOf (optStationCode n % 256) = some n := by
  cases n with
  | none => rfl
  | some n =>
    have hn := n.isLt
    have hne : n.val % 256 ≠ 255 := by omega
    simp only [optStationOf, optStationCode, if_neg hne, stationOf_val, Option.map_some]

@[simp] theorem winderSetOf_toNat (ws : WinderSet) : winderSetOf (ws.toNat % 256) = some ws := by
  have hw := ws.isLt
  rw [Nat.mod_eq_of_lt (by omega)]
  simp [winderSetOf, hw]

@[simp] theorem depthOf_val (d : Depth) : depthOf (d.val % 16777216) = some d := by
  have hd := d.isLt
  rw [Nat.mod_eq_of_lt (by omega)]
  simp [depthOf]

@[simp] theorem vPermOf_val (v : VPerm) : vPermOf (v.val % 65536) = some v := by
  have hv := v.isLt
  rw [Nat.mod_eq_of_lt (by omega)]
  simp [vPermOf]

theorem speedOf_code {v : Int} (hlo : -32767 ≤ v) (hhi : v ≤ 32767) : speedOf (speedCode v % 65536) = some v := by
  have hcode : (speedCode v : Int) = v % 65536 := by
    unfold speedCode
    rw [BitVec.toNat_ofInt]
    omega
  unfold speedOf
  split
  · congr 1; omega
  · split
    · omega
    · congr 1; omega

@[simp] theorem ofNat_toNat_mod {n m : Nat} (x : BitVec n) (h : 2 ^ n ≤ m) : BitVec.ofNat n (x.toNat % m) = x := by
  rw [Nat.mod_eq_of_lt (by have := x.isLt; omega), BitVec.ofNat_toNat, BitVec.setWidth_eq]

@[simp] theorem tripClassOf_code (c : TripClass) : tripClassOf (tripClassCode c % 256) = some c := by cases c <;> rfl

@[simp] theorem tripStateOf_code (t : TripState) : tripStateOf (tripStateCode t % 256) = some t := by cases t <;> rfl

@[simp] theorem windingStateOf_code (t : WindingState) : windingStateOf (windingStateCode t % 256) = some t := by
  cases t with
  | refusal => rfl
  | trip t => cases t <;> rfl

@[simp] theorem outcomeOf_code (o : WindingOutcome) : outcomeOf (outcomeCode o % 256) = some o := by
  cases o with
  | none => rfl
  | result r => cases r <;> rfl
  | refusal c => cases c <;> rfl

@[simp] theorem haltReasonOf_code (r : HaltReason) : haltReasonOf (haltReasonCode r % 256) = some r := by cases r <;> rfl

@[simp] theorem callWordOf_code (w : CallWord) : callWordOf (callWordCode w % 256) = some w := by cases w <;> rfl

@[simp] theorem classAutoOf_code (c : TripClass) (auto : Bool) :
    classAutoOf ((tripClassCode c + 128 * bit auto) % 256) = some (c, auto) := by
  cases auto <;> cases c <;> rfl

@[simp] theorem wordAutoOf_code (w : SignalWord) (auto : Bool) :
    wordAutoOf ((signalWordCode w + 128 * bit auto) % 256) = some (w, auto) := by
  cases auto <;> cases w <;> rfl

/-- The status byte of an ASSENT holds its four flags, its spare bits 0. -/
theorem assentFlags : ∀ a b c d : Bool, let n := (bit a + 2 * bit b + 4 * bit c + 8 * bit d) % 256
    n < 16 ∧ n.testBit 0 = a ∧ n.testBit 1 = b ∧ n.testBit 2 = c ∧ n.testBit 3 = d := by decide

/-- The flag byte of a POSITION holds its six flags, its spare bits 0. -/
theorem positionFlags : ∀ a b c d e f : Bool,
    let n := (bit a + 2 * bit b + 4 * bit c + 8 * bit d + 16 * bit e + 32 * bit f) % 256
    n < 64 ∧ n.testBit 0 = a ∧ n.testBit 1 = b ∧ n.testBit 2 = c ∧ n.testBit 3 = d ∧ n.testBit 4 = e ∧ n.testBit 5 = f := by
  decide

/-! Payloads and frames -/

theorem windingOf_encode (r : WindingReport) : windingOf (Payload.winding r).encode = some r := by
  simp [windingOf, Payload.encode]

theorem positionOf_encode {r : PositionReport} (h : r.wellFormed = true) :
    positionOf (Payload.position r).encode = some r := by
  obtain ⟨hlo, hhi⟩ : -32767 ≤ r.speed ∧ r.speed ≤ 32767 := by simpa [PositionReport.wellFormed] using h
  obtain ⟨hlt, h0, h1, h2, h3, h4, h5⟩ := positionFlags r.skip r.verified r.correctionOn r.clamped r.moving r.tripped
  simp [positionOf, Payload.encode, speedOf_code hlo hhi, hlt, h0, h1, h2, h3, h4, h5]

theorem assentOf_encode (r : AssentReport) : assentOf (Payload.assent r).encode = some r := by
  obtain ⟨hlt, h0, h1, h2, h3⟩ := assentFlags r.hold r.estop r.lineDegraded r.relayDrop
  simp [assentOf, Payload.encode, hlt, h0, h1, h2, h3]

/-- R12: the payload a well-formed payload's bytes spell is that payload. -/
theorem Payload.parse_encode {p : Payload} (h : p.wellFormed = true) : Payload.parse p.kind p.encode = some p := by
  cases p with
  | winding r => simp only [Payload.kind, Payload.parse, windingOf_encode, Option.map_some]
  | position r => simp only [Payload.kind, Payload.parse, positionOf_encode h, Option.map_some]
  | assent r => simp only [Payload.kind, Payload.parse, assentOf_encode, Option.map_some]
  | announce body seg dig =>
    cases body <;> simp [Payload.kind, Payload.parse, Payload.encode, announceBodyOf]
  | halt => simp [Payload.kind, Payload.parse, Payload.encode]
  | signal => simp [Payload.kind, Payload.parse, Payload.encode]
  | mark => simp [Payload.kind, Payload.parse, Payload.encode]
  | call => simp [Payload.kind, Payload.parse, Payload.encode]

theorem Payload.encode_length (p : Payload) : p.encode.length = p.kind.payloadLength := by
  cases p with
  | announce body seg dig => cases body <;> simp [Payload.encode, Payload.kind, Kind.payloadLength]
  | _ => simp [Payload.encode, Payload.kind, Kind.payloadLength]

theorem Kind.ofCode_code (k : Kind) : Kind.ofCode k.code = k := by cases k <;> rfl

theorem Kind.code_lt (k : Kind) : k.code < 8 := by cases k <;> decide

theorem Frame.body_length (f : Frame) : f.body.length = f.kind.payloadLength + 2 := by
  simp [Frame.body, Frame.heading, Payload.encode_length, Frame.kind]
  omega

theorem Frame.body_tail (f : Frame) : f.body.drop 2 = f.payload.encode := by
  unfold Frame.body
  exact List.drop_left' (by simp [Frame.heading])

/-- R9, R12: the frame that the bytes of a well-formed frame spell is that frame. -/
theorem Frame.parse_body {f : Frame} (h : f.wellFormed = true) : Frame.parse f.body = some f := by
  have hhop := f.hop.isLt
  have hcode := f.kind.code_lt
  have hchar0 : field f.body 0 1 = f.kind.code + 8 * f.hop.val := by
    simp [Frame.body, Frame.heading]
    omega
  have hchar1 : stationOf (field f.body 1 1) = some f.origin := by simp [Frame.body, Frame.heading]
  have hkind : Kind.ofCode ((f.kind.code + 8 * f.hop.val) % 8) = f.payload.kind := by
    rw [show (f.kind.code + 8 * f.hop.val) % 8 = f.kind.code by omega, Kind.ofCode_code]
    rfl
  have hhop' : (f.kind.code + 8 * f.hop.val) / 8 = f.hop.val := by omega
  unfold Frame.parse
  simp only [hchar0, hchar1, hkind, f.body_tail, Payload.parse_encode h, Option.bind_eq_bind, Option.bind_some, hhop', hhop,
    dite_true]

theorem Frame.chars_length (f : Frame) : f.chars.length = f.kind.frameLength := by
  simp [Frame.chars, checkChars, Frame.body_length, Kind.frameLength]

/-- R10: the check characters are the last two. -/
theorem Frame.chars_body (f : Frame) : f.chars.take (f.chars.length - 2) = f.body := by
  have hlen : f.chars.length - 2 = f.body.length := by simp [Frame.chars, checkChars]
  rw [hlen]
  exact List.take_left' rfl

theorem Frame.crcAgrees_chars (f : Frame) : crcAgrees f.chars = true := by
  have hlen : f.chars.length - 2 = f.body.length := by simp [Frame.chars, checkChars]
  have hcheck : f.chars.drop (f.chars.length - 2) = checkChars f.body := by
    rw [hlen]
    exact List.drop_left' rfl
  unfold crcAgrees
  rw [f.chars_body, hcheck, beq_self_eq_true]

/-! Characters (R1 to R3) -/

theorem readBit_steady (b : Bool) : readBit (steady b) = b := by cases b <;> rfl

theorem charBits_eq (b : Byte) (mark : Bool) :
    charBits b mark = [false, b[0], b[1], b[2], b[3], b[4], b[5], b[6], b[7], mark, parityBit b mark, true] := rfl

/-- R2: over an undisturbed line each bit is read as it was sent. -/
theorem readBit_cleanReading (b : Byte) (mark : Bool) {i : Nat} (hi : i < 12) :
    readBit (cleanReading b mark)[i] = (charBits b mark).getD i true := by
  unfold cleanReading
  rw [Vector.getElem_ofFn, readBit_steady]

theorem bit_add (b : Bool) (n : Nat) : bit b + 2 * n = Nat.bit b n := by
  cases b <;> simp [bit, Nat.bit, add_comm]

/-- A byte is the number of its bits, D0 least significant. -/
theorem byte_of_bits (b : Byte) : BitVec.ofNat 8 (bit b[0] + 2 * bit b[1] + 4 * bit b[2] + 8 * bit b[3] + 16 * bit b[4] +
    32 * bit b[5] + 64 * bit b[6] + 128 * bit b[7]) = b := by
  have hsum : bit b[0] + 2 * bit b[1] + 4 * bit b[2] + 8 * bit b[3] + 16 * bit b[4] + 32 * bit b[5] + 64 * bit b[6] +
      128 * bit b[7] = Nat.bit b[0] (Nat.bit b[1] (Nat.bit b[2] (Nat.bit b[3] (Nat.bit b[4] (Nat.bit b[5] (Nat.bit b[6]
        (Nat.bit b[7] 0))))))) := by
    simp only [← bit_add]
    ring
  rw [hsum]
  ext i hi
  rw [← BitVec.getLsbD_eq_getElem, BitVec.getLsbD_ofNat]
  interval_cases i <;> simp [Nat.testBit_bit_succ, Nat.testBit_bit_zero]

theorem readByte_cleanReading (b : Byte) (mark : Bool) : readByte (cleanReading b mark) = b := by
  unfold readByte
  simp only [readBit_cleanReading, Nat.reduceLT, charBits_eq]
  exact byte_of_bits b

/-- Bits with their parity bit hold an even number of ones. -/
theorem parity_even (m : Bool) (l : List Bool) : ((l ++ [m, l.foldl xor m]).filter id).length % 2 = 0 := by
  induction l generalizing m with
  | nil => cases m <;> rfl
  | cons x xs ih =>
    have h := ih (xor m x)
    rw [List.foldl_cons]
    generalize xs.foldl xor (xor m x) = parity at h ⊢
    cases m <;> cases x <;> cases parity <;> simp at h ⊢ <;> omega

end Sys2Proof

namespace Sys2Proof.Machine

theorem readChar_cleanReading (b : Byte) (mark : Bool) : readChar (cleanReading b mark) = .good b mark := by
  unfold readChar
  simp [readByte_cleanReading, readBit_cleanReading, charBits_eq]

/-- Settles O11. -/
theorem charactersAndFramesRoundTrip : Obligations.CharactersAndFramesRoundTrip := by
  unfold Obligations.CharactersAndFramesRoundTrip
  refine ⟨fun b mark => ⟨readChar_cleanReading b mark, parityBit b mark, charBits_eq b mark, ?_⟩,
    fun f hf => ⟨f.chars_length, f.crcAgrees_chars, Frame.parse_body hf⟩⟩
  · exact parity_even mark [b[0], b[1], b[2], b[3], b[4], b[5], b[6], b[7]]

end Sys2Proof.Machine
end

