-- ==== Sys2Proof/Proofs/LineRules.lean ====
section
/-! PROOFS. Sys2Proof/Proofs/LineRules.lean: the bit times of a line, the candidate and its attempt (R3 to R8), and the frame
assembly (R11, R12). -/
set_option Elab.async false

namespace Sys2Proof.Machine

/-! What changes on the line alone -/

/-- `t` is `s` in everything but the ports, the relay queues and the event lines. -/
def OnTheLine (s t : State) : Prop :=
  ∃ (a b : Port) (r : Relay) (n : Panel), t = { s with portA := a, portB := b, relay := r, panel := n } ∧
    r.upDrop = s.relay.upDrop ∧ r.downDrop = s.relay.downDrop

section
variable {s t u : State}

theorem OnTheLine.refl (s : State) : OnTheLine s s := ⟨_, _, _, _, rfl, rfl, rfl⟩

theorem OnTheLine.trans (h : OnTheLine s t) (h' : OnTheLine t u) : OnTheLine s u := by
  obtain ⟨a, b, r, n, rfl, hu, hd⟩ := h
  obtain ⟨a', b', r', n', rfl, hu', hd'⟩ := h'
  exact ⟨a', b', r', n', rfl, hu'.trans hu, hd'.trans hd⟩

theorem setPort_onTheLine (s : State) (p : PortId) (x : Port) : OnTheLine s (s.setPort p x) := by
  cases p <;> exact ⟨_, _, _, _, rfl, rfl, rfl⟩

theorem setRelayQueue_onTheLine (s : State) (p : PortId) (q : Queue) : OnTheLine s (s.setRelayQueue p q) := by
  cases p <;> exact ⟨_, _, _, _, rfl, rfl, rfl⟩

theorem changeQueue_onTheLine (s : State) (p : PortId) (relayed : Bool) (f : Queue → Queue) :
    OnTheLine s (changeQueue p relayed f s) := by
  cases relayed
  · exact setPort_onTheLine s p _
  · exact setRelayQueue_onTheLine s p _

theorem raise_onTheLine (s : State) (e : Event) : OnTheLine s (raise e s) := by
  rw [raise_same s e]
  exact ⟨_, _, _, _, rfl, rfl, rfl⟩

theorem countError_onTheLine (s : State) (p : PortId) : OnTheLine s (countError p s) := by
  unfold countError
  dsimp only
  split
  · exact (setPort_onTheLine s p _).trans (raise_onTheLine _ _)
  · exact setPort_onTheLine s p _

theorem deferCandidate_onTheLine (s : State) (p : PortId) : OnTheLine s (deferCandidate p s) := by
  unfold deferCandidate
  split
  · exact changeQueue_onTheLine s p _ _
  · exact .refl s

theorem lineBusy_onTheLine (s : State) (p : PortId) : OnTheLine s (lineBusy p s) := by
  unfold lineBusy
  dsimp only
  split
  · exact (deferCandidate_onTheLine s p).trans (setPort_onTheLine _ p _)
  · exact setPort_onTheLine s p _

/-- What the line leaves of the station. -/
theorem OnTheLine.loader (h : OnTheLine s t) : t.loader = s.loader := by obtain ⟨a, b, r, n, rfl, -, -⟩ := h; rfl

theorem OnTheLine.cfg (h : OnTheLine s t) : t.cfg = s.cfg := by obtain ⟨a, b, r, n, rfl, -, -⟩ := h; rfl

theorem OnTheLine.seq (h : OnTheLine s t) : t.seq = s.seq := by obtain ⟨a, b, r, n, rfl, -, -⟩ := h; rfl

theorem OnTheLine.inputs (h : OnTheLine s t) : t.inputs = s.inputs := by obtain ⟨a, b, r, n, rfl, -, -⟩ := h; rfl

theorem OnTheLine.model (h : OnTheLine s t) : t.model = s.model := by obtain ⟨a, b, r, n, rfl, -, -⟩ := h; rfl

theorem OnTheLine.phase (h : OnTheLine s t) : t.phase = s.phase := by unfold State.phase; rw [h.loader]

theorem OnTheLine.live (h : OnTheLine s t) : t.live = s.live := by unfold State.live State.inReset; rw [h.loader]

theorem OnTheLine.uses (h : OnTheLine s t) (p : PortId) : t.uses p = s.uses p := by
  unfold State.uses State.working State.phase; rw [h.loader, h.cfg]

/-- R135: while the line quality stands, so do the ASSENT contents. -/
theorem OnTheLine.assentContents (h : OnTheLine s t) (hl : t.lineDegraded = s.lineDegraded) :
    t.assentContents = s.assentContents := by
  have hdrop : t.relayDrop = s.relayDrop := by
    obtain ⟨a, b, r, n, rfl, hu, hd⟩ := h
    simp only [State.relayDrop, hu, hd]
  obtain ⟨a, b, r, n, rfl, -, -⟩ := h
  unfold State.assentContents
  rw [hl, hdrop]
  rfl

theorem OnTheLine.shaftLine (h : OnTheLine s t) : t.shaftLine = s.shaftLine := by
  obtain ⟨a, b, r, n, rfl, -, -⟩ := h
  rfl

/-- A step whose command changes the line alone, and not its quality, ends quietly. -/
theorem OnTheLine.quiet (h : OnTheLine s t) (hl : t.lineDegraded = s.lineDegraded) : Quiet t (finish s t) :=
  finish_quiet s t (fun _ => (h.assentContents hl).symm) fun _ hs => h.shaftLine ▸ hs

/-- A step taken on a state that differs on the line alone, and not in its quality, ends alike. -/
theorem OnTheLine.finish_eq (h : OnTheLine s t) (hl : t.lineDegraded = s.lineDegraded) (e : State) : finish s e = finish t e := by
  unfold finish assentOnChange shaftLineOnChange
  rw [h.assentContents hl, h.shaftLine, h.phase]

/-- The line quality follows the buckets. -/
theorem lineDegraded_congr (hcfg : t.cfg = s.cfg) (h : ∀ p, (t.port p).buckets = (s.port p).buckets) :
    t.lineDegraded = s.lineDegraded := by
  have ha : t.portA.buckets = s.portA.buckets := h .a
  have hb : t.portB.buckets = s.portB.buckets := h .b
  unfold State.lineDegraded Port.degraded Port.windowSum
  rw [ha, hb, hcfg]

theorem setPort_buckets (s : State) (p : PortId) {x : Port} (h : x.buckets = (s.port p).buckets) (q : PortId) :
    ((s.setPort p x).port q).buckets = (s.port q).buckets := by
  cases p <;> cases q
  · exact h
  · rfl
  · rfl
  · exact h

end

section
variable (s : State) (p : PortId)

@[simp] theorem setPort_self : s.setPort p (s.port p) = s := by cases p <;> rfl

/-- What the end of a step leaves of a port. -/
theorem Agrees.port {e t : State} (h : Agrees e t) : t.port p = { e.port p with tx := (t.port p).tx } := by
  cases p
  · exact h.portA
  · exact h.portB

theorem Quiet.port {e t : State} (h : Quiet e t) : t.port p = e.port p := by
  cases p
  · exact h.portA'
  · exact h.portB'

theorem Quiet.queueOf {e t : State} (h : Quiet e t) (relayed : Bool) : t.queueOf p relayed = e.queueOf p relayed := by
  unfold State.queueOf
  rw [h.port, relayQueue_congr h.relay]

theorem changeQueue_port (relayed : Bool) (f : Queue → Queue) : (changeQueue p relayed f s).port p =
    { s.port p with tx := if relayed then (s.port p).tx else f (s.port p).tx } := by
  cases relayed <;> cases p <;> rfl

theorem changeQueue_queueOf (relayed : Bool) (f : Queue → Queue) :
    (changeQueue p relayed f s).queueOf p relayed = f (s.queueOf p relayed) := by
  cases relayed <;> cases p <;> rfl

theorem changeQueue_buckets (relayed : Bool) (f : Queue → Queue) (q : PortId) :
    ((changeQueue p relayed f s).port q).buckets = (s.port q).buckets := by
  cases relayed
  · exact setPort_buckets s p (by rfl) q
  · cases p <;> cases q <;> rfl

theorem setPort_queueOf {x : Port} (h : x.tx = (s.port p).tx) (relayed : Bool) :
    (s.setPort p x).queueOf p relayed = s.queueOf p relayed := by
  cases relayed <;> cases p
  · exact h
  · exact h
  · rfl
  · rfl

/-! A dominant level (R4, R6) -/

/-- R6: the candidate of an IDLE line is deferred, unless the port itself is sending. -/
def deferred : State := if (s.port p).line = .idle ∧ (s.port p).attempt = none then deferCandidate p s else s

theorem lineBusy_eq : lineBusy p s = (deferred s p).setPort p ((deferred s p).port p).dominant := rfl

/-- R6: a deferral changes a port in its queue alone. -/
theorem deferred_port : ∃ q, (deferred s p).port p = { s.port p with tx := q } := by
  unfold deferred deferCandidate
  split
  · split
    · exact ⟨_, changeQueue_port s p _ _⟩
    · exact ⟨_, rfl⟩
  · exact ⟨_, rfl⟩

theorem deferred_buckets (q : PortId) : ((deferred s p).port q).buckets = (s.port q).buckets := by
  unfold deferred deferCandidate
  split
  · split
    · exact changeQueue_buckets s p _ _ q
    · rfl
  · rfl

theorem lineBusy_port_eq : ∃ q, (lineBusy p s).port p = { s.port p with line := .busy, recessive := 0, tx := q } := by
  obtain ⟨q, hq⟩ := deferred_port s p
  exact ⟨q, by rw [lineBusy_eq, setPort_port, hq]; rfl⟩

theorem lineBusy_lineDegraded : (lineBusy p s).lineDegraded = s.lineDegraded := by
  refine lineDegraded_congr (lineBusy_onTheLine s p).cfg fun q => ?_
  rw [lineBusy_eq, setPort_buckets _ p (by rfl) q, deferred_buckets]

/-- R5: the candidate is the first of its queue. -/
theorem candidate_head {relayed : Bool} {e : Entry} (h : s.candidate p = some (relayed, e)) :
    (s.queueOf p relayed).head = some e := by
  unfold State.candidate at h
  cases ht : (s.port p).tx.head <;> cases hr : (s.relayQueue p).head <;> simp only [ht, hr] at h
  · cases h
  · cases h; exact hr
  · cases h; exact ht
  · split at h <;> cases h
    · exact hr
    · exact ht

/-- R6: the first entry of a queue is deferred to its new place, and every entry of another order stands. -/
theorem defer_head {q : Queue} {e : Entry} (h : q.head = some e) :
    e.defer ∈ (q.defer e.order).entries ∧ ∀ x ∈ q.entries, x.order ≠ e.order → x ∈ (q.defer e.order).entries := by
  have hfind : q.entries.find? (fun x => x.order == e.order) = some e := by
    obtain ⟨l, hl⟩ := List.head?_eq_some_iff.mp h
    rw [hl, List.find?_cons_of_pos (by simp)]
  unfold Queue.defer
  rw [hfind]
  refine ⟨mem_insertEntry.mpr (.inl rfl), fun x hx hne => mem_insertEntry.mpr (.inr (List.mem_filter.mpr ⟨hx, ?_⟩))⟩
  simpa using hne

theorem Entry.defer_eq (e : Entry) : e.defer =
    { e with
        deferrals := if e.deferrals + 1 < 8 then e.deferrals + 1 else 0
        effClass := if e.deferrals + 1 < 8 ∨ e.effClass ≤ 1 then e.effClass else e.effClass - 1 } := by
  unfold Entry.defer
  by_cases h : e.deferrals + 1 < 8
  · rw [if_pos (show e.deferrals + 1 < Config.deferralLimit from h), if_pos h, if_pos (.inl h)]
  · rw [if_neg (show ¬e.deferrals + 1 < Config.deferralLimit from h), if_neg h]
    by_cases hc : 2 ≤ e.effClass
    · rw [if_pos hc, if_neg (by omega)]
    · rw [if_neg hc, if_pos (.inr (by omega))]

/-! The recessive bit times (R3, R4) -/

/-- R3: a recessive bit time lets the character engine wait for a start bit again. -/
def Port.resumed (x : Port) (n : Nat) : Port := { x with engine := if n = 0 then x.engine else .waiting }

theorem passBitTimes_eq (n : Nat) : passBitTimes p n s =
    if (s.port p).attempt = none then countRecessive p n (s.setPort p ((s.port p).resumed n))
    else s.setPort p ((s.port p).resumed n) := by
  unfold passBitTimes Port.resumed
  by_cases hn : n = 0
  · subst hn
    have hsame : ({ s.port p with engine := if 0 = 0 then (s.port p).engine else .waiting } : Port) = s.port p := rfl
    rw [hsame, setPort_self, if_neg (Nat.lt_irrefl 0)]
  · rw [if_pos (Nat.pos_of_ne_zero hn), if_neg hn]
    simp only [setPort_port]

/-- R4: on an IDLE line the bit times join the idle count. -/
theorem passBitTimes_idle {n : Nat} (ha : (s.port p).attempt = none) (hl : (s.port p).line = .idle) : passBitTimes p n s =
    s.setPort p { (s.port p).resumed n with idleCount := (s.port p).idleCount + n } := by
  rw [passBitTimes_eq, if_pos ha, countRecessive_more _ p n (by rw [setPort_port]; exact hl), setPort_port, setPort_twice]
  rfl

/-- R4: a BUSY line counts fewer than 12. -/
theorem passBitTimes_busy {n : Nat} (ha : (s.port p).attempt = none) (hl : (s.port p).line = .busy)
    (hn : (s.port p).recessive + n < 12) : passBitTimes p n s =
    s.setPort p { (s.port p).resumed n with recessive := (s.port p).recessive + n } := by
  rw [passBitTimes_eq, if_pos ha, countRecessive_busy _ p n (by rw [setPort_port]; exact hl) (by rw [setPort_port]; exact hn),
    setPort_port, setPort_twice]
  rfl

/-- R4: from the twelfth the line is IDLE. -/
theorem passBitTimes_becomes {n : Nat} (ha : (s.port p).attempt = none) (hl : (s.port p).line = .busy)
    (hn : 12 ≤ (s.port p).recessive + n) : passBitTimes p n s =
    lineIdle p ((s.port p).recessive + n - 12) (s.setPort p ((s.port p).resumed n)) := by
  rw [passBitTimes_eq, if_pos ha, countRecessive_idle _ p n (by rw [setPort_port]; exact hl) (by rw [setPort_port]; exact hn),
    setPort_port]
  rfl

/-- R4, Table 1-4: what a line that becomes IDLE leaves of its port. -/
theorem lineIdle_port (n : Nat) : (lineIdle p n s).port p =
    match (s.port p).assembly with
    | .assembling _ => Port.counted { (s.port p).becomesIdle n with assembly := .wait }
    | _ => { (s.port p).becomesIdle n with assembly := .wait } := by
  unfold lineIdle setAssembly
  dsimp only
  cases (s.port p).assembly <;> simp

theorem lineIdle_onTheLine (n : Nat) : OnTheLine s (lineIdle p n s) := by
  unfold lineIdle setAssembly
  dsimp only
  have hset := (setPort_onTheLine s p ((s.port p).becomesIdle n)).trans
    (setPort_onTheLine _ p { (s.setPort p ((s.port p).becomesIdle n)).port p with assembly := .wait })
  split
  · exact hset.trans (countError_onTheLine _ p)
  · exact hset

theorem exec_lineBecomesIdle (n : Nat) (hlive : s.live = true) (hu : s.uses p = true) :
    exec (.lineBecomesIdle ⟨p, n⟩) s = .next (finish s (passBitTimes p n s)) := by
  change execLineBecomesIdle ⟨p, n⟩ s = _
  unfold execLineBecomesIdle
  rw [act_of_live hlive]
  dsimp only
  rw [if_pos hu]

theorem exec_lineBecomesBusy (hlive : s.live = true) (hu : s.uses p = true) :
    exec (.lineBecomesBusy p) s = .next (finish s (lineBusy p s)) := by
  change execLineBecomesBusy p s = _
  unfold execLineBecomesBusy
  rw [act_of_live hlive, if_pos hu]

/-- A port changed in anything but its error window. -/
theorem setPort_quiet {x : Port} (h : x.buckets = (s.port p).buckets) : Quiet (s.setPort p x) (finish s (s.setPort p x)) :=
  (setPort_onTheLine s p x).quiet (lineDegraded_congr (by simp) (setPort_buckets s p h))

end

/-- Settles O14. -/
theorem lineIdleAndBusy : Obligations.LineIdleAndBusy := by
  unfold Obligations.LineIdleAndBusy
  intro s p hlive hu
  refine ⟨fun n ha => ⟨_, exec_lineBecomesIdle s p n hlive hu, ?_⟩, fun ha => ⟨_, exec_lineBecomesBusy s p hlive hu, ?_⟩,
    fun ha => ⟨fun n hl => ⟨_, exec_lineBecomesIdle s p n hlive hu, ?_⟩,
      fun n hl hn => ⟨_, exec_lineBecomesIdle s p n hlive hu, ?_⟩,
      fun n hl hn => ⟨_, exec_lineBecomesIdle s p n hlive hu, ?_⟩, _, exec_lineBecomesBusy s p hlive hu, ?_⟩⟩
  · have hstate : passBitTimes p n s = if n = 0 then s else s.setPort p { s.port p with engine := .waiting } := by
      rw [passBitTimes_eq, if_neg ha, Port.resumed]
      split
      · exact setPort_self s p
      · rfl
    rw [← hstate, passBitTimes_eq, if_neg ha]
    exact setPort_quiet s p rfl
  · rw [lineBusy_still s p (.inr ha)]
    exact setPort_quiet s p rfl
  · rw [passBitTimes_idle s p ha hl]
    exact setPort_quiet s p rfl
  · rw [passBitTimes_busy s p ha hl hn]
    exact setPort_quiet s p rfl
  · have hport := (finish_agrees (passBitTimes p n s) s).port p
    rw [hport, passBitTimes_becomes s p ha hl hn, lineIdle_port, setPort_port]
    dsimp only [Port.resumed]
    cases (s.port p).assembly <;> exact ⟨rfl, rfl, rfl, rfl⟩
  · have hquiet := (lineBusy_onTheLine s p).quiet (lineBusy_lineDegraded s p)
    have hqueue : ∀ q, ((finish s (lineBusy p s)).port q).tx = ((lineBusy p s).port q).tx ∧
        (finish s (lineBusy p s)).relayQueue q = (lineBusy p s).relayQueue q := fun q =>
      ⟨by rw [hquiet.port], relayQueue_congr hquiet.relay q⟩
    obtain ⟨q, hq⟩ := lineBusy_port_eq s p
    rw [hquiet.port, hq]
    refine ⟨rfl, rfl, rfl, rfl, hqueue, fun hl q => ?_, fun hl relayed e hc => ?_⟩
    · rw [(hqueue q).1, (hqueue q).2, lineBusy_still s p (.inl hl)]
      cases p <;> cases q <;> exact ⟨rfl, rfl⟩
    · have hchanged : (lineBusy p s).queueOf p relayed = (s.queueOf p relayed).defer e.order := by
        rw [lineBusy_eq, setPort_queueOf _ p (by rfl), deferred, if_pos ⟨hl, ha⟩, deferCandidate, hc]
        exact changeQueue_queueOf s p relayed _
      rw [hquiet.queueOf, hchanged, ← Entry.defer_eq]
      exact defer_head (candidate_head s p hc)

end Sys2Proof.Machine
end

