-- ==== Sys2Proof/Proofs/Transmission.lean ====
section
/-! PROOFS. Sys2Proof/Proofs/Transmission.lean: the beginning and the end of an attempt (R5, R7, R8), and the entry to LISTEN-ONLY
(R185). -/
set_option Elab.async false

namespace Sys2Proof.Machine

variable (s : State) (p : PortId)

/-! The gap is reached (R4, R5) -/

theorem passBitTimes_onTheLine (n : Nat) (ha : (s.port p).attempt = none) : OnTheLine s (passBitTimes p n s) := by
  rw [passBitTimes_eq, if_pos ha]
  refine (setPort_onTheLine s p ((s.port p).resumed n)).trans ?_
  unfold countRecessive
  dsimp only
  split
  · split
    · exact setPort_onTheLine _ p _
    · exact lineIdle_onTheLine _ p _
  · exact setPort_onTheLine _ p _

theorem lineIdle_relay (n : Nat) : (lineIdle p n s).relay = s.relay := by
  unfold lineIdle setAssembly
  dsimp only
  split <;> simp

/-- What the bit times that pass make of a port that is not sending: its queue and its attempt stand; R4: the line is IDLE and has
counted so many bit times more. -/
theorem passBitTimes_port (n k : Nat) (ha : (s.port p).attempt = none) :
    ((passBitTimes p n s).port p).attempt = none ∧ ((passBitTimes p n s).port p).tx = (s.port p).tx ∧
      (passBitTimes p n s).relay = s.relay ∧
      (((passBitTimes p n s).port p).line = .idle ∧ k ≤ ((passBitTimes p n s).port p).idleCount ↔
        ((s.port p).line = .idle ∧ k ≤ (s.port p).idleCount + n) ∨
          ((s.port p).line = .busy ∧ 12 + k ≤ (s.port p).recessive + n)) := by
  cases hl : (s.port p).line with
  | idle =>
    rw [passBitTimes_idle s p ha hl, setPort_port]
    exact ⟨ha, rfl, by simp, by simp [Port.resumed, hl]⟩
  | busy =>
    by_cases hn : (s.port p).recessive + n < 12
    · rw [passBitTimes_busy s p ha hl hn, setPort_port]
      refine ⟨ha, rfl, by simp, ?_⟩
      simp only [Port.resumed, hl, reduceCtorEq, false_and, false_or, true_and, false_iff]
      omega
    · rw [passBitTimes_becomes s p ha hl (by omega), lineIdle_port, lineIdle_relay, setPort_port]
      have hcount : k ≤ (s.port p).recessive + n - 12 ↔ 12 + k ≤ (s.port p).recessive + n := by omega
      dsimp only [Port.resumed]
      cases (s.port p).assembly <;> exact ⟨ha, rfl, by simp, by simpa [Port.becomesIdle, Port.counted] using hcount⟩

theorem candidate_congr {s t : State} (htx : (t.port p).tx = (s.port p).tx) (hrelay : t.relay = s.relay) :
    t.candidate p = s.candidate p := by
  unfold State.candidate
  rw [htx, relayQueue_congr hrelay]

theorem maySend_iff : s.maySend p = true ↔
    (s.phase = .listen ∨ s.phase = .run) ∧ (s.port p).line = .idle ∧ (s.port p).attempt = none := by
  simp [State.maySend, and_assoc]

/-! An attempt begins (R5, R7) -/

/-- The state in which the attempt at an entry has begun. -/
def begun (relayed : Bool) (e : Entry) : State :=
  let u := changeQueue p relayed (fun q => q.update e.order Entry.beginsSending) s
  u.setPort p { (u.port p).dominant with attempt := some (attemptOf relayed e), completed := none }

theorem startSending_of {relayed : Bool} {e : Entry} (hc : s.candidate p = some (relayed, e)) :
    startSending p s = if s.maySend p = true ∧ e.gap ≤ (s.port p).idleCount then begun s p relayed e else s := by
  unfold startSending
  rw [hc]
  rfl

theorem begun_onTheLine (relayed : Bool) (e : Entry) : OnTheLine s (begun s p relayed e) :=
  (changeQueue_onTheLine s p relayed _).trans (setPort_onTheLine _ p _)

theorem begun_queueOf (relayed : Bool) (e : Entry) :
    (begun s p relayed e).queueOf p relayed = (s.queueOf p relayed).update e.order Entry.beginsSending := by
  unfold begun
  dsimp only
  rw [setPort_queueOf _ p (by rfl), changeQueue_queueOf]

theorem mem_update {q : Queue} {x : Entry} (hx : x ∈ q.entries) (f : Entry → Entry) :
    f x ∈ (q.update x.order f).entries :=
  List.mem_map.mpr ⟨x, hx, if_pos rfl⟩

theorem exec_transmissionStart (n : Nat) (hlive : s.live = true) (hu : s.uses p = true) :
    exec (.transmissionStart p n) s = .next (finish s (startSending p (passBitTimes p n s))) := by
  change execTransmissionStart p n s = _
  unfold execTransmissionStart
  rw [act_of_live hlive, if_pos hu]

/-- Settles O15. -/
theorem transmissionStart : Obligations.TransmissionStart := by
  unfold Obligations.TransmissionStart
  intro s p n relayed e hlive hu ha hc
  dsimp only
  have hline := passBitTimes_onTheLine s p n ha
  obtain ⟨hattempt, htx, hrelay, hreached⟩ := passBitTimes_port s p n e.gap ha
  have hcandidate := (candidate_congr p htx hrelay).trans hc
  have hgap : (e.effClass * 64 + e.frame.origin.val ≤ (s.port p).idleCount + n) = (e.gap ≤ (s.port p).idleCount + n) := rfl
  have hgap' : (12 + e.effClass * 64 + e.frame.origin.val ≤ (s.port p).recessive + n) =
      (12 + e.gap ≤ (s.port p).recessive + n) := by rw [Entry.gap, Nat.add_assoc]
  rw [hgap, hgap', ← hreached]
  have hstart : startSending p (passBitTimes p n s) =
      if ((s.phase = .listen ∨ s.phase = .run) ∧ ((passBitTimes p n s).port p).line = .idle ∧
        e.gap ≤ ((passBitTimes p n s).port p).idleCount) then begun (passBitTimes p n s) p relayed e
      else passBitTimes p n s := by
    rw [startSending_of _ p hcandidate]
    refine if_congr ?_ rfl rfl
    rw [maySend_iff, hline.phase]
    tauto
  refine ⟨fun hphase hr => ⟨_, exec_transmissionStart s p n hlive hu, ?_⟩,
    fun hnot => ⟨_, exec_transmissionStart s p n hlive hu, ?_, ?_⟩⟩
  · rw [hstart, if_pos ⟨hphase, hr⟩]
    have hagrees := finish_agrees (begun (passBitTimes p n s) p relayed e) s
    rw [hagrees.port]
    refine ⟨by unfold begun; simp only [setPort_port]; rfl, by unfold begun; simp only [setPort_port]; rfl, fun hl => ?_⟩
    have hquiet := (hline.trans (begun_onTheLine _ p relayed e)).quiet (hagrees.lineDegraded ▸ hl)
    rw [hquiet.queueOf, begun_queueOf]
    exact mem_update (List.mem_of_mem_head? (candidate_head _ p hcandidate)) _
  · rw [exec_lineBecomesIdle s p n hlive hu, hstart, if_neg hnot]
  · rw [hstart, if_neg hnot, (finish_agrees (passBitTimes p n s) s).port]
    exact hattempt

/-! The end of a step with what the gates report unchanged (R135) -/

section
variable {s t : State}

/-- The ASSENT contents follow the gate records, the discharge, the inputs and the line. -/
theorem BesideGates.assentContents (h : BesideGates s t) (hrecords : t.gate.records = s.gate.records)
    (hcycle : t.seq.cycle = .discharge ↔ s.seq.cycle = .discharge) : t.assentContents = s.assentContents := by
  have hline : t.lineDegraded = s.lineDegraded := by
    refine lineDegraded_congr h.cfg fun q => ?_
    cases q
    · change t.portA.buckets = _; rw [h.portA]; rfl
    · change t.portB.buckets = _; rw [h.portB]; rfl
  have hflag : ∀ w, t.qualifiedFlag w = s.qualifiedFlag w := fun w => by
    have hdischarge : (t.seq.cycle == .discharge) = (s.seq.cycle == .discharge) := by
      rw [Bool.eq_iff_iff, beq_iff_eq, beq_iff_eq, hcycle]
    unfold State.qualifiedFlag State.clearFlag State.serves State.hasGates State.isLanding State.isLoading State.serving State.phase
    rw [h.cfg, h.loader, h.inputs, hrecords, hdischarge]
  unfold State.assentContents State.clearSet State.relayDrop
  simp only [h.cfg, h.inputs, h.relay, hline, hflag]

theorem BesideGates.shaftLine (h : BesideGates s t) : t.shaftLine = s.shaftLine := by
  unfold State.shaftLine; rw [h.stations]

/-- A step of the gates, the keys or the sequencer that leaves the records and the discharge ends quietly. -/
theorem BesideGates.quiet (h : BesideGates s t) (hrecords : t.gate.records = s.gate.records)
    (hcycle : t.seq.cycle = .discharge ↔ s.seq.cycle = .discharge) : Quiet t (finish s t) :=
  finish_quiet s t (fun _ => (h.assentContents hrecords hcycle).symm) fun _ hs => h.shaftLine ▸ hs

/-- Outside RUN the end of a step originates nothing. -/
theorem finish_of_not_run {before e : State} (h : e.phase ≠ .run) :
    finish before e = judgeLeaving (shaftLineOnChange before e) := by
  have hphase : (shaftLineOnChange before e).phase ≠ .run := by
    unfold State.phase
    rwa [(shaftLineOnChange_agrees e before).loader]
  have hsame : assentOnChange before (shaftLineOnChange before e) = shaftLineOnChange before e := by
    rcases assentOnChange_eq before (shaftLineOnChange before e) with h' | h' <;> rw [h']
    exact originateAssent_not _ fun hc => hphase hc.2
  unfold finish
  rw [hsame]

/-- Outside RUN the end of a step changes the event lines alone. -/
theorem finish_still {before e : State} (h : e.phase ≠ .run) : (finish before e).portA = e.portA ∧
    (finish before e).portB = e.portB ∧ (finish before e).gate = e.gate ∧ (finish before e).model = e.model := by
  rw [finish_of_not_run h]
  unfold judgeLeaving
  rcases shaftLineOnChange_eq before e with h' | h' <;> rw [h'] <;> simp

end

/-! The automatic GO (R155, R156) -/

section
variable {s : State}

theorem mayGo_iff : s.mayGo = true ↔ s.phase = .run ∧ s.inputs.auto = true ∧ s.seq.auto.retryMs = none := by
  simp [State.mayGo, and_assoc]

theorem judgeLoadGo_of_not (h : ¬s.mayGo = true) : judgeLoadGo s = s := by
  unfold judgeLoadGo
  rw [if_neg (by simp [h])]

theorem judgeTipGo_of_not (h : ¬s.mayGo = true) : judgeTipGo s = s := by
  unfold judgeTipGo
  rw [if_neg (by simp [h])]

theorem isTip_of_isLoading (hl : s.isLoading = true) : s.isTip = false := by
  cases ht : s.isTip with
  | false => rfl
  | true => rw [not_isLoading_of_isTip ht] at hl; cases hl

theorem judgeTipGo_of_isLoading (hl : s.isLoading = true) : judgeTipGo s = s := by
  unfold judgeTipGo
  rw [if_neg (by simp [isTip_of_isLoading hl])]

theorem originateGo_cfg : (originateGo s).cfg = s.cfg := by simp [originateGo]

/-- R156: in LOADED with the send mark set the automatic GO is originated, and the cycle is WAIT_DEPART. -/
theorem judgeGo_loaded (hl : s.isLoading = true) (hc : s.seq.cycle = .loaded) (hmark : s.seq.sendMark = true)
    (hgo : s.mayGo = true) : judgeGo s = (originateGo s).setSeq { (originateGo s).seq with cycle := .waitDepart } := by
  have hload : judgeLoadGo s = (originateGo s).setSeq { (originateGo s).seq with cycle := .waitDepart } := by
    unfold judgeLoadGo
    rw [if_pos (by simp [hl, hc, hmark, hgo])]
  unfold judgeGo
  rw [hload]
  refine judgeTipGo_of_isLoading ?_
  unfold State.isLoading at hl ⊢
  rwa [State.setSeq_cfg, originateGo_cfg]

theorem originateGo_besideGates : BesideGates s (originateGo s) := by
  have hagrees := originate_agrees s s.autoGo
  exact hagrees.besideGates.trans (by constructor <;> rfl)

theorem originateGo_gate : (originateGo s).gate = s.gate := by simp [originateGo]

/-- What the automatic GO leaves of the station: its gates, and a discharge. -/
theorem judgeGo_leaves (s : State) : BesideGates s (judgeGo s) ∧ (judgeGo s).gate = s.gate ∧
    ((judgeGo s).seq.cycle = .discharge ↔ s.seq.cycle = .discharge) := by
  have hload : BesideGates s (judgeLoadGo s) ∧ (judgeLoadGo s).gate = s.gate ∧
      ((judgeLoadGo s).seq.cycle = .discharge ↔ s.seq.cycle = .discharge) := by
    unfold judgeLoadGo
    split
    · rename_i h
      have hcycle : s.seq.cycle = .loaded := by simp at h; exact h.1.1.2
      exact ⟨originateGo_besideGates.trans (by constructor <;> rfl), originateGo_gate, by simp [hcycle]⟩
    · exact ⟨by constructor <;> rfl, rfl, Iff.rfl⟩
  have htip : ∀ u : State, BesideGates u (judgeTipGo u) ∧ (judgeTipGo u).gate = u.gate ∧
      ((judgeTipGo u).seq.cycle = .discharge ↔ u.seq.cycle = .discharge) := fun u => by
    unfold judgeTipGo
    split
    · exact ⟨originateGo_besideGates.trans (by constructor <;> rfl), originateGo_gate, by simp⟩
    · exact ⟨by constructor <;> rfl, rfl, Iff.rfl⟩
  obtain ⟨hb, hg, hc⟩ := htip (judgeLoadGo s)
  exact ⟨hload.1.trans hb, hg.trans hload.2.1, hc.trans hload.2.2⟩

end

/-! An attempt ends (R7, R8) -/

section
variable {s : State} {p : PortId} {a : Attempt}

theorem find_update {q : Queue} {n : Nat} {e : Entry} (h : q.entries.find? (fun x => x.order == n) = some e)
    {f : Entry → Entry} (hf : ∀ x, (f x).order = x.order) :
    (q.update n f).entries.find? (fun x => x.order == n) = some (f e) := by
  have hn : e.order = n := by simpa using List.find?_some h
  have hpred : (fun x : Entry => x.order == n) ∘ (fun x => if x.order = n then f x else x) = fun x => x.order == n := by
    funext x
    dsimp only [Function.comp]
    split
    · rw [hf]
    · rfl
  unfold Queue.update
  rw [List.find?_map, hpred, h, Option.map_some, if_pos hn]

/-- The state in which an attempt has ended in collision, before its collisions are counted against the limit. -/
def collided (s : State) (p : PortId) (a : Attempt) : State :=
  changeQueue p a.relayed (fun q => q.update a.order Entry.collides) (s.setPort p { s.port p with attempt := none })

theorem collided_onTheLine : OnTheLine s (collided s p a) :=
  (setPort_onTheLine s p _).trans (changeQueue_onTheLine _ p _ _)

theorem collided_buckets (q : PortId) : ((collided s p a).port q).buckets = (s.port q).buckets := by
  unfold collided
  rw [changeQueue_buckets, setPort_buckets s p (by rfl) q]

theorem collided_queueOf : (collided s p a).queueOf p a.relayed = (s.queueOf p a.relayed).update a.order Entry.collides := by
  unfold collided
  rw [changeQueue_queueOf, setPort_queueOf s p (by rfl)]

/-- R7: the sixteenth collision brings the station to LISTEN-ONLY. -/
theorem collide_eq {e : Entry} (h : (s.queueOf p a.relayed).entries.find? (fun x => x.order == a.order) = some e) :
    collide p a s = if 16 ≤ e.collisions + 1 then enterListenOnly (collided s p a) else collided s p a := by
  have hcount : ((collided s p a).queueOf p a.relayed).collisionsOf a.order = e.collisions + 1 := by
    rw [collided_queueOf, Queue.collisionsOf, find_update (f := Entry.collides) h fun _ => rfl]
    rfl
  change (if Config.collisionLimit ≤ ((collided s p a).queueOf p a.relayed).collisionsOf a.order then _ else _) = _
  rw [hcount]
  rfl

/-- R7: a bit of the attempt in progress that is read back. -/
theorem exec_collision (hlive : s.live = true) (hu : s.uses p = true) (ha : (s.port p).attempt = some a) {k : Nat} {sent : Bool}
    (hbit : a.frame.bits[k]? = some sent) (r : BitReading) :
    exec (.collision p k r) s = .next (finish s (if readBit r ≠ sent then collide p a s else s)) := by
  change execCollision p k r s = _
  unfold execCollision readBack
  rw [act_of_live hlive, if_pos hu, ha]
  dsimp only
  rw [hbit]

/-- The state in which the attempt of a port has completed, before the Loading Sequencer acts on it. -/
def completed (s : State) (p : PortId) (a : Attempt) : State :=
  changeQueue p a.relayed (fun q => q.complete a.order)
    (s.setPort p { s.port p with attempt := none, completed := some a.frame })

theorem completed_onTheLine : OnTheLine s (completed s p a) :=
  (setPort_onTheLine s p _).trans (changeQueue_onTheLine _ p _ _)

theorem completed_lineDegraded : (completed s p a).lineDegraded = s.lineDegraded := by
  refine lineDegraded_congr completed_onTheLine.cfg fun q => ?_
  unfold completed
  rw [changeQueue_buckets, setPort_buckets s p (by rfl) q]

theorem completed_port : ((completed s p a).port p).attempt = none ∧ ((completed s p a).port p).completed = some a.frame := by
  unfold completed
  rw [changeQueue_port, setPort_port]
  exact ⟨rfl, rfl⟩

theorem completed_queueOf : (completed s p a).queueOf p a.relayed = (s.queueOf p a.relayed).complete a.order := by
  unfold completed
  rw [changeQueue_queueOf, setPort_queueOf s p (by rfl)]

theorem exec_transmissionComplete (hlive : s.live = true) (ha : (s.port p).attempt = some a) :
    exec (.transmissionComplete p) s = .next (finish s (markSent p a (completed s p a))) := by
  change execTransmissionComplete p s = _
  unfold execTransmissionComplete
  rw [act_of_live hlive, ha]
  rfl

/-- R8: a completed transmission takes its entry out of the queue, or leaves it with the new contents if it was replaced. -/
theorem complete_entries {q : Queue} {e : Entry} (he : e ∈ q.entries) (hnodup : (q.entries.map (·.order)).Nodup) :
    q.complete e.order =
      { q with entries :=
          if e.replaced then
            q.entries.map (fun x => if x.order = e.order then { x with sending := false, collisions := 0 } else x)
          else q.entries.filter (fun x => x.order != e.order) } := by
  have hany : q.entries.any (fun x => x.order == e.order && x.replaced) = e.replaced := by
    rw [Bool.eq_iff_iff, List.any_eq_true]
    constructor
    · rintro ⟨x, hx, hr⟩
      obtain ⟨ho, hr⟩ : x.order = e.order ∧ x.replaced = true := by simpa using hr
      rwa [← List.inj_on_of_nodup_map hnodup hx he ho]
    · exact fun hr => ⟨e, he, by simp [hr]⟩
  unfold Queue.complete
  rw [hany]
  cases e.replaced <;> rfl

end

section
variable {s : State} {p : PortId} {a : Attempt} {e : Entry}

/-- R156: the completion sets the send mark. -/
def marks (s : State) (p : PortId) (a : Attempt) : Prop :=
  p = .a ∧ a.relayed = false ∧ a.frame.kind = .assent ∧ s.seq.cycle = .loaded ∧ s.seq.sendAfter ≤ a.stamp

/-- The state in which the send mark has been set. -/
def markedSent (s : State) (p : PortId) (a : Attempt) : State :=
  (completed s p a).setSeq { s.seq with sendMark := true }

theorem markSent_of_marks (h : marks s p a) : markSent p a (completed s p a) = judgeGo (markedSent s p a) := by
  unfold markSent markedSent
  have hseq : (completed s p a).seq = s.seq := completed_onTheLine.seq
  rw [hseq]
  exact if_pos h

theorem markSent_of_not (h : ¬marks s p a) : markSent p a (completed s p a) = completed s p a := by
  unfold markSent
  have hseq : (completed s p a).seq = s.seq := completed_onTheLine.seq
  rw [hseq]
  exact if_neg h

/-- A completion that leaves the gates and the discharge ends quietly, with no attempt at its port and its frame the one sent. -/
theorem completed_quiet {u : State} (hbeside : BesideGates (completed s p a) u) (hgate : u.gate = (completed s p a).gate)
    (hcycle : u.seq.cycle = .discharge ↔ s.seq.cycle = .discharge) :
    Quiet u (finish s u) ∧ ((finish s u).port p).attempt = none ∧ ((finish s u).port p).completed = some a.frame := by
  have hseq : (completed s p a).seq = s.seq := completed_onTheLine.seq
  have hcontents : u.assentContents = s.assentContents :=
    (hbeside.assentContents (by rw [hgate]) (by rw [hcycle, hseq])).trans
      (completed_onTheLine.assentContents completed_lineDegraded)
  have hshaft : u.shaftLine = s.shaftLine := hbeside.shaftLine.trans completed_onTheLine.shaftLine
  have hquiet : Quiet u (finish s u) := finish_quiet s u (fun _ => hcontents.symm) fun _ hs => hshaft ▸ hs
  obtain ⟨hattempt, hframe⟩ := completed_port (s := s) (p := p) (a := a)
  rw [hquiet.port]
  refine ⟨hquiet, ?_⟩
  cases p
  · change u.portA.attempt = none ∧ u.portA.completed = some a.frame
    rw [hbeside.portA]
    exact ⟨hattempt, hframe⟩
  · change u.portB.attempt = none ∧ u.portB.completed = some a.frame
    rw [hbeside.portB]
    exact ⟨hattempt, hframe⟩

end

/-! The entry to LISTEN-ONLY (R185) -/

/-- Outside RUN the Trip Controller reports nothing of the loss of the line, and touches no port and no cause. -/
theorem lineLost_of_not_run {s : State} (h : s.phase ≠ .run) :
    (lineLost s).portA = s.portA ∧ (lineLost s).portB = s.portB ∧ (lineLost s).safety = s.safety := by
  unfold lineLost
  split
  · rw [closeTrip_safety, closeTrip_of_not_run h]
    exact ⟨by simp [takePending], by simp [takePending], rfl⟩
  · cases hd : s.trip.record.details with
    | none =>
      unfold enterStopping enterStoppingOn
      rw [hd]
      exact ⟨rfl, rfl, rfl⟩
    | some d =>
      rw [enterStopping_of_not_run h hd]
      simp
  · exact ⟨rfl, rfl, rfl⟩

/-- R185: what the entry to LISTEN-ONLY makes of a station. -/
structure Silenced (s t : State) : Prop where
  phase    : t.phase = .listenOnly
  listen   : t.loader.listenMs = none
  ports    : ∀ q, (t.port q).attempt = none ∧ (t.port q).tx.entries = [] ∧ (t.relayQueue q).entries = []
  drops    : t.relay.upDrop = s.relay.upDrop ∧ t.relay.downDrop = s.relay.downDrop
  gate     : t.gate = s.gate.lost
  seq      : t.seq = s.seq.aborted s.inputs.doorClosed
  picture  : t.picture = s.picture
  stations : t.stations = s.stations
  safety   : t.safety = s.safety
  trip     : t.trip = (lineLost (lostLine s)).trip

/-- R185: the station enters LISTEN-ONLY, whatever it was when the step began. -/
theorem enterListenOnly_silenced (before : State) {s : State} (h : s.phase = .listen ∨ s.phase = .run) :
    Silenced s (finish before (enterListenOnly s)) := by
  have hlost : (lostLine s).phase = .listenOnly := by rw [lostLine_eq]; simp [State.phase, emptyQueues, State.setPort]
  obtain ⟨ha, hb, hsafety⟩ := lineLost_of_not_run (s := lostLine s) (by rw [hlost]; decide)
  have hbeside := lineLost_besideTrip (lostLine s)
  rw [enterListenOnly_eq s h]
  have hphase : (lineLost (lostLine s)).phase = .listenOnly := by unfold State.phase; rw [hbeside.loader]; exact hlost
  have hends := finish_agrees (lineLost (lostLine s)) before
  obtain ⟨hfa, hfb, hgate, -⟩ := finish_still (before := before) (e := lineLost (lostLine s)) (by rw [hphase]; decide)
  refine ⟨by unfold State.phase; rw [hends.loader]; exact hphase, by rw [hends.loader, hbeside.loader, lostLine_eq]; rfl,
    fun q => ?_, by rw [hends.relay, hbeside.relay, lostLine_eq]; exact ⟨rfl, rfl⟩,
    by rw [hgate, hbeside.gate, lostLine_eq]; rfl, by rw [hends.seq, hbeside.seq, lostLine_eq]; rfl,
    by rw [hends.picture, hbeside.picture, lostLine_eq]; rfl, by rw [hends.stations, hbeside.stations, lostLine_eq]; rfl,
    by rw [hends.safety, hsafety, lostLine_eq]; rfl, hends.trip⟩
  rw [relayQueue_congr (hends.relay.trans hbeside.relay)]
  cases q
  · change (finish before _).portA.attempt = none ∧ (finish before _).portA.tx.entries = [] ∧ _
    rw [hfa, ha, lostLine_eq]
    exact ⟨rfl, rfl, rfl⟩
  · change (finish before _).portB.attempt = none ∧ (finish before _).portB.tx.entries = [] ∧ _
    rw [hfb, hb, lostLine_eq]
    exact ⟨rfl, rfl, rfl⟩

theorem originate_stamp {s : State} {p : Payload} (h : s.phase = .run) : (originate p s).model.stamp = s.model.stamp + 1 := by
  unfold originate
  rw [if_pos h]
  dsimp only
  split <;> simp

/-- R8, R156: what a completion makes of its port, of the queue of its entry and of the Loading Sequencer. -/
theorem transmissionComplete_leaves {s : State} {p : PortId} {a : Attempt} {e : Entry}
    (he : e ∈ (s.queueOf p a.relayed).entries) (ho : e.order = a.order)
    (hnodup : ((s.queueOf p a.relayed).entries.map (·.order)).Nodup) :
    let left : List Entry := if e.replaced then
        (s.queueOf p a.relayed).entries.map
          (fun x => if x.order = a.order then { x with sending := false, collisions := 0 } else x)
      else (s.queueOf p a.relayed).entries.filter (fun x => x.order != a.order)
    let goes := s.phase = .run ∧ s.inputs.auto = true ∧ s.seq.auto.retryMs = none
    let go := s.own (.signal s.cfg.tipWinder s.cfg.tipPartner .ore .go true)
    let t := finish s (markSent p a (completed s p a))
    (t.port p).attempt = none ∧ (t.port p).completed = some a.frame ∧
      (¬marks s p a → (t.queueOf p a.relayed).entries = left ∧ t.seq = s.seq) ∧
      (marks s p a → ¬goes → t.portA.tx.entries = left ∧ t.seq = { s.seq with sendMark := true }) ∧
      (marks s p a → goes → s.isLoading = true →
        t.portA.tx = (({ s.portA.tx with entries := left } : Queue).takeIn (sameReport go) go s.model.stamp).1 ∧
        t.seq.sendMark = true ∧ t.seq.cycle = .waitDepart ∧
        t.seq.auto = { s.seq.auto with status := .awaiting, number := none, replyMs := some 0 }) := by
  intro left goes go
  have hleft : (completed s p a).queueOf p a.relayed = { s.queueOf p a.relayed with entries := left } := by
    rw [completed_queueOf, ← ho, complete_entries he hnodup, ho]
  have hline := completed_onTheLine (s := s) (p := p) (a := a)
  by_cases hm : marks s p a
  · obtain ⟨hp, hrelayed, -, hcycle, -⟩ := id hm
    have hleftA : (completed s p a).portA.tx = { s.portA.tx with entries := left } := by
      have hqueue := hleft
      rw [hrelayed] at hqueue
      subst hp
      exact hqueue
    have hmarked : BesideGates (completed s p a) (markedSent s p a) := by constructor <;> rfl
    have hmay : (markedSent s p a).mayGo = true ↔ goes := by
      have hphase : (markedSent s p a).phase = s.phase := hline.phase
      have hinputs : (markedSent s p a).inputs = s.inputs := hline.inputs
      rw [mayGo_iff, hphase, hinputs]
      exact Iff.rfl
    obtain ⟨hbeside, hgate, hdischarge⟩ := judgeGo_leaves (markedSent s p a)
    obtain ⟨hquiet, hattempt, hframe⟩ := completed_quiet (hmarked.trans hbeside) hgate hdischarge
    dsimp only
    rw [markSent_of_marks hm]
    refine ⟨hattempt, hframe, fun h => absurd hm h, fun _ hnot => ?_, fun _ hgoes hload => ?_⟩
    · have hstill : judgeGo (markedSent s p a) = markedSent s p a := by
        have hnot' := mt hmay.mp hnot
        rw [judgeGo, judgeLoadGo_of_not hnot', judgeTipGo_of_not hnot']
      rw [hquiet.portA', hquiet.seq, hstill]
      exact ⟨congrArg Queue.entries hleftA, rfl⟩
    · have hload' : (markedSent s p a).isLoading = true := by
        have hcfg : (markedSent s p a).cfg = s.cfg := hline.cfg
        unfold State.isLoading at hload ⊢
        rwa [hcfg]
      have hgo : (markedSent s p a).own (markedSent s p a).autoGo = go := by
        have hcfg : (markedSent s p a).cfg = s.cfg := hline.cfg
        unfold State.own State.autoGo State.partner
        rw [if_pos hload', hcfg]
        rfl
      have hrun : (markedSent s p a).phase = .run := by
        have hphase : (markedSent s p a).phase = s.phase := hline.phase
        exact hphase.trans hgoes.1
      have hstamp : (markedSent s p a).model.stamp = s.model.stamp := congrArg ModelFields.stamp hline.model
      rw [hquiet.portA', hquiet.seq, judgeGo_loaded hload' hcycle rfl (hmay.mpr hgoes)]
      refine ⟨?_, by simp [markedSent], by simp, by simp [markedSent]⟩
      change (originate (markedSent s p a).autoGo (markedSent s p a)).portA.tx = _
      rw [originate_portA, if_pos hrun, hgo, hstamp]
      exact congrArg (fun q : Queue => (q.takeIn (sameReport go) go s.model.stamp).1) hleftA
  · obtain ⟨hquiet, hattempt, hframe⟩ := completed_quiet (s := s) (p := p) (a := a) (u := completed s p a)
      (by constructor <;> rfl) rfl (by rw [hline.seq])
    dsimp only
    rw [markSent_of_not hm]
    refine ⟨hattempt, hframe, fun _ => ⟨?_, hquiet.seq.trans hline.seq⟩, fun h => absurd h hm, fun h => absurd h hm⟩
    rw [hquiet.queueOf, hleft]

/-- Settles O16. -/
theorem attemptEnds : Obligations.AttemptEnds := by
  unfold Obligations.AttemptEnds
  refine ⟨fun s p k r a e sent hlive hu hphase ha hbit he => ⟨fun hr => ⟨_, exec_collision hlive hu ha hbit r, ?_⟩,
      fun hr hfew => ⟨_, exec_collision hlive hu ha hbit r, ?_⟩, fun hr hmany => ⟨_, exec_collision hlive hu ha hbit r, ?_⟩⟩,
    fun s p a e hlive ha he ho hnodup => ?_, fun s p hrun => ⟨?_, fun hb => ?_, ?_⟩⟩
  · rw [if_neg (not_not.mpr hr)]
    exact finish_self s
  · rw [if_pos hr, collide_eq he, if_neg (by omega)]
    have hquiet : Quiet (collided s p a) (finish s (collided s p a)) :=
      collided_onTheLine.quiet (lineDegraded_congr collided_onTheLine.cfg collided_buckets)
    rw [hquiet.port, hquiet.queueOf, collided_queueOf, collided_buckets]
    refine ⟨?_, ?_, ?_, rfl⟩
    · unfold collided
      rw [changeQueue_port, setPort_port]
    · unfold State.phase
      rw [hquiet.loader]
      exact collided_onTheLine.phase
    · have horder : e.order = a.order := by simpa using List.find?_some he
      rw [← horder]
      exact mem_update (List.mem_of_find?_eq_some he) _
  · rw [if_pos hr, collide_eq he, if_pos hmany]
    have hsilenced := enterListenOnly_silenced s (s := collided s p a) (by rwa [collided_onTheLine.phase])
    exact ⟨hsilenced.phase, hsilenced.ports⟩
  · exact ⟨_, exec_transmissionComplete hlive ha, transmissionComplete_leaves he ho hnodup⟩
  · rw [originate_portA, if_pos hrun]
  · rw [originate_portB, if_pos ⟨hrun, hb⟩]
  · exact originate_stamp hrun

end Sys2Proof.Machine
end

