-- ==== Sys2Proof/Proofs/FrameReception.lean ====
section
/-! PROOFS. Sys2Proof/Proofs/FrameReception.lean: the character engine and the frame assembly (R3, R11, R12, Table 1-4), and the
conditions under which a frame is taken (R13, R19). -/
set_option Elab.async false

namespace Sys2Proof.Machine

variable (s : State) (p : PortId)

/-! A character (R3, R11) -/

theorem exec_characterReceived {r : CharReading} (hlive : s.live = true) (hu : s.uses p = true)
    (he : (s.port p).engine = .waiting) : exec (.characterReceived p r) s = .next (finish s (receiveChar p r s)) := by
  change execCharacterReceived p r s = _
  unfold execCharacterReceived
  rw [act_of_live hlive, if_pos ⟨hu, he⟩]

/-- What stands for a port once the opening level of a character has been seen (R4), with its engine as the character leaves it. -/
def opened (o : CharOutcome) : State :=
  (lineBusy p s).setPort p
    { (lineBusy p s).port p with engine := if o = .framingError then .afterFraming else .waiting }

theorem receiveChar_eq (r : CharReading) : receiveChar p r s = assemble p (readChar r) (opened s p (readChar r)) := rfl

/-- A character that is no FRAMING leaves the engine waiting. -/
theorem opened_of_waiting {o : CharOutcome} (he : (s.port p).engine = .waiting) (ho : o ≠ .framingError) :
    opened s p o = lineBusy p s := by
  obtain ⟨q, hq⟩ := lineBusy_port_eq s p
  have hengine : ((lineBusy p s).port p).engine = .waiting := by rw [hq]; exact he
  unfold opened
  rw [if_neg ho]
  conv_lhs => rw [← hengine]
  exact setPort_self _ p

theorem opened_port (o : CharOutcome) : (opened s p o).port p =
    { (lineBusy p s).port p with engine := if o = .framingError then .afterFraming else .waiting } := setPort_port _ p _

theorem opened_assembly (o : CharOutcome) : ((opened s p o).port p).assembly = (s.port p).assembly := by
  obtain ⟨q, hq⟩ := lineBusy_port_eq s p
  rw [opened_port, hq]

theorem countError_same : ∃ n, countError p s = { s.setPort p (s.port p).counted with panel := n } := by
  unfold countError
  dsimp only
  split
  · exact ⟨_, raise_same _ _⟩
  · exact ⟨s.panel, by cases p <;> rfl⟩

/-- What the end of a step is spoken of by does not show the event lines. -/
theorem Agrees.of_panel {e t : State} {n : Panel} (h : Agrees { e with panel := n } t) : Agrees e t := by
  obtain ⟨⟩ := h
  constructor <;> assumption

/-- A discarded frame is counted, and the assembly takes a state (Table 1-4). -/
theorem discard_agrees (before : State) (a : Assembly) :
    Agrees (s.setPort p { (s.port p).counted with assembly := a }) (finish before (setAssembly p a (countError p s))) := by
  have h := finish_agrees (setAssembly p a (countError p s)) before
  obtain ⟨n, hn⟩ := countError_same s p
  unfold setAssembly at h ⊢
  rw [countError_port] at h ⊢
  rw [hn] at h ⊢
  have hset : State.setPort { s.setPort p (s.port p).counted with panel := n } p { (s.port p).counted with assembly := a } =
      { s.setPort p { (s.port p).counted with assembly := a } with panel := n } := by cases p <;> rfl
  rw [hset] at h ⊢
  exact h.of_panel

/-- A frame of its due length that fails a check is counted (R12). -/
theorem checked_agrees (before : State) (a : Assembly) :
    Agrees (s.setPort p { (s.port p).counted with assembly := a }) (finish before (countError p (setAssembly p a s))) := by
  have h := finish_agrees (countError p (setAssembly p a s)) before
  obtain ⟨n, hn⟩ := countError_same (setAssembly p a s) p
  unfold setAssembly at h hn ⊢
  rw [setPort_port, setPort_twice] at hn
  rw [hn] at h ⊢
  exact h.of_panel

/-- R12: a frame of its due length that fails the CRC or the format check. -/
theorem checkFrame_of_bad {chars : List Byte}
    (h : crcAgrees chars = false ∨ Frame.parse (chars.take (chars.length - 2)) = none) :
    checkFrame p chars s = countError p s := by
  unfold checkFrame
  cases hc : crcAgrees chars with
  | false => rfl
  | true =>
    have hparse := h.resolve_left (by simp [hc])
    rw [if_pos rfl, hparse]

/-- R3: a recessive bit time lets the engine wait for a start bit. -/
theorem passBitTimes_engine {n : Nat} (hn : n ≠ 0) : ((passBitTimes p n s).port p).engine = .waiting := by
  have hresumed : ((s.port p).resumed n).engine = .waiting := if_neg hn
  by_cases ha : (s.port p).attempt = none
  · cases hl : (s.port p).line with
    | idle => rw [passBitTimes_idle s p ha hl, setPort_port]; exact hresumed
    | busy =>
      by_cases hfew : (s.port p).recessive + n < 12
      · rw [passBitTimes_busy s p ha hl hfew, setPort_port]; exact hresumed
      · rw [passBitTimes_becomes s p ha hl (by omega), lineIdle_port, setPort_port]
        cases ((s.port p).resumed n).assembly <;> exact hresumed
  · rw [passBitTimes_eq, if_neg ha, setPort_port]
    exact hresumed

/-- Settles O13. The cases are those of Table 1-4. -/
theorem frameAssembly : Obligations.FrameAssembly := by
  unfold Obligations.FrameAssembly
  intro s p r hlive hu
  refine ⟨fun he => ⟨⟨finish s s, ?_, finish_self s⟩, finish s (passBitTimes p 1 s), ?_, exec_lineBecomesIdle s p 1 hlive hu, ?_⟩,
    fun he => ⟨⟨finish s s, ?_, finish_self s⟩, _, exec_characterReceived s p hlive hu he, ?_⟩⟩
  · change execCharacterReceived p r s = _
    unfold execCharacterReceived
    rw [act_of_live hlive, if_neg (by simp [he])]
  · change execRecessiveBitTimeAfterFraming p s = _
    unfold execRecessiveBitTimeAfterFraming
    rw [act_of_live hlive, if_pos ⟨hu, he⟩]
  · rw [(finish_agrees (passBitTimes p 1 s) s).port]
    exact passBitTimes_engine s p (by decide)
  · change execRecessiveBitTimeAfterFraming p s = _
    unfold execRecessiveBitTimeAfterFraming
    rw [act_of_live hlive, if_neg (by simp [he])]
  · have hquiet := (lineBusy_onTheLine s p).quiet (lineBusy_lineDegraded s p)
    have hassembly := opened_assembly s p (readChar r)
    rw [receiveChar_eq]
    unfold assemble
    rw [hassembly]
    cases ho : readChar r with
    | falseStart =>
      rw [opened_of_waiting s p he (by simp)]
      cases (s.port p).assembly <;> exact hquiet
    | parityError =>
      rw [opened_of_waiting s p he (by simp)]
      cases (s.port p).assembly with
      | skip => exact hquiet
      | wait => exact discard_agrees _ p s .skip
      | assembling chars => exact discard_agrees _ p s .skip
    | framingError =>
      have hdiscard : Agrees ((lineBusy p s).setPort p
            { ((lineBusy p s).port p).counted with assembly := .skip, engine := .afterFraming })
          (finish s (setAssembly p .skip (countError p (opened s p .framingError)))) := by
        have h := discard_agrees (opened s p .framingError) p s .skip
        rw [opened_port] at h
        unfold opened at h ⊢
        rwa [setPort_twice] at h
      cases (s.port p).assembly with
      | skip => exact finish_agrees _ s
      | wait => exact hdiscard
      | assembling chars => exact hdiscard
    | good b mark =>
      rw [opened_of_waiting s p he (by simp)]
      cases mark with
      | true =>
        cases (s.port p).assembly with
        | skip => exact finish_agrees _ s
        | wait => exact finish_agrees _ s
        | assembling chars => exact discard_agrees _ p s _
      | false =>
        cases (s.port p).assembly with
        | skip => exact hquiet
        | wait => exact discard_agrees _ p s .skip
        | assembling chars =>
          have hlen : (chars ++ [b]).length = chars.length + 1 := by simp
          dsimp only [appendChar]
          rw [hlen]
          refine ⟨fun hshort => ?_, fun hdue hbad => ?_⟩
          · rw [if_neg (by omega)]
            exact finish_agrees _ s
          · rw [if_pos hdue, checkFrame_of_bad _ p (by rw [hlen, show chars.length + 1 - 2 = chars.length - 1 by omega]; exact hbad)]
            exact checked_agrees _ p s .wait

/-! A frame received (R12, R13) -/

/-- R11: the first character of a frame tells its length. -/
theorem lengthDue_chars (f : Frame) : lengthDue f.chars = f.kind.frameLength := by
  have hhop := f.hop.isLt
  have hcode := f.kind.code_lt
  have hchars : f.chars = BitVec.ofNat 8 ((f.kind.code + 8 * f.hop.val) / 256 ^ 0) ::
      (bytesOf 1 f.origin.val ++ f.payload.encode ++ checkChars f.body) := rfl
  have hkind : kindOfChar0 (BitVec.ofNat 8 ((f.kind.code + 8 * f.hop.val) / 256 ^ 0)) = f.kind := by
    unfold kindOfChar0
    rw [BitVec.toNat_ofNat, show (f.kind.code + 8 * f.hop.val) / 256 ^ 0 % 2 ^ 8 % 8 = f.kind.code by omega, f.kind.ofCode_code]
  rw [hchars]
  exact congrArg Kind.frameLength hkind

theorem exec_takenCommand (h : Heading) (q : Payload) : exec (takenCommand h q) s = frameTaken h q s := by
  cases q with
  | signal w d c word auto => cases word <;> rfl
  | call w c word => cases word <;> rfl
  | _ => rfl

/-- R13: a well-formed frame received by a live station on a port in use. -/
theorem exec_received {h : Heading} {q : Payload} (hlive : s.live = true) (hu : s.uses h.port = true)
    (hf : (frameOf h q).wellFormed = true) :
    exec (takenCommand h q) s = .next (finish s (receiveGood h.port (frameOf h q) s)) := by
  rw [exec_takenCommand, frameTaken, act_of_live hlive, receiveFrame, if_pos hu, if_pos hf]

/-- Settles O12. -/
theorem lastCharacterIsTheFrameTaken : Obligations.LastCharacterIsTheFrameTaken := by
  unfold Obligations.LastCharacterIsTheFrameTaken
  intro s p f b hf hlive hu he hassembly hlast
  have hline : OnTheLine s (setAssembly p .wait (lineBusy p s)) := (lineBusy_onTheLine s p).trans (setPort_onTheLine _ p _)
  have hquality : (setAssembly p .wait (lineBusy p s)).lineDegraded = s.lineDegraded :=
    (lineDegraded_congr (setPort_onTheLine _ p _).cfg (setPort_buckets _ p (by rfl))).trans (lineBusy_lineDegraded s p)
  have hchars : f.chars.dropLast ++ [b] = f.chars := List.dropLast_append_getLast? b hlast
  have hchecked : receiveChar p (cleanReading b false) s = receiveGood p f (setAssembly p .wait (lineBusy p s)) := by
    have hstate := opened_assembly s p (.good b false)
    rw [receiveChar_eq, readChar_cleanReading]
    unfold assemble
    rw [hstate, hassembly, opened_of_waiting s p he (by simp)]
    dsimp only [appendChar]
    rw [hchars, lengthDue_chars, f.chars_length, if_pos le_rfl]
    unfold checkFrame
    rw [f.crcAgrees_chars, if_pos rfl, f.chars_body, Frame.parse_body hf]
  rw [exec_characterReceived s p hlive hu he, hchecked, hline.finish_eq hquality]
  exact (exec_received (h := { port := p, hop := f.hop, origin := f.origin }) (q := f.payload)
    (setAssembly p .wait (lineBusy p s)) (hline.live.trans hlive) ((hline.uses p).trans hu) hf).symm

theorem ownReadback_iff (x : Port) (f : Frame) :
    x.ownReadback f = true ↔ x.completed = some f ∨ ∃ a, x.attempt = some a ∧ a.frame = f := by
  unfold Port.ownReadback
  rw [Bool.or_eq_true, beq_iff_eq, Option.any_eq_true]
  simp

theorem lostRecord (g : GateUnit) (w : Winder) :
    g.lost.records[w] = if g.records[w].state = .releasable then GateRecord.locked (some 0) else g.records[w] := by
  unfold GateUnit.lost
  simp [GateRecord.lost]

theorem aborted_cycle (q : Sequencer) (door : Bool) : (q.aborted door).cycle ≠ .discharge := by
  unfold Sequencer.aborted
  split
  · split <;> simp
  · assumption

/-- R118: what the loss of the line makes of the trip. -/
theorem lineLost_trip (s : State) :
    (s.tripState = .armed → (lineLost s).tripState = .idle ∧ (lineLost s).trip.record.result = some .cancelled) ∧
      (∀ d, s.trip.record.details = some d → s.tripState = .running → (lineLost s).tripState = .stopping) ∧
      (s.tripState ≠ .armed → s.tripState ≠ .running → (lineLost s).trip = s.trip) := by
  refine ⟨fun h => ?_, fun d hd h => ?_, fun ha hr => ?_⟩
  · unfold lineLost State.tripState
    rw [show s.trip.record.state = .armed from h]
    dsimp only
    rw [closeTrip_trip]
    exact ⟨rfl, rfl⟩
  · unfold lineLost State.tripState
    rw [show s.trip.record.state = .running from h]
    dsimp only
    unfold enterStopping
    rw [enterStoppingOn_eq hd, reportTrip_trip]
    simp
  · unfold lineLost
    split
    · rename_i h; exact absurd h ha
    · rename_i h; exact absurd h hr
    · rfl

/-- Settles O19. -/
theorem duplicateNumberEntersListenOnly : Obligations.DuplicateNumberEntersListenOnly := by
  unfold Obligations.DuplicateNumberEntersListenOnly
  refine ⟨fun s h q hlive hu hf => ⟨fun hr => ⟨_, exec_received s hlive hu hf, ?_⟩, fun hr hphase =>
    ⟨_, exec_received s hlive hu hf, ?_⟩⟩, fun s h q hlive hphase hu hf hr ho => ⟨_, exec_received s hlive hu hf, ?_⟩⟩
  · dsimp only [receiveGood]
    rw [if_pos ((ownReadback_iff _ _).mpr hr)]
    exact setPort_quiet s h.port rfl
  · have hworking : s.working = false := by
      unfold State.working
      rcases hphase with hphase | hphase <;> rw [hphase] <;> rfl
    dsimp only [receiveGood]
    rw [if_neg (mt (ownReadback_iff _ _).mp hr), hworking, if_pos (by rfl)]
    exact finish_self s
  · have hworking : s.working = true := by
      unfold State.working
      rcases hphase with hphase | hphase <;> rw [hphase] <;> rfl
    dsimp only [receiveGood]
    rw [if_neg (by simp [hr]), hworking, if_neg (by simp), if_pos (show (frameOf h q).origin = s.cfg.station from ho)]
    have hsilenced := enterListenOnly_silenced s hphase
    obtain ⟨harmed, hrunning, hother⟩ := lineLost_trip (lostLine s)
    have htrip : (lostLine s).trip = s.trip := by rw [lostLine_eq]; rfl
    refine ⟨hsilenced.phase, hsilenced.listen, hsilenced.ports, hsilenced.drops.1, hsilenced.drops.2,
      by rw [hsilenced.gate]; rfl, fun w => by rw [hsilenced.gate, lostRecord]; rfl,
      by rw [hsilenced.seq]; exact aborted_cycle _ _, hsilenced.picture, hsilenced.stations, hsilenced.safety, ?_⟩
    unfold State.tripState at harmed hrunning hother ⊢
    rw [hsilenced.trip]
    rw [htrip] at harmed hrunning hother
    exact ⟨harmed, hrunning, hother⟩

end Sys2Proof.Machine
end

