-- ==== Sys2Proof/Proofs/GateKeys.lean ====
section
/-! PROOFS. Sys2Proof/Proofs/GateKeys.lean: the ASSENT that follows a change of its contents (R135), and the hold switch, the
emergency-stop key and the markers (R144 to R146). -/
set_option Elab.async false

namespace Sys2Proof.Machine

/-! The ASSENT at the end of a step (R135) -/

theorem Agrees.assentFrame {e t : State} (h : Agrees e t) : t.assentFrame = e.assentFrame := by
  unfold State.assentFrame
  rw [h.cfg, h.besideGates.assentContents h.records (by rw [h.seq])]

theorem Agrees.assentContents {e t : State} (h : Agrees e t) : t.assentContents = e.assentContents :=
  h.besideGates.assentContents h.records (by rw [h.seq])

/-- R135: a step that changes the contents in RUN restarts the ASSENT timer and puts the ASSENT to its queues. -/
theorem finish_assents {before e : State} (hg : e.hasGates = true) (hbefore : before.phase = .run) (hrun : e.phase = .run)
    (hne : before.assentContents ≠ e.assentContents) : (finish before e).gate.assentMs = some 0 ∧ ∃ n : Nat,
      (finish before e).portA.tx = (e.portA.tx.takeIn (sameReport e.assentFrame) e.assentFrame n).1 ∧
      (e.cfg.repeater = true →
        (finish before e).portB.tx = (e.portB.tx.takeIn (sameReport e.assentFrame) e.assentFrame n).1) := by
  have hshaft : shaftLineOnChange before e = e := by
    unfold shaftLineOnChange
    rw [if_neg (by simp [not_isDrum_of_hasGates hg])]
  have hassent : assentOnChange before e = originateAssent e := by
    unfold assentOnChange
    rw [if_pos ⟨hbefore, hne⟩]
  have hfinish : finish before e = judgeLeaving (originateAssent e) := by
    unfold finish
    rw [hshaft, hassent]
  have hports := originateAssent_portA e
  have hportB := originateAssent_portB e
  rw [if_pos ⟨hg, hrun⟩] at hports
  rw [hfinish]
  unfold judgeLeaving
  refine ⟨?_, e.model.stamp, ?_, fun hb => ?_⟩
  · rw [setEvents_gate, originateAssent_of e hg hrun]
    simp
  · rw [setEvents_portA, hports]
  · rw [setEvents_portB, hportB, if_pos ⟨hg, hrun, hb⟩]

/-- R135: the ASSENT of the new contents is offered, behind one frame more at most. -/
theorem assent_offered {s e : State} (hg : e.hasGates = true) (hbefore : s.phase = .run) (hrun : e.phase = .run)
    (hne : s.assentContents ≠ e.assentContents) (hcfg : e.cfg = s.cfg)
    (ha : e.portA.tx.entries.length ≤ s.portA.tx.entries.length + 1)
    (hb : e.portB.tx.entries.length ≤ s.portB.tx.entries.length + 1) :
    Offered s (finish s e) (finish s e).assentFrame ∧ (finish s e).gate.assentMs = some 0 := by
  obtain ⟨htimer, n, htxA, htxB⟩ := finish_assents hg hbefore hrun hne
  rw [(finish_agrees e s).assentFrame]
  refine ⟨⟨fun hroom => ?_, fun hrep hroom => ?_⟩, htimer⟩
  · rw [htxA]
    have hroom : s.portA.tx.entries.length + 2 ≤ 8 := hroom
    exact takeIn_holds _ _ _ _ (by omega)
  · rw [htxB (by rw [hcfg]; exact hrep)]
    have hroom : s.portB.tx.entries.length + 2 ≤ 8 := hroom
    exact takeIn_holds _ _ _ _ (by omega)

/-- An origination makes each transmit queue longer by one at most. -/
theorem originate_length (s : State) (p : Payload) :
    (originate p s).portA.tx.entries.length ≤ s.portA.tx.entries.length + 1 ∧
      (originate p s).portB.tx.entries.length ≤ s.portB.tx.entries.length + 1 := by
  rw [originate_portA, originate_portB]
  constructor
  · split
    · exact takeIn_length_le _ _ _ _
    · omega
  · split
    · exact takeIn_length_le _ _ _ _
    · omega

theorem setInputs_sameLine (s : State) (x : Inputs) : SameLine s (s.setInputs x) := ⟨rfl, rfl, rfl, rfl⟩

/-! The hold switch, the emergency-stop key and the markers (R144 to R146) -/

section
variable {s : State}

/-- A station on which the hold switch has acted. -/
def holdSwitched (on : Bool) (s : State) : State :=
  let e := s.setInputs { s.inputs with hold := on }
  if on && e.hasGates then raise .holdUnacknowledged e else e

theorem exec_holdSwitchChange {on : Bool} (hlive : s.live = true) (h : s.inputs.hold ≠ on) :
    exec (.holdSwitchChange on) s = .next (finish s (holdSwitched on s)) := by
  change execHoldSwitchChange on s = _
  unfold execHoldSwitchChange
  rw [onInput_of_live hlive (by simpa using h)]
  rfl

theorem holdSwitched_same (on : Bool) : ∃ n, holdSwitched on s = { s.setInputs { s.inputs with hold := on } with panel := n } := by
  unfold holdSwitched
  dsimp only
  split
  · exact ⟨_, raise_same _ _⟩
  · exact ⟨s.panel, rfl⟩

/-- A station on which the emergency-stop key has acted. -/
def stopKeyTurned (active : Bool) (s : State) : State :=
  let e := s.setInputs { s.inputs with estop := active }
  if active && e.hasGates then originate (.halt e.cfg.served .estopKey) e else e

theorem exec_emergencyStopKeyChange {active : Bool} (hlive : s.live = true) (h : s.inputs.estop ≠ active) :
    exec (.emergencyStopKeyChange active) s = .next (finish s (stopKeyTurned active s)) := by
  change execEmergencyStopKeyChange active s = _
  unfold execEmergencyStopKeyChange
  rw [onInput_of_live hlive (by simpa using h)]
  rfl

/-- A station on which a marker input has acted. -/
def markerChanged (w : Winder) (active : Bool) (s : State) : State :=
  let e := s.setInputs { s.inputs with marker := put s.inputs.marker w active }
  if active && e.serves w then originate (.mark w e.cfg.markers[w]) e else e

theorem exec_markerInputChange {w : Winder} {active : Bool} (hlive : s.live = true) (h : s.inputs.marker[w] ≠ active) :
    exec (.markerInputChange w active) s = .next (finish s (markerChanged w active s)) := by
  change execMarkerInputChange w active s = _
  unfold execMarkerInputChange
  rw [onInput_of_live hlive (by simpa using h)]
  rfl

end

/-- Settles O47. -/
theorem holdStopAndMarkers : Obligations.HoldStopAndMarkers := by
  unfold Obligations.HoldStopAndMarkers
  intro s hlive hg
  refine ⟨fun on hne => ⟨_, exec_holdSwitchChange hlive hne, ?_⟩,
    fun active hne => ⟨_, exec_emergencyStopKeyChange hlive hne, ?_⟩,
    fun w active hne => ⟨_, exec_markerInputChange hlive hne, ?_⟩⟩
  · obtain ⟨n, hn⟩ := holdSwitched_same (s := s) on
    have hagrees : Agrees { s with inputs := { s.inputs with hold := on } } (finish s (holdSwitched on s)) := by
      have h := finish_agrees (holdSwitched on s) s
      rw [hn] at h ⊢
      exact h.of_panel
    have hcontents : (holdSwitched on s).assentContents.hold = on := by rw [hn]; rfl
    refine ⟨hagrees, fun hrun => ?_, fun hrun => ?_, fun hw hon hack => ?_⟩
    · have hoffered := assent_offered (s := s) (e := holdSwitched on s) (by rw [hn]; exact hg) hrun (by rw [hn]; exact hrun)
        (fun h => hne (by rw [← hcontents, ← h]; rfl)) (by rw [hn]; rfl) (by rw [hn]; exact Nat.le_succ _)
        (by rw [hn]; exact Nat.le_succ _)
      exact ⟨hoffered.1, hoffered.2, by rw [(finish_agrees _ s).assentContents]; exact hcontents⟩
    · obtain ⟨ha, hb, -⟩ := finish_still (before := s) (e := holdSwitched on s) (by rw [hn]; exact hrun)
      rw [ha, hb, hn]
      exact ⟨rfl, rfl⟩
    · have hraised : holdSwitched on s = raise .holdUnacknowledged (s.setInputs { s.inputs with hold := on }) := by
        unfold holdSwitched
        exact if_pos (by rw [hon]; exact hg)
      refine (finish_ends s _).pending_of (e := .holdUnacknowledged) (by rw [hraised]; exact isPending_raise_self _ _ hw) ?_
      rw [(leavingMask_gates (s := holdSwitched on s) (by rw [hn]; exact hg)).1, hn]
      change (!on || s.holdAcknowledged) = false
      rw [hon, hack]
      rfl
  · have hkey : Agrees { s with inputs := { s.inputs with estop := active } } (stopKeyTurned active s) := by
      unfold stopKeyTurned
      dsimp only
      split
      · exact originate_agrees _ _
      · exact agrees_panel _ _
    have hlength : (stopKeyTurned active s).portA.tx.entries.length ≤ s.portA.tx.entries.length + 1 ∧
        (stopKeyTurned active s).portB.tx.entries.length ≤ s.portB.tx.entries.length + 1 := by
      unfold stopKeyTurned
      dsimp only
      split
      · exact originate_length _ _
      · exact ⟨Nat.le_succ _, Nat.le_succ _⟩
    have hcontents : (stopKeyTurned active s).assentContents.estop = active := by rw [hkey.assentContents]; rfl
    have hgates : (stopKeyTurned active s).hasGates = true := (hasGates_congr hkey.cfg).trans hg
    have hphase : (stopKeyTurned active s).phase = s.phase := by unfold State.phase; rw [hkey.loader]
    refine ⟨hkey.trans (finish_agrees _ s), fun hrun => ?_, fun hrun => ?_⟩
    · have hoffered := assent_offered hgates hrun (hphase.trans hrun) (fun h => hne (by rw [← hcontents, ← h]; rfl)) hkey.cfg
        hlength.1 hlength.2
      refine ⟨hoffered.1, hoffered.2, by rw [(finish_agrees _ s).assentContents]; exact hcontents, fun hactive => ?_⟩
      have hturned : stopKeyTurned active s =
          originate (.halt s.cfg.served .estopKey) (s.setInputs { s.inputs with estop := active }) := by
        unfold stopKeyTurned
        exact if_pos (by rw [hactive]; exact hg)
      rw [hturned]
      exact (setInputs_sameLine s _).offered _ (finish_ends s _) hrun (by simp [Payload.kind])
    · obtain ⟨ha, hb, -⟩ := finish_still (before := s) (e := stopKeyTurned active s) (by rwa [hphase])
      have hstill : stopKeyTurned active s = s.setInputs { s.inputs with estop := active } := by
        unfold stopKeyTurned
        dsimp only
        split
        · exact originate_of_not_run (by exact hrun) _
        · rfl
      rw [ha, hb, hstill]
      exact ⟨rfl, rfl⟩
  · have hmarker : Agrees { s with inputs := { s.inputs with marker := put s.inputs.marker w active } } (markerChanged w active s) := by
      unfold markerChanged
      dsimp only
      split
      · exact originate_agrees _ _
      · exact agrees_panel _ _
    refine ⟨hmarker.trans (finish_agrees _ s), fun hrun hactive hserves => ?_, fun hnot => ?_⟩
    · have hchanged : markerChanged w active s =
          originate (.mark w s.cfg.markers[w]) (s.setInputs { s.inputs with marker := put s.inputs.marker w active }) := by
        unfold markerChanged
        exact if_pos (by rw [hactive]; exact hserves)
      rw [hchanged]
      exact (setInputs_sameLine s _).offered _ (finish_ends s _) hrun (by simp [Payload.kind])
    · have hstill : markerChanged w active s = s.setInputs { s.inputs with marker := put s.inputs.marker w active } := by
        unfold markerChanged
        dsimp only
        split
        · rename_i h
          obtain ⟨hactive, hserves⟩ : active = true ∧ s.serves w = true := Bool.and_eq_true_iff.mp h
          rcases hnot with hrun | hoff | hnot
          · exact originate_of_not_run (by exact hrun) _
          · rw [hactive] at hoff; cases hoff
          · rw [hserves] at hnot; cases hnot
        · rfl
      rw [hstill]
      exact finish_quiet s _ (fun _ => rfl) fun _ h => h

end Sys2Proof.Machine
end

