-- ==== Sys2Proof/Proofs/Frames.lean ====
section
/-! PROOFS. Sys2Proof/Proofs/Frames.lean: what a chain of changes leaves as it was, by the blocks that it names. -/
set_option Elab.async false

namespace Sys2Proof.Machine

/-- The blocks that a command of the gates, the keys or the sequencer may touch. -/
def Block.ofGates : Block → Bool
  | .event _ => true
  | .events => true
  | .missed => true
  | .refusedCause => true
  | .offers => true
  | .records => true
  | .assentMs => true
  | .signal => true
  | .calls => true
  | .seq => true
  | _ => false

section
variable {b : Block} {bs : List Block} {s t : State}

theorem BesideGates.refl (s : State) : BesideGates s s := by constructor <;> rfl

theorem setGateUnit_besideGates (s : State) (g : GateUnit) : BesideGates s (s.setGate g) := by constructor <;> rfl

theorem Move.besideGates (h : Move b s t) (hb : b.ofGates = true) : BesideGates s t := by
  cases h <;> simp only [Block.ofGates, Bool.false_eq_true] at hb
  case event => exact (setEvents_agrees s _).besideGates
  case events => exact (setEvents_agrees s _).besideGates
  case missed => exact (setNotRegistered_agrees s _).besideGates
  case refusedCause => exact (agrees_panel s _).besideGates
  case originate => exact (originate_agrees s _).besideGates
  case record => exact setGateUnit_besideGates s _
  case assentMs => exact setGateUnit_besideGates s _
  case signal => exact setGateUnit_besideGates s _
  case call => exact setGateUnit_besideGates s _
  case seq => constructor <;> rfl

theorem Moves.besideGates (h : Moves bs s t) (hb : ∀ b ∈ bs, b.ofGates = true := by decide) : BesideGates s t :=
  h.keeps (P := BesideGates s) (fun b hm _ _ hmove hs => hs.trans (hmove.besideGates (hb b hm))) (.refl s)

theorem Move.records_eq (h : Move b s t) (hb : b ≠ .records) (hp : b ≠ .phase) : t.gate.records = s.gate.records := by
  cases h <;> simp_all [setNotRegistered, writeRecords, setEntry, setHoldSet, setSignal, setCall]

theorem Move.signal_eq (h : Move b s t) (hb : b ≠ .signal) : t.gate.signal = s.gate.signal := by
  cases h <;> simp_all [setNotRegistered, writeRecords, setEntry, setHoldSet, setGate, State.setGateRecord, setCall, lostLine_eq,
    emptyQueues, GateUnit.lost]

theorem Move.calls_eq (h : Move b s t) (hb : b ≠ .calls) : t.gate.calls = s.gate.calls := by
  cases h <;> simp_all [setNotRegistered, writeRecords, setEntry, setHoldSet, setGate, State.setGateRecord, setSignal, lostLine_eq,
    emptyQueues, GateUnit.lost]

theorem Move.callNotRegistered_eq (h : Move b s t) (hb : b ≠ .missed) :
    t.panel.callNotRegistered = s.panel.callNotRegistered := by
  cases h <;> simp_all [writeRecords, setEntry, setHoldSet, setGate, State.setGateRecord, setSignal, setCall, lostLine_eq,
    emptyQueues, originate_callNotRegistered]

/-- An event is touched by its own moves, by the clearing of the whole set, and TX OVERFLOW by an origination. -/
theorem Move.event_eq (h : Move b s t) {i : Nat} (hb : b ≠ .event i) (hall : b ≠ .events)
    (hoffer : i = Event.txOverflow.code → b ≠ .offers) :
    t.panel.pendingEvents.getLsbD i = s.panel.pendingEvents.getLsbD i := by
  cases h
  case event e' events hother =>
    rw [setEvents_pendingEvents, hother _ fun heq => hb (by rw [heq])]
  case originate p =>
    obtain ⟨more, hmore, hevents⟩ := (originate_raises s p).events
    have hne : ¬Event.txOverflow.code = i := fun heq => hoffer heq.symm rfl
    rw [hevents, BitVec.getLsbD_or, hmore.getLsbD_eq_false (by rw [Event.getLsbD_mask]; exact decide_eq_false hne), Bool.or_false]
  case events => exact absurd rfl hall
  all_goals simp [writeRecords, setEntry, setHoldSet, setGate, State.setGateRecord, setSignal, setCall, lostLine_eq, emptyQueues,
    setNotRegistered, partialEvaluation_panel]

theorem Moves.event_eq (h : Moves bs s t) {i : Nat}
    (hb : ∀ b ∈ bs, b ≠ .event i ∧ b ≠ .events ∧ (i = Event.txOverflow.code → b ≠ .offers)) :
    t.panel.pendingEvents.getLsbD i = s.panel.pendingEvents.getLsbD i :=
  h.fixes fun b hm _ _ hmove => hmove.event_eq (hb b hm).1 (hb b hm).2.1 (hb b hm).2.2

theorem Moves.isPending_eq (h : Moves bs s t) {e : Event}
    (hb : ∀ b ∈ bs, b ≠ .event e.code ∧ b ≠ .events ∧ (e.code = Event.txOverflow.code → b ≠ .offers) := by decide) :
    t.isPending e = s.isPending e := h.event_eq hb

theorem Moves.records_eq (h : Moves bs s t) (hb : ∀ b ∈ bs, b ≠ .records ∧ b ≠ .phase := by decide) :
    t.gate.records = s.gate.records := h.fixes fun b hm _ _ hmove => hmove.records_eq (hb b hm).1 (hb b hm).2

theorem Moves.signal_eq (h : Moves bs s t) (hb : ∀ b ∈ bs, b ≠ .signal := by decide) :
    t.gate.signal = s.gate.signal := h.fixes fun b hm _ _ hmove => hmove.signal_eq (hb b hm)

theorem Moves.calls_eq (h : Moves bs s t) (hb : ∀ b ∈ bs, b ≠ .calls := by decide) :
    t.gate.calls = s.gate.calls := h.fixes fun b hm _ _ hmove => hmove.calls_eq (hb b hm)

theorem Moves.callNotRegistered_eq (h : Moves bs s t) (hb : ∀ b ∈ bs, b ≠ .missed := by decide) :
    t.panel.callNotRegistered = s.panel.callNotRegistered := h.fixes fun b hm _ _ hmove => hmove.callNotRegistered_eq (hb b hm)

theorem Moves.gate_eq (h : Moves bs s t)
    (hb : ∀ b ∈ bs, b ∉ [Block.records, .assentMs, .signal, .calls, .phase] := by decide) : t.gate = s.gate :=
  h.fixes fun b hm _ _ hmove => hmove.gate_eq (hb b hm)

theorem Moves.seq_eq (h : Moves bs s t) (hb : ∀ b ∈ bs, b ≠ .seq ∧ b ≠ .phase := by decide) : t.seq = s.seq :=
  h.fixes fun b hm _ _ hmove => hmove.seq_eq (hb b hm).1 (hb b hm).2

theorem Moves.cfg_eq (h : Moves bs s t) : t.cfg = s.cfg := h.fixes fun _ _ _ _ hmove => hmove.cfg_eq

theorem Moves.loader_eq (h : Moves bs s t) (hb : ∀ b ∈ bs, b ≠ .phase ∧ b ≠ .loadDue := by decide) : t.loader = s.loader :=
  h.fixes fun b hm _ _ hmove => hmove.loader_eq (hb b hm).1 (hb b hm).2

theorem Moves.phase_eq (h : Moves bs s t) (hb : ∀ b ∈ bs, b ≠ .phase := by decide) : t.phase = s.phase :=
  h.fixes fun b hm _ _ hmove => hmove.phase_eq (hb b hm)

theorem Moves.picture_eq (h : Moves bs s t) (hb : ∀ b ∈ bs, b ≠ .picture := by decide) : t.picture = s.picture :=
  h.fixes fun b hm _ _ hmove => hmove.picture_eq (hb b hm)

theorem Moves.trip_eq (h : Moves bs s t) (hb : ∀ b ∈ bs, b ≠ .trip := by decide) : t.trip = s.trip :=
  h.fixes fun b hm _ _ hmove => hmove.trip_eq (hb b hm)

theorem Moves.safety_eq (h : Moves bs s t) (hb : ∀ b ∈ bs, b ≠ .safety := by decide) : t.safety = s.safety :=
  h.fixes fun b hm _ _ hmove => hmove.safety_eq (hb b hm)

theorem Moves.ports_eq (h : Moves bs s t) (hb : ∀ b ∈ bs, b ∉ [Block.ports, .offers, .queues, .relay, .phase] := by decide) :
    t.portA = s.portA ∧ t.portB = s.portB :=
  ⟨h.fixes fun b hm _ _ hmove => (hmove.queues_eq (hb b hm)).1, h.fixes fun b hm _ _ hmove => (hmove.queues_eq (hb b hm)).2.1⟩

theorem Moves.hasGates_eq (h : Moves bs s t) : t.hasGates = s.hasGates := hasGates_congr h.cfg_eq

theorem Moves.isLoading_eq (h : Moves bs s t) : t.isLoading = s.isLoading := by unfold State.isLoading; rw [h.cfg_eq]

theorem Moves.isTip_eq (h : Moves bs s t) : t.isTip = s.isTip := by unfold State.isTip State.isLanding; rw [h.cfg_eq]

end

end Sys2Proof.Machine
end

