-- ==== Sys2Proof/Proofs/SignalRecords.lean ====
section
/-! PROOFS. Sys2Proof/Proofs/SignalRecords.lean: what a WINDING and a POSITION make of the signal record and the call records
(R138 to R143). -/
set_option Elab.async false

namespace Sys2Proof.Machine

/-! A WINDING taken by the Gate and Key Unit (R140, Table 7-2) -/

section
variable {s : State} {r : WindingReport}

theorem signalReport_of_own (hw : s.gate.signal.winder = some r.winder) (ho : r.origin = s.cfg.station) :
    signalReport r s = matchingReport r s := by
  unfold signalReport
  dsimp only
  rw [if_pos hw, if_pos ho]

theorem signalReport_of_foreign (hw : s.gate.signal.winder = some r.winder) (ho : r.origin ≠ s.cfg.station) :
    signalReport r s =
      if s.gate.signal.status = .accepted ∧ s.gate.signal.number = some r.number then
        signalBecomes .idle s.gate.signal.number s
      else s := by
  unfold signalReport
  dsimp only
  rw [if_pos hw, if_neg ho]

theorem signalReport_of_other (hw : s.gate.signal.winder ≠ some r.winder) : signalReport r s = s := by
  unfold signalReport
  dsimp only
  rw [if_neg hw]

/-- The signal record at a status other than REFUSED, with no cause held and its timer stopped. -/
def SignalRecord.becomes (g : SignalRecord) (st : SignalStatus) (n : Option TripNumber) (c : Option RefusalCause) : SignalRecord where
  status := st
  winder := g.winder
  number := n
  cause := c
  replyMs := none

theorem signalBecomes_signal (st : SignalStatus) (n : Option TripNumber) :
    (signalBecomes st n s).gate.signal = s.gate.signal.becomes st n none := rfl

theorem signalRefused_signal (c : Option RefusalCause) :
    (signalRefused c s).gate.signal = s.gate.signal.becomes .refused s.gate.signal.number c := by
  unfold signalRefused
  rw [raise_gate]
  rfl

theorem signalRefused_pending (c : Option RefusalCause) (hw : s.working = true) : (signalRefused c s).isPending .refused = true :=
  isPending_raise_self _ _ hw

theorem signalExpires_signal (n : TripNumber) :
    (signalExpires n s).gate.signal = s.gate.signal.becomes .expired (some n) none := by
  unfold signalExpires
  rw [raise_gate, signalBecomes_signal]

theorem signalExpires_pending (n : TripNumber) (hw : s.working = true) : (signalExpires n s).isPending .expired = true :=
  isPending_raise_self _ _ hw

theorem matchingReport_refusal (hr : r.state = .refusal) : matchingReport r s = signalRefused (causeOf r.outcome) s := by
  unfold matchingReport
  rw [hr]

theorem matchingReport_open {st : TripState} (hr : r.state = .trip st) (hst : st ≠ .idle) :
    matchingReport r s = signalBecomes .accepted (some r.number) s := by
  unfold matchingReport
  rw [hr]
  cases st with
  | idle => exact absurd rfl hst
  | _ => rfl

/-- Table 7-2: a trip that is told IDLE ends the record: EXPIRED at that result, and IDLE at another. -/
def endsSignal (r : WindingReport) (s : State) : State :=
  if r.outcome == .result .expired then signalExpires r.number s else signalBecomes .idle (some r.number) s

theorem matchingReport_idle (hr : r.state = .trip .idle) : matchingReport r s =
    match s.gate.signal.status with
    | .awaiting => endsSignal r s
    | .noReply => endsSignal r s
    | .accepted => if s.gate.signal.number == some r.number then endsSignal r s else s
    | .idle =>
      if s.gate.signal.number == some r.number && r.outcome == .result .expired then signalExpires r.number s else s
    | .refused => s
    | .expired => s := by
  unfold matchingReport endsSignal
  cases hstatus : s.gate.signal.status <;> simp only [hr, hstatus] <;> rfl

/-- What a WINDING taken leaves at a station with gates: the signal record as `signalReport` makes it, and the events it raises. -/
theorem winding_taken {h : Heading} (ht : Taken h (.winding r) s) (hg : s.hasGates = true) :
    ∃ t, exec (.windingTaken h r) s = .next t ∧ BesideGates (s.relayed h (.winding r)) t ∧
      t.gate.records = s.gate.records ∧ t.gate.calls = s.gate.calls ∧
      t.gate.signal = (signalReport r (s.relayed h (.winding r))).gate.signal ∧
      (∀ e, e = .refused ∨ e = .expired → (signalReport r (s.relayed h (.winding r))).isPending e = true →
        t.isPending e = true) := by
  have hexec : exec (.windingTaken h r) s =
      .next (finish s (sequencerReport r (signalReport r (s.relayed h (.winding r))))) := exec_taken_gates ht hg
  have hsignal := signalReport_moves (s.relayed h (.winding r)) r
  have hseq := sequencerReport_moves (signalReport r (s.relayed h (.winding r))) r
  have hends := finish_ends s (sequencerReport r (signalReport r (s.relayed h (.winding r))))
  refine ⟨_, hexec, (hsignal.besideGates.trans hseq.besideGates).trans hends.toAgrees.besideGates, ?_, ?_, ?_,
    fun e he hp => hends.pending_of ?_ (leavingMask_of_gates ?_ ?_)⟩
  · rw [hends.records, hseq.records_eq, hsignal.records_eq, relayed_gate]
  · rw [hends.calls, hseq.calls_eq, hsignal.calls_eq, relayed_gate]
  · rw [hends.signal, hseq.signal_eq]
  · rwa [hseq.isPending_eq (by rcases he with rfl | rfl <;> decide)]
  · rw [hseq.hasGates_eq, hsignal.hasGates_eq]
    exact (hasGates_congr (relayed_cfg s h _)).trans hg
  · tauto

end

/-- Settles O45. The cases are the rows of Table 7-2. -/
theorem signalRecordReports : Obligations.SignalRecordReports := by
  unfold Obligations.SignalRecordReports
  refine fun s hg => ⟨fun h r ht => ?_, fun n hlive hw hstatus htimer => ?_⟩
  · obtain ⟨t, hexec, hbeside, hrecords, hcalls, hsignal, hpending⟩ := winding_taken ht hg
    have hworking : (s.relayed h (.winding r)).working = true := by
      unfold State.working State.phase; rw [relayed_loader]; exact ht.working
    have hown (hwinder : s.gate.signal.winder = some r.winder) (howner : r.origin = s.cfg.station) :
        signalReport r (s.relayed h (.winding r)) = matchingReport r (s.relayed h (.winding r)) :=
      signalReport_of_own (by rw [relayed_gate]; exact hwinder) (by rw [relayed_cfg]; exact howner)
    have hends (hr : r.state = .trip .idle) (hstatus : (s.gate.signal.status = .awaiting ∨ s.gate.signal.status = .noReply) ∨
        (s.gate.signal.status = .accepted ∧ s.gate.signal.number = some r.number)) :
        matchingReport r (s.relayed h (.winding r)) = endsSignal r (s.relayed h (.winding r)) := by
      rw [matchingReport_idle hr, relayed_gate]
      rcases hstatus with (hstatus | hstatus) | ⟨hstatus, hsame⟩ <;> rw [hstatus]
      exact if_pos (by simpa using hsame)
    refine ⟨t, hexec, hbeside, hrecords, hcalls, fun hwinder howner => ⟨fun hr => ?_, fun st hr hst => ?_,
      fun hr => ⟨fun hstatus => ⟨fun hexp => ?_, fun hexp => ?_⟩, fun hstatus hsame hexp => ?_, fun hstands => ?_⟩⟩,
      fun hwinder howner => ?_, fun hwinder => ?_⟩
    · rw [hown hwinder howner, matchingReport_refusal hr] at hsignal hpending
      rw [signalRefused_signal, relayed_gate] at hsignal
      exact ⟨hpending .refused (.inl rfl) (signalRefused_pending _ hworking), hsignal⟩
    · rw [hown hwinder howner, matchingReport_open hr hst, signalBecomes_signal, relayed_gate] at hsignal
      exact hsignal
    · rw [hown hwinder howner, hends hr hstatus, endsSignal, if_pos (by simpa using hexp)] at hsignal hpending
      rw [signalExpires_signal, relayed_gate] at hsignal
      exact ⟨hsignal, hpending .expired (.inr rfl) (signalExpires_pending _ hworking)⟩
    · rw [hown hwinder howner, hends hr hstatus, endsSignal, if_neg (by simpa using hexp), signalBecomes_signal,
        relayed_gate] at hsignal
      exact hsignal
    · rw [hown hwinder howner, matchingReport_idle hr, relayed_gate, hstatus] at hsignal hpending
      dsimp only at hsignal hpending
      rw [if_pos (by simp [hsame, hexp])] at hsignal hpending
      rw [signalExpires_signal, relayed_gate] at hsignal
      exact ⟨hsignal, hpending .expired (.inr rfl) (signalExpires_pending _ hworking)⟩
    · rw [hsignal, hown hwinder howner, matchingReport_idle hr, relayed_gate]
      rcases hstands with ⟨hstatus, hne⟩ | ⟨hstatus, hne⟩ | hstatus | hstatus <;> rw [hstatus] <;> dsimp only
      · rw [if_neg (by simpa using hne), relayed_gate]
      · rw [if_neg (by simpa using hne), relayed_gate]
      · rw [relayed_gate]
      · rw [relayed_gate]
    · rw [hsignal, signalReport_of_foreign (by rw [relayed_gate]; exact hwinder) (by rw [relayed_cfg]; exact howner), relayed_gate]
      split
      · rw [signalBecomes_signal, relayed_gate]; rfl
      · rw [relayed_gate]
    · rw [hsignal, signalReport_of_other (by rw [relayed_gate]; exact hwinder), relayed_gate]
  · have hexec : exec .replyTimerExpiry s = .next (finish s (if 2000 ≤ n then
        raise .noReply (setSignal { s.gate.signal with status := .noReply, replyMs := none } s) else s)) := by
      change execReplyTimerExpiry s = _
      unfold execReplyTimerExpiry
      rw [act_of_live hlive]
      dsimp only
      congr 2
      refine if_congr ?_ rfl rfl
      rw [reached_iff htimer]
      exact and_iff_right hstatus
    refine ⟨_, hexec, fun hn => ?_, fun hn => ?_⟩
    · rw [if_pos hn]
      refine ⟨(finish_ends s _).pending_of (isPending_raise_self _ _ hw) (leavingMask_of_gates ?_ (by simp)), ?_⟩
      · exact (hasGates_congr (raise_cfg _ _)).trans hg
      · exact (raise_agrees (setSignal { s.gate.signal with status := .noReply, replyMs := none } s) .noReply).trans
          (finish_agrees _ s)
    · rw [if_neg (by omega)]
      exact finish_self s

end Sys2Proof.Machine
end

