-- ==== Sys2Proof/Proofs/PositionSeen.lean ====
section
/-! PROOFS. Sys2Proof/Proofs/PositionSeen.lean: an accepted POSITION at a landing or loading station (R36): what the record makes of
the gates and the sequencer, and then the frame of the signal and call records (R141, R143). -/
set_option Elab.async false

namespace Sys2Proof.Machine

/-! Sets of winders -/

theorem winderIn_join (ws : WinderSet) (w v : Winder) : winderIn (winderJoin ws w) v = (winderIn ws v || decide (w = v)) := by
  unfold winderIn winderJoin
  rw [BitVec.getLsbD_or, BitVec.getLsbD_twoPow]
  simp [Fin.ext_iff, w.isLt]

theorem winderIn_leave (ws : WinderSet) (w v : Winder) : winderIn (winderLeave ws w) v = (winderIn ws v && !decide (w = v)) := by
  unfold winderIn winderLeave
  rw [BitVec.getLsbD_and, BitVec.getLsbD_not, BitVec.getLsbD_twoPow]
  simp [Fin.ext_iff, w.isLt]

theorem winderIn_empty (w : Winder) : winderIn 0 w = false := by simp [winderIn]

/-! A POSITION accepted at a station with gates -/

section
variable {s : State} {r : PositionReport}

/-- The records of its winder are written, and the blocks that read them act. -/
def positionSeen (r : PositionReport) (s : State) : State :=
  recordChange (s.landingCondition r.winder) r.winder
    (writeRecords r.winder (some (carryingOf r)) (some (counterweightOf r)) s)

/-- What a POSITION's record touches. -/
abbrev seenBlocks : List Block := [.picture, .records, .seq, .offers, .event 14]

theorem positionSeen_moves (r : PositionReport) (s : State) : Moves seenBlocks s (positionSeen r s) :=
  .trans (Move.picture s _ _ _ fun _ => rfl).moves (recordChange_moves _ _ _).of

theorem acceptPosition_of_gates (hg : s.hasGates = true) :
    acceptPosition r s = autoPosition r (callPosition r (signalPosition r (positionSeen r s))) := by
  unfold acceptPosition
  exact if_pos ((positionSeen_moves r s).hasGates_eq.trans hg)

theorem acceptsPosition_congr {s t : State} (hcfg : t.cfg = s.cfg) (hpicture : t.picture = s.picture) (r : PositionReport) :
    t.acceptsPosition r = s.acceptsPosition r := by
  unfold State.acceptsPosition State.isDrum
  rw [hcfg, hpicture]

/-- R36: an accepted POSITION taken at a station with gates. -/
theorem exec_position_gates {h : Heading} (ht : Taken h (.position r) s) (hg : s.hasGates = true)
    (hacc : s.acceptsPosition r = true) : exec (.positionTaken h r) s =
    .next (finish s (autoPosition r (callPosition r (signalPosition r (positionSeen r (s.relayed h (.position r))))))) := by
  have hexec : exec (.positionTaken h r) s = .next (finish s (takePosition r (s.relayed h (.position r)))) :=
    exec_taken_gates ht hg
  have hacc' : (s.relayed h (.position r)).acceptsPosition r = true :=
    (acceptsPosition_congr (relayed_cfg s h _) (relayed_picture s h _) r).trans hacc
  rw [hexec, takePosition, if_pos hacc', acceptPosition_of_gates ((hasGates_congr (relayed_cfg s h _)).trans hg)]

/-! The call record (R143, Table 7-3) -/

/-- Table 7-3: a call record judged by whether the call set lists the station. -/
def CallRecord.judged (c : CallRecord) (listed : Bool) : CallRecord :=
  match c.status with
  | .none => c
  | .sent =>
    if listed then { c with status := .listed }
    else if c.misses + 1 < 2 then { c with misses := c.misses + 1 }
    else { status := .notRegistered, misses := 2 }
  | .listed => if listed then c else { c with status := .none }
  | .notRegistered => if listed then { c with status := .listed } else c

theorem CallRecord.judged_once {c : CallRecord} (hc : c.status = .sent) (hm : c.misses = 0) :
    c.judged false = { status := .sent, misses := 1 } := by
  obtain ⟨st, m⟩ := c
  subst hc hm
  rfl

theorem CallRecord.judged_twice {c : CallRecord} (hc : c.status = .sent) (hm : c.misses = 1) :
    c.judged false = { status := .notRegistered, misses := 2 } := by
  obtain ⟨st, m⟩ := c
  subst hc hm
  rfl

theorem callPosition_calls : (callPosition r s).gate.calls =
    put s.gate.calls r.winder (s.gate.calls[r.winder].judged (stationIn r.callSet s.cfg.station)) := by
  unfold callPosition CallRecord.judged
  dsimp only
  cases s.gate.calls[r.winder].status <;> dsimp only
  · exact (put_self _ _).symm
  · split
    · rfl
    · split
      · rfl
      · unfold callMissed; rw [raise_gate]; rfl
  · split
    · exact (put_self _ _).symm
    · rfl
  · split
    · rfl
    · exact (put_self _ _).symm

/-- R143: the second miss raises CALL NOT REGISTERED for the winder. -/
theorem callPosition_missed (hw : s.working = true) (hc : s.gate.calls[r.winder].status = .sent)
    (hnot : stationIn r.callSet s.cfg.station = false) (hmiss : s.gate.calls[r.winder].misses = 1) :
    winderIn (callPosition r s).panel.callNotRegistered r.winder = true ∧
      (callPosition r s).isPending .callNotRegistered = true := by
  have heq : callPosition r s = callMissed r.winder s := by
    unfold callPosition
    dsimp only
    rw [hc, hnot, hmiss]
    rfl
  rw [heq, callMissed]
  refine ⟨?_, isPending_raise_self _ _ hw⟩
  rw [raise_callNotRegistered]
  change winderIn (winderJoin _ _) _ = true
  simp [winderIn_join]

/-- R143: a call that is listed after all takes its winder out of the set. -/
theorem callPosition_listed (hc : s.gate.calls[r.winder].status = .notRegistered)
    (hlisted : stationIn r.callSet s.cfg.station = true) :
    winderIn (callPosition r s).panel.callNotRegistered r.winder = false := by
  unfold callPosition
  dsimp only
  rw [hc, hlisted]
  change winderIn (winderLeave _ _) _ = false
  simp [winderIn_leave]

theorem signalPosition_signal : (signalPosition r s).gate.signal =
    if s.gate.signal.winder = some r.winder ∧ s.gate.signal.status = .accepted ∧
        (r.state = .idle ∨ s.gate.signal.number ≠ some r.number) then
      { s.gate.signal with status := .idle, cause := none, replyMs := none }
    else s.gate.signal := by
  unfold signalPosition
  dsimp only
  split <;> rfl

/-- CALL NOT REGISTERED does not leave while its winder set holds one. -/
theorem leavingMask_notRegistered (hg : s.hasGates = true) (hset : s.panel.callNotRegistered ≠ 0) :
    (leavingMask s).getLsbD Event.callNotRegistered.code = false := by
  unfold leavingMask commonLeaving gateLeaving
  rw [if_pos hg, if_neg (by simp [not_isDrum_of_hasGates hg])]
  simp only [BitVec.getLsbD_or, getLsbD_maskIf]
  simpa [Event.code] using hset

end

/-- Settles O46. -/
theorem callRecordJudged : Obligations.CallRecordJudged := by
  unfold Obligations.CallRecordJudged
  intro s h r ht hg hacc
  have hexec := exec_position_gates ht hg hacc
  let u := positionSeen r (s.relayed h (.position r))
  have hseen := positionSeen_moves r (s.relayed h (.position r))
  have hsignal := signalPosition_moves u r
  have hcall := callPosition_moves (signalPosition r u) r
  have hauto := autoPosition_moves (callPosition r (signalPosition r u)) r
  have hends := finish_ends s (autoPosition r (callPosition r (signalPosition r u)))
  have hbefore : (signalPosition r u).gate.calls = s.gate.calls := by
    rw [hsignal.calls_eq, hseen.calls_eq, relayed_gate]
  have hstation : (signalPosition r u).cfg.station = s.cfg.station := by
    rw [hsignal.cfg_eq, hseen.cfg_eq, relayed_cfg]
  have hworking : (signalPosition r u).working = true := by
    unfold State.working
    rw [hsignal.phase_eq, hseen.phase_eq]
    unfold State.phase
    rw [relayed_loader]
    exact ht.working
  have hcalls : (finish s (autoPosition r (callPosition r (signalPosition r u)))).gate.calls =
      put s.gate.calls r.winder (s.gate.calls[r.winder].judged (stationIn r.callSet s.cfg.station)) := by
    rw [hends.calls, hauto.calls_eq, callPosition_calls, hbefore, hstation]
  have hset : (finish s (autoPosition r (callPosition r (signalPosition r u)))).panel.callNotRegistered =
      (callPosition r (signalPosition r u)).panel.callNotRegistered := by
    rw [hends.missed, hauto.callNotRegistered_eq]
  have hgates : (autoPosition r (callPosition r (signalPosition r u))).hasGates = true := by
    rw [hauto.hasGates_eq, hcall.hasGates_eq, hsignal.hasGates_eq, hseen.hasGates_eq]
    exact (hasGates_congr (relayed_cfg s h _)).trans hg
  have hmissed (hc : s.gate.calls[r.winder].status = .sent) (hl : ¬stationIn r.callSet s.cfg.station = true)
      (hm : s.gate.calls[r.winder].misses = 1) :=
    callPosition_missed (r := r) hworking (by rw [hbefore]; exact hc) (by rw [hstation]; exact Bool.eq_false_iff.mpr hl)
      (by rw [hbefore]; exact hm)
  refine ⟨_, hexec, fun w hw => ?_, fun hc => ?_, fun hc => ⟨fun hl => ?_, fun hl hm => ?_, fun hl hm => ⟨?_, ?_, ?_⟩⟩, fun hc => ?_,
    fun hc => ⟨fun hl => ⟨?_, ?_⟩, fun hl => ?_⟩, ?_⟩
  · rw [hcalls, getElem_put, if_neg (Ne.symm hw)]
  · rw [hcalls, getElem_put, if_pos rfl, CallRecord.judged, hc]
  · rw [hcalls, getElem_put, if_pos rfl, CallRecord.judged, hc, hl]
    rfl
  · rw [hcalls, getElem_put, if_pos rfl, Bool.eq_false_iff.mpr hl, CallRecord.judged_once hc hm]
  · rw [hcalls, getElem_put, if_pos rfl, Bool.eq_false_iff.mpr hl, CallRecord.judged_twice hc hm]
  · rw [hset]
    exact (hmissed hc hl hm).1
  · refine hends.pending_of (by rw [hauto.isPending_eq]; exact (hmissed hc hl hm).2) (leavingMask_notRegistered hgates ?_)
    rw [hauto.callNotRegistered_eq]
    intro hempty
    have hin := (hmissed hc hl hm).1
    rw [hempty, winderIn_empty] at hin
    cases hin
  · rw [hcalls, getElem_put, if_pos rfl, CallRecord.judged, hc]
  · rw [hcalls, getElem_put, if_pos rfl, CallRecord.judged, hc, hl]
    rfl
  · rw [hset]
    exact callPosition_listed (by rw [hbefore]; exact hc) (by rw [hstation]; exact hl)
  · rw [hcalls, getElem_put, if_pos rfl, CallRecord.judged, hc]
    exact if_neg hl
  · have hstood : u.gate.signal = s.gate.signal := by rw [hseen.signal_eq, relayed_gate]
    rw [hends.signal, hauto.signal_eq, hcall.signal_eq, signalPosition_signal, hstood]

end Sys2Proof.Machine
end

