-- ==== Sys2Proof/Proofs/GateRecords.lean ====
section
/-! PROOFS. Sys2Proof/Proofs/GateRecords.lean: what a gate switch, a lock contact, the landing condition and an acknowledgement make
of a gate record (R127 to R131, R147). -/
set_option Elab.async false

namespace Sys2Proof.Machine

/-! One gate record changes -/

section
variable {s : State}

theorem setGate_self (s : State) (w : Winder) : setGate w s.gate.records[w] s = s := by
  unfold setGate State.setGateRecord
  rw [put_self]

theorem setGate_records (w : Winder) (g : GateRecord) : (setGate w g s).gate.records = put s.gate.records w g := rfl

/-- A change of each gate record in turn, each judged by itself, changes all of them by what stood before. -/
theorem foldl_records {f : State → Winder → State} {r : State → Winder → GateRecord}
    (hf : ∀ u w, f u w = setGate w (r u w) u) (hr : ∀ u w v g, v ≠ w → r (setGate w g u) v = r u v) (l : List Winder)
    (hl : l.Nodup) (u : State) (w : Winder) :
    (l.foldl f u).gate.records[w] = if w ∈ l then r u w else u.gate.records[w] := by
  induction l generalizing u with
  | nil => rfl
  | cons x xs ih =>
    obtain ⟨hx, hxs⟩ := List.nodup_cons.mp hl
    rw [List.foldl_cons, ih hxs, hf]
    by_cases hw : w ∈ xs
    · rw [if_pos hw, if_pos (List.mem_cons_of_mem _ hw), hr u x w _ fun heq => hx (heq ▸ hw)]
    · rw [if_neg hw, setGate_records, getElem_put]
      by_cases hwx : x = w
      · subst hwx
        rw [if_pos rfl, if_pos (List.mem_cons_self ..)]
      · rw [if_neg hwx, if_neg]
        intro hmem
        rcases List.mem_cons.mp hmem with heq | hmem
        · exact hwx heq.symm
        · exact hw hmem

/-- R130: an OPEN record judged by the landing condition as the records act on it, its gate and its lock. -/
def GateRecord.reopened (g : GateRecord) (condition closed engaged : Bool) : GateRecord :=
  if closed then if condition then GateRecord.inState .releasable else if engaged then GateRecord.locked none else g else g

theorem judgeOpen_eq (w : Winder) : judgeOpen w s =
    setGate w (s.gate.records[w].reopened (s.gateCondition w) s.inputs.gateClosed[w] s.inputs.lockEngaged[w]) s := by
  unfold judgeOpen GateRecord.reopened
  split
  · split
    · rfl
    · split
      · rfl
      · exact (setGate_self s w).symm
  · exact (setGate_self s w).symm

/-- R128 to R131: what a change of the landing condition in RUN makes of a record. -/
def GateRecord.conditioned (g : GateRecord) (holds closed engaged : Bool) : GateRecord :=
  match g.state with
  | .locked => if holds then GateRecord.inState .releasable else g
  | .releasable => if holds then g else GateRecord.locked (some 0)
  | .opened => g.reopened holds closed engaged
  | .forced => g

theorem conditionJudged_eq (was : Bool) (w : Winder) : conditionJudged was w s =
    setGate w
      (if s.serves w = true ∧ s.phase = .run ∧ s.landingCondition w ≠ was then
        s.gate.records[w].conditioned (s.landingCondition w) s.inputs.gateClosed[w] s.inputs.lockEngaged[w]
      else s.gate.records[w]) s := by
  unfold conditionJudged
  by_cases h : s.serves w = true ∧ s.phase = .run ∧ s.landingCondition w ≠ was
  · rw [if_pos (by simpa [and_assoc] using h), if_pos h]
    have hcondition : s.gateCondition w = s.landingCondition w := by simp [State.gateCondition, h.2.1]
    unfold GateRecord.conditioned State.gateState
    cases s.gate.records[w].state with
    | locked => dsimp only; split <;> simp only [setGate_self]
    | releasable => dsimp only; split <;> simp only [setGate_self]
    | opened => exact (judgeOpen_eq w).trans (by rw [hcondition])
    | forced => exact (setGate_self s w).symm
  · rw [if_neg (by simpa [and_assoc] using h), if_neg h, setGate_self]

/-- R131: what an acknowledgement makes of a record. -/
def acknowledged (s : State) (w : Winder) : GateRecord :=
  if s.serves w = true ∧ s.gateState w = .forced ∧ s.inputs.gateClosed[w] = true ∧ s.inputs.lockEngaged[w] = true then
    GateRecord.locked none
  else s.gate.records[w]

theorem acknowledged_setGate (w v : Winder) (g : GateRecord) (h : v ≠ w) : acknowledged (setGate w g s) v = acknowledged s v := by
  have hrecord : (setGate w g s).gate.records[v] = s.gate.records[v] := by rw [setGate_records, getElem_put, if_neg (Ne.symm h)]
  unfold acknowledged State.gateState
  rw [hrecord]
  rfl

theorem acknowledgeGates_records (w : Winder) : (acknowledgeGates s).gate.records[w] =
    if s.serves w = true ∧ s.serving = true ∧ s.gateState w = .forced ∧ s.inputs.gateClosed[w] = true ∧
        s.inputs.lockEngaged[w] = true then
      GateRecord.locked none
    else s.gate.records[w] := by
  have hone : ∀ (u : State) (v : Winder), (if u.serves v then acknowledgeGate u v else u) = setGate v (acknowledged u v) u :=
    fun u v => by
      unfold acknowledgeGate acknowledged
      by_cases hs : u.serves v = true
      · by_cases hforced : u.gateState v = .forced ∧ u.inputs.gateClosed[v] = true ∧ u.inputs.lockEngaged[v] = true
        · rw [if_pos hs, if_pos hforced, if_pos ⟨hs, hforced⟩]
        · rw [if_pos hs, if_neg hforced, if_neg fun h => hforced h.2, setGate_self]
      · rw [if_neg hs, if_neg fun h => hs h.1, setGate_self]
  have hmem : w ∈ winders := by revert w; decide
  unfold acknowledgeGates
  by_cases hact : s.hasGates && s.serving
  · have hserving : s.serving = true := (Bool.and_eq_true_iff.mp hact).2
    rw [if_pos hact, foldl_records hone (fun u x v g h => acknowledged_setGate x v g h) winders (by decide), if_pos hmem]
    unfold acknowledged
    exact if_congr (by rw [hserving]; simp) rfl rfl
  · rw [if_neg hact, if_neg]
    rintro ⟨hserves, hserving, -⟩
    unfold State.serves at hserves
    exact hact (by rw [hserving, (Bool.and_eq_true_iff.mp hserves).1]; rfl)

end

/-! The acknowledge key (R178, R30, R131) -/

section
variable {s : State}

/-- The end of a step that leaves lamp 14 of a drum as it was raises no event but TX OVERFLOW. -/
theorem finish_event {before e : State} (hshaft : e.shaftLine = before.shaftLine) {i : Nat} (hi : i ≠ Event.txOverflow.code)
    (hoff : e.panel.pendingEvents.getLsbD i = false) : (finish before e).panel.pendingEvents.getLsbD i = false := by
  have hsame : shaftLineOnChange before e = e := by
    unfold shaftLineOnChange
    rw [hshaft, if_neg (by simp)]
  obtain ⟨more, hmore, hevents⟩ := (assentOnChange_raises e before).events
  unfold finish judgeLeaving
  rw [hsame, setEvents_pendingEvents, BitVec.getLsbD_and, hevents, BitVec.getLsbD_or, hoff,
    hmore.getLsbD_eq_false (by rw [Event.getLsbD_mask]; exact decide_eq_false (Ne.symm hi))]
  rfl

/-- R178: the displayed event leaves the pending set, and CALL NOT REGISTERED its winder set empty. -/
theorem acknowledgeEvent_leaves (s : State) :
    (∃ n, acknowledgeEvent s = { s with panel := n }) ∧
      (s.eventCode ≠ 0 → (acknowledgeEvent s).panel.pendingEvents.getLsbD s.eventCode = false) ∧
      (s.hasGates = true → s.eventCode = 8 → (acknowledgeEvent s).panel.callNotRegistered = 0) := by
  unfold acknowledgeEvent emptyNotRegistered
  split
  · rename_i h
    exact ⟨⟨s.panel, rfl⟩, fun hne => absurd h hne, fun _ h8 => by rw [h] at h8; cases h8⟩
  · generalize hcode : s.eventCode = code
    have hbit : (setEvents (s.panel.pendingEvents &&& ~~~BitVec.twoPow 16 code) s).panel.pendingEvents.getLsbD code = false := by
      rw [setEvents_pendingEvents, BitVec.getLsbD_and, BitVec.getLsbD_not, BitVec.getLsbD_twoPow]
      by_cases hlt : code < 16 <;> simp [hlt]
    obtain ⟨n, hn⟩ : ∃ n, setEvents (s.panel.pendingEvents &&& ~~~BitVec.twoPow 16 code) s = { s with panel := n } :=
      ⟨_, setEvents_same s _⟩
    rw [hn] at hbit ⊢
    split
    · exact ⟨⟨_, rfl⟩, fun _ => hbit, fun _ _ => rfl⟩
    · rename_i hnot
      exact ⟨⟨_, rfl⟩, fun _ => hbit, fun hg h8 => absurd (show (s.hasGates && code == 8) = true by rw [hg, h8]; rfl) hnot⟩

end

/-- Settles O48. -/
theorem acknowledgeKeyPressed : Obligations.AcknowledgeKeyPressed := by
  unfold Obligations.AcknowledgeKeyPressed
  intro s hlive
  obtain ⟨⟨n, hn⟩, hbit, hempty⟩ := acknowledgeEvent_leaves s
  let v := clearDropFlags (acknowledgeEvent s)
  have hv : v = { s with relay := { s.relay with upDrop := false, downDrop := false }, panel := n } := by
    change clearDropFlags (acknowledgeEvent s) = _
    rw [hn]
    rfl
  have hexec : exec .acknowledgeKey s = .next (finish s (judgeGo (acknowledgeGates v))) := by
    change execAcknowledgeKey s = _
    unfold execAcknowledgeKey
    rw [act_of_live hlive]
  have hgates := acknowledgeGates_moves v
  have hgo := judgeGo_moves (acknowledgeGates v)
  have hends := finish_ends s (judgeGo (acknowledgeGates v))
  have hbeside : BesideGates v (judgeGo (acknowledgeGates v)) := hgates.besideGates.trans hgo.besideGates
  refine ⟨_, hexec, ?_, ?_, ?_, fun hne htx => ?_, fun hg h8 => ?_, fun w => ?_⟩
  · refine BesideGates.trans ?_ (hbeside.trans hends.toAgrees.besideGates)
    rw [hv]
    exact (agrees_panel _ n).besideGates
  · rw [hends.signal, hgo.signal_eq, hgates.signal_eq, hv]
  · rw [hends.calls, hgo.calls_eq, hgates.calls_eq, hv]
  · refine finish_event ?_ htx ?_
    · rw [hbeside.shaftLine, hv]
      rfl
    · rw [hgo.event_eq (by simpa using show s.eventCode ≠ Event.txOverflow.code from htx), hgates.event_eq (by simp)]
      exact hbit hne
  · rw [hends.missed, hgo.callNotRegistered_eq, hgates.callNotRegistered_eq]
    exact hempty hg h8
  · rw [hends.records, hgo.records_eq, acknowledgeGates_records, hv]
    refine if_congr ?_ rfl rfl
    have hserving : s.serving = true ↔ s.phase = .run ∨ s.phase = .listenOnly := by
      unfold State.serving
      cases s.phase <;> simp [Phase.serving]
    exact and_congr Iff.rfl (and_congr hserving Iff.rfl)

end Sys2Proof.Machine
end

