-- ==== Sys2Proof/Proofs/GateSwitches.lean ====
section
/-! PROOFS. Sys2Proof/Proofs/GateSwitches.lean: the gate records when a conveyance record changes (R127 to R131, R147, R37), and a
gate switch whose HALT is lost. -/
set_option Elab.async false

namespace Sys2Proof.Machine

/-! A conveyance record changes (R36, R37) -/

section
variable {s : State} {w : Winder}

/-- Of the blocks that read a record, only the gate records act on the gate records. -/
theorem recordChange_records (was : Bool) (w : Winder) (s : State) :
    (recordChange was w s).gate.records = (conditionJudged was w s).gate.records := by
  unfold recordChange
  rw [(judgeGo_moves _).records_eq]
  split
  · rw [(skipRecordChange_moves _).records_eq]
  · rfl

/-- What the judging of the landing condition makes of the gate records, where it was as `was` and holds as `holds`. -/
theorem conditionJudged_records {was holds : Bool} (hholds : s.landingCondition w = holds) :
    let changed := s.serves w = true ∧ s.phase = .run ∧ holds ≠ was
    (∀ v, v ≠ w → (conditionJudged was w s).gate.records[v] = s.gate.records[v]) ∧
      (¬changed → (conditionJudged was w s).gate.records[w] = s.gate.records[w]) ∧
      (changed → (conditionJudged was w s).gate.records[w] =
        s.gate.records[w].conditioned holds s.inputs.gateClosed[w] s.inputs.lockEngaged[w]) := by
  intro changed
  rw [conditionJudged_eq, hholds, setGate_records]
  refine ⟨fun v hv => ?_, fun hnot => ?_, fun hc => ?_⟩
  · rw [getElem_put, if_neg (Ne.symm hv)]
  · rw [getElem_put, if_pos rfl, if_neg hnot]
  · rw [getElem_put, if_pos rfl, if_pos hc]

/-- R127: a STALE record shows no landing condition. -/
theorem landingCondition_stale (y : Option Counterweight) (s : State) :
    (writeRecords w (s.picture.carrying[w].map Carrying.stale) y s).landingCondition w = false := by
  have hrecord : (writeRecords w (s.picture.carrying[w].map Carrying.stale) y s).picture.carrying[w] =
      s.picture.carrying[w].map Carrying.stale := by
    change (put _ _ _)[w] = _
    rw [getElem_put, if_pos rfl]
  rw [← Bool.not_eq_true, landingCondition_iff, hrecord]
  rintro ⟨x, hx, hcurrent, -⟩
  obtain ⟨x', -, rfl⟩ := Option.map_eq_some_iff.mp hx
  cases hcurrent

/-- The state in which the records of a winder have gone STALE, with PICTURE STALE raised for a served winder. -/
def recordGone (w : Winder) (s : State) : State :=
  let v := writeRecords w (s.picture.carrying[w].map Carrying.stale) (s.picture.counterweight[w].map Counterweight.stale) s
  if s.serves w then raise .pictureStale v else v

theorem recordGone_same (w : Winder) (s : State) : ∃ n, recordGone w s =
    { writeRecords w (s.picture.carrying[w].map Carrying.stale) (s.picture.counterweight[w].map Counterweight.stale) s with
      panel := n } := by
  unfold recordGone
  dsimp only
  split
  · exact ⟨_, raise_same _ _⟩
  · exact ⟨s.panel, rfl⟩

theorem expireRecord_eq (w : Winder) (s : State) : expireRecord w s = recordChange (s.landingCondition w) w (recordGone w s) := rfl

/-- R37: the expiry of a CURRENT record whose age has reached its staleness time. -/
theorem exec_conveyanceRecordExpiry {x : Carrying} (hlive : s.live = true) (hw : s.working = true)
    (hx : s.picture.carrying[w] = some x) (hcurrent : x.current = true) (hage : x.staleness ≤ x.age) :
    exec (.conveyanceRecordExpiry w) s = .next (finish s (expireRecord w s)) := by
  change execConveyanceRecordExpiry w s = _
  unfold execConveyanceRecordExpiry
  rw [act_of_live hlive, if_pos]
  rw [hw, hx]
  simp [Carrying.over, hcurrent, hage]

end

/-! A HALT that is lost (R18) -/

/-- A frame whose entry order is still to be given out: no run of the model leaves such an entry in a queue. -/
def staleEntry : Entry := Entry.new { hop := 0, origin := 1, payload := .call 0 .persons .register } 0 0

/-- A transmit queue of six such entries. -/
def crowdedPort : Port := { Port.reset with tx := { entries := List.replicate 6 staleEntry, nextOrder := 0 } }

/-- A tip in RUN and READY whose two served gates stand closed and engaged, and whose transmit queue is crowded. -/
def crowdedTip : State where
  pending := []
  loader := { State.reset.loader with powered := true, oscillating := false, pinHeld := false, phase := .run }
  cfg := { Params.reset with role := some .landing, tipFlag := true, served := 3, tipWinder := 1 }
  inputs := { Inputs.reset with gateClosed := Vector.replicate 4 true, lockEngaged := Vector.replicate 4 true, auto := true }
  clock := State.reset.clock
  portA := crowdedPort
  portB := State.reset.portB
  relay := State.reset.relay
  picture := State.reset.picture
  stations := State.reset.stations
  depth := State.reset.depth
  env := State.reset.env
  trip := State.reset.trip
  safety := State.reset.safety
  gate := State.reset.gate
  seq := { Sequencer.reset with tip := .ready }
  panel := State.reset.panel
  model := State.reset.model

/-- The next state of an answer has no HALT in the transmit queue of Port A. -/
def withoutHalt : Answer → Bool
  | .next t => t.portA.tx.entries.all (fun e => e.frame.kind != .halt)
  | _ => false

/-- The gate that opens puts three frames to the queue: its HALT, the automatic GO of the other winder, which is in READY, and the
ASSENT. The queue is full for the third, whose removal of the newest entry of greater class takes every entry of that order, the
HALT among them. -/
theorem crowdedTip_withoutHalt : withoutHalt (exec (.gateSwitchChange 0 false) crowdedTip) = true := by decide

/-- Refutes O41: a gate opened under LOCKED at a tip in READY originates its HALT, the automatic GO and an ASSENT, three frames where
the statement asks for room for two; in a state whose entry orders are not fresh the third takes the HALT out of the queue. -/
theorem not_gateSwitchAndLock : ¬ Obligations.GateSwitchAndLock := by
  unfold Obligations.GateSwitchAndLock
  rintro ⟨-, h⟩
  obtain ⟨t, hexec, -, -, -, -, hforced⟩ := (h crowdedTip 0 (by decide) (by decide) (by decide) (by decide)).1 false (by decide)
  obtain ⟨-, hoffered⟩ := hforced (by decide) rfl
  obtain ⟨e, he, hframe⟩ := (hoffered (by decide)).1 (by decide)
  have hnone := crowdedTip_withoutHalt
  rw [hexec] at hnone
  have hkind := List.all_eq_true.mp hnone e he
  rw [hframe] at hkind
  exact absurd hkind (by decide)

end Sys2Proof.Machine
end

