-- ==== Sys2Proof/Proofs/ClearSet.lean ====
section
/-! PROOFS. Sys2Proof/Proofs/ClearSet.lean: the lock releases, the clear set and the ASSENT contents (R132, R134, R135), and
how many frames a command of a station with gates puts to its queue. -/
set_option Elab.async false

namespace Sys2Proof.Machine

/-! The clear set (R134) -/

section
variable (s : State)

theorem winderIn_foldl (q : Winder → Bool) (l : List Winder) (t : WinderSet) (v : Winder) :
    winderIn (l.foldl (fun t w => if q w then winderJoin t w else t) t) v = (winderIn t v || (decide (v ∈ l) && q v)) := by
  induction l generalizing t with
  | nil => simp
  | cons x xs ih =>
    rw [List.foldl_cons, ih]
    by_cases hq : q x = true
    · rw [if_pos hq, winderIn_join]
      by_cases hx : x = v
      · subst hx; simp [hq]
      · simp [hx, Ne.symm hx]
    · rw [if_neg hq]
      by_cases hx : v = x
      · subst hx; simp [hq]
      · simp [hx]

theorem winderIn_clearSet (w : Winder) : winderIn s.clearSet w = s.qualifiedFlag w := by
  have hmem : w ∈ winders := by revert w; decide
  unfold State.clearSet
  rw [winderIn_foldl, winderIn_empty]
  simp [hmem]

theorem serves_iff (w : Winder) : s.serves w = true ↔ s.hasGates = true ∧ winderIn s.cfg.served w = true := by
  simp [State.serves]

theorem serving_iff : s.serving = true ↔ s.phase = .run ∨ s.phase = .listenOnly := by
  unfold State.serving
  cases s.phase <;> simp [Phase.serving]

theorem clearFlag_iff (w : Winder) : s.clearFlag w = true ↔ (s.serves w = true ∧ s.serving = true) ∧
    (s.gate.records[w].state = .releasable ∨
      (s.gate.records[w].state = .locked ∧ (s.inputs.lockEngaged[w] = true ∨ s.gate.records[w].settleMs ≠ none))) := by
  unfold State.clearFlag
  rw [Bool.and_eq_true, Bool.and_eq_true]
  refine and_congr Iff.rfl ?_
  cases s.gate.records[w].state <;> simp [Option.isSome_iff_ne_none]

theorem qualifiedFlag_iff (w : Winder) : s.qualifiedFlag w = true ↔ s.clearFlag w = true ∧
    (s.isLoading = true → w = s.cfg.tipWinder →
      s.inputs.doorClosed = true ∧ s.inputs.spillage = false ∧ s.seq.cycle ≠ .discharge) := by
  unfold State.qualifiedFlag
  cases s.isLoading <;> simp [and_assoc, imp_iff_not_or]

theorem lockRelease_iff (w : Winder) : s.lockRelease w = true ↔ s.serves w = true ∧ s.live = true ∧ s.phase = .run ∧
    (s.gate.records[w].state = .releasable ∨ (s.gate.records[w].state = .opened ∧ s.landingCondition w = true)) := by
  simp [State.lockRelease, State.gateState]
  tauto

end

/-! How many frames a command adds (R16) -/

/-- `t` is `s` with at most `n` entries more in the transmit queue of Port A, its configuration as it was. -/
structure Adds (n : Nat) (s t : State) : Prop where
  cfg : t.cfg = s.cfg
  tx  : t.portA.tx.entries.length ≤ s.portA.tx.entries.length + n

section
variable {s t u : State} {n m : Nat}

theorem Adds.refl (s : State) : Adds 0 s s := ⟨rfl, le_rfl⟩

theorem Adds.trans (h : Adds n s t) (h' : Adds m t u) : Adds (n + m) s u :=
  ⟨h'.cfg.trans h.cfg, by have := h.tx; have := h'.tx; omega⟩

theorem Adds.mono (h : Adds n s t) (hn : n ≤ m := by decide) : Adds m s t := ⟨h.cfg, by have := h.tx; omega⟩

theorem Adds.ite {c : Prop} [Decidable c] (h : Adds n s t) (h' : Adds n s u) : Adds n s (if c then t else u) := by
  split
  · exact h
  · exact h'

theorem Adds.when {c : Prop} [Decidable c] (h : c → Adds n s t) : Adds n s (if c then t else s) := by
  split
  · rename_i hc; exact h hc
  · exact (Adds.refl s).mono (Nat.zero_le n)

theorem Move.adds {b : Block} (h : Move b s t) (hb : b ≠ .offers) : Adds 0 s t := by
  refine ⟨h.cfg_eq, ?_⟩
  cases h
  case originate => exact absurd rfl hb
  case port p x hx => cases p <;> simp_all [State.port]
  case ownQueue p q hq hl => cases p <;> simp_all [State.port]
  case listenOnly => rw [lostLine_eq]; exact Nat.zero_le _
  all_goals simp [setNotRegistered, writeRecords, setEntry, setHoldSet, setGate, State.setGateRecord, setSignal, setCall]

theorem Moves.adds {bs : List Block} (h : Moves bs s t) (hb : ∀ b ∈ bs, b ≠ .offers := by decide) : Adds 0 s t :=
  h.keeps (P := Adds 0 s) (fun b hm _ _ hmove hs => hs.trans (hmove.adds (hb b hm))) (.refl s)

theorem originate_adds (s : State) (p : Payload) : Adds 1 s (originate p s) :=
  ⟨originate_cfg s p, (originate_length s p).1⟩

theorem setSeq_adds (s : State) (q : Sequencer) : Adds 0 s (s.setSeq q) := ⟨rfl, le_rfl⟩

theorem raise_adds (s : State) (e : Event) : Adds 0 s (raise e s) := ⟨by simp, by simp⟩

theorem writeRecords_adds (s : State) (w : Winder) (x : Option Carrying) (y : Option Counterweight) :
    Adds 0 s (writeRecords w x y s) := ⟨rfl, le_rfl⟩

theorem originateGo_adds (s : State) : Adds 1 s (originateGo s) := (originate_adds s s.autoGo).trans (setSeq_adds _ _)

theorem judgeGo_adds (s : State) : Adds 2 s (judgeGo s) := by
  have hload : Adds 1 s (judgeLoadGo s) := .when fun _ => (originateGo_adds s).trans (setSeq_adds _ _)
  have htip : ∀ v : State, Adds 1 v (judgeTipGo v) := fun v => .when fun _ => (originateGo_adds v).trans (setSeq_adds _ _)
  exact hload.trans (htip _)

theorem interlock_adds (s : State) (r : HaltReason) (e : Event) : Adds 1 s (interlock r e s) :=
  (originate_adds s _).trans (raise_adds _ e)

theorem judgeSkipMoved_adds (s : State) : Adds 1 s (judgeSkipMoved s) :=
  .ite ((setSeq_adds s _).trans (interlock_adds _ .skipMoved .skipMoved)) ((setSeq_adds s _).mono)

theorem reportTrip_adds (s : State) (d : Depth) (o : WindingOutcome) : Adds 1 s (reportTrip d o s) := by
  rcases reportTrip_originates s d o with h | ⟨p, h⟩ <;> rw [h]
  · exact (Adds.refl s).mono
  · exact originate_adds s p

theorem closeTrip_adds (s : State) (r : TripResult) : Adds 1 s (closeTrip r s) := by
  have hclosed : ∀ x : TripUnit, Adds 0 s (takePending (partialEvaluation (s.setTrip x))) := fun x =>
    ⟨(partialEvaluation_besideTrip (s.setTrip x)).cfg, by simp [takePending]⟩
  exact (Adds.ite ((hclosed _).trans (raise_adds _ .tripExpired)) (hclosed _)).trans (reportTrip_adds _ _ _)

theorem enterStopping_adds (s : State) : Adds 1 s (enterStopping s) := by
  unfold enterStopping enterStoppingOn
  split
  · exact (Adds.refl s).mono
  · exact (evaluated_moves s { s.trip with record := _ } (by rfl)).adds.trans (reportTrip_adds _ _ _)

theorem enterListenOnly_adds (s : State) : Adds 1 s (enterListenOnly s) := by
  by_cases h : s.phase = .listen ∨ s.phase = .run
  · rw [enterListenOnly_eq s h]
    refine Adds.trans (n := 0) (m := 1) ((Move.listenOnly s h).adds (by decide)) ?_
    unfold lineLost
    split
    · exact closeTrip_adds _ _
    · exact enterStopping_adds _
    · exact (Adds.refl _).mono
  · unfold enterListenOnly
    rw [if_neg h]
    exact (Adds.refl s).mono

theorem skipRecordChange_adds (s : State) : Adds 1 s (skipRecordChange s) := by
  unfold skipRecordChange
  refine .when fun _ => .ite (Adds.trans (n := 0) ?_ (judgeSkipMoved_adds _)) (.when fun _ => Adds.mono (n := 0) ?_)
  · split
    · exact (judgeDischarge_moves s).adds
    · exact .ite (.refl s) (endDischarge_moves s _).adds
    · exact .refl s
    · rename_i hc
      exact .when fun _ => (skipDeparts_moves s (by simp [hc])).adds
    · rename_i hc
      exact .when fun _ => (skipDeparts_moves s (by simp [hc])).adds
  · split
    · exact (judgeDwell_moves s).adds
    · exact .when fun _ => (tipLeaves_moves s).adds
    · exact .when fun _ => (tipLeaves_moves s).adds
    · exact .when fun _ => (tipLeaves_moves s).adds

theorem recordChange_adds (was : Bool) (w : Winder) (s : State) : Adds 3 s (recordChange was w s) :=
  (conditionJudged_moves s was w).adds.trans ((Adds.when fun _ => skipRecordChange_adds _).trans (judgeGo_adds _))

theorem acceptPosition_adds (r : PositionReport) (s : State) : Adds 3 s (acceptPosition r s) := by
  refine Adds.trans (n := 3) (m := 0) (Adds.trans (n := 0) ?_ (recordChange_adds _ _ _)) (.when fun _ => ?_)
  · exact writeRecords_adds s _ _ _
  · exact (signalPosition_moves _ r).adds.trans ((callPosition_moves _ r).adds.trans (autoPosition_moves _ r).adds)

theorem expireRecord_adds (w : Winder) (s : State) : Adds 3 s (expireRecord w s) :=
  Adds.trans (n := 0) (Adds.trans (n := 0) (m := 0) (writeRecords_adds s _ _ _) (.when fun _ => raise_adds _ .pictureStale))
    (recordChange_adds _ w _)

theorem originateAssent_adds (s : State) : Adds 1 s (originateAssent s) :=
  .when fun _ =>
    have h := originate_adds (s.setGate { s.gate with assentMs := some 0 }) (.assent s.assentContents)
    ⟨h.cfg, h.tx⟩

theorem completeAttempt_adds (p : PortId) (a : Attempt) (s : State) : Adds 2 s (completeAttempt p a s) := by
  refine Adds.trans (n := 0) (m := 2) ?_ (.when fun _ => (setSeq_adds _ _).trans (judgeGo_adds _))
  refine Adds.trans (n := 0) (m := 0)
    (port_moves s p { s.port p with attempt := none, completed := some a.frame } (by rfl)).adds ?_
  exact (changeQueue_moves _ p _ _ (fun _ h => h.complete _) fun q => complete_length q _).adds

theorem readBack_adds (p : PortId) (n : Nat) (r : BitReading) (s : State) : Adds 1 s (readBack p n r s) := by
  have hcollide : ∀ a : Attempt, Adds 1 s (collide p a s) := fun a => by
    have hkept := (port_moves s p { s.port p with attempt := none } (by rfl)).adds.trans
      (changeQueue_moves _ p a.relayed (fun q => q.update a.order Entry.collides)
        (fun _ h => h.update _ fun _ => ⟨by rfl, by rfl, by rfl⟩) fun q => update_length q _ _).adds
    exact .ite (hkept.trans (enterListenOnly_adds _)) hkept.mono
  unfold readBack
  split
  · split
    · exact .when fun _ => hcollide _
    · exact (Adds.refl s).mono
  · exact (Adds.refl s).mono

theorem gateOpens_adds (w : Winder) (s : State) : Adds 1 s (gateOpens w s) := by
  unfold gateOpens
  split
  · exact (setGate_inState_moves s w (by decide)).adds.trans ((originate_adds _ _).trans (raise_adds _ .gateForced))
  · exact (setGate_inState_moves s w (by decide)).adds.mono
  · exact (Adds.refl s).mono
  · exact (Adds.refl s).mono

theorem pressSend_adds (dest : Station) (cls : TripClass) (s : State) : Adds 1 s (pressSend dest cls s) :=
  (originate_adds s _).trans <| Adds.trans (n := 0) (m := 0) (sentSignal_moves _ _).adds <|
    Adds.trans (n := 0) (m := 0) (leave_moves _ .refused).adds <|
      Adds.trans (n := 0) (m := 0) (leave_moves _ .expired).adds (leave_moves _ .noReply).adds

theorem pressCall_adds (cls : TripClass) (s : State) : Adds 1 s (pressCall cls s) := by
  unfold pressCall
  dsimp only
  split <;> exact Adds.trans (n := 1) (m := 0) (originate_adds s _) ⟨rfl, le_rfl⟩

theorem doorChanged_adds (closed : Bool) (s : State) : Adds 2 s (doorChanged closed s) := by
  refine .when fun _ => Adds.trans (n := 1) (.ite ?_ (.ite ((Adds.refl s).mono) (interlock_adds s _ _))) (judgeSkipMoved_adds _)
  exact ((doorReadsClosed_moves s).adds.trans (judgeDischarge_moves _).adds).mono

theorem spillageChanged_adds (active : Bool) (s : State) : Adds 1 s (spillageChanged active s) :=
  .when fun _ => .ite ((endDischarge_moves s _).adds.trans (interlock_adds _ _ _)) ((judgeDischarge_moves s).adds.mono)

theorem channelChange_adds (hdrum : s.isDrum = false) (ch : Level × Level) : Adds 0 s (channelChange ch s) := by
  unfold channelChange
  dsimp only
  split
  · exact ⟨rfl, le_rfl⟩
  · exact ⟨rfl, le_rfl⟩
  · exact ⟨rfl, le_rfl⟩
  · rw [illegalChange_eq, if_neg fun h => absurd (hdrum.symm.trans h.2.1) (by decide)]
    exact ⟨rfl, le_rfl⟩

theorem deliverToLanding_adds (f : Frame) (s : State) : Adds 3 s (deliverToLanding f s) := by
  unfold deliverToLanding
  split
  · exact ((signalReport_moves s _).adds.trans (sequencerReport_moves _ _).adds).mono
  · exact .when fun _ => acceptPosition_adds _ s
  · exact (Adds.refl s).mono

theorem receiveGood_adds (hg : s.hasGates = true) (p : PortId) (f : Frame) : Adds 3 s (receiveGood p f s) := by
  have hdrum := not_isDrum_of_hasGates hg
  unfold receiveGood
  refine .ite ((port_moves s p _ (by rfl)).adds.mono) (.ite ((Adds.refl s).mono) (.ite ((enterListenOnly_adds s).mono) ?_))
  refine Adds.trans (n := 0) (m := 3) (relayFrame_moves s p f).adds ?_
  unfold deliverFrame
  have hrelayed : (relayFrame p f s).cfg = s.cfg := (relayFrame_moves s p f).cfg_eq
  rw [isDrum_congr hrelayed, hdrum, if_neg (by simp)]
  exact .when fun _ => deliverToLanding_adds f _

theorem assemble_adds (hg : s.hasGates = true) (p : PortId) (o : CharOutcome) : Adds 3 s (assemble p o s) := by
  have hset (a : Assembly) (u : State) : Adds 0 u (setAssembly p a u) := (setAssembly_moves u p a).adds
  have hdiscard (a : Assembly) : Adds 3 s (setAssembly p a (countError p s)) := (discard_moves s p a).adds.mono
  have hcheck (chars : List Byte) (u : State) (hu : u.hasGates = true) : Adds 3 u (checkFrame p chars u) := by
    unfold checkFrame
    refine .ite ?_ (countError_moves u p).adds.mono
    split
    · exact receiveGood_adds hu p _
    · exact (countError_moves u p).adds.mono
  unfold assemble
  split
  · exact (Adds.refl s).mono
  · exact hdiscard _
  · exact (hset _ s).mono
  · exact hdiscard _
  · exact .ite ((hset .wait s).trans (hcheck _ _ ((hasGates_congr (hset .wait s).cfg).trans hg))) (hset _ s).mono
  · exact (Adds.refl s).mono
  · exact (Adds.refl s).mono
  · exact hdiscard _
  · exact (Adds.refl s).mono
  · exact hdiscard _

theorem receiveChar_adds (hg : s.hasGates = true) (p : PortId) (r : CharReading) : Adds 3 s (receiveChar p r s) := by
  have hopened : Adds 0 s (opened s p (readChar r)) :=
    (lineBusy_moves s p).adds.trans (port_moves _ p { (lineBusy p s).port p with engine := _ } (by rfl)).adds
  rw [receiveChar_eq]
  exact hopened.trans (assemble_adds ((hasGates_congr hopened.cfg).trans hg) p _)

/-! A command that changes the ASSENT contents in RUN (R135) -/

/-- R135: if both are in RUN and `t` has other contents than `s`, the ASSENT is queued and its timer is at 0. -/
def Prompt (s t : State) : Prop :=
  t.phase = .run → t.assentContents ≠ s.assentContents → t.gate.assentMs = some 0 ∧
    (s.portA.tx.entries.length ≤ 3 → t.portA.tx.holds t.assentFrame)

theorem Prompt.of_same (h : t.assentContents = s.assentContents) : Prompt s t := fun _ hne => absurd h hne

theorem Prompt.of_adds (hg : s.hasGates = true) (hrun : s.phase = .run) (h : Adds n s t) (hn : n ≤ 4 := by decide) :
    Prompt s (finish s t) := by
  intro ht hne
  have htrun : t.phase = .run := by rwa [(finish_moves t s).phase_eq] at ht
  rw [(finish_agrees t s).assentContents] at hne
  obtain ⟨htimer, k, htx, -⟩ := finish_assents ((hasGates_congr h.cfg).trans hg) hrun htrun (Ne.symm hne)
  refine ⟨htimer, fun hroom => ?_⟩
  rw [htx, (finish_agrees t s).assentFrame]
  exact takeIn_holds _ _ _ _ (by have := h.tx; omega)

end

section
variable {s : State} (hg : s.hasGates = true) (hrun : s.phase = .run)
include hg hrun

theorem act_prompt {f : State → State} (h : Adds 4 s (f s)) : ∃ t, act f s = .next t ∧ Prompt s t :=
  act_answers (.of_same rfl) fun _ => .of_adds hg hrun h

theorem onInput_prompt {c : Bool} {x : State → Inputs} {f : State → State} (hlive : s.live = true)
    (h : ∀ u, u.hasGates = true → u.cfg = s.cfg → Adds 4 u (f u)) :
    ∃ t, onInput c (fun s => s.setInputs (x s)) f s = .next t ∧ Prompt s t := by
  unfold onInput
  rw [inReset_of_live hlive]
  split
  · have hset : Adds 0 s (s.setInputs (x s)) := ⟨rfl, le_rfl⟩
    exact ⟨_, rfl, .of_adds hg hrun (hset.trans (h _ hg rfl))⟩
  · exact ⟨_, rfl, .of_same rfl⟩

/-- Every command of a live station with gates in RUN is prompt with its ASSENT. -/
theorem exec_prompt (hstart : StartInv s) (hlive : s.live = true) (c : Instr) : ∃ t, exec c s = .next t ∧ Prompt s t := by
  have hdrum := not_isDrum_of_hasGates hg
  have acts {f : State → State} (h : Adds 4 s (f s)) : ∃ t, act f s = .next t ∧ Prompt s t := act_prompt hg hrun h
  have changes {k : Bool} {x : State → Inputs} {f : State → State}
      (h : ∀ u, u.hasGates = true → u.cfg = s.cfg → Adds 4 u (f u)) :
      ∃ t, onInput k (fun s => s.setInputs (x s)) f s = .next t ∧ Prompt s t := onInput_prompt hg hrun hlive h
  have takes (h : Heading) (q : Payload) : ∃ t, act (receiveFrame h q) s = .next t ∧ Prompt s t :=
    acts (.when fun _ => .ite (receiveGood_adds hg _ _).mono (countError_moves s _).adds.mono)
  have of {a : Answer} : (∃ t, a = .next t ∧ Prompt s t) → ∃ t, a = .next t ∧ Prompt s t := id
  have stays {t : State} (hphase : t.phase = .init) : Prompt s t := fun ht => absurd (hphase.symm.trans ht) (by decide)
  obtain ⟨hpowered, hosc, hpin⟩ : s.loader.powered = true ∧ s.loader.oscillating = false ∧ s.loader.pinHeld = false := by
    simpa [State.live, State.inReset] using hlive
  cases c with
  | powerOn => exact ⟨_, rfl, stays rfl⟩
  | powerLoss => exact ⟨_, rfl, .of_same rfl⟩
  | oscillatorStartExpiry =>
    refine ⟨s, ?_, .of_same rfl⟩
    change execOscillatorStartExpiry s = _
    simp [execOscillatorStartExpiry, hosc]
  | warmReset =>
    refine ⟨warmReset s, ?_, stays rfl⟩
    change execWarmReset s = _
    simp [execWarmReset, hpowered]
  | resetPinRelease =>
    refine ⟨s, ?_, .of_same rfl⟩
    change execResetPinRelease s = _
    simp [execResetPinRelease, hpin]
  | recordReadComplete levels =>
    have hreading : s.loader.reading = false := by
      by_contra hr
      exact absurd (hrun.symm.trans (hstart.reading (by simpa using hr))) (by decide)
    refine of (a := execRecordReadComplete levels s) <|
      acts (f := fun s => if s.loader.reading then readComplete levels s else s) ?_
    rw [hreading]
    exact (Adds.refl s).mono
  | listenTimerExpiry =>
    exact of (a := execListenTimerExpiry s) (acts (.when fun h => absurd (h.1.symm.trans hrun) (by decide)))
  | characterReceived p r =>
    refine of (a := execCharacterReceived p r s) (acts (.when fun _ => (receiveChar_adds hg p r).mono))
  | lineBecomesIdle x => exact of (a := execLineBecomesIdle x s) (acts (.when fun _ => (passBitTimes_moves s _ _).adds.mono))
  | lineBecomesBusy p => exact of (a := execLineBecomesBusy p s) (acts (.when fun _ => (lineBusy_moves s p).adds.mono))
  | transmissionStart p n =>
    exact of (a := execTransmissionStart p n s) <|
      acts (.when fun _ => ((passBitTimes_moves s p n).adds.trans (startSending_moves _ p).adds).mono)
  | collision p n r => exact of (a := execCollision p n r s) (acts (.when fun _ => (readBack_adds p n r s).mono))
  | transmissionComplete p =>
    refine of (a := execTransmissionComplete p s) <|
      acts (f := fun s => match (s.port p).attempt with | some a => completeAttempt p a s | none => s) ?_
    split
    · exact (completeAttempt_adds p _ s).mono
    · exact (Adds.refl s).mono
  | errorWindowAdvance =>
    change ∃ t, execErrorWindowAdvance s = .next t ∧ _
    rw [execErrorWindowAdvance_eq]
    exact acts (windowsAdvance_moves s).adds.mono
  | haltTaken h ws reason => exact of (a := execHaltTaken h ws reason s) (takes h _)
  | signalGo h w dest cls auto => exact of (a := execSignalGo h w dest cls auto s) (takes h _)
  | signalStop h w dest cls auto => exact of (a := execSignalStop h w dest cls auto s) (takes h _)
  | signalCancel h w dest cls auto => exact of (a := execSignalCancel h w dest cls auto s) (takes h _)
  | callRegister h w cls => exact of (a := execCallRegister h w cls s) (takes h _)
  | callCancel h w cls => exact of (a := execCallCancel h w cls s) (takes h _)
  | positionTaken h r => exact of (a := execPositionTaken h r s) (takes h _)
  | conveyanceRecordExpiry w =>
    exact of (a := execConveyanceRecordExpiry w s) <|
      acts (.when fun _ => (expireRecord_adds w s).mono)
  | assentTaken h r => exact of (a := execAssentTaken h r s) (takes h _)
  | announceTaken h body seg dig => exact of (a := execAnnounceTaken h body seg dig s) (takes h _)
  | stationEntryExpiry n => exact of (a := execStationEntryExpiry n s) (acts (.when fun h => absurd h (by simp [hdrum])))
  | holdOverrideKey => exact of (a := execHoldOverrideKey s) (acts (.when fun h => absurd h (by simp [hdrum])))
  | encoderChannelChange a b =>
    rcases exec_encoderChannelChange hpowered hosc a b with ⟨-, h⟩ | ⟨hdead, -⟩
    · exact ⟨_, h, .of_adds hg hrun (channelChange_adds hdrum _)⟩
    · exact absurd (hlive.symm.trans hdead) (by decide)
  | encoderFaultClear =>
    change ∃ t, execEncoderFaultClear s = .next t ∧ _
    unfold execEncoderFaultClear
    split
    · exact ⟨_, rfl, .of_same rfl⟩
    · exact ⟨_, rfl, .of_same rfl⟩
  | sample first => exact of (a := execSample first s) (acts (.when fun h => absurd h (by simp [hdrum])))
  | markTaken h w d => exact of (a := execMarkTaken h w d s) (takes h _)
  | correctionOffInputChange on =>
    exact of (a := execCorrectionOffInputChange on s) <|
      changes fun u hu _ => .when fun h => absurd h (by simp [not_isDrum_of_hasGates hu])
  | tableClearKey => exact of (a := execTableClearKey s) (acts (.when fun h => absurd h (by simp [hdrum])))
  | armTimerExpiry => exact of (a := execArmTimerExpiry s) (acts (.when fun _ => (closeTrip_adds s _).mono))
  | autoEnableInputChange on =>
    exact of (a := execAutoEnableInputChange on s) <|
      changes fun u _ _ => .when fun _ => (closeTrip_adds u _).mono
  | autoStartPulseEnd => exact of (a := execAutoStartPulseEnd s) (acts (.when fun _ => (autoStartEnds_moves s).adds.mono))
  | callLifeExpiry n => exact of (a := execCallLifeExpiry n s) (acts (Adds.mono (n := 0) ⟨rfl, le_rfl⟩))
  | localEstopInputChange on =>
    exact of (a := execLocalEstopInputChange on s) <|
      changes fun u hu _ => .when fun h => absurd h (by simp [not_isDrum_of_hasGates hu])
  | tripResetKey =>
    refine of (a := execTripResetKey s) (acts (f := fun s => if s.hasGates then s else pressReset s) ?_)
    rw [if_pos hg]
    exact (Adds.refl s).mono
  | gateSwitchChange w on =>
    refine of (a := execGateSwitchChange w on s) <|
      changes fun u _ _ => .when fun _ => Adds.mono (n := 3) (Adds.trans (n := 1) (m := 2) (.ite ?_ ?_) (judgeGo_adds _))
    · exact (gateCloses_moves u w).adds.mono
    · exact gateOpens_adds w u
  | lockContactChange w on =>
    exact of (a := execLockContactChange w on s) <|
      changes fun u _ _ => .when fun _ => ((lockChanges_moves u on w).adds.trans (judgeGo_adds _)).mono
  | lockSettleTimerExpiry w =>
    exact of (a := execLockSettleTimerExpiry w s) <|
      acts (.when fun _ => ((setGate_locked_moves s w none).adds.trans (judgeGo_adds _)).mono)
  | assentTimerExpiry => exact of (a := execAssentTimerExpiry s) (acts (.when fun _ => (originateAssent_adds s).mono))
  | acknowledgeKey =>
    refine of (a := execAcknowledgeKey s) (acts ?_)
    refine Adds.mono (n := 2) (Adds.trans (n := 0) ?_ (judgeGo_adds _))
    refine Adds.trans (n := 0) (m := 0) (acknowledgeEvent_moves s).adds ?_
    exact ((Move.dropFlags _ false false).adds (by decide)).trans (acknowledgeGates_moves _).adds
  | sendKey dest cls => exact of (a := execSendKey dest cls s) (acts (.when fun _ => (pressSend_adds dest cls s).mono))
  | stopKey dest cls => exact of (a := execStopKey dest cls s) (acts (.when fun _ => (originate_adds s _).mono))
  | cancelKey dest cls => exact of (a := execCancelKey dest cls s) (acts (.when fun _ => (originate_adds s _).mono))
  | callKey cls => exact of (a := execCallKey cls s) (acts (.when fun _ => (pressCall_adds cls s).mono))
  | windingTaken h r => exact of (a := execWindingTaken h r s) (takes h _)
  | replyTimerExpiry => exact of (a := execReplyTimerExpiry s) (acts (.when fun h => (replyTimer_moves s h.1).adds.mono))
  | holdSwitchChange on =>
    exact of (a := execHoldSwitchChange on s) <|
      changes fun u _ _ => .when fun _ => (raise_adds u _).mono
  | emergencyStopKeyChange on =>
    exact of (a := execEmergencyStopKeyChange on s) <|
      changes fun u _ _ => .when fun _ => (originate_adds u _).mono
  | markerInputChange w on =>
    exact of (a := execMarkerInputChange w on s) <|
      changes fun u _ _ => .when fun _ => (originate_adds u _).mono
  | flaskFullChange on =>
    exact of (a := execFlaskFullChange on s) <|
      changes fun u _ _ => .when fun _ => (judgeDischarge_moves u).adds.mono
  | flaskEmptyChange on =>
    exact of (a := execFlaskEmptyChange on s) <|
      changes fun u _ _ => (flaskEmptyChanged_moves u on).adds.mono
  | doorClosedChange on => exact of (a := execDoorClosedChange on s) (changes fun u _ _ => (doorChanged_adds on u).mono)
  | spillageChange on => exact of (a := execSpillageChange on s) (changes fun u _ _ => (spillageChanged_adds on u).mono)
  | doorTimerExpiry =>
    exact of (a := execDoorTimerExpiry s) <|
      acts (.when fun h => (Adds.trans (setSeq_adds s _) (interlock_adds _ _ _)).mono)
  | autoInputChange on => exact of (a := execAutoInputChange on s) (changes fun u _ _ => (judgeGo_adds u).mono)
  | autoReplyTimerExpiry => exact of (a := execAutoReplyTimerExpiry s) (acts (.when fun _ => (originateGo_adds s).mono))
  | retryTimerExpiry =>
    exact of (a := execRetryTimerExpiry s) <|
      acts (.when fun _ => ((setSeq_adds s _).trans (judgeGo_adds _)).mono)
  | dwellTimerExpiry =>
    exact of (a := execDwellTimerExpiry s) <|
      acts (.when fun h => ((setSeq_adds s _).trans (judgeGo_adds _)).mono)
  | flashClockHalf => exact of (a := execFlashClockHalf s) (acts (Adds.mono (n := 0) ⟨rfl, le_rfl⟩))
  | lampTestKeyChange on => exact of (a := execLampTestKeyChange on s) (changes fun u _ _ => (Adds.refl u).mono)
  | darkInputChange on => exact of (a := execDarkInputChange on s) (changes fun u _ _ => (Adds.refl u).mono)
  | strobePulseEnd => exact of (a := execStrobePulseEnd s) (acts (.when fun _ => ⟨rfl, by simp⟩))
  | winderSelectorChange w => exact of (a := execWinderSelectorChange w s) (changes fun u _ _ => (Adds.refl u).mono)
  | recessiveBitTimeAfterFraming p =>
    exact of (a := execRecessiveBitTimeAfterFraming p s) <|
      acts (.when fun _ => (passBitTimes_moves s p 1).adds.mono)

end

/-! The timers (R134, R135) -/

section
variable {s : State}

/-- Settles O42. -/
theorem clearSetAndAssent : Obligations.ClearSetAndAssent := by
  unfold Obligations.ClearSetAndAssent
  refine ⟨fun s w hg hserved => ?_, fun s w h => ?_, fun _ => rfl, fun c s t hstart hlive hg hrun hexec => ?_,
    fun s hlive => ⟨fun w n hlocked hn => ?_, fun n hg hrun hn => ?_⟩⟩
  · have hserves : s.serves w = true := (serves_iff s w).2 ⟨hg, hserved⟩
    refine ⟨?_, fun hphase => ?_, fun hrun hlost => ?_⟩
    · rw [lockRelease_iff, landingCondition_iff]
      simp only [hserves, true_and]
    · rw [winderIn_clearSet, qualifiedFlag_iff, clearFlag_iff, serving_iff]
      simp only [hserves, hphase, true_and, and_true]
    · rw [winderIn_clearSet, ← Bool.not_eq_true, qualifiedFlag_iff, clearFlag_iff, serving_iff]
      simp only [hrun, hlost, or_self, and_false, false_and, not_false_eq_true]
  · have hserves : s.serves w = false := by
      rcases h with h | h <;> simp [State.serves, h]
    rw [winderIn_clearSet, ← Bool.not_eq_true, ← Bool.not_eq_true, lockRelease_iff, qualifiedFlag_iff, clearFlag_iff, hserves]
    simp
  · obtain ⟨t', ht', hprompt⟩ := exec_prompt hg hrun hstart hlive c
    obtain rfl : t' = t := by simpa using ht'.symm.trans hexec
    exact hprompt
  · have hexec : exec (.lockSettleTimerExpiry w) s = .next (finish s
        (if s.gateState w = .locked ∧ reached s.gate.records[w].settleMs Config.settleTime then
          judgeGo (setGate w (GateRecord.locked none) s) else s)) := act_of_live hlive
    refine ⟨_, hexec, fun hdue => ?_, fun hearly => ?_⟩
    · rw [if_pos ⟨hlocked, (reached_iff hn _).2 hdue⟩]
      have hset := setGate_locked_moves s w none
      have hgo := judgeGo_moves (setGate w (GateRecord.locked none) s)
      have hagrees := finish_agrees (judgeGo (setGate w (GateRecord.locked none) s)) s
      refine ⟨(hset.besideGates.trans hgo.besideGates).trans hagrees.besideGates, ?_, ?_, ?_⟩
      · rw [hagrees.signal, hgo.signal_eq, hset.signal_eq]
      · rw [hagrees.calls, hgo.calls_eq, hset.calls_eq]
      · rw [hagrees.records, hgo.records_eq, setGate_records]
        rfl
    · rw [if_neg fun h => Nat.not_le_of_lt hearly ((reached_iff hn _).1 h.2)]
      exact finish_self s
  · have hexec : exec .assentTimerExpiry s = .next (finish s
        (if reached s.gate.assentMs Config.assentPeriod then originateAssent s else s)) := act_of_live hlive
    refine ⟨_, hexec, fun hdue => ?_, fun hearly => ?_⟩
    · rw [if_pos ((reached_iff hn Config.assentPeriod).2 hdue)]
      have hagrees := originateAssent_agrees s
      have hquiet : Quiet (originateAssent s) (finish s (originateAssent s)) :=
        finish_quiet s _ (fun _ => hagrees.assentContents.symm)
          (fun hdrum => absurd (hdrum.symm.trans (isDrum_congr hagrees.cfg)) (by simp [not_isDrum_of_hasGates hg]))
      refine ⟨hagrees.trans hquiet.toAgrees, ?_, ⟨fun hroom => ?_, fun hrep hroom => ?_⟩⟩
      · rw [hquiet.gate, originateAssent_of s hg hrun]
        simp
      · rw [hquiet.portA', originateAssent_portA, if_pos ⟨hg, hrun⟩]
        exact takeIn_holds _ _ _ _ (by have : s.portA.tx.entries.length + 2 ≤ 8 := hroom; omega)
      · rw [hquiet.portB', originateAssent_portB, if_pos ⟨hg, hrun, hrep⟩]
        exact takeIn_holds _ _ _ _ (by have : s.portB.tx.entries.length + 2 ≤ 8 := hroom; omega)
    · rw [if_neg fun h => Nat.not_le_of_lt hearly ((reached_iff hn Config.assentPeriod).1 h)]
      exact finish_self s

end

end Sys2Proof.Machine
end

