-- ==== Sys2Proof/Proofs/ConveyanceTable.lean ====
section
/-! PROOFS. Sys2Proof/Proofs/ConveyanceTable.lean: an accepted POSITION, and the expiry of a record (R35 to R37). -/
set_option Elab.async false

namespace Sys2Proof.Machine

section
variable {s : State} {r : PositionReport}

/-- R35: what is accepted. -/
theorem acceptsPosition_iff : s.acceptsPosition r = true ↔ ¬(s.isDrum = true ∧ r.winder = s.cfg.winder) ∧
    ∀ x, s.picture.carrying[r.winder] = some x → x.current = true →
      1 ≤ (r.seq - x.seq).toNat ∧ (r.seq - x.seq).toNat ≤ 127 := by
  have hown : (!(s.isDrum && r.winder == s.cfg.winder)) = true ↔ ¬(s.isDrum = true ∧ r.winder = s.cfg.winder) := by
    simp [imp_iff_not_or]
  unfold State.acceptsPosition
  rw [Bool.and_eq_true, hown]
  refine and_congr Iff.rfl ?_
  cases s.picture.carrying[r.winder] with
  | none => simp
  | some x => cases hc : x.current <;> simp [hc, succeeds]

/-- What an accepted POSITION does beside the gates, the sequencer, the queues and the events. -/
theorem acceptPosition_besideGates (r : PositionReport) (s : State) :
    BesideGates (writeRecords r.winder (some (carryingOf r)) (some (counterweightOf r)) s) (acceptPosition r s) := by
  have hchange (was : Bool) (u : State) : BesideGates u (recordChange was r.winder u) :=
    (recordChange_moves u was r.winder).besideGates
  unfold acceptPosition
  dsimp only
  split
  · exact (hchange _ _).trans <| (signalPosition_moves _ r).besideGates.trans <|
      (callPosition_moves _ r).besideGates.trans (autoPosition_moves _ r).besideGates
  · exact hchange _ _

/-- R37, R147: a RELEASABLE gate whose condition ends with its record becomes LOCKED. -/
theorem expireRecord_locks {w : Winder} (hs : s.serves w = true) (hrun : s.phase = .run) (hcond : s.landingCondition w = true)
    (hrel : s.gateState w = .releasable) : (expireRecord w s).gate.records[w] = { state := .locked, settleMs := some 0 } := by
  obtain ⟨n, hn⟩ := recordGone_same w s
  have hstale : (recordGone w s).landingCondition w = false := by
    rw [hn]
    exact landingCondition_stale (s.picture.counterweight[w].map Counterweight.stale) s
  have hserves : (recordGone w s).serves w = true := by rw [hn]; exact hs
  have hphase : (recordGone w s).phase = .run := by rw [hn]; exact hrun
  have hrecord : (recordGone w s).gate.records[w] = s.gate.records[w] := by rw [hn]; rfl
  obtain ⟨-, -, hchanged⟩ := conditionJudged_records (was := true) hstale
  rw [expireRecord_eq, hcond, recordChange_records, hchanged ⟨hserves, hphase, by decide⟩, hrecord]
  unfold GateRecord.conditioned
  have hst : s.gate.records[w].state = .releasable := hrel
  rw [hst]
  rfl

/-- R37: a served winder whose record goes STALE makes PICTURE STALE pending, and it stays so. -/
theorem expireRecord_pending {w : Winder} {x : Carrying} (hw : s.working = true) (hs : s.serves w = true)
    (hx : s.picture.carrying[w] = some x) : (finish s (expireRecord w s)).isPending .pictureStale = true := by
  have hmoves := recordChange_moves (recordGone w s) (s.landingCondition w) w
  obtain ⟨n, hn⟩ := recordGone_same w s
  obtain ⟨hg, hserved⟩ := (serves_iff s w).1 hs
  have hgates : (expireRecord w s).hasGates = true := by
    rw [expireRecord_eq, hmoves.hasGates_eq, hn]
    exact hg
  have hraised : (recordGone w s).isPending .pictureStale = true := by
    unfold recordGone
    rw [if_pos hs]
    exact isPending_raise_self _ _ hw
  have hstale : (expireRecord w s).picture.carrying[w] = some x.stale := by
    rw [expireRecord_eq, hmoves.picture_eq, hn, hx]
    exact (getElem_put _ _ _ _).trans (if_pos rfl)
  have hlost : (expireRecord w s).servedCurrent = false := by
    unfold State.servedCurrent State.currentRecord
    rw [List.all_eq_false]
    refine ⟨w, mem_winders w, ?_⟩
    rw [hstale, expireRecord_eq, hmoves.cfg_eq, hn]
    simp [writeRecords, hserved, Carrying.stale]
  exact (finish_ends s _).pending_of (hmoves.isPending_eq.trans hraised) ((leavingMask_gates hgates).2.trans hlost)

/-- R35: a POSITION taken at a station of either kind. -/
theorem exec_position {h : Heading} (hstart : StartInv s) (ht : Taken h (.position r) s) :
    exec (.positionTaken h r) s = .next (finish s (takePosition r (s.relayed h (.position r)))) := by
  cases hd : s.isDrum with
  | true => exact exec_taken_drum ht hd
  | false =>
    refine exec_taken_gates ht ?_
    have hrole := hstart.role ht.working
    unfold State.isDrum at hd
    unfold State.hasGates State.isLanding State.isLoading
    cases hr : s.cfg.role with
    | none => exact absurd hr hrole
    | some role => cases role <;> simp_all

end

/-- Settles O22. -/
theorem conveyanceRecords : Obligations.ConveyanceRecords := by
  unfold Obligations.ConveyanceRecords
  refine ⟨fun s h r hstart ht => ⟨_, exec_position hstart ht, ?_⟩,
    fun s w r hlive hw hr => ⟨fun hcurrent hage => ?_, fun hnot => ?_⟩⟩
  · intro accepted
    have hacc : (s.relayed h (.position r)).acceptsPosition r = true ↔ accepted := by
      rw [acceptsPosition_congr (relayed_cfg s h _) (relayed_picture s h _)]
      exact acceptsPosition_iff
    refine ⟨fun hyes => ?_, fun hno => ?_⟩
    · rw [takePosition, if_pos (hacc.2 hyes)]
      have hwritten := (acceptPosition_besideGates r (s.relayed h (.position r))).trans (finish_agrees _ s).besideGates
      rw [writeRecords, relayed_picture] at hwritten
      exact hwritten
    · rw [takePosition, if_neg fun hyes => hno (hacc.1 hyes)]
      exact finish_ends s _
  · refine ⟨_, exec_conveyanceRecordExpiry hlive hw hr hcurrent hage, ?_, fun hs => ?_, fun hs hrun hcond hrel => ?_⟩
    · obtain ⟨n, hn⟩ := recordGone_same w s
      have hset : BesideGates { s with picture :=
          { carrying := put s.picture.carrying w (some { r with current := false })
            counterweight := put s.picture.counterweight w
              (s.picture.counterweight[w].map (fun x => { x with current := false })) } } (recordGone w s) := by
        rw [hn, hr]
        constructor <;> rfl
      have hgone := (recordChange_moves (recordGone w s) (s.landingCondition w) w).besideGates
      exact (hset.trans hgone).trans (finish_agrees _ s).besideGates
    · exact expireRecord_pending hw hs hr
    · rw [(finish_agrees _ s).records]
      exact expireRecord_locks hs hrun hcond hrel
  · have hexec : exec (.conveyanceRecordExpiry w) s = .next (finish s
        (if s.working && s.picture.carrying[w].any Carrying.over then expireRecord w s else s)) := act_of_live hlive
    refine ⟨_, hexec, ?_⟩
    rw [if_neg]
    · exact finish_self s
    · rw [hr]
      rcases hnot with h | h <;> simp [Carrying.over, h]

end Sys2Proof.Machine
end

