-- ==== Sys2Proof/Proofs/PathRules.lean ====
section
/-! PROOFS. Sys2Proof/Proofs/PathRules.lean: the path of the open trip judged by Table 6-4 (R100 to R102). -/
set_option Elab.async false

namespace Sys2Proof.Machine

section
variable {s : State}

theorem levelIn_iff (e : StationEntry) (lo hi : Int) :
    e.levelIn lo hi = true ↔ ∃ l, e.level = some l ∧ lo ≤ l.val ∧ (l.val : Int) ≤ hi := by
  unfold StationEntry.levelIn inRange
  cases e.level <;> simp

theorem isLandingRole_iff (r : Option Role) : isLandingRole r = true ↔ r = some .landing ∨ r = some .loading := by
  cases r with
  | none => decide
  | some role => cases role <;> decide

theorem mayServe_iff (e : StationEntry) (w : Winder) : e.mayServe w = true ↔ ∀ ws, e.served = some ws → winderIn ws w = true := by
  unfold StationEntry.mayServe
  cases e.served <;> simp

theorem withdrawn_iff (lo hi : Int) (n : Station) : s.withdrawn lo hi n = true ↔ Withdrawn s lo hi n := by
  simp only [State.withdrawn, Withdrawn, Bool.and_eq_true, levelIn_iff, isLandingRole_iff, mayServe_iff, beq_iff_eq,
    Bool.not_eq_true', and_assoc]

theorem silent_iff (lo hi : Int) (n : Station) : s.silent lo hi n = true ↔ Silent s lo hi n := by
  simp only [State.silent, State.missing, Silent, Bool.or_eq_true, Bool.and_eq_true, levelIn_iff, beq_iff_eq]

/-- R77: the two readings of the supervision depth. -/
theorem supervisionDepth_eq (r : TripRecord) (d : TripDetails) : supervisionDepth r d = supervision r d := by
  unfold supervisionDepth supervision adopts
  cases r.state <;> cases r.stopDepth <;> cases d.direction <;> simp

/-- R101: the range judged for the open trip. -/
theorem judgedRange_eq {d : TripDetails} (hd : s.trip.record.details = some d) : s.judgedRange = judgedOver s d := by
  unfold State.judgedRange judgedOver State.tripState
  dsimp only
  rw [hd, ← supervisionDepth_eq]
  cases hst : s.trip.record.state with
  | armed => simp [pathRange, supervisionDepth, hst]
  | running => cases hdir : d.direction <;> simp only [supervisionDepth, hst, hdir]
  | stopping => rfl
  | idle => rfl
  | suspended => rfl

/-- R102: with no range nothing is judged. -/
theorem evaluatePathOn_none {d : TripDetails} (hd : s.trip.record.details = some d) (h : judgedOver s d = none) (x : SampleSet) :
    evaluatePathOn x s = s := by
  unfold evaluatePathOn
  rw [judgedRange_eq hd, h]

/-- R102, Table 6-4: a range with a blocking station. -/
theorem evaluatePathOn_some {d : TripDetails} (hd : s.trip.record.details = some d) {lo hi : Int}
    (h : judgedOver s d = some (lo, hi)) (x : SampleSet) :
    (s.tripState = .armed → (∃ n, Withdrawn s lo hi n ∨ Silent s lo hi n) → evaluatePathOn x s = closeTrip .cancelled s) ∧
    (s.tripState = .running ∨ s.tripState = .stopping → (∃ n, Withdrawn s lo hi n) →
      evaluatePathOn x s = deliver (Cause.plain .gateWithdrawn) s) ∧
    (s.tripState = .running → (¬∃ n, Withdrawn s lo hi n) → (∃ n, Silent s lo hi n) → evaluatePathOn x s = enterStoppingOn x s) ∧
    ((¬∃ n, Withdrawn s lo hi n) → (s.tripState = .stopping ∨ ¬∃ n, Silent s lo hi n) → evaluatePathOn x s = s) := by
  have hwithdrawn : stationNumbers.any (s.withdrawn lo hi) = true ↔ ∃ n, Withdrawn s lo hi n := by
    rw [any_stationNumbers]
    exact exists_congr fun n => withdrawn_iff lo hi n
  have hsilent : stationNumbers.any (s.silent lo hi) = true ↔ ∃ n, Silent s lo hi n := by
    rw [any_stationNumbers]
    exact exists_congr fun n => silent_iff lo hi n
  unfold evaluatePathOn
  rw [judgedRange_eq hd, h, exists_or, ← hwithdrawn, ← hsilent]
  dsimp only
  generalize stationNumbers.any (s.withdrawn lo hi) = w
  generalize stationNumbers.any (s.silent lo hi) = q
  cases s.tripState <;> cases w <;> cases q <;> simp

/-- R102, Table 6-4: the evaluation, with what a step ends with. -/
theorem evaluatePathOn_judged {t : State} {d : TripDetails} (hdrum : s.isDrum = true) (hd : s.trip.record.details = some d)
    (x : SampleSet) (h : Ends (evaluatePathOn x s) t) : PathJudged x s t d where
  armed lo hi ha hr hblocks := by
    rw [(evaluatePathOn_some hd hr x).1 ha hblocks] at h
    exact closeTrip_closed _ h
  withdrawn lo hi hst hr hw := by
    rw [(evaluatePathOn_some hd hr x).2.1 hst hw] at h
    exact (deliver_delivered (Cause.plain .gateWithdrawn) s).of_ends h ((isDrum_congr (deliver_besideTrip s _).cfg).trans hdrum)
  silent lo hi hst hr hw hs := by
    rw [(evaluatePathOn_some hd hr x).2.2.1 hst hw hs] at h
    exact enterStoppingOn_stopping hd x h
  still hnone := by
    have hsame : evaluatePathOn x s = s := by
      cases hr : judgedOver s d with
      | none => exact evaluatePathOn_none hd hr x
      | some range =>
        obtain ⟨hw, hs⟩ := hnone range.1 range.2 hr
        exact (evaluatePathOn_some hd hr x).2.2.2 hw hs
    rw [hsame] at h
    exact ⟨by rw [h.trip], h.safety⟩

/-- Neither the hold set nor the panel bears on the judging of a path. -/
theorem PathJudged.of_holdSet {x : SampleSet} {t : State} {d : TripDetails} {h : StationSet} {n : Panel}
    (hp : PathJudged x { s with stations := { s.stations with holdSet := h }, panel := n } t d) : PathJudged x s t d where
  armed lo hi ha hr hb := by
    have hc := hp.armed lo hi ha hr hb
    exact ⟨hc.record, hc.outputs, hc.env, hc.table, hc.mode, hc.requests, hc.verified, hc.calls, hc.report⟩
  withdrawn lo hi hst hr hw := by
    have hc := hp.withdrawn lo hi hst hr hw
    exact ⟨hc.stood, hc.recorded, hc.lost⟩
  silent lo hi hst hr hw hs := by
    have hc := hp.silent lo hi hst hr hw hs
    exact ⟨hc.record, hc.permit, hc.calls, hc.report, hc.safety, hc.depth, hc.env⟩
  still hnone := hp.still hnone

end

end Sys2Proof.Machine
end

