-- ==== Sys2Proof/Proofs/StationTable.lean ====
section
/-! PROOFS. Sys2Proof/Proofs/StationTable.lean: the station table and the hold set of a drum: ANNOUNCE, an entry's expiry, the
hold-override key, and ASSENT (R41 to R48, R116). -/
set_option Elab.async false

namespace Sys2Proof.Machine

/-! ANNOUNCE, the expiry of an entry, and the hold-override key -/

section
variable {s : State}

/-- R45: after a change of the station table, the hold set or the events the path is judged at the end of a step. -/
theorem evaluated_path (before : State) {u : State} (hd : u.isDrum = true) :
    BesideTrip u (finish before (evaluatePath u)) ∧
      ∀ d, u.trip.record.details = some d → PathJudged u.lastSample u (finish before (evaluatePath u)) d := by
  have hbeside := evaluatePathOn_besideTrip u u.lastSample
  refine ⟨hbeside.trans (finish_besideTrip before ?_), fun d hdet => ?_⟩
  · exact not_hasGates_of_isDrum ((isDrum_congr hbeside.cfg).trans hd)
  · exact evaluatePathOn_judged hd hdet _ (finish_ends before _)

/-- R43: when the expiry of an entry is due. -/
theorem StationEntry.over_iff (e : StationEntry) : e.over = true ↔ e.state = .current ∧ 3000 ≤ e.age := by
  unfold StationEntry.over
  rw [Bool.and_eq_true, beq_iff_eq, decide_eq_true_eq]
  rfl

theorem stationIn_join (t : StationSet) (m n : Station) : stationIn (stationJoin t m) n = (stationIn t n || decide (m = n)) := by
  unfold stationIn stationJoin
  rw [BitVec.getLsbD_or, BitVec.getLsbD_twoPow]
  simp [Fin.ext_iff, m.isLt]

theorem stationIn_leave (t : StationSet) (m n : Station) : stationIn (stationLeave t m) n = (stationIn t n && !decide (m = n)) := by
  unfold stationIn stationLeave
  rw [BitVec.getLsbD_and, BitVec.getLsbD_not, BitVec.getLsbD_twoPow]
  simp [Fin.ext_iff, m.isLt]

theorem stationIn_foldl_leave (q : Station → Prop) [DecidablePred q] (l : List Station) (t : StationSet) (n : Station) :
    stationIn (l.foldl (fun t m => if q m then stationLeave t m else t) t) n =
      (stationIn t n && !decide (n ∈ l ∧ q n)) := by
  induction l generalizing t with
  | nil => simp
  | cons m ms ih =>
    rw [List.foldl_cons, ih]
    by_cases hq : q m
    · rw [if_pos hq, stationIn_leave]
      by_cases hm : m = n
      · subst hm; simp [hq]
      · simp [hm, Ne.symm hm]
    · rw [if_neg hq]
      by_cases hm : n = m
      · subst hm; simp [hq]
      · simp [hm]

/-- R48: the hold set without the stations whose entries are STALE. -/
theorem stationIn_withoutStale (n : Station) :
    stationIn s.withoutStale n = (stationIn s.stations.holdSet n && s.stations.entries[n].state != .stale) := by
  unfold State.withoutStale
  rw [stationIn_foldl_leave]
  simp only [stationNumbers, List.mem_finRange, true_and, bne, Bool.beq_eq_decide_eq]

end

/-- Settles O24. -/
theorem stationTableChanges : Obligations.StationTableChanges := by
  unfold Obligations.StationTableChanges
  refine ⟨fun s h body seg dig ht hd => ?_,
    fun s hlive hd hw => ⟨fun n hcur hage => ?_, fun n hnot => ?_, fun hstale => ?_, fun hstale => ?_⟩⟩
  · intro e u
    have hexec : exec (.announceTaken h body seg dig) s =
        .next (finish s (takeAnnounce h.origin body (s.relayed h (.announce body seg dig)))) := exec_taken_drum ht hd
    have hu : setEntry h.origin (announceEntry body (s.relayed h (.announce body seg dig)).stations.entries[h.origin])
        (s.relayed h (.announce body seg dig)) = u := by
      unfold setEntry announceEntry announceFields
      rw [relayed_stations]
      cases body <;> by_cases he : s.stations.entries[h.origin].state = .unknown <;>
        simp only [he, if_true, if_false, u, e] <;> rfl
    have hdu : u.isDrum = true := (isDrum_congr (relayed_cfg s h _)).trans hd
    obtain ⟨hbeside, hjudged⟩ := evaluated_path s hdu
    have htrip : u.trip = s.trip := relayed_trip s h _
    have hlast : u.lastSample = s.lastSample := by
      unfold State.lastSample
      rw [show u.depth = s.depth from relayed_depth s h _]
    refine ⟨_, hexec, ?_⟩
    rw [takeAnnounce, hu]
    rw [htrip, hlast] at hjudged
    exact ⟨hbeside, hjudged⟩
  · intro u
    let v := if stationIn s.stations.holdSet n = true then raise .staleHolder u else u
    have hexec : exec (.stationEntryExpiry n) s = .next (finish s (evaluatePath v)) := by
      have hact : exec (.stationEntryExpiry n) s = .next (finish s
          (if s.isDrum && s.working && s.stations.entries[n].over then expireEntry n s else s)) := act_of_live hlive
      rw [hact, hd, hw, (StationEntry.over_iff _).2 ⟨hcur, hage⟩]
      rfl
    obtain ⟨p, hp⟩ : ∃ p, v = { u with panel := p } := by
      by_cases hin : stationIn s.stations.holdSet n = true
      · exact ⟨_, (if_pos hin).trans (raise_same u .staleHolder)⟩
      · exact ⟨u.panel, if_neg hin⟩
    have hdv : v.isDrum = true := by rw [hp]; exact hd
    obtain ⟨hbeside, hjudged⟩ := evaluated_path s hdv
    refine ⟨_, hexec, ?_, fun hin => ?_, fun d hdet => ?_⟩
    · rw [hp] at hbeside ⊢
      exact BesideTrip.trans (by constructor <;> rfl) hbeside
    · have hmoves := evaluatePath_moves v
      have hraised : (evaluatePath v).isPending .staleHolder = true := by
        rw [hmoves.isPending_eq]
        change (if stationIn s.stations.holdSet n = true then raise .staleHolder u else u).isPending .staleHolder = true
        rw [if_pos hin]
        exact isPending_raise_self _ _ hw
      have hbev : BesideTrip v (evaluatePath v) := evaluatePathOn_besideTrip v v.lastSample
      refine (finish_ends s _).pending_of hraised ?_
      rw [(leavingMask_drum ((isDrum_congr hbev.cfg).trans hdv)).2.2.2.1]
      have hholder : (evaluatePath v).staleHolder = true := by
        unfold State.staleHolder
        rw [any_stationNumbers, show (evaluatePath v).stations = v.stations from hbev.stations, hp]
        refine ⟨n, ?_⟩
        change (stationIn s.stations.holdSet n && (put s.stations.entries n _)[n].state == .stale) = true
        rw [hin, getElem_put, if_pos rfl]
        rfl
      rw [hholder]
      rfl
    · have hj := hjudged d (by rw [hp]; exact hdet)
      rw [hp] at hj ⊢
      exact PathJudged.of_holdSet hj
  · have hexec : exec (.stationEntryExpiry n) s = .next (finish s
        (if s.isDrum && s.working && s.stations.entries[n].over then expireEntry n s else s)) := act_of_live hlive
    refine ⟨_, hexec, ?_⟩
    rw [if_neg]
    · exact finish_self s
    · rw [hd, hw, Bool.true_and, Bool.true_and, StationEntry.over_iff]
      exact fun h => hnot.elim (fun hst => hst h.1) fun hage => absurd h.2 (Nat.not_le_of_lt hage)
  · have hexec : exec .holdOverrideKey s = .next (finish s (evaluatePath (setHoldSet s.withoutStale s))) := by
      have hact : exec .holdOverrideKey s = .next (finish s (if s.isDrum && s.working then overrideHolds s else s)) :=
        act_of_live hlive
      rw [hact, hd, hw, overrideHolds, if_pos hstale]
      rfl
    obtain ⟨hbeside, hjudged⟩ := evaluated_path s (u := setHoldSet s.withoutStale s) hd
    have hholdSet : (finish s (evaluatePath (setHoldSet s.withoutStale s))).stations.holdSet = s.withoutStale := by
      rw [hbeside.stations]
      rfl
    refine ⟨_, hexec, ?_, fun d hdet => PathJudged.of_holdSet (n := s.panel) (hjudged d hdet), fun n => ?_⟩
    · rw [hholdSet]
      exact hbeside
    · rw [hholdSet]
      exact stationIn_withoutStale n
  · have hact : exec .holdOverrideKey s = .next (finish s (if s.isDrum && s.working then overrideHolds s else s)) :=
      act_of_live hlive
    refine ⟨_, hact, ?_⟩
    rw [hd, hw, overrideHolds, hstale]
    exact finish_self s

/-! ASSENT -/

section
variable {s : State}

/-- R164: no delivery takes a cause from the list. -/
theorem deliver_causes_prefix (c : Cause) (s : State) : s.safety.causes <+: (deliver c s).safety.causes := by
  rw [deliver_causes]
  split
  · exact List.prefix_rfl
  · exact List.prefix_append _ _

/-- R102: the judging of a path takes no cause from the list. -/
theorem evaluatePath_causes (s : State) : s.safety.causes <+: (evaluatePath s).safety.causes := by
  have hclosed : s.safety.causes <+: (closeTrip .cancelled s).safety.causes := by
    rw [(closeTrip_moves s .cancelled).safety_eq]
  have hstopping (x : SampleSet) : s.safety.causes <+: (enterStoppingOn x s).safety.causes := by
    rw [(enterStoppingOn_moves s x).safety_eq]
  have hsame : s.safety.causes <+: s.safety.causes := List.prefix_rfl
  unfold evaluatePath evaluatePathOn
  split
  · exact hsame
  · dsimp only
    split
    · split
      · exact hclosed
      · exact hsame
    · split
      · exact deliver_causes_prefix _ s
      · split
        · exact hstopping _
        · exact hsame
    · split
      · exact deliver_causes_prefix _ s
      · exact hsame
    · exact hsame

/-- R42: the entry that an ASSENT writes. -/
theorem assentEntry_eq (r : AssentReport) (e : StationEntry) : assentEntry r e =
    { state := .current
      role := if e.role = some .landing ∨ e.role = some .loading then e.role else some .landing
      level := some r.level
      served := if e.role = some .landing ∨ e.role = some .loading then e.served else none
      clear := r.clear, hold := r.hold, estop := r.estop, lineDegraded := r.lineDegraded, relayDrop := r.relayDrop, age := 0 } := by
  unfold assentEntry
  simp only [isLandingRole_iff]

theorem stationJoin_of_mem {t : StationSet} {n : Station} (h : stationIn t n = true) : stationJoin t n = t := by
  refine BitVec.eq_of_getLsbD_eq fun i hi => ?_
  unfold stationJoin
  rw [BitVec.getLsbD_or, BitVec.getLsbD_twoPow]
  by_cases hn : n.val = i
  · subst hn
    rw [show t.getLsbD n.val = true from h, Bool.true_or]
  · simp [hn]

theorem stationLeave_of_not_mem {t : StationSet} {n : Station} (h : stationIn t n = false) : stationLeave t n = t := by
  refine BitVec.eq_of_getLsbD_eq fun i hi => ?_
  unfold stationLeave
  rw [BitVec.getLsbD_and, BitVec.getLsbD_not, BitVec.getLsbD_twoPow]
  by_cases hn : n.val = i
  · subst hn
    rw [show t.getLsbD n.val = false from h, Bool.false_and]
  · simp [hn, hi]

/-- R47: the state of a drum whose hold set an ASSENT has written, HOLD raised where the set was empty and the origin joins. -/
def holdWritten (n : Station) (hold : Bool) (s : State) : State :=
  let u := setHoldSet (if hold then stationJoin s.stations.holdSet n else stationLeave s.stations.holdSet n) s
  if hold = true ∧ s.stations.holdSet = 0 then raise .hold u else u

theorem judgeHold_eq (n : Station) (hold : Bool) (s : State) : judgeHold n hold s =
    if hold = true ∧ stationIn s.stations.holdSet n = false then holdJoined (holdWritten n hold s) else holdWritten n hold s := by
  have hkept (t : StationSet) (h : t = s.stations.holdSet) : setHoldSet t s = s := by rw [h]; rfl
  unfold judgeHold holdWritten
  cases hin : stationIn s.stations.holdSet n with
  | true =>
    have hne : s.stations.holdSet ≠ 0 := by
      intro h0
      rw [h0] at hin
      simp [stationIn] at hin
    cases hold with
    | true => simp [show ¬s.stations.holdSet = 0#64 from hne, hkept _ (stationJoin_of_mem hin)]
    | false => simp
  | false =>
    cases hold with
    | true =>
      by_cases h0 : s.stations.holdSet = 0 <;> simp [joinHold, h0]
    | false => simp [hkept _ (stationLeave_of_not_mem hin)]

theorem holdJoined_besideTrip (s : State) : BesideTrip s (holdJoined s) := by
  unfold holdJoined
  split
  · exact .refl s
  · split
    · exact closeTrip_besideTrip s _
    · exact enterStopping_besideTrip s
    · exact .refl s

theorem judgeHold_besideTrip (n : Station) (hold : Bool) (s : State) : BesideTrip (holdWritten n hold s) (judgeHold n hold s) := by
  rw [judgeHold_eq]
  split
  · exact holdJoined_besideTrip _
  · exact .refl _

theorem judgeEstop_besideTrip (n : Station) (s : State) : BesideTrip s (judgeEstop n s) := by
  unfold judgeEstop
  dsimp only
  split
  · exact deliver_besideTrip s _
  · exact .refl s

/-- Table 10-2: SHAFT LINE is pending at the end of a step that brings lamp 14 of a drum on. -/
theorem finish_shaftLine {before e : State} (hd : e.isDrum = true) (hw : e.working = true) (hb : before.shaftLine = false)
    (he : e.shaftLine = true) : (finish before e).isPending .shaftLine = true := by
  have hraised : shaftLineOnChange before e = raise .shaftLine e := by
    unfold shaftLineOnChange
    rw [hd, he, hb]
    rfl
  have hdrum : (raise .shaftLine e).isDrum = true := (isDrum_congr (raise_cfg e _)).trans hd
  have hline : (raise .shaftLine e).shaftLine = true := by
    rw [← he]
    unfold State.shaftLine
    rw [raise_stations]
  rw [finish_of_no_gates (not_hasGates_of_isDrum hd), hraised]
  have hpending := isPending_raise_self e .shaftLine hw
  unfold judgeLeaving State.isPending at *
  rw [setEvents_pendingEvents, BitVec.getLsbD_and, hpending, BitVec.getLsbD_not, (leavingMask_drum hdrum).2.2.2.2.2.2, hline]
  rfl

theorem shaftLine_iff : s.shaftLine = true ↔ ∃ n : Station, s.stations.entries[n].state = .current ∧
    (s.stations.entries[n].lineDegraded = true ∨ s.stations.entries[n].relayDrop = true) := by
  unfold State.shaftLine
  rw [any_stationNumbers]
  simp

/-- R109, R102: a trip that has come to STOPPING has no more of the shaft to judge than before. -/
theorem judgedOver_stopping {u v : State} {d : TripDetails} {sd : Depth} (hrun : u.tripState = .running)
    (hv : v.trip.record = { u.trip.record with state := .stopping, stopDepth := some sd }) (hlast : v.lastSample = u.lastSample)
    (hcfg : v.cfg = u.cfg) : ∃ lo hi lo' hi', judgedOver u d = some (lo, hi) ∧ judgedOver v d = some (lo', hi') ∧
      lo ≤ lo' ∧ hi' ≤ hi := by
  have hustate : u.trip.record.state = .running := hrun
  unfold judgedOver supervision State.tripState
  rw [hv, hustate, hlast, hcfg]
  dsimp only
  cases d.direction with
  | down => exact ⟨_, _, _, _, rfl, rfl, le_rfl, by dsimp only; split <;> omega⟩
  | up => exact ⟨_, _, _, _, rfl, rfl, by dsimp only; split <;> omega, le_rfl⟩

/-- R102: a station withdrawn for a range is withdrawn for a wider one. -/
theorem Withdrawn.widen {u v : State} {lo hi lo' hi' : Int} {n : Station} (h : Withdrawn v lo' hi' n)
    (hstations : v.stations = u.stations) (hcfg : v.cfg = u.cfg) (hlo : lo ≤ lo') (hhi : hi' ≤ hi) : Withdrawn u lo hi n := by
  unfold Withdrawn at h ⊢
  rw [hstations, hcfg] at h
  obtain ⟨hst, hrole, ⟨l, hl, h1, h2⟩, hserved, hclear⟩ := h
  exact ⟨hst, hrole, ⟨l, hl, hlo.trans h1, h2.trans hhi⟩, hserved, hclear⟩

theorem judgeHold_safety (n : Station) (hold : Bool) (s : State) : (judgeHold n hold s).safety = s.safety := by
  have hwritten : (holdWritten n hold s).safety = s.safety := by
    unfold holdWritten
    dsimp only
    split <;> simp [setHoldSet]
  rw [judgeHold_eq]
  split
  · rw [(holdJoined_moves _).safety_eq, hwritten]
  · exact hwritten

/-- What an ASSENT touches once its entry and the hold set are written. -/
theorem assentActs_moves (n : Station) (hold : Bool) (s : State) :
    Moves deliveryBlocks (holdWritten n hold s) (evaluatePath (judgeEstop n (judgeHold n hold s))) := by
  refine .trans ?_ (.trans (.when (deliver_moves _ _)) (evaluatePath_moves _))
  rw [judgeHold_eq]
  split
  · exact (holdJoined_moves _).of
  · exact .refl _

/-- R116: a hold that joins leaves an INSPECTION trip. -/
theorem holdJoined_of_inspection {d : TripDetails} (hd : s.trip.record.details = some d) (hc : d.cls = .inspection) :
    holdJoined s = s := by
  unfold holdJoined State.tripClass
  rw [hd, Option.map_some, hc, if_pos rfl]

/-- R116: a hold that joins acts on a trip of another class as a loss of the line does. -/
theorem holdJoined_of_class {d : TripDetails} (hd : s.trip.record.details = some d) (hc : d.cls ≠ .inspection) :
    holdJoined s = lineLost s := by
  unfold holdJoined lineLost State.tripClass
  rw [hd, Option.map_some, if_neg fun h => hc (Option.some.inj h)]

/-- R116: an ARMED trip of another class closes CANCELLED. -/
theorem holdJoined_closed {before : State} {d : TripDetails} (hd : s.trip.record.details = some d) (hc : d.cls ≠ .inspection)
    (ha : s.tripState = .armed) : Closed .cancelled s (finish before (evaluatePath (holdJoined s))) := by
  have hjoined : holdJoined s = closeTrip .cancelled s := by
    rw [holdJoined_of_class hd hc, lineLost, ha]
  have hrecord : (closeTrip .cancelled s).trip.record = s.trip.record.closed .cancelled := by rw [closeTrip_trip]
  have hsame : evaluatePath (closeTrip .cancelled s) = closeTrip .cancelled s := by
    refine evaluatePathOn_none (d := d) (by rw [hrecord]; exact hd) ?_ _
    unfold judgedOver State.tripState
    rw [hrecord]
    rfl
  rw [hjoined, hsame]
  exact closeTrip_closed _ (finish_ends before _)

/-- R116, R102: a RUNNING trip of another class enters STOPPING where its range holds no withdrawn station. -/
theorem holdJoined_stopping {before : State} {d : TripDetails} (hd : s.trip.record.details = some d) (hc : d.cls ≠ .inspection)
    (hrun : s.tripState = .running) (hnone : ∀ lo hi n, judgedOver s d = some (lo, hi) → ¬Withdrawn s lo hi n) :
    Stopping s.lastSample s (finish before (evaluatePath (holdJoined s))) d := by
  have hjoined : holdJoined s = enterStopping s := by
    rw [holdJoined_of_class hd hc, lineLost, hrun]
  have hbeside := enterStopping_besideTrip s
  have hstopping : Stopping s.lastSample s (finish before (enterStopping s)) d :=
    enterStoppingOn_stopping hd _ (finish_ends before _)
  have hagrees := finish_agrees (enterStopping s) before
  have hrecord := hstopping.record
  rw [hagrees.trip] at hrecord
  have hdepth : (enterStopping s).depth = s.depth := by rw [← hagrees.depth, hstopping.depth]
  obtain ⟨lo, hi, lo', hi', hr, hr', hlo, hhi⟩ :=
    judgedOver_stopping (d := d) hrun hrecord (by unfold State.lastSample; rw [hdepth]) hbeside.cfg
  have hstate : (enterStopping s).tripState = .stopping := by unfold State.tripState; rw [hrecord]
  have hsame : evaluatePath (enterStopping s) = enterStopping s := by
    refine (evaluatePathOn_some (d := d) (by rw [hrecord]; exact hd) hr' _).2.2.2 ?_ (.inl hstate)
    rintro ⟨n, hn⟩
    exact hnone lo hi n hr (hn.widen hbeside.stations hbeside.cfg hlo hhi)
  rw [hjoined, hsame]
  exact hstopping

/-- The panel does not bear on a closing or an entry to STOPPING. -/
theorem Closed.of_panel {t : State} {n : Panel} (h : Closed .cancelled { s with panel := n } t) : Closed .cancelled s t :=
  ⟨h.record, h.outputs, h.env, h.table, h.mode, h.requests, h.verified, h.calls, h.report⟩

theorem Stopping.of_panel {t : State} {x : SampleSet} {d : TripDetails} {n : Panel} (h : Stopping x { s with panel := n } t d) :
    Stopping x s t d :=
  ⟨h.record, h.permit, h.calls, h.report, h.safety, h.depth, h.env⟩

/-- R46: an ASSENT with ESTOP that names the drum's winder has its cause on the list, where there is room. -/
theorem judgeEstop_causes {n : Station} (he : s.stations.entries[n].estop = true)
    (hn : ∀ ws, s.stations.entries[n].served = some ws → winderIn ws s.cfg.winder = true) (hroom : s.safety.causes.length < 8) :
    ∃ c ∈ (judgeEstop n s).safety.causes, c.kind = .estopRemote ∧ c.origin = some n := by
  have hacts : judgeEstop n s = deliver { kind := .estopRemote, origin := some n } s := by
    unfold judgeEstop
    dsimp only
    rw [he, (mayServe_iff _ _).2 hn]
    rfl
  rw [hacts, deliver_causes]
  by_cases hl : listed { kind := .estopRemote, origin := some n } s.safety.causes = true
  · rw [if_pos (.inl hl)]
    exact (listed_iff _ _).1 hl
  · rw [if_neg (by simp [hl]; omega)]
    exact ⟨_, List.mem_append_right _ (List.mem_singleton_self _), rfl, rfl⟩

theorem judgeEstop_of_not {n : Station} (h : ¬(s.stations.entries[n].estop = true ∧
    ∀ ws, s.stations.entries[n].served = some ws → winderIn ws s.cfg.winder = true)) : judgeEstop n s = s := by
  unfold judgeEstop
  dsimp only
  rw [if_neg]
  rwa [Bool.and_eq_true, mayServe_iff]

end

/-- Settles O23. -/
theorem assentWritesTheEntry : Obligations.AssentWritesTheEntry := by
  unfold Obligations.AssentWritesTheEntry
  intro s h r ht hd e stays e' names u
  let v := setEntry h.origin (assentEntry r e) (s.relayed h (.assent r))
  have hexec : exec (.assentTaken h r) s =
      .next (finish s (evaluatePath (judgeEstop h.origin (judgeHold h.origin r.hold v)))) := by
    have hact : exec (.assentTaken h r) s = .next (finish s (takeAssent h.origin r (s.relayed h (.assent r)))) :=
      exec_taken_drum ht hd
    rw [hact, takeAssent, relayed_stations]
  have hvset : v.stations.holdSet = s.stations.holdSet := by
    change (s.relayed h (.assent r)).stations.holdSet = _
    rw [relayed_stations]
  have hdu : u.isDrum = true := (isDrum_congr (relayed_cfg s h _)).trans hd
  have hworking : u.working = true := by
    change (s.relayed h (.assent r)).working = true
    unfold State.working State.phase
    rw [relayed_loader]
    exact ht.working
  obtain ⟨p, hw⟩ : ∃ p, holdWritten h.origin r.hold v = { u with panel := p } := by
    have hset : setHoldSet
        (if r.hold then stationJoin v.stations.holdSet h.origin else stationLeave v.stations.holdSet h.origin) v = u := by
      rw [hvset]
      change setHoldSet _ (setEntry _ _ _) = _
      unfold setHoldSet setEntry
      rw [assentEntry_eq, relayed_stations]
      rfl
    unfold holdWritten
    dsimp only
    rw [hset]
    split
    · exact ⟨_, raise_same u .hold⟩
    · exact ⟨u.panel, rfl⟩
  have hacts := assentActs_moves h.origin r.hold v
  have hbeside : BesideTrip u (evaluatePath (judgeEstop h.origin (judgeHold h.origin r.hold v))) := by
    refine .trans ?_ (.trans (judgeHold_besideTrip _ _ _) (.trans (judgeEstop_besideTrip _ _) (evaluatePathOn_besideTrip _ _)))
    rw [hw]
    constructor <;> rfl
  have hdrum : (evaluatePath (judgeEstop h.origin (judgeHold h.origin r.hold v))).isDrum = true :=
    (isDrum_congr (hbeside.cfg.trans (relayed_cfg s h _))).trans hd
  have hheld := judgeHold_besideTrip h.origin r.hold v
  rw [hw] at hheld
  have hsafety : (judgeHold h.origin r.hold v).safety = s.safety := (judgeHold_safety _ _ v).trans (relayed_safety s h _)
  have hcfg : (judgeHold h.origin r.hold v).cfg = s.cfg := hheld.cfg.trans (relayed_cfg s h _)
  have hentry : (judgeHold h.origin r.hold v).stations.entries[h.origin] = e' := by
    rw [hheld.stations]
    exact (getElem_put _ _ _ _).trans (if_pos rfl)
  refine ⟨_, hexec, hbeside.trans (finish_besideTrip s (not_hasGates_of_isDrum hdrum)), ?_, fun hestop hnames hroom => ?_,
    fun hhold hempty => ?_, fun hflag hnone => ?_, fun d hdet hquiet => ?_⟩
  · rw [(finish_agrees _ s).safety]
    refine List.IsPrefix.trans ?_ (evaluatePath_causes _)
    rw [← hsafety]
    unfold judgeEstop
    dsimp only
    split
    · exact deliver_causes_prefix _ _
    · exact List.prefix_rfl
  · rw [(finish_agrees _ s).safety]
    obtain ⟨c, hc, hkind⟩ := judgeEstop_causes (s := judgeHold h.origin r.hold v) (n := h.origin)
      (by rw [hentry]; exact hestop) (by rw [hentry, hcfg]; exact hnames) (by rw [hsafety]; exact hroom)
    exact ⟨c, (evaluatePath_causes _).subset hc, hkind⟩
  · have hraised : (holdWritten h.origin r.hold v).isPending .hold = true := by
      unfold holdWritten
      dsimp only
      rw [if_pos ⟨hhold, hvset.trans hempty⟩]
      exact isPending_raise_self _ _ hworking
    refine (finish_ends s _).pending_of (hacts.isPending_eq.trans hraised) ?_
    have hin : stationIn u.stations.holdSet h.origin = true := by
      change stationIn (if r.hold then _ else _) h.origin = true
      rw [if_pos hhold, stationIn_join]
      simp
    rw [(leavingMask_drum hdrum).2.2.1, hbeside.stations]
    refine beq_eq_false_iff_ne.2 fun h0 => ?_
    rw [h0] at hin
    simp [stationIn] at hin
  · refine finish_shaftLine hdrum ?_ ?_ ?_
    · unfold State.working State.phase
      rw [hbeside.loader]
      exact hworking
    · rw [← Bool.not_eq_true, shaftLine_iff]
      rintro ⟨n, hcur, hline⟩
      obtain ⟨hnot, hnot'⟩ := hnone n hcur
      exact hline.elim (fun hx => absurd (hnot.symm.trans hx) (by decide)) fun hx => absurd (hnot'.symm.trans hx) (by decide)
    · rw [shaftLine_iff, hbeside.stations]
      refine ⟨h.origin, ?_⟩
      rw [show u.stations.entries[h.origin] = e' from (getElem_put _ _ _ _).trans (if_pos rfl)]
      exact ⟨rfl, hflag⟩
  · intro joins
    have hestop : judgeEstop h.origin (judgeHold h.origin r.hold v) = judgeHold h.origin r.hold v :=
      judgeEstop_of_not (by rw [hentry, hcfg]; exact hquiet)
    have hjoins : (r.hold = true ∧ stationIn v.stations.holdSet h.origin = false) ↔ joins := by rw [hvset]
    have hudet : u.trip.record.details = some d := by
      change (s.relayed h (.assent r)).trip.record.details = _
      rw [relayed_trip]
      exact hdet
    have hlast : u.lastSample = s.lastSample := by
      change (s.relayed h (.assent r)).depth.sample.getD _ = _
      rw [relayed_depth]
      rfl
    have hstate : u.tripState = s.tripState := by
      change (s.relayed h (.assent r)).trip.record.state = _
      rw [relayed_trip]
      rfl
    rw [hestop, judgeHold_eq, hw]
    refine ⟨fun hnot => ?_, fun hj hclass harmed => ?_, fun hj hclass hrunning hclear => ?_⟩
    · have hheld : (if r.hold = true ∧ stationIn v.stations.holdSet h.origin = false then holdJoined { u with panel := p }
          else { u with panel := p }) = { u with panel := p } := by
        by_cases hj : joins
        · rw [if_pos (hjoins.2 hj)]
          exact holdJoined_of_inspection hudet (hnot.resolve_left fun h => h hj)
        · exact if_neg (mt hjoins.1 hj)
      rw [hheld, ← hlast]
      exact PathJudged.of_holdSet (h := u.stations.holdSet) ((evaluated_path s (u := { u with panel := p }) hdu).2 d hudet)
    · rw [if_pos (hjoins.2 hj)]
      exact (holdJoined_closed (s := { u with panel := p }) hudet hclass (hstate.trans harmed)).of_panel
    · rw [if_pos (hjoins.2 hj), ← hlast]
      exact (holdJoined_stopping (s := { u with panel := p }) hudet hclass (hstate.trans hrunning) hclear).of_panel

end Sys2Proof.Machine
end

