-- ==== Sys2Proof/Proofs/TripTests.lean ====
section
/-! PROOFS. Sys2Proof/Proofs/TripTests.lean: the Trip Controller's tests at a sample (R103, R107, R110, R115). -/
set_option Elab.async false

namespace Sys2Proof.Machine

/-! What the unauthorised-motion test leaves (R115) -/

section
variable {s u e t : State} {d : TripDetails}

/-- The trip record and its timers, the call list, the envelope, the depth unit and the cause list are as they were. -/
structure SameTrip (e t : State) : Prop where
  loader    : t.loader = e.loader
  record    : t.trip.record = e.trip.record
  autoStart : t.trip.autoStartMs = e.trip.autoStartMs
  calls     : t.trip.calls = e.trip.calls
  env       : t.env = e.env
  depth     : t.depth = e.depth
  safety    : t.safety = e.safety

theorem Agrees.sameTrip (h : Agrees e t) : SameTrip t e :=
  ⟨h.loader.symm, by rw [h.trip], by rw [h.trip], by rw [h.trip], h.env.symm, h.depth.symm, h.safety.symm⟩

/-- The state with the unauthorised-motion indication off. -/
def unindicated (s : State) : State := s.setTrip { s.trip with unauthorised := false }

theorem unindicated_sameTrip (s : State) : SameTrip s (unindicated s) := ⟨rfl, rfl, rfl, rfl, rfl, rfl, rfl⟩

theorem SameTrip.trans (h : SameTrip s e) (h' : SameTrip e t) : SameTrip s t :=
  ⟨h'.loader.trans h.loader, h'.record.trans h.record, h'.autoStart.trans h.autoStart,
    h'.calls.trans h.calls, h'.env.trans h.env, h'.depth.trans h.depth,
    h'.safety.trans h.safety⟩

theorem motionTest_of_not (h : s.unauthorisedNow = false) : motionTest s = unindicated s := by
  rw [motionTest_of_no_onset (.inl (by simp [h])), h]
  rfl

/-- R122: a frame that a station in RUN originates, having joined one at most before, is offered. -/
theorem offered_now (p : Payload) (hloader : e.loader = s.loader) (hcfg : e.cfg = s.cfg)
    (ha : e.portA.tx.entries.length ≤ s.portA.tx.entries.length + 1)
    (hb : e.portB.tx.entries.length ≤ s.portB.tx.entries.length + 1) (hrun : s.phase = .run) :
    Offered s (originate p e) (s.own p) := by
  have hrun' : e.phase = .run := by unfold State.phase; rw [hloader]; exact hrun
  have hown : e.own p = s.own p := by unfold State.own; rw [hcfg]
  refine ⟨fun hroom => ?_, fun hrep hroom => ?_⟩
  · rw [← hown]
    exact (originate_holdsA e p hrun' (by have : s.portA.tx.entries.length + 2 ≤ 8 := hroom; omega)).1
  · rw [← hown]
    exact (originate_holdsB e p hrun' (by rw [hcfg]; exact hrep) (by have : s.portB.tx.entries.length + 2 ≤ 8 := hroom; omega)).1

theorem SameTrip.permit (h : SameTrip e t) : t.permit = e.permit := by
  unfold State.permit State.live State.inReset State.phase State.tripState
  rw [h.record, h.loader]

theorem Closed.of_sameTrip {r : TripResult} (h : Closed r u e) (hs : SameTrip e t)
    (hoffered : u.phase = .run → ∀ d : TripDetails, u.trip.record.details = some d →
      Offered u t (u.own (.winding { winder := u.cfg.winder, number := u.trip.record.number, state := .trip .idle,
                                     cls := d.cls, auto := d.auto, origin := d.origin, dest := d.dest,
                                     depth := d.target, outcome := .result r, blocking := none }))) : Closed r u t where
  record := hs.record.trans h.record
  outputs := ⟨hs.permit.trans h.outputs.1, hs.autoStart.trans h.outputs.2⟩
  env := hs.env.trans h.env
  table := by rw [hs.depth]; exact h.table
  mode := by rw [hs.depth]; exact h.mode
  requests := by rw [hs.depth]; exact h.requests
  verified := by rw [hs.depth]; exact h.verified
  calls := by
    rw [hs.calls, h.calls]
    split <;> simp_all
  report := hoffered

theorem Stopping.of_sameTrip {x : SampleSet} (h : Stopping x u e d) (hs : SameTrip e t)
    (hoffered : u.phase = .run → Offered u t (u.own (.winding
      { winder := u.cfg.winder, number := u.trip.record.number, state := .trip .stopping, cls := d.cls, auto := d.auto,
        origin := d.origin, dest := d.dest, depth := stopDepthOf u.cfg d.direction x.speed x.corrected, outcome := .none,
        blocking := none }))) : Stopping x u t d where
  record := hs.record.trans h.record
  permit := hs.permit.trans h.permit
  calls := hs.calls.trans h.calls
  report := hoffered
  safety := hs.safety.trans h.safety
  depth := hs.depth.trans h.depth
  env y hy := by
    have hy := h.env y hy
    unfold PartlyEvaluated at hy ⊢
    rw [hs.env, hs.record]
    exact hy

/-! The evaluation of a path at a sample (R102) -/

/-- Between `u` and `e` the permitted speed has been worked out anew and one frame at most originated: what a path is judged by
stands. -/
structure Prepared (u e : State) : Prop where
  loader   : e.loader = u.loader
  cfg      : e.cfg = u.cfg
  inputs   : e.inputs = u.inputs
  clock    : e.clock = u.clock
  stations : e.stations = u.stations
  trip     : e.trip = u.trip
  depth    : e.depth = u.depth
  safety   : e.safety = u.safety
  env      : ∃ v n w, e.env = { u.env with vPerm := v, vThr := n, limitWord := w }
  txA      : e.portA.tx.entries.length ≤ u.portA.tx.entries.length + 1
  txB      : e.portB.tx.entries.length ≤ u.portB.tx.entries.length + 1

theorem Prepared.refl (s : State) : Prepared s s :=
  ⟨rfl, rfl, rfl, rfl, rfl, rfl, rfl, rfl, ⟨_, _, _, rfl⟩, by omega, by omega⟩

/-- R113, R122: a closing at a sample, before the step ends. -/
theorem closeTrip_now (s : State) (r : TripResult) : Closed r s (unindicated (closeTrip r s)) := by
  have hsame := (finish_agrees (closeTrip r s) s).sameTrip.trans (unindicated_sameTrip _)
  refine (closeTrip_closed r (finish_ends s (closeTrip r s))).of_sameTrip hsame fun hrun d hd => ?_
  obtain ⟨v, hv, hline⟩ := closeTrip_reports r hd
  rw [hv]
  exact offered_now _ hline.loader hline.cfg (by rw [hline.portA]; omega) (by rw [hline.portB]; omega) hrun

/-- R109, R122: an entry to STOPPING at a sample, before the step ends. -/
theorem Prepared.stopping (h : Prepared u e) (x : SampleSet) (hd : u.trip.record.details = some d) :
    Stopping x u (unindicated (enterStoppingOn x e)) d := by
  have hde : e.trip.record.details = some d := by rw [h.trip]; exact hd
  have hs := enterStoppingOn_stopping hde x (finish_ends e (enterStoppingOn x e))
  have hsame := (finish_agrees (enterStoppingOn x e) e).sameTrip.trans (unindicated_sameTrip _)
  obtain ⟨v, n, w, henv⟩ := h.env
  refine ⟨(hsame.record.trans hs.record).trans (by rw [h.trip, h.cfg]), hsame.permit.trans hs.permit,
    (hsame.calls.trans hs.calls).trans (by rw [h.trip]), fun hrun => ?_, (hsame.safety.trans hs.safety).trans h.safety,
    (hsame.depth.trans hs.depth).trans h.depth, fun y hy => ?_⟩
  · have hline : SameLine e (partialEvaluation (e.setRecord
        { e.trip.record with state := .stopping, stopDepth := some (stopPoint e.cfg d.direction x) })) :=
      ⟨by simp, (partialEvaluation_besideTrip _).cfg, by simp, by simp⟩
    have hA := h.txA
    have hB := h.txB
    rw [enterStoppingOn_eq hde, reportTrip_of_details (d := d) (by simpa using hde)]
    have hoffered := offered_now (s := u) ((partialEvaluation (e.setRecord
        { e.trip.record with state := .stopping, stopDepth := some (stopPoint e.cfg d.direction x) })).tripReport d
          (stopPoint e.cfg d.direction x) .none)
      (hline.loader.trans h.loader) (hline.cfg.trans h.cfg) (by rw [hline.portA]; exact hA) (by rw [hline.portB]; exact hB) hrun
    refine (show Offered u (originate _ _) _ from ?_)
    rw [State.tripReport, hline.cfg] at hoffered ⊢
    simpa [stopPoint_eq, h.cfg, h.trip] using hoffered
  · have hevaluated := hs.env y (by rw [h.depth]; exact hy)
    unfold PartlyEvaluated at hevaluated ⊢
    rw [hsame.env, hevaluated, hsame.record, h.cfg, henv]

/-- R102, Table 6-4: the evaluation at a sample, before the step ends. -/
theorem Prepared.judged (h : Prepared u e) (harmed : u.tripState = .armed → e = u) (x : SampleSet)
    (hd : u.trip.record.details = some d) : PathJudged x u (unindicated (evaluatePathOn x e)) d := by
  have hde : e.trip.record.details = some d := by rw [h.trip]; exact hd
  have hstate : e.tripState = u.tripState := by unfold State.tripState; rw [h.trip]
  have hlast : e.lastSample = u.lastSample := by unfold State.lastSample; rw [h.depth]
  have hrange : judgedOver e d = judgedOver u d := by unfold judgedOver; rw [hstate, hlast, h.trip, h.cfg]
  have hw (lo hi : Int) (n : Station) : Withdrawn e lo hi n ↔ Withdrawn u lo hi n := by
    unfold Withdrawn; rw [h.stations, h.cfg]
  have hsilent (lo hi : Int) (n : Station) : Silent e lo hi n ↔ Silent u lo hi n := by
    unfold Silent; rw [h.stations, h.cfg]
  have hsome {lo hi : Int} (hr : judgedOver u d = some (lo, hi)) := evaluatePathOn_some hde (hrange.trans hr) x
  simp only [hw, hsilent, hstate] at hsome
  constructor
  · intro lo hi ha hr hb
    obtain rfl := harmed ha
    rw [(hsome hr).1 ha hb]
    exact closeTrip_now e _
  · intro lo hi hst hr hb
    rw [(hsome hr).2.1 hst hb]
    have hd := (deliver_delivered (Cause.plain .gateWithdrawn) e).of_unverified h.safety h.trip h.clock h.loader
      (by rw [h.depth]) (by rw [h.depth])
    exact ⟨hd.stood, hd.recorded, hd.lost⟩
  · intro lo hi hst hr hb hb'
    rw [(hsome hr).2.2.1 hst hb hb']
    exact h.stopping x hd
  · intro hnone
    have hsame : evaluatePathOn x e = e := by
      cases hr : judgedOver u d with
      | none => exact evaluatePathOn_none hde (hrange.trans hr) x
      | some range =>
        obtain ⟨hb, hb'⟩ := hnone range.1 range.2 hr
        exact (hsome hr).2.2.2 hb hb'
    rw [hsame]
    exact ⟨by rw [(unindicated_sameTrip e).record, h.trip], h.safety⟩

/-! The tests (R103, R107, R110) -/

/-- R115: with a trip open that is not SUSPENDED, or a cause listed, or a speed that does not tell, no motion is unauthorised. -/
theorem unauthorisedNow_of (h : (s.tripState ≠ .idle ∧ s.tripState ≠ .suspended) ∨ s.safety.causes ≠ [] ∨
    s.lastSample.speed.natAbs ≤ 150) : s.unauthorisedNow = false := by
  unfold State.unauthorisedNow
  rcases h with ⟨hi, hs⟩ | hc | hv
  · simp [hi, hs]
  · simp [hc]
  · simp [hv]

/-- R164, R114: a delivery changes the cause list and the events, and closes an open trip TRIPPED where the cause joins. -/
theorem deliver_cases (c : Cause) (s : State) : ∃ f p, deliver c s = { s with safety := f, panel := p } ∨
    (s.tripOpen = true ∧ deliver c s = closeTrip .tripped { s with safety := f, panel := p }) := by
  by_cases hl : listed c s.safety.causes = true
  · exact ⟨s.safety, s.panel, .inl (deliver_of_listed hl)⟩
  by_cases hroom : s.safety.causes.length < 8
  · obtain ⟨f, p, hrecord⟩ : ∃ f p, recordCause c s = { s with safety := f, panel := p } := by
      unfold recordCause
      dsimp only
      split
      · exact ⟨_, _, raise_same _ .safetyTrip⟩
      · exact ⟨_, s.panel, rfl⟩
    refine ⟨f, p, ?_⟩
    rw [deliver_of_room hl hroom, hrecord, tripTold]
    by_cases ho : s.tripOpen = true
    · exact .inr ⟨ho, if_pos ho⟩
    · exact .inl (if_neg ho)
  · rw [deliver_of_full hl (Nat.le_of_not_lt hroom)]
    split
    · exact ⟨s.safety, s.panel, .inl rfl⟩
    · exact ⟨_, _, .inl (raise_same _ .causesLost)⟩

theorem deliver_lists (c : Cause) (s : State) : (deliver c s).safety.causes ≠ [] := by
  rw [deliver_causes]
  split
  · rename_i h
    rcases h with h | h <;> intro hnil <;> rw [hnil] at h
    · cases h
    · simp at h
  · simp

/-- R102, Table 6-4: what the evaluation can do. -/
theorem evaluatePathOn_cases (x : SampleSet) (s : State) : evaluatePathOn x s = s ∨
    (s.tripState = .armed ∧ evaluatePathOn x s = closeTrip .cancelled s) ∨
    evaluatePathOn x s = deliver (Cause.plain .gateWithdrawn) s ∨
    (s.tripState = .running ∧ evaluatePathOn x s = enterStoppingOn x s) := by
  unfold evaluatePathOn
  split
  · exact .inl rfl
  · dsimp only
    split
    · rename_i ha
      split
      · exact .inr (.inl ⟨ha, rfl⟩)
      · exact .inl rfl
    · rename_i hr
      split
      · exact .inr (.inr (.inl rfl))
      · split
        · exact .inr (.inr (.inr ⟨hr, rfl⟩))
        · exact .inl rfl
    · split
      · exact .inr (.inr (.inl rfl))
      · exact .inl rfl
    · exact .inl rfl

/-- R102, R115: where a path is judged, no motion is unauthorised after it, unless an ARMED trip closes at speed. -/
theorem evaluatePathOn_authorised (x : SampleSet) (hd : s.trip.record.details = some d)
    (hst : (s.tripState = .armed ∧ s.lastSample.speed.natAbs ≤ 50) ∨ s.tripState = .running ∨ s.tripState = .stopping) :
    motionTest (evaluatePathOn x s) = unindicated (evaluatePathOn x s) := by
  have hopen : s.tripState ≠ .idle ∧ s.tripState ≠ .suspended := by
    rcases hst with ⟨h, -⟩ | h | h <;> rw [h] <;> exact ⟨by decide, by decide⟩
  refine motionTest_of_not (unauthorisedNow_of ?_)
  rcases evaluatePathOn_cases x s with h | ⟨ha, h⟩ | h | ⟨-, h⟩
  · exact .inl (by rw [h]; exact hopen)
  · obtain ⟨-, hslow⟩ : s.tripState = .armed ∧ s.lastSample.speed.natAbs ≤ 50 :=
      hst.resolve_right (by rw [ha]; decide)
    have hlast : (closeTrip .cancelled s).lastSample = s.lastSample := by
      unfold State.lastSample
      rw [closeTrip_depth, takePending_sample]
    exact .inr (.inr (by rw [h, hlast]; omega))
  · exact .inr (.inl (by rw [h]; exact deliver_lists _ s))
  · have hstate : (enterStoppingOn x s).tripState = .stopping := by
      unfold State.tripState
      rw [enterStoppingOn_eq hd]
      simp
    exact .inl (by rw [h, hstate]; decide)

/-- R103: motion in a direction. -/
theorem movesIn_iff (dir : Direction) (v : Int) :
    movesIn dir v = true ↔ (dir = .down ∧ 50 < v) ∨ (dir = .up ∧ v < -50) := by
  cases dir <;> simp [movesIn]

theorem movesIn_opposite_iff (dir : Direction) (v : Int) : movesIn dir.opposite v = true ↔
    50 < v.natAbs ∧ movesIn dir v = false := by
  cases dir <;> simp [movesIn, Direction.opposite] <;> omega

theorem standsAt_iff {x : SampleSet} (hx : s.depth.sample = some x) (l : Depth) : s.standsAt l = true ↔
    x.speed.natAbs ≤ 50 ∧ (l.val : Int) - s.cfg.landingHw ≤ x.corrected.val ∧ x.corrected.val ≤ l.val + s.cfg.landingHw := by
  unfold State.standsAt stationary inWindow
  rw [hx]
  simp only [Bool.and_eq_true, decide_eq_true_eq]
  omega

/-- R119: the judging of a path starts no pulse. -/
theorem evaluatePathOn_autoStart (x : SampleSet) (h : s.trip.autoStartMs = none) :
    (evaluatePathOn x s).trip.autoStartMs = none := by
  rcases evaluatePathOn_cases x s with he | ⟨-, he⟩ | he | ⟨-, he⟩ <;> rw [he]
  · exact h
  · rw [closeTrip_trip]
  · obtain ⟨f, p, hd | ⟨-, hd⟩⟩ := deliver_cases (Cause.plain .gateWithdrawn) s <;> rw [hd]
    · exact h
    · rw [closeTrip_trip]
  · unfold enterStoppingOn
    split
    · exact h
    · simpa using h

/-- R103: an ARMED trip that moves in its direction, its auto-start pulse ended. -/
def setOff (s : State) : State :=
  s.setTrip { s.trip with record := { s.trip.record with state := .running, armMs := none }, autoStartMs := none }

theorem enterRunning_eq (hd : s.trip.record.details = some d) : enterRunning s =
    originate ((partialEvaluation (setOff s)).tripReport d d.target .none) (partialEvaluation (setOff s)) := by
  have hdet : (partialEvaluation (setOff s)).trip.record.details = some d := by simpa [setOff] using hd
  have htarget : (partialEvaluation (setOff s)).trip.record.target = d.target := by
    unfold TripRecord.target
    rw [hdet]
  change reportTrip (partialEvaluation (setOff s)).trip.record.target .none (partialEvaluation (setOff s)) = _
  rw [htarget, reportTrip_of_details hdet]

theorem enterRunning_trip (s : State) : (enterRunning s).trip = (setOff s).trip := by
  unfold enterRunning setOff
  simp

theorem setOff_prepared (hd : s.trip.record.details = some d) (hx : ∃ x, s.depth.sample = some x) :
    Prepared (setOff s) (enterRunning s) := by
  obtain ⟨x, hx⟩ := hx
  have hbeside := partialEvaluation_besideTrip (setOff s)
  rw [enterRunning_eq hd]
  refine ⟨?_, ?_, ?_, ?_, ?_, ?_, ?_, ?_, ?_, ?_, ?_⟩
  · rw [originate_loader, hbeside.loader]
  · rw [originate_cfg, hbeside.cfg]
  · rw [originate_inputs, hbeside.inputs]
  · rw [originate_clock, hbeside.clock]
  · rw [originate_stations, hbeside.stations]
  · rw [originate_trip, partialEvaluation_trip]
  · rw [originate_depth, partialEvaluation_depth]
  · rw [originate_safety, partialEvaluation_safety]
  · rw [originate_env, partialEvaluation_on (s := setOff s) (d := d) (y := x) rfl hd hx]
    exact ⟨_, _, _, rfl⟩
  · exact (originate_length _ _).1.trans (by rw [partialEvaluation_portA])
  · exact (originate_length _ _).2.trans (by rw [partialEvaluation_portB])

/-- R103: an ARMED trip at a sample that shows motion in its direction, against it, or none. -/
theorem stateTest_armed (before : SampleSet) (hd : s.trip.record.details = some d) (ha : s.tripState = .armed) :
    stateTest before s = armedTest before d s.lastSample.speed s := by
  unfold stateTest
  rw [ha, hd]

/-- R107, R110: a RUNNING or STOPPING trip at a sample. -/
theorem stateTest_moving (before : SampleSet) (hd : s.trip.record.details = some d)
    (hst : s.tripState = .running ∨ s.tripState = .stopping) :
    (s.standsAt d.target = true → stateTest before s = closeTrip .arrived s) ∧
    (s.standsAt d.target = false → s.tripState = .running ∨ stationary s.lastSample.speed = false →
      stateTest before s = evaluatePathOn before s) ∧
    (s.standsAt d.target = false → s.tripState = .stopping → stationary s.lastSample.speed = true →
      stateTest before s = enterSuspended s) := by
  unfold stateTest
  rcases hst with h | h <;> rw [h, hd]
  · refine ⟨fun hs => if_pos hs, fun hs _ => if_neg (by simp [hs]), fun _ hp => absurd hp (by decide)⟩
  · refine ⟨fun hs => if_pos hs, fun hs hf => ?_, fun hs _ hr => ?_⟩
    · have hf : stationary s.lastSample.speed = false := hf.resolve_left (by decide)
      simp [stoppingTest, hs, hf]
    · simp [stoppingTest, hs, hr]

/-- R111: an entry to SUSPENDED leaves the envelope as with no trip. -/
theorem enterSuspended_leaves (s : State) :
    (enterSuspended s).trip.record = { s.trip.record with state := .suspended, stopDepth := none } ∧
    (enterSuspended s).env = { s.env with vPerm := 0, vThr := 50, limitWord := 0, warning := false, count := 0 } ∧
    (enterSuspended s).depth = s.depth := by
  unfold enterSuspended
  refine ⟨by simp, ?_, by simp⟩
  rw [reportTrip_env, partialEvaluation_off _ rfl]
  rfl

/-- R83, R84: a path judged brings a trip to STOPPING with the stop depth of the sample set given. -/
theorem evaluatePathOn_stopDepth {x : SampleSet} (hd : s.trip.record.details = some d) (hst : s.tripState ≠ .stopping)
    (hstop : (evaluatePathOn x s).tripState = .stopping) :
    (evaluatePathOn x s).trip.record.stopDepth = some (stopDepthOf s.cfg d.direction x.speed x.corrected) := by
  rcases evaluatePathOn_cases x s with he | ⟨-, he⟩ | he | ⟨-, he⟩ <;> rw [he] at hstop ⊢
  · exact absurd hstop hst
  · rw [State.tripState, closeTrip_trip] at hstop
    cases hstop
  · obtain ⟨f, p, hdel | ⟨-, hdel⟩⟩ := deliver_cases (Cause.plain .gateWithdrawn) s <;> rw [hdel] at hstop
    · exact absurd hstop hst
    · rw [State.tripState, closeTrip_trip] at hstop
      cases hstop
  · rw [enterStoppingOn_eq hd, ← stopPoint_eq]
    simp

/-- R102: with no trip there is no path. -/
theorem evaluatePathOn_idle (x : SampleSet) (h : s.tripState = .idle) : evaluatePathOn x s = s := by
  have hnone : s.judgedRange = none := by
    unfold State.judgedRange
    dsimp only
    rw [show s.trip.record.state = .idle from h]
  unfold evaluatePathOn
  rw [hnone]

/-- R103: a clear path leaves a trip that has set off as it is. -/
theorem Prepared.unblocked (h : Prepared u e) (hd : u.trip.record.details = some d) {lo hi : Int}
    (hr : judgedOver u d = some (lo, hi)) (hclear : ∀ n, ¬Withdrawn u lo hi n ∧ ¬Silent u lo hi n) (x : SampleSet) :
    evaluatePathOn x e = e := by
  have hde : e.trip.record.details = some d := by rw [h.trip]; exact hd
  have hstate : e.tripState = u.tripState := by unfold State.tripState; rw [h.trip]
  have hlast : e.lastSample = u.lastSample := by unfold State.lastSample; rw [h.depth]
  have hrange : judgedOver e d = judgedOver u d := by unfold judgedOver; rw [hstate, hlast, h.trip, h.cfg]
  refine (evaluatePathOn_some hde (hrange.trans hr) x).2.2.2 ?_ (.inr ?_)
  · rintro ⟨n, hn⟩
    unfold Withdrawn at hn
    rw [h.stations, h.cfg] at hn
    exact (hclear n).1 hn
  · rintro ⟨n, hn⟩
    unfold Silent at hn
    rw [h.stations, h.cfg] at hn
    exact (hclear n).2 hn

/-! What a sample leaves -/

theorem deliverAll_sample (cs : List Cause) (s : State) : (deliverAll cs s).depth.sample = s.depth.sample := by
  induction cs generalizing s with
  | nil => rfl
  | cons c cs ih => exact (ih (deliver c s)).trans (deliver_sample c s)

theorem deliverAll_trip (cs : List Cause) (s : State) :
    (deliverAll cs s).trip = s.trip ∨ (deliverAll cs s).tripState = .idle := by
  induction cs generalizing s with
  | nil => exact .inl rfl
  | cons c cs ih =>
    change (deliverAll cs (deliver c s)).trip = _ ∨ (deliverAll cs (deliver c s)).tripState = _
    obtain ⟨f, p, h | ⟨-, h⟩⟩ := deliver_cases c s
    · rcases ih (deliver c s) with hs | hs
      · exact .inl (hs.trans (by rw [h]))
      · exact .inr hs
    · have hidle : (deliver c s).tripState = .idle := by rw [h, State.tripState, closeTrip_trip]; rfl
      rcases ih (deliver c s) with hs | hs
      · exact .inr (by rw [State.tripState, hs]; exact hidle)
      · exact .inr hs

/-- R75: a full evaluation leaves the sample set, and the trip unless it closes. -/
theorem fullEvaluation_leaves (s : State) : (fullEvaluation s).depth.sample = s.depth.sample ∧ (fullEvaluation s).cfg = s.cfg ∧
    ((fullEvaluation s).trip = s.trip ∨ (fullEvaluation s).tripState = .idle) := by
  obtain ⟨cs, u, h, hm⟩ := fullEvaluation_delivers s
  have htrip : u.trip = s.trip := hm.trip_eq
  refine ⟨?_, (fullEvaluation_moves s).cfg_eq, ?_⟩
  · rw [h, deliverAll_sample, hm.fixes fun b hb _ _ hmove => hmove.depth_eq (by rintro rfl; simp at hb)]
  · rw [h, ← htrip]
    exact deliverAll_trip cs u

theorem evaluatePathOn_sample (x : SampleSet) (s : State) : (evaluatePathOn x s).depth.sample = s.depth.sample := by
  rcases evaluatePathOn_cases x s with he | ⟨-, he⟩ | he | ⟨-, he⟩ <;> rw [he]
  · rw [closeTrip_depth, takePending_sample]
  · exact deliver_sample _ s
  · unfold enterStoppingOn
    split <;> simp

theorem motionTest_leaves (s : State) : (motionTest s).depth.sample = s.depth.sample ∧
    ((motionTest s).trip.record = s.trip.record ∨ (motionTest s).tripState = .idle) := by
  unfold motionTest
  dsimp only
  split
  · refine ⟨deliver_sample _ _, ?_⟩
    rcases deliverAll_trip [Cause.plain .unauthorisedMotion] (s.setTrip { s.trip with unauthorised := s.unauthorisedNow }) with h | h
    · exact .inl (congrArg TripUnit.record h :)
    · exact .inr h
  · exact ⟨rfl, .inl rfl⟩

theorem tripSample_sample (x : SampleSet) (s : State) : (tripSample x s).depth.sample = s.depth.sample := by
  have hclosed : (closeTrip .arrived s).depth.sample = s.depth.sample := by rw [closeTrip_depth, takePending_sample]
  have hpath : (evaluatePathOn x s).depth.sample = s.depth.sample := evaluatePathOn_sample x s
  rw [tripSample, (motionTest_leaves _).1]
  unfold stateTest
  split
  · unfold armedTest
    rw [evaluatePathOn_sample]
    split
    · simp [enterRunning]
    · split
      · exact deliver_sample _ s
      · rfl
  · unfold runningTest
    split
    · exact hclosed
    · exact hpath
  · unfold stoppingTest
    split
    · exact hclosed
    · split
      · exact congrArg DepthUnit.sample (enterSuspended_leaves s).2.2
      · exact hpath
  · rfl

/-- R83, R84: the tests of an ARMED or RUNNING trip that they bring to STOPPING take the stop depth of the sample set given. -/
theorem tripSample_stopDepth {x : SampleSet} (hd : s.trip.record.details = some d)
    (hst : s.tripState = .armed ∨ s.tripState = .running) (hstop : (tripSample x s).tripState = .stopping) :
    (tripSample x s).trip.record.stopDepth = some (stopDepthOf s.cfg d.direction x.speed x.corrected) := by
  have hrecord : (tripSample x s).trip.record = (stateTest x s).trip.record :=
    (motionTest_leaves (stateTest x s)).2.resolve_right fun hidle => absurd (hstop.symm.trans hidle) (by decide)
  have hstop : (stateTest x s).tripState = .stopping := by rw [State.tripState, ← hrecord]; exact hstop
  rw [hrecord]
  rcases hst with ha | hr
  · have hne : s.tripState ≠ .stopping := by rw [ha]; decide
    rw [stateTest_armed x hd ha, armedTest] at hstop ⊢
    split at hstop
    · rename_i hmoves
      rw [if_pos hmoves]
      have htrip := enterRunning_trip s
      rw [← (enterRunning_moves s).cfg_eq]
      exact evaluatePathOn_stopDepth (by rw [htrip]; exact hd) (by rw [State.tripState, htrip]; exact nofun) hstop
    · rename_i hmoves
      rw [if_neg hmoves]
      split at hstop
      · rename_i hback
        rw [if_pos hback]
        rcases deliverAll_trip [Cause.plain .wrongDirection] s with htrip | hidle
        · have htrip : (deliver (Cause.plain .wrongDirection) s).trip = s.trip := htrip
          rw [← (deliver_besideTrip s (Cause.plain .wrongDirection)).cfg]
          exact evaluatePathOn_stopDepth (by rw [htrip]; exact hd) (by rw [State.tripState, htrip]; exact hne) hstop
        · have hidle : (deliver (Cause.plain .wrongDirection) s).tripState = .idle := hidle
          rw [evaluatePathOn_idle _ hidle] at hstop
          exact absurd (hstop.symm.trans hidle) (by decide)
      · rename_i hback
        rw [if_neg hback]
        exact evaluatePathOn_stopDepth hd hne hstop
  · cases hs : s.standsAt d.target with
    | true =>
      rw [(stateTest_moving x hd (.inl hr)).1 hs, State.tripState, closeTrip_trip] at hstop
      cases hstop
    | false =>
      rw [(stateTest_moving x hd (.inl hr)).2.1 hs (.inl hr)] at hstop ⊢
      exact evaluatePathOn_stopDepth hd (by rw [hr]; decide) hstop

theorem tripSample_of_idle_state (x : SampleSet) (h : s.tripState = .idle) : (tripSample x s).tripState = .idle := by
  rw [tripSample_of_idle x h]
  exact motionTest_tripState_of_idle h

theorem buildPosition_leaves (s : State) : (buildPosition s).trip.record = s.trip.record ∧ (buildPosition s).depth = s.depth := by
  unfold buildPosition
  split <;> simp [writeOwnRecords]

theorem lastSample_of {x : SampleSet} (h : s.depth.sample = some x) : s.lastSample = x := by
  unfold State.lastSample
  rw [h]
  rfl

/-- R83, R84: where the Envelope Unit acts first the stop depth is that of the sample it has left. -/
theorem tripSample_fullEvaluation_stopDepth (hd : s.trip.record.details = some d)
    (hst : s.tripState = .armed ∨ s.tripState = .running)
    (hstop : (tripSample s.lastSample (fullEvaluation s)).tripState = .stopping) {new : SampleSet}
    (hnew : (tripSample s.lastSample (fullEvaluation s)).depth.sample = some new) :
    (tripSample s.lastSample (fullEvaluation s)).trip.record.stopDepth =
      some (stopDepthOf s.cfg d.direction new.speed new.corrected) := by
  obtain ⟨hsample, hcfg, htrip⟩ := fullEvaluation_leaves s
  rw [tripSample_sample, hsample] at hnew
  have htrip : (fullEvaluation s).trip = s.trip := htrip.resolve_right fun hidle =>
    absurd (hstop.symm.trans (tripSample_of_idle_state _ hidle)) (by decide)
  rw [lastSample_of hnew, ← hcfg] at *
  exact tripSample_stopDepth (by rw [htrip]; exact hd) (by unfold State.tripState; rw [htrip]; exact hst) hstop

/-- R83, R84: where the Trip Controller acts first it is that of the sample given to it. -/
theorem fullEvaluation_tripSample_stopDepth {x : SampleSet} (hd : s.trip.record.details = some d)
    (hst : s.tripState = .armed ∨ s.tripState = .running) (hstop : (fullEvaluation (tripSample x s)).tripState = .stopping) :
    (fullEvaluation (tripSample x s)).trip.record.stopDepth = some (stopDepthOf s.cfg d.direction x.speed x.corrected) := by
  have htrip : (fullEvaluation (tripSample x s)).trip = (tripSample x s).trip :=
    (fullEvaluation_leaves _).2.2.resolve_right fun hidle => absurd (hstop.symm.trans hidle) (by decide)
  rw [State.tripState, htrip] at hstop
  rw [htrip]
  exact tripSample_stopDepth hd hst hstop

theorem sampleStep_stopDepth {first : Bool} (hd : s.trip.record.details = some d)
    (hst : s.tripState = .armed ∨ s.tripState = .running) (hstop : (sampleStep first s).tripState = .stopping)
    {old new : SampleSet} (hold : s.depth.sample = some old) (hnew : (sampleStep first s).depth.sample = some new) :
    let x := if first then new else old
    (sampleStep first s).trip.record.stopDepth = some (stopDepthOf s.cfg d.direction x.speed x.corrected) := by
  have hdv : (takeSample (countSampleTime s)).trip.record.details = some d := hd
  have hsv : (takeSample (countSampleTime s)).tripState = .armed ∨ (takeSample (countSampleTime s)).tripState = .running := hst
  have hcfg : (takeSample (countSampleTime s)).cfg = s.cfg := rfl
  unfold sampleStep at hstop hnew ⊢
  rw [lastSample_of hold] at hstop hnew ⊢
  dsimp only at hstop hnew ⊢
  generalize takeSample (countSampleTime s) = v at *
  have hleaves (w : State) : (buildPosition (writeOwnRecords w)).trip.record = w.trip.record ∧
      (buildPosition (writeOwnRecords w)).depth = w.depth := buildPosition_leaves (writeOwnRecords w)
  rw [State.tripState, (hleaves _).1] at hstop
  rw [(hleaves _).2] at hnew
  rw [(hleaves _).1, ← hcfg]
  cases first with
  | true => exact tripSample_fullEvaluation_stopDepth hdv hsv hstop hnew
  | false => exact fullEvaluation_tripSample_stopDepth hdv hsv hstop

end

/-- Settles O37. -/
theorem tripTestsAtASample : Obligations.TripTestsAtASample := by
  unfold Obligations.TripTestsAtASample
  refine ⟨fun s x before d hinv hx hd => ?_, fun s t first d hinv hexec hst hd hstop old new hold hnew => ?_⟩
  · intro t toward stands
    have hlast : s.lastSample = x := by unfold State.lastSample; rw [hx]; rfl
    have htoward : movesIn d.direction x.speed = true ↔ toward := movesIn_iff _ _
    have hstands : s.standsAt d.target = true ↔ stands := standsAt_iff hx _
    have hjudged (hst : (s.tripState = .armed ∧ x.speed.natAbs ≤ 50) ∨ s.tripState = .running ∨ s.tripState = .stopping)
        (htest : stateTest before s = evaluatePathOn before s) : PathJudged before s t d := by
      have ht : t = unindicated (evaluatePathOn before s) := by
        change motionTest (stateTest before s) = _
        rw [htest]
        exact evaluatePathOn_authorised before hd (by rw [hlast]; exact hst)
      rw [ht]
      exact (Prepared.refl s).judged (fun _ => rfl) before hd
    have hclosed (hst : s.tripState = .running ∨ s.tripState = .stopping) (hs : stands) : Closed .arrived s t := by
      have hslow : (closeTrip .arrived s).lastSample = x := by
        rw [← hlast]
        unfold State.lastSample
        rw [closeTrip_depth, takePending_sample]
      have ht : t = unindicated (closeTrip .arrived s) := by
        change motionTest (stateTest before s) = _
        rw [(stateTest_moving before hd hst).1 (hstands.2 hs)]
        exact motionTest_of_not (unauthorisedNow_of (.inr (.inr (by rw [hslow]; have := hs.1; omega))))
      rw [ht]
      exact closeTrip_now s _
    refine ⟨fun ha hto => ?_, fun ha hfast hnot => ?_, fun ha hslow => ?_, fun hr hs => ?_, fun hr hs => ?_, fun hp hs => ?_,
      fun hp hs hslow => ?_, fun hp hfast => ?_⟩
    · intro u
      have hprepared : Prepared u (enterRunning s) := setOff_prepared hd ⟨x, hx⟩
      have htrip : (enterRunning s).trip = u.trip := hprepared.trip
      have ht : t = unindicated (evaluatePathOn before (enterRunning s)) := by
        change motionTest (stateTest before s) = _
        rw [stateTest_armed before hd ha, hlast, armedTest, if_pos (htoward.2 hto)]
        refine evaluatePathOn_authorised before (d := d) (by rw [htrip]; exact hd) (.inr (.inl ?_))
        rw [State.tripState, htrip]
      have hdu : u.trip.record.details = some d := hd
      rw [ht]
      refine ⟨?_, hprepared.judged nofun before hdu, fun lo hi hr hclear => ?_⟩
      · exact evaluatePathOn_autoStart before (by rw [htrip])
      · rw [hprepared.unblocked hdu hr hclear before]
        have hrecord : (unindicated (enterRunning s)).trip.record = u.trip.record :=
          (unindicated_sameTrip _).record.trans (congrArg TripUnit.record htrip)
        refine ⟨hrecord, ?_, fun hrun => ?_⟩
        · have henv : (unindicated (enterRunning s)).env = (partialEvaluation u).env := by
            change (enterRunning s).env = _
            rw [enterRunning_eq hd, originate_env]
            rfl
          unfold PartlyEvaluated
          rw [henv, hrecord, partialEvaluation_on (s := u) (d := d) (y := x) rfl hdu hx]
          rfl
        · have hbeside := partialEvaluation_besideTrip u
          rw [enterRunning_eq hd]
          refine (show Offered u (originate ((partialEvaluation u).tripReport d d.target .none) (partialEvaluation u)) _ from ?_)
          have hoffered := offered_now (s := u) ((partialEvaluation u).tripReport d d.target .none) hbeside.loader hbeside.cfg
            (by rw [partialEvaluation_portA]; omega) (by rw [partialEvaluation_portB]; omega) hrun
          rw [State.tripReport, hbeside.cfg, partialEvaluation_trip] at hoffered ⊢
          exact hoffered
    · have hback : movesIn d.direction.opposite x.speed = true :=
        (movesIn_opposite_iff _ _).2 ⟨hfast, by rw [← Bool.not_eq_true, htoward]; exact hnot⟩
      have hnone : s.safety.causes = [] := by
        by_contra hc
        exact absurd (ha.symm.trans (hinv.tripped hc)) (by decide)
      have hdelivered := deliver_delivered (Cause.plain .wrongDirection) s
      have hidle : (deliver (Cause.plain .wrongDirection) s).tripState = .idle :=
        (hdelivered.recorded (by simp [hnone]) (by simp [hnone])).2.2.1
      have ht : t = unindicated (deliver (Cause.plain .wrongDirection) s) := by
        change motionTest (stateTest before s) = _
        rw [stateTest_armed before hd ha, hlast, armedTest, if_neg (mt htoward.1 hnot), if_pos hback, evaluatePathOn_idle _ hidle]
        exact motionTest_of_not (unauthorisedNow_of (.inr (.inl (deliver_lists _ s))))
      rw [ht]
      exact ⟨hdelivered.stood, hdelivered.recorded, hdelivered.lost⟩
    · refine hjudged (.inl ⟨ha, hslow⟩) ?_
      rw [stateTest_armed before hd ha, hlast, armedTest, if_neg, if_neg]
      · rw [movesIn_opposite_iff]
        omega
      · rw [movesIn_iff]
        omega
    · exact hclosed (.inl hr) hs
    · exact hjudged (.inr (.inl hr)) ((stateTest_moving before hd (.inl hr)).2.1 (by simpa using mt hstands.1 hs) (.inl hr))
    · exact hclosed (.inr hp) hs
    · obtain ⟨hrecord, henv, hdepth⟩ := enterSuspended_leaves s
      have ht : t = unindicated (enterSuspended s) := by
        change motionTest (stateTest before s) = _
        rw [(stateTest_moving before hd (.inr hp)).2.2 (by simpa using mt hstands.1 hs) hp
          (by rw [hlast]; simpa [stationary] using hslow)]
        refine motionTest_of_not (unauthorisedNow_of (.inr (.inr ?_)))
        unfold State.lastSample
        rw [hdepth, hx]
        exact hslow.trans (by decide)
      rw [ht]
      exact ⟨hrecord, henv⟩
    · refine hjudged (.inr (.inr hp)) ((stateTest_moving before hd (.inr hp)).2.1 ?_ (.inr ?_))
      · rw [← Bool.not_eq_true, hstands]
        exact fun hs => absurd hs.1 (by omega)
      · rw [hlast]
        simpa [stationary] using hfast
  · have hdrum : s.isDrum = true ∧ (s.phase = .run ∨ s.phase = .listenOnly) :=
      hinv.drum (by rcases hst with h | h <;> exact tripOpen_of h (by decide))
    have hlive : s.live = true := by
      by_contra hdead
      have hquiet : exec (.sample first) s = .next s := by
        change act _ s = _
        rw [act, if_neg hdead]
      obtain rfl : s = t := by simpa using hquiet.symm.trans hexec
      rcases hst with h | h <;> exact absurd (h.symm.trans hstop) (by decide)
    have hworking : s.working = true := by
      unfold State.working
      rcases hdrum.2 with h | h <;> rw [h] <;> rfl
    obtain rfl : finish s (sampleStep first s) = t := by
      simpa using (exec_sample first hlive hdrum.1 hworking).symm.trans hexec
    have hagrees := finish_agrees (sampleStep first s) s
    rw [State.tripState, hagrees.trip] at hstop
    rw [hagrees.depth] at hnew
    rw [hagrees.trip]
    exact sampleStep_stopDepth hd hst hstop hold hnew

end Sys2Proof.Machine
end

