-- ==== Sys2Proof/Proofs/FullEvaluation.lean ====
section
/-! PROOFS. Sys2Proof/Proofs/FullEvaluation.lean: the full evaluation of the Envelope Unit and what a SAMPLE makes of it (R75 to
R89). -/
set_option Elab.async false

namespace Sys2Proof.Machine

/-! The causes that arise (R75) -/

section
variable {s : State} {x : SampleSet} {d : TripDetails}

/-- R75: the causes that a full evaluation delivers. -/
def evaluationCauses (overspeed overrun crossed : Bool) : List Cause :=
  (if overspeed then [Cause.plain .overspeed] else []) ++ (if overrun then [Cause.plain .overwind] else []) ++
    (if crossed then [Cause.plain .overwind] else [])

theorem outsideShaft_iff (c : Params) (l : Depth) : outsideShaft c l = true ↔ l.val < c.topLimit ∨ c.bottomLimit < l.val := by
  simp [outsideShaft]

/-- R75: with no trip supervised a change of the shaft-limit state alone delivers. -/
theorem fullEvaluation_unsupervised (hx : s.depth.sample = some x) (hs : s.supervised = false) : fullEvaluation s =
    deliverAll (evaluationCauses false false (outsideShaft s.cfg x.corrected && !s.env.outside))
      (s.setEnv { s.env with vPerm := 0, vThr := 50, limitWord := 0, warning := false, count := 0,
                             outside := outsideShaft s.cfg x.corrected }) := by
  have hrec : (recompute s).supervised = false := hs
  have hover (e : Envelope) : (s.setEnv e).overrun x = false := overrun_of_unsupervised (s := s.setEnv e) hs x
  have hperm : s.permitted = 0 := permitted_of_unsupervised s hs
  unfold fullEvaluation
  dsimp only
  rw [lastSample_of hx, hrec, recompute, hperm]
  simp only [Bool.false_and, Bool.false_eq_true, if_false]
  rw [clearOverspeed, setEnv_setEnv, hover, setEnv_setEnv]
  rfl

/-- R75, R86 to R88: the envelope of a supervised trip, judged. -/
def judgedEnvelope (s : State) (p : VPerm) (x : SampleSet) : Envelope where
  vPerm := p
  vThr := p.val + p.val / 16 + 50
  limitWord := p.val / 10
  warning := decide (p.val < x.speed.natAbs)
  count := if p.val + p.val / 16 + 50 < x.speed.natAbs then min 2 (s.env.count + 1) else 0
  outside := outsideShaft s.cfg x.corrected

/-- R86: the overspeed warning at a full evaluation. -/
theorem judgeWarning_eq (v : Int) (s : State) : ∃ n, judgeWarning v s =
    { s with env := { s.env with warning := decide (s.env.vPerm.val < v.natAbs) }, panel := n } ∧
      (s.working = true → s.env.vPerm.val < v.natAbs → s.env.warning = false →
        ({ s with panel := n } : State).isPending .overspeedWarning = true) := by
  unfold judgeWarning
  dsimp only
  split
  · refine ⟨_, raise_same _ .overspeedWarning, fun hw _ _ => ?_⟩
    exact isPending_raise_self (s.setEnv _) .overspeedWarning hw
  · rename_i hnot
    refine ⟨s.panel, rfl, fun _ hfast hoff => absurd ?_ hnot⟩
    simp [hfast, hoff]

theorem fullEvaluation_supervised (hx : s.depth.sample = some x) (hs : s.supervised = true) :
    let p := s.permitted
    ∃ n, fullEvaluation s =
      deliverAll (evaluationCauses (s.env.count == 1 && decide (p.val + p.val / 16 + 50 < x.speed.natAbs)) (s.overrun x)
        (outsideShaft s.cfg x.corrected && !s.env.outside)) { s with env := judgedEnvelope s p x, panel := n } ∧
      (s.working = true → p.val < x.speed.natAbs → s.env.warning = false →
        ({ s with panel := n } : State).isPending .overspeedWarning = true) := by
  intro p
  have hrec : (recompute s).supervised = true := hs
  have hcount : nextCount x.speed (recompute s).env =
      if p.val + p.val / 16 + 50 < x.speed.natAbs then min 2 (s.env.count + 1) else 0 := by
    rfl
  have hfast : (s.env.count == 1 && nextCount x.speed (recompute s).env == 2) =
      (s.env.count == 1 && decide (p.val + p.val / 16 + 50 < x.speed.natAbs)) := by
    rw [hcount]
    by_cases h1 : s.env.count = 1
    · by_cases hv : p.val + p.val / 16 + 50 < x.speed.natAbs <;> simp [h1, hv]
    · rw [beq_eq_false_iff_ne.2 h1, Bool.false_and, Bool.false_and]
  obtain ⟨n, hwarned, hraised⟩ := judgeWarning_eq x.speed (recompute s)
  refine ⟨n, ?_, hraised⟩
  unfold fullEvaluation
  dsimp only
  rw [lastSample_of hx, if_pos hrec, hwarned]
  refine congrArg₂ deliverAll ?_ ?_
  · change evaluationCauses ((recompute s).supervised && s.env.count == 1 && nextCount x.speed (recompute s).env == 2)
      (s.overrun x) (outsideShaft s.cfg x.corrected && !s.env.outside) = _
    rw [hrec, Bool.true_and, hfast]
  · rfl

/-! The deliveries (R164) -/

/-- R164: a cause delivered again is on the list, or the list is full and the loss told. -/
theorem deliver_twice (c : Cause) (s : State) : deliver c (deliver c s) = deliver c s := by
  by_cases hl : listed c s.safety.causes = true
  · rw [deliver_of_listed hl, deliver_of_listed hl]
  by_cases hroom : s.safety.causes.length < 8
  · refine deliver_of_listed ((listed_iff c _).2 ⟨causeRecord c s, ?_, rfl, rfl⟩)
    rw [deliver_causes, if_neg (by simp [hl]; omega)]
    exact List.mem_append_right _ (List.mem_singleton_self _)
  · have hfull := Nat.le_of_not_lt hroom
    have hsame : (deliver c s).safety.causes = s.safety.causes := by rw [deliver_causes, if_pos (.inr hfull)]
    rw [deliver_of_full (s := deliver c s) (by rw [hsame]; exact hl) (by rw [hsame]; exact hfull)]
    rw [if_pos]
    rw [deliver_of_full hl hfull]
    split
    · assumption
    · simp

/-- R75: one cause that arises alone is delivered once. -/
theorem deliverAll_overwind {overrun crossed : Bool} (h : overrun = true ∨ crossed = true) (s : State) :
    deliverAll (evaluationCauses false overrun crossed) s = deliver (Cause.plain .overwind) s := by
  rcases overrun with _ | _ <;> rcases crossed with _ | _
  · simp at h
  · rfl
  · rfl
  · exact deliver_twice _ s

theorem deliverAll_none (s : State) : deliverAll (evaluationCauses false false false) s = s := rfl

theorem deliverAll_overspeed (s : State) :
    deliverAll (evaluationCauses true false false) s = deliver (Cause.plain .overspeed) s := rfl

/-- R75, R164: from an empty list each cause that arises is listed, and the open trip closed. -/
theorem deliverAll_listed {overspeed overrun crossed : Bool} (hnone : s.safety.causes = []) :
    let t := deliverAll (evaluationCauses overspeed overrun crossed) s
    ((∃ c ∈ t.safety.causes, c.kind = .overspeed) ↔ overspeed = true) ∧
    ((∃ c ∈ t.safety.causes, c.kind = .overwind) ↔ overrun = true ∨ crossed = true) := by
  intro t
  have hkinds : t.safety.causes.map (·.kind) =
      (if overspeed then [CauseKind.overspeed] else []) ++ (if overrun || crossed then [CauseKind.overwind] else []) := by
    cases overspeed <;> cases overrun <;> cases crossed <;>
      simp [t, evaluationCauses, deliverAll, deliver_causes, hnone, listed, causeRecord, Cause.plain]
  have hmem (k : CauseKind) : (∃ c ∈ t.safety.causes, c.kind = k) ↔ k ∈ t.safety.causes.map (·.kind) := by
    rw [List.mem_map]
  rw [hmem, hmem, hkinds]
  cases overspeed <;> cases overrun <;> cases crossed <;> decide

/-- R164, R114: once a cause has joined no trip is open and the envelope is that of none. -/
structure AtRest (t : State) : Prop where
  idle    : t.tripState = .idle
  vPerm   : t.env.vPerm = 0
  warning : t.env.warning = false

theorem AtRest.deliver (h : AtRest s) (c : Cause) : AtRest (deliver c s) := by
  obtain ⟨f, p, hd | ⟨ho, -⟩⟩ := deliver_cases c s
  · rw [hd]
    exact ⟨h.idle, h.vPerm, h.warning⟩
  · unfold State.tripOpen at ho
    rw [h.idle] at ho
    cases ho

theorem AtRest.deliverAll (h : AtRest s) (cs : List Cause) : AtRest (deliverAll cs s) := by
  induction cs generalizing s with
  | nil => exact h
  | cons c cs ih => exact ih (h.deliver c)

/-- R164, R114: a cause delivered to an empty list closes an open trip. -/
theorem deliver_atRest (hnone : s.safety.causes = []) (ho : s.tripOpen = true) (c : Cause) : AtRest (deliver c s) := by
  have hl : ¬listed c s.safety.causes = true := by rw [hnone]; exact nofun
  rw [deliver_of_room hl (by rw [hnone]; decide)]
  have hopen : (recordCause c s).tripOpen = true := by
    unfold recordCause State.tripOpen State.tripState
    dsimp only
    split
    · rw [raise_trip]
      exact ho
    · exact ho
  rw [tripTold, if_pos hopen]
  have henv := closeTrip_env (recordCause c s) .tripped
  refine ⟨by rw [State.tripState, closeTrip_trip]; rfl, by rw [henv], by rw [henv]⟩

theorem deliverAll_atRest {overspeed overrun crossed : Bool} (hnone : s.safety.causes = []) (ho : s.tripOpen = true)
    (h : overspeed = true ∨ overrun = true ∨ crossed = true) :
    AtRest (deliverAll (evaluationCauses overspeed overrun crossed) s) := by
  have hcauses : evaluationCauses overspeed overrun crossed ≠ [] := by
    rcases h with rfl | rfl | rfl <;> simp [evaluationCauses]
  obtain ⟨c, cs, hcs⟩ := List.exists_cons_of_ne_nil hcauses
  rw [hcs]
  exact (deliver_atRest hnone ho c).deliverAll cs

/-- Neither the envelope nor the panel bears on a delivery. -/
theorem Delivered.of_env {k : CauseKind} {o : Option Station} {t : State} {e : Envelope} {n : Panel}
    (h : Delivered k o { s with env := e, panel := n } t) : Delivered k o s t := ⟨h.stood, h.recorded, h.lost⟩

theorem deliverAll_causes_prefix (cs : List Cause) (s : State) : s.safety.causes <+: (deliverAll cs s).safety.causes := by
  induction cs generalizing s with
  | nil => exact List.prefix_rfl
  | cons c cs ih => exact (deliver_causes_prefix c s).trans (ih _)

/-- R88: a delivery leaves the shaft-limit state. -/
theorem deliver_outside (c : Cause) (s : State) : (deliver c s).env.outside = s.env.outside := by
  obtain ⟨f, p, hd | ⟨-, hd⟩⟩ := deliver_cases c s <;> rw [hd]
  rw [closeTrip_env]

theorem deliverAll_outside (cs : List Cause) (s : State) : (deliverAll cs s).env.outside = s.env.outside := by
  induction cs generalizing s with
  | nil => rfl
  | cons c cs ih => exact (ih _).trans (deliver_outside c s)

/-- R87, R86, R74: with no trip supervised a delivery leaves the envelope so. -/
structure Unsupervised (t : State) : Prop where
  warning   : t.env.warning = false
  count     : t.env.count = 0
  vPerm     : t.env.vPerm = 0
  vThr      : t.env.vThr = 50
  limitWord : t.env.limitWord = 0

theorem Unsupervised.deliverAll (h : Unsupervised s) (cs : List Cause) : Unsupervised (deliverAll cs s) := by
  induction cs generalizing s with
  | nil => exact h
  | cons c cs ih =>
    refine ih (s := deliver c s) ?_
    obtain ⟨f, p, hd | ⟨-, hd⟩⟩ := deliver_cases c s <;> rw [hd]
    · exact ⟨h.warning, h.count, h.vPerm, h.vThr, h.limitWord⟩
    · have henv := closeTrip_env { s with safety := f, panel := p } .tripped
      constructor <;> rw [henv]

/-- R77: a supervised trip has overrun its supervision depth. -/
theorem overrun_iff (hs : s.supervised = true) (hd : s.trip.record.details = some d) (x : SampleSet) : s.overrun x = true ↔
    remaining d.direction (supervision s.trip.record d) x.corrected < -(s.cfg.oAllow : Int) := by
  unfold State.overrun
  rw [hs, hd, ← supervisionDepth_eq]
  simp

theorem tripOpen_of_supervised (hs : s.supervised = true) : s.tripOpen = true := by
  unfold State.supervised State.tripOpen at *
  cases h : s.tripState <;> simp_all [TripState.supervised, TripState.isOpen]

/-- R75: the full evaluation of a state with a sample set delivers its causes on an envelope. -/
theorem fullEvaluation_on (hx : s.depth.sample = some x) : ∃ cs e n, fullEvaluation s =
    deliverAll cs { s with env := e, panel := n } ∧ e.outside = outsideShaft s.cfg x.corrected := by
  cases hs : s.supervised with
  | false => exact ⟨_, _, s.panel, fullEvaluation_unsupervised hx hs, rfl⟩
  | true =>
    obtain ⟨n, h, -⟩ := fullEvaluation_supervised hx hs
    exact ⟨_, _, n, h, rfl⟩

end

/-! Two states in which the trip, the envelope and the causes stand alike -/

section
variable {s t u : State}

/-- What the trip, the envelope and the causes are judged by stands as in `s`; all else as in `u`. -/
def overlay (s u : State) : State :=
  { u with cfg := s.cfg, loader := s.loader, inputs := s.inputs, stations := s.stations, depth := s.depth, env := s.env,
           safety := s.safety, clock := { u.clock with now := s.clock.now },
           trip := { s.trip with positionSeq := u.trip.positionSeq, sincePosition := u.trip.sincePosition } }

/-- Two states in which the trip, the envelope and the causes stand alike, and what they are judged by. -/
def Alike (s t : State) : Prop := ∃ u, t = overlay s u

theorem Alike.refl (s : State) : Alike s s := ⟨s, rfl⟩

theorem Alike.trans (h : Alike s t) (h' : Alike t u) : Alike s u := by
  obtain ⟨_, rfl⟩ := h
  obtain ⟨v, rfl⟩ := h'
  exact ⟨v, rfl⟩

theorem Alike.symm (h : Alike s t) : Alike t s := by
  obtain ⟨_, rfl⟩ := h
  exact ⟨s, rfl⟩

theorem Alike.of_besideTrip (h : BesideTrip s t) (hdepth : t.depth = s.depth) (henv : t.env = s.env)
    (hsafety : t.safety = s.safety) (htrip : t.trip = s.trip) : Alike s t := by
  refine ⟨t, ?_⟩
  unfold overlay
  rw [← h.cfg, ← h.loader, ← h.inputs, ← h.stations, ← hdepth, ← henv, ← hsafety, ← htrip, ← h.clock]

theorem raise_alike (e : Event) (s : State) : Alike s (raise e s) :=
  .of_besideTrip (raise_besideTrip s e) (by simp) (by simp) (by simp) (by simp)

theorem originate_alike (p : Payload) (s : State) : Alike s (originate p s) :=
  .of_besideTrip (originate_besideTrip s p) (by simp) (by simp) (by simp) (by simp)

theorem reportTrip_alike (d : Depth) (o : WindingOutcome) (s : State) : Alike s (reportTrip d o s) :=
  .of_besideTrip (reportTrip_besideTrip s d o) (by simp) (by simp) (by simp) (by simp)

theorem Alike.ite (c : Prop) [Decidable c] {s' t' : State} (h : Alike s t) (h' : Alike s' t') :
    Alike (if c then s else s') (if c then t else t') := by
  split
  · exact h
  · exact h'

theorem Alike.recompute (h : Alike s t) : Alike (recompute s) (recompute t) := by
  obtain ⟨u, rfl⟩ := h
  exact ⟨u, rfl⟩

theorem Alike.partialEvaluation (h : Alike s t) : Alike (partialEvaluation s) (partialEvaluation t) := by
  obtain ⟨u, rfl⟩ := h
  exact Alike.ite ((Machine.recompute s).supervised = true) ⟨u, rfl⟩ ⟨u, rfl⟩

theorem Alike.takePending (h : Alike s t) : Alike (takePending s) (takePending t) := by
  obtain ⟨u, rfl⟩ := h
  exact ⟨u, rfl⟩

theorem Alike.closeTrip (h : Alike s t) (r : TripResult) : Alike (closeTrip r s) (closeTrip r t) := by
  have hprefix : Alike (Machine.takePending (Machine.partialEvaluation (s.setTrip { s.trip with
        record := s.trip.record.closed r, calls := callsAfter r s.trip.record s.trip.calls, autoStartMs := none })))
      (Machine.takePending (Machine.partialEvaluation (t.setTrip { t.trip with
        record := t.trip.record.closed r, calls := callsAfter r t.trip.record t.trip.calls, autoStartMs := none }))) := by
    obtain ⟨u, rfl⟩ := h
    exact (Alike.partialEvaluation ⟨u, rfl⟩).takePending
  refine ((reportTrip_alike _ _ _).symm.trans ?_).trans (reportTrip_alike _ _ _)
  exact .ite _ ((raise_alike _ _).symm.trans (hprefix.trans (raise_alike _ _))) hprefix

theorem Alike.deliver (h : Alike s t) (c : Cause) : Alike (deliver c s) (deliver c t) := by
  have hrecord : Alike (recordCause c s) (recordCause c t) := by
    have hset : Alike (s.setSafety { s.safety with causes := s.safety.causes ++ [causeRecord c s] })
        (t.setSafety { t.safety with causes := t.safety.causes ++ [causeRecord c t] }) := by
      obtain ⟨u, rfl⟩ := h
      exact ⟨u, rfl⟩
    obtain ⟨u, rfl⟩ := h
    exact .ite (s.safety.causes.isEmpty = true) ((raise_alike _ _).symm.trans (hset.trans (raise_alike _ _))) hset
  have htold : Alike (tripTold (recordCause c s)) (tripTold (recordCause c t)) := by
    have hclosed := hrecord.closeTrip .tripped
    obtain ⟨u, hu⟩ := hrecord
    rw [hu] at hclosed ⊢
    exact .ite ((recordCause c s).tripOpen = true) hclosed ⟨u, rfl⟩
  obtain ⟨u, rfl⟩ := h
  exact .ite (listed c s.safety.causes = true) ⟨u, rfl⟩ (.ite (s.safety.causes.length < 8) htold
    (.ite (s.safety.causesLost = true) ⟨u, rfl⟩ ((raise_alike _ _).symm.trans (.trans ⟨u, rfl⟩ (raise_alike _ _)))))

theorem Alike.deliverAll (h : Alike s t) (cs : List Cause) : Alike (deliverAll cs s) (deliverAll cs t) := by
  induction cs generalizing s t with
  | nil => exact h
  | cons c cs ih => exact ih (h.deliver c)

theorem Alike.enterStoppingOn (h : Alike s t) (x : SampleSet) : Alike (enterStoppingOn x s) (enterStoppingOn x t) := by
  cases hd : s.trip.record.details with
  | none =>
    have hd' : t.trip.record.details = none := by obtain ⟨u, rfl⟩ := h; exact hd
    unfold Machine.enterStoppingOn
    rw [hd, hd']
    exact h
  | some d =>
    have hd' : t.trip.record.details = some d := by obtain ⟨u, rfl⟩ := h; exact hd
    unfold Machine.enterStoppingOn
    rw [hd, hd']
    refine ((reportTrip_alike _ _ _).symm.trans ?_).trans (reportTrip_alike _ _ _)
    obtain ⟨u, rfl⟩ := h
    exact Alike.partialEvaluation ⟨u, rfl⟩

theorem Alike.enterRunning (h : Alike s t) : Alike (enterRunning s) (enterRunning t) := by
  refine ((reportTrip_alike _ _ _).symm.trans ?_).trans (reportTrip_alike _ _ _)
  obtain ⟨u, rfl⟩ := h
  exact Alike.partialEvaluation ⟨u, rfl⟩

theorem Alike.enterSuspended (h : Alike s t) : Alike (enterSuspended s) (enterSuspended t) := by
  refine ((reportTrip_alike _ _ _).symm.trans ?_).trans (reportTrip_alike _ _ _)
  obtain ⟨u, rfl⟩ := h
  exact Alike.partialEvaluation ⟨u, rfl⟩

theorem Alike.evaluatePathOn (h : Alike s t) (x : SampleSet) : Alike (evaluatePathOn x s) (evaluatePathOn x t) := by
  have hclosed := h.closeTrip .cancelled
  have hdelivered := h.deliver (Cause.plain .gateWithdrawn)
  have hstopping := h.enterStoppingOn x
  have hrange : t.judgedRange = s.judgedRange := by obtain ⟨u, rfl⟩ := h; rfl
  have hwithdrawn : t.withdrawn = s.withdrawn := by obtain ⟨u, rfl⟩ := h; rfl
  have hsilent : t.silent = s.silent := by obtain ⟨u, rfl⟩ := h; rfl
  have hstate : t.tripState = s.tripState := by obtain ⟨u, rfl⟩ := h; rfl
  unfold Machine.evaluatePathOn
  rw [hrange, hwithdrawn, hsilent, hstate]
  split
  · exact h
  · dsimp only
    split
    · exact .ite _ hclosed h
    · exact .ite _ hdelivered (.ite _ hstopping h)
    · exact .ite _ hdelivered h
    · exact h

theorem Alike.stateTest (h : Alike s t) (x : SampleSet) : Alike (stateTest x s) (stateTest x t) := by
  have hstate : t.tripState = s.tripState := by obtain ⟨u, rfl⟩ := h; rfl
  have hdetails : t.trip.record.details = s.trip.record.details := by obtain ⟨u, rfl⟩ := h; rfl
  have hlast : t.lastSample = s.lastSample := by obtain ⟨u, rfl⟩ := h; rfl
  have hstands : t.standsAt = s.standsAt := by obtain ⟨u, rfl⟩ := h; rfl
  unfold Machine.stateTest
  rw [hstate, hdetails, hlast]
  split
  · exact (Alike.ite _ h.enterRunning (.ite _ (h.deliver _) h)).evaluatePathOn x
  · rw [runningTest, runningTest, hstands]
    exact .ite _ (h.closeTrip _) (h.evaluatePathOn x)
  · rw [stoppingTest, stoppingTest, hstands]
    exact .ite _ (h.closeTrip _) (.ite _ h.enterSuspended (h.evaluatePathOn x))
  · exact h

theorem Alike.motionTest (h : Alike s t) : Alike (motionTest s) (motionTest t) := by
  obtain ⟨u, rfl⟩ := h
  exact .ite ((s.unauthorisedNow && !s.trip.unauthorised) = true) (Alike.deliver ⟨u, rfl⟩ _) ⟨u, rfl⟩

theorem Alike.tripSample (h : Alike s t) (x : SampleSet) : Alike (tripSample x s) (tripSample x t) := (h.stateTest x).motionTest

/-- R75: where a sample has been taken, the full evaluation. -/
theorem Alike.fullEvaluation (h : Alike s t) (hx : ∃ x, s.depth.sample = some x) :
    Alike (fullEvaluation s) (fullEvaluation t) := by
  obtain ⟨x, hx⟩ := hx
  obtain ⟨u, rfl⟩ := h
  cases hs : s.supervised with
  | false =>
    rw [fullEvaluation_unsupervised hx hs, fullEvaluation_unsupervised (s := overlay s u) hx hs]
    exact Alike.deliverAll ⟨u, rfl⟩ _
  | true =>
    obtain ⟨n, hn, -⟩ := fullEvaluation_supervised hx hs
    obtain ⟨m, hm, -⟩ := fullEvaluation_supervised (s := overlay s u) hx hs
    rw [hn, hm]
    exact Alike.deliverAll ⟨{ u with panel := m }, rfl⟩ _

theorem setPicture_alike (p : Picture) (s : State) : Alike s (s.setPicture p) := ⟨s.setPicture p, rfl⟩

theorem sequenced_alike (n : Sequence) (a : Option Nat) (s : State) :
    Alike s (s.setTrip { s.trip with positionSeq := n, sincePosition := a }) :=
  ⟨s.setTrip { s.trip with positionSeq := n, sincePosition := a }, rfl⟩

/-- R38, R123: the own records and the POSITION touch neither the trip, the envelope nor the causes. -/
theorem buildPosition_alike (s : State) : Alike s (buildPosition (writeOwnRecords s)) := by
  refine (show Alike s (writeOwnRecords s) from setPicture_alike _ s).trans ?_
  generalize writeOwnRecords s = w
  unfold buildPosition
  split
  · exact ((sequenced_alike _ _ w).trans (setPicture_alike _ _)).trans (originate_alike _ _)
  · exact Alike.refl _

end

/-! The permitted speed stays that of the trip (R74, R76) -/

section
variable {s t : State}

/-- R74, R82, R85 to R87, R89: the permitted speed is that of the trip record and the last sample set, the threshold and the limit
word follow it, and with no trip supervised the warning is OFF and the count 0. -/
structure Evaluated (s : State) : Prop where
  vPerm        : s.env.vPerm = s.permitted
  vThr         : s.env.vThr = s.env.vPerm.val + s.env.vPerm.val / 16 + 50
  limitWord    : s.env.limitWord = s.env.vPerm.val / 10
  unsupervised : s.supervised = false → s.env.warning = false ∧ s.env.count = 0

theorem Evaluated.of_same (h : Evaluated s) (hcfg : t.cfg = s.cfg) (henv : t.env = s.env)
    (hrecord : t.trip.record = s.trip.record) (hsample : t.depth.sample = s.depth.sample) : Evaluated t := by
  have hsup : t.supervised = s.supervised := by unfold State.supervised State.tripState; rw [hrecord]
  have hperm : t.permitted = s.permitted := by unfold State.permitted; rw [hsup, hrecord, hsample, hcfg]
  exact ⟨by rw [henv, hperm, h.vPerm], by rw [henv, h.vThr], by rw [henv, h.limitWord], by rw [henv, hsup]; exact h.unsupervised⟩

theorem Evaluated.of_alike (h : Evaluated s) (ha : Alike s t) : Evaluated t := by
  obtain ⟨u, rfl⟩ := ha
  exact h.of_same rfl rfl rfl rfl

theorem recompute_evaluated (hs : s.supervised = true) : Evaluated (recompute s) :=
  ⟨rfl, rfl, rfl, fun h => absurd (hs.symm.trans h) nofun⟩

theorem partialEvaluation_evaluated (s : State) : Evaluated (partialEvaluation s) := by
  unfold partialEvaluation
  dsimp only
  split
  · rename_i hs
    exact recompute_evaluated hs
  · exact ⟨rfl, rfl, rfl, fun _ => ⟨rfl, rfl⟩⟩

theorem reportTrip_evaluated (d : Depth) (o : WindingOutcome) (h : Evaluated s) : Evaluated (reportTrip d o s) :=
  h.of_same (reportTrip_besideTrip s d o).cfg (by simp) (by simp) (by simp)

theorem closeTrip_evaluated (r : TripResult) (s : State) : Evaluated (closeTrip r s) := by
  have henv := closeTrip_env s r
  have hsup : (closeTrip r s).supervised = false := by
    unfold State.supervised State.tripState
    rw [closeTrip_trip]
    rfl
  constructor
  · rw [henv, permitted_of_unsupervised _ hsup]
  · rw [henv]; simp
  · rw [henv]; simp
  · exact fun _ => by rw [henv]; exact ⟨rfl, rfl⟩

theorem Evaluated.deliver (h : Evaluated s) (c : Cause) : Evaluated (deliver c s) := by
  obtain ⟨f, p, hd | ⟨-, hd⟩⟩ := deliver_cases c s <;> rw [hd]
  · exact h.of_same rfl rfl rfl rfl
  · exact closeTrip_evaluated _ _

theorem Evaluated.deliverAll (h : Evaluated s) (cs : List Cause) : Evaluated (deliverAll cs s) := by
  induction cs generalizing s with
  | nil => exact h
  | cons c cs ih => exact ih (h.deliver c)

theorem Evaluated.enterStoppingOn (h : Evaluated s) (x : SampleSet) : Evaluated (enterStoppingOn x s) := by
  unfold Machine.enterStoppingOn
  split
  · exact h
  · exact reportTrip_evaluated _ _ (partialEvaluation_evaluated _)

theorem Evaluated.evaluatePathOn (h : Evaluated s) (x : SampleSet) : Evaluated (evaluatePathOn x s) := by
  obtain he | ⟨-, he⟩ | he | ⟨-, he⟩ := evaluatePathOn_cases x s <;> rw [he]
  · exact h
  · exact closeTrip_evaluated _ _
  · exact h.deliver _
  · exact h.enterStoppingOn x

theorem Evaluated.stateTest (h : Evaluated s) (x : SampleSet) : Evaluated (stateTest x s) := by
  unfold Machine.stateTest
  split
  · refine Evaluated.evaluatePathOn ?_ x
    split
    · exact reportTrip_evaluated _ _ (partialEvaluation_evaluated _)
    · split
      · exact h.deliver _
      · exact h
  · unfold runningTest
    split
    · exact closeTrip_evaluated _ _
    · exact h.evaluatePathOn x
  · unfold stoppingTest
    split
    · exact closeTrip_evaluated _ _
    · split
      · exact reportTrip_evaluated _ _ (partialEvaluation_evaluated _)
      · exact h.evaluatePathOn x
  · exact h

theorem Evaluated.tripSample (h : Evaluated s) (x : SampleSet) : Evaluated (tripSample x s) := by
  unfold Machine.tripSample motionTest
  dsimp only
  split
  · refine Evaluated.deliver ?_ _
    exact (h.stateTest x).of_same rfl rfl rfl rfl
  · exact (h.stateTest x).of_same rfl rfl rfl rfl

theorem fullEvaluation_evaluated (hx : ∃ x, s.depth.sample = some x) : Evaluated (fullEvaluation s) := by
  obtain ⟨x, hx⟩ := hx
  cases hs : s.supervised with
  | false =>
    rw [fullEvaluation_unsupervised hx hs]
    exact Evaluated.deliverAll ⟨(permitted_of_unsupervised _ hs).symm, by simp [State.setEnv], by simp [State.setEnv],
      fun _ => ⟨rfl, rfl⟩⟩ _
  | true =>
    obtain ⟨n, hn, -⟩ := fullEvaluation_supervised hx hs
    rw [hn]
    exact Evaluated.deliverAll (s := { s with env := judgedEnvelope s s.permitted x, panel := n })
      ⟨rfl, rfl, rfl, fun h => absurd (hs.symm.trans h) nofun⟩ _

end

/-- Settles O31. -/
theorem fullEvaluation_holds : Obligations.FullEvaluation := by
  unfold Obligations.FullEvaluation
  refine ⟨fun s x hx => ?_, fun s first hlive hdrum hworking => ?_⟩
  · intro v out crossed t
    have hout : outsideShaft s.cfg x.corrected = true ↔ out := outsideShaft_iff _ _
    have hcrossed : (outsideShaft s.cfg x.corrected && !s.env.outside) = true ↔ crossed := by
      rw [Bool.and_eq_true, hout, Bool.not_eq_true']
    obtain ⟨cs, e, n, hon, heout⟩ := fullEvaluation_on hx
    refine ⟨?_, ?_, fun hs => ?_, fun d hs hd => ?_⟩
    · rw [← hout, ← heout]
      change (fullEvaluation s).env.outside = true ↔ _
      rw [hon, deliverAll_outside]
    · change _ <+: (fullEvaluation s).safety.causes
      rw [hon]
      exact deliverAll_causes_prefix cs { s with env := e, panel := n }
    · have ht : t = _ := fullEvaluation_unsupervised hx hs
      have hun : Unsupervised t := by
        rw [ht]
        exact Unsupervised.deliverAll ⟨rfl, rfl, rfl, rfl, rfl⟩ _
      refine ⟨hun.warning, hun.count, hun.vPerm, hun.vThr, hun.limitWord, fun hc => ?_, fun hc => ?_⟩
      · rw [ht, deliverAll_overwind (.inr (hcrossed.2 hc))]
        exact (deliver_delivered (Cause.plain .overwind) _).of_env (s := s) (n := s.panel)
      · rw [ht, Bool.eq_false_iff.2 (fun h => hc (hcrossed.1 h))]
        exact ⟨rfl, rfl⟩
    · intro p beyond goal overrun overspeed overwind
      have hp : s.permitted = p := by unfold State.permitted; rw [hs, hd, hx]
      obtain ⟨n, hn, hraised⟩ := fullEvaluation_supervised hx hs
      have hspeed : (s.env.count == 1 && decide (p.val + p.val / 16 + 50 < x.speed.natAbs)) = true ↔ overspeed := by
        rw [Bool.and_eq_true, beq_iff_eq, decide_eq_true_iff]
      have hover : s.overrun x = true ↔ overrun := by
        rw [overrun_iff hs hd]
        simp only [overrun, goal]
        cases d.direction <;> rfl
      have hwind : s.overrun x = true ∨ (outsideShaft s.cfg x.corrected && !s.env.outside) = true ↔ overwind :=
        or_congr hover hcrossed
      rw [hp] at hn hraised
      have ht : t = _ := hn
      clear_value t
      subst ht
      refine ⟨fun hw ho => ?_, fun ho hw => ?_, fun hnone => ⟨?_, ?_, fun hany => ?_⟩, fun hnone => ?_⟩
      · rw [Bool.eq_false_iff.2 (mt hspeed.1 ho), deliverAll_overwind (hwind.2 hw)]
        exact (deliver_delivered (Cause.plain .overwind) _).of_env
      · rw [hspeed.2 ho, Bool.eq_false_iff.2 fun h => hw (hwind.1 (.inl h)),
          Bool.eq_false_iff.2 fun h => hw (hwind.1 (.inr h))]
        exact (deliver_delivered (Cause.plain .overspeed) _).of_env
      · rw [← hspeed]
        exact (deliverAll_listed (s := { s with env := judgedEnvelope s p x, panel := n }) hnone).1
      · rw [← hwind]
        exact (deliverAll_listed (s := { s with env := judgedEnvelope s p x, panel := n }) hnone).2
      · have hrest := deliverAll_atRest (s := { s with env := judgedEnvelope s p x, panel := n }) hnone
          (tripOpen_of_supervised hs) (hany.imp hspeed.2 hwind.2)
        exact ⟨hrest.idle, hrest.vPerm, hrest.warning⟩
      · rw [Bool.eq_false_iff.2 fun h => hnone (.inl (hspeed.1 h)), Bool.eq_false_iff.2 fun h => hnone (.inr (hwind.1 (.inl h))),
          Bool.eq_false_iff.2 fun h => hnone (.inr (hwind.1 (.inr h))), deliverAll_none]
        exact ⟨rfl, decide_eq_true_iff, hraised, rfl, rfl, rfl⟩
  · intro u m
    let r := takeSample (countSampleTime s)
    let e := if first then tripSample r.lastSample (fullEvaluation r) else fullEvaluation (tripSample s.lastSample r)
    have hr : Alike u r := ⟨r, rfl⟩
    have hx : ∃ x, u.depth.sample = some x := ⟨_, rfl⟩
    have hm : Alike m e := by
      cases first
      · exact (hr.tripSample _).fullEvaluation (by rw [tripSample_sample]; exact hx)
      · exact (hr.fullEvaluation hx).tripSample _
    have hxr : ∃ x, r.depth.sample = some x := ⟨_, rfl⟩
    have he : Evaluated e := by
      cases first
      · exact fullEvaluation_evaluated (by rw [tripSample_sample]; exact hxr)
      · exact (fullEvaluation_evaluated hxr).tripSample _
    have hstep : sampleStep first s = buildPosition (writeOwnRecords e) := rfl
    have hb : Alike e (sampleStep first s) := by
      rw [hstep]
      exact buildPosition_alike e
    have hexec := exec_sample first hlive hdrum hworking
    have hcfg : (sampleStep first s).cfg = s.cfg := (sampleStep_moves s first).cfg_eq
    generalize sampleStep first s = b at hb hexec hcfg
    have hagrees : Agrees b (finish s b) := finish_agrees b s
    have ht : Evaluated (finish s b) :=
      (he.of_alike hb).of_same hagrees.cfg hagrees.env (by rw [hagrees.trip]) (by rw [hagrees.depth])
    have hmb := hm.trans hb
    clear_value m
    refine ⟨finish s b, hexec, ?_, ?_, ?_, ?_, fun d x hs hd hx => ?_, ht.vThr, ht.limitWord,
      fun hs => ⟨?_, ht.unsupervised hs⟩⟩
    · rw [hagrees.depth]
      obtain ⟨v, rfl⟩ := hmb
      rfl
    · rw [hagrees.env]
      obtain ⟨v, rfl⟩ := hmb
      rfl
    · rw [hagrees.safety]
      obtain ⟨v, rfl⟩ := hmb
      rfl
    · rw [hagrees.trip]
      obtain ⟨v, rfl⟩ := hmb
      rfl
    · rw [ht.vPerm, State.permitted, hs, hd, hx, hagrees.cfg, hcfg]
    · rw [ht.vPerm, permitted_of_unsupervised _ hs]

end Sys2Proof.Machine
end

