-- ==== Sys2Proof/Proofs/PermittedSpeed.lean ====
section
/-! PROOFS. Sys2Proof/Proofs/PermittedSpeed.lean: the permitted speed by its bounds (R77 to R82), and the limit lines (R89). -/
set_option Elab.async false

namespace Sys2Proof.Machine

/-! The integer square root (R78) -/

/-- R78: while the bits below `b` are to be found, the root found so far is not too great and not too small by `2 ^ b`. -/
theorem isqrtFrom_exact (n b acc : Nat) (hlow : acc ^ 2 ≤ n) (hhigh : n < (acc + 2 ^ b) ^ 2) :
    isqrtFrom n b acc ^ 2 ≤ n ∧ n < (isqrtFrom n b acc + 1) ^ 2 := by
  induction b generalizing acc with
  | zero => exact ⟨hlow, hhigh⟩
  | succ b ih =>
    have hdouble : acc + 2 ^ b + 2 ^ b = acc + 2 ^ (b + 1) := by rw [pow_succ]; omega
    unfold isqrtFrom isqrtStep
    split
    · rename_i hfits
      exact ih _ hfits (by rw [hdouble]; exact hhigh)
    · rename_i hover
      exact ih _ hlow (Nat.lt_of_not_le hover)

theorem isqrt_exact (n : Nat) : isqrt n ^ 2 ≤ n ∧ n < (isqrt n + 1) ^ 2 := by
  refine isqrtFrom_exact n _ 0 (Nat.zero_le n) ?_
  rw [Nat.zero_add, ← pow_mul]
  calc n < 2 ^ (n.log2 + 1) := Nat.lt_log2_self
    _ ≤ 2 ^ ((n.log2 / 2 + 1) * 2) := Nat.pow_le_pow_right (by decide) (by omega)

theorem le_isqrt {n m : Nat} : m ≤ isqrt n ↔ m ^ 2 ≤ n := by
  obtain ⟨hlow, hhigh⟩ := isqrt_exact n
  constructor
  · exact fun h => (Nat.pow_le_pow_left h 2).trans hlow
  · intro h
    exact Nat.le_of_lt_succ (lt_of_pow_lt_pow_left₀ 2 (Nat.zero_le _) (h.trans_lt hhigh))

theorem isqrt_mono : Monotone isqrt := fun _ _ h => le_isqrt.2 ((isqrt_exact _).1.trans h)

/-! The bounds of the permitted speed (R79 to R82) -/

theorem le_capVPerm {n m : Nat} : n ≤ (capVPerm m).val ↔ n ≤ 20000 ∧ n ≤ m := by
  unfold capVPerm
  split <;> simp <;> omega

section
variable {c : Params} {n : Nat}

/-- R79, Table 5-1. -/
theorem le_distanceEnvelope {rem : Int} : n ≤ distanceEnvelope c rem ↔
    (0 ≤ rem → (n : Int) ^ 2 ≤ c.vCreep ^ 2 + 2 * c.aRet * rem) ∧ (rem < 0 → n ≤ c.vCreep) := by
  unfold distanceEnvelope
  split
  · rename_i h
    lift rem to Nat using h
    rw [le_isqrt, Int.toNat_natCast]
    constructor
    · exact fun h => ⟨fun _ => by exact_mod_cast h, fun hneg => absurd hneg (by omega)⟩
    · exact fun h => by exact_mod_cast h.1 (by omega)
  · rename_i h
    exact ⟨fun h' => ⟨fun h0 => absurd h0 h, fun _ => h'⟩, fun h' => h'.2 (by omega)⟩

/-- R80: a speed is within an optional limit. -/
def within (n : Nat) (limit : Option Nat) : Prop := ∀ z ∈ limit, n ≤ z

theorem le_permittedSpeed {r : TripRecord} {t : TripDetails} {x : SampleSet} : n ≤ (permittedSpeed c r t x).val ↔
    n ≤ 20000 ∧ n ≤ classCap c t.cls ∧
      n ≤ distanceEnvelope c (remaining t.direction (supervisionDepth r t) x.corrected) ∧
      within n (zoneLimit c t.direction x.corrected x.counterweight) := by
  unfold permittedSpeed within
  dsimp only
  cases zoneLimit c t.direction x.corrected x.counterweight with
  | none => simp [le_capVPerm]; omega
  | some z => simp [le_capVPerm]; omega

/-- R80: a depth lies in the zone. -/
theorem inZone_iff (d : Depth) : inZone c d = true ↔
    ((c.cwSum / 2 : Nat) : Int) - c.crossHw ≤ d.val ∧ (d.val : Int) ≤ (c.cwSum / 2 : Nat) + c.crossHw := by
  unfold inZone zoneCentre
  rw [Bool.and_eq_true, decide_eq_true_iff, decide_eq_true_iff]

/-- Table 5-2: the distances at which a depth moving in a direction approaches the zone. -/
theorem approach_iff (dir : Direction) (d : Depth) (k : Nat) : approach c dir d = some k ↔
    (dir = .down ∧ (d.val : Int) < (c.cwSum / 2 : Nat) - (c.crossHw : Int) ∧
      (k : Int) = (c.cwSum / 2 : Nat) - (c.crossHw : Int) - d.val) ∨
    (dir = .up ∧ (c.cwSum / 2 : Nat) + (c.crossHw : Int) < d.val ∧
      (k : Int) = d.val - ((c.cwSum / 2 : Nat) + (c.crossHw : Int))) := by
  unfold approach zoneCentre
  cases dir <;> dsimp only <;> split <;> simp <;> omega

/-- R81: a speed is within the speed of the nearer distance exactly if it is within that of each. -/
theorem within_nearer (a b : Option Nat) : within n ((nearer a b).map fun k => isqrt (c.vCross ^ 2 + 2 * c.aRet * k)) ↔
    ∀ k : Nat, a = some k ∨ b = some k → (n : Int) ^ 2 ≤ c.vCross ^ 2 + 2 * c.aRet * (k : Int) := by
  have hspeed (k : Nat) : n ≤ isqrt (c.vCross ^ 2 + 2 * c.aRet * k) ↔
      (n : Int) ^ 2 ≤ c.vCross ^ 2 + 2 * c.aRet * (k : Int) := by
    rw [le_isqrt]
    exact_mod_cast Iff.rfl
  have hmono : Monotone fun k => isqrt (c.vCross ^ 2 + 2 * c.aRet * k) :=
    fun a b h => isqrt_mono (Nat.add_le_add_left (Nat.mul_le_mul_left _ h) _)
  rcases a with _ | a <;> rcases b with _ | b
  · simp [within, nearer]
  · simp [within, nearer, hspeed]
  · simp [within, nearer, hspeed]
  · simp only [within, nearer, Option.map_some, Option.mem_some_iff, forall_eq', Option.some.injEq]
    rw [hmono.map_min (a := a) (b := b), le_min_iff, hspeed, hspeed]
    exact ⟨fun h k hk => hk.elim (fun ha => ha ▸ h.1) (fun hb => hb ▸ h.2), fun h => ⟨h a (.inl rfl), h b (.inr rfl)⟩⟩

/-- R80, R81: a speed is within the zone limit. -/
theorem within_zoneLimit {dir : Direction} {d cw : Depth} : within n (zoneLimit c dir d cw) ↔
    (c.vCross ≠ 0 → inZone c d = true ∨ inZone c cw = true → n ≤ c.vCross) ∧
    (c.vCross ≠ 0 → ¬(inZone c d = true ∨ inZone c cw = true) → ∀ k : Nat,
      approach c dir d = some k ∨ approach c dir.opposite cw = some k →
        (n : Int) ^ 2 ≤ c.vCross ^ 2 + 2 * c.aRet * (k : Int)) := by
  unfold zoneLimit
  by_cases hz : c.vCross = 0
  · simp [hz, within]
  rw [if_neg hz, ← Bool.or_eq_true]
  by_cases hin : (inZone c d || inZone c cw) = true
  · rw [if_pos hin]
    simp [within, hz, hin]
  · rw [if_neg hin, within_nearer]
    simp [hz, hin]

end

/-- R89: a number below 2 to the power of 11 holds no bit from 11 up. -/
theorem limitLines_low {k : Nat} {v : BitVec 16} (hv : v.toNat < 2 ^ 11) (hk : 11 ≤ k) : v.getLsbD k = false := by
  rw [← BitVec.testBit_toNat]
  exact Nat.testBit_lt_two_pow (hv.trans_le (Nat.pow_le_pow_right (by decide) hk))

/-- Settles O30. -/
theorem permittedSpeed_bounds : Obligations.PermittedSpeed := by
  unfold Obligations.PermittedSpeed
  refine ⟨isqrt_exact, fun c r t x => ?_, fun s d x hs hd hx => ?_, fun s => ⟨rfl, rfl, fun hst => ?_⟩, fun s hinv hlive => ?_,
    fun s hlive => ?_⟩
  · intro here other goal rem upper lower inside approaches n
    have hzone : inZone c x.corrected = true ∨ inZone c x.counterweight = true ↔ inside := or_congr (inZone_iff _) (inZone_iff _)
    have happroach (k : Nat) : approach c t.direction x.corrected = some k ∨
        approach c t.direction.opposite x.counterweight = some k ↔ approaches k := by
      rw [approach_iff, approach_iff]
      cases hdir : t.direction <;> simp [approaches, Direction.opposite, hdir, here, other, upper, lower]
    have hsigned (distance : Int) (h : approaches distance) : ∃ k : Nat, distance = k :=
      ⟨distance.toNat, by rcases h with ⟨-, ⟨_, _⟩ | ⟨_, _⟩⟩ | ⟨-, ⟨_, _⟩ | ⟨_, _⟩⟩ <;> omega⟩
    have hrem : remaining t.direction (supervisionDepth r t) x.corrected = rem := by
      rw [supervisionDepth_eq]
      cases hdir : t.direction <;> simp [remaining, rem, hdir, goal, here]
    rw [le_permittedSpeed, le_distanceEnvelope, within_zoneLimit, hrem, hzone]
    have hdistances : (∀ distance, approaches distance → (n : Int) ^ 2 ≤ c.vCross ^ 2 + 2 * c.aRet * distance) ↔
        ∀ k : Nat, approach c t.direction x.corrected = some k ∨ approach c t.direction.opposite x.counterweight = some k →
          (n : Int) ^ 2 ≤ c.vCross ^ 2 + 2 * c.aRet * (k : Int) := by
      refine ⟨fun h k hk => h k ((happroach k).1 hk), fun h distance hd => ?_⟩
      obtain ⟨k, rfl⟩ := hsigned distance hd
      exact h k ((happroach k).2 hd)
    rw [hdistances, and_assoc (b := rem < 0 → _)]
    exact Iff.rfl
  · change s.permitted = _
    rw [State.permitted, hs, hd, hx]
  · refine permitted_of_unsupervised s ?_
    unfold State.supervised
    rcases hst with h | h <;> rw [h] <;> rfl
  · have hword : s.limitLines.toNat = s.env.vPerm.val / 10 := by
      rw [State.limitLines, if_pos hlive, BitVec.toNat_ofNat, hinv.limitWord]
      omega
    exact ⟨hword, fun k hk => limitLines_low (by rw [hword]; omega) hk⟩
  · rw [State.limitLines, hlive]
    rfl

end Sys2Proof.Machine
end

