-- ==== Sys2Proof/Proofs/Samples.lean ====
section
/-! PROOFS. Sys2Proof/Proofs/Samples.lean: what a SAMPLE computes and reports (R55 to R63, R38, R123). -/
set_option Elab.async false

namespace Sys2Proof.Machine

/-! What the Envelope Unit and the Trip Controller keep at a sample -/

section
variable {P : State → Prop} {s : State}

/-- A property that a change of the envelope, of the trip record, of the causes or of the events keeps, a pending request taken,
and a WINDING originated. -/
structure TripRule (P : State → Prop) : Prop where
  changed : ∀ (s : State) (e : Envelope) (x : TripUnit) (f : SafetyUnit) (n : Panel), x.positionSeq = s.trip.positionSeq →
    x.sincePosition = s.trip.sincePosition → P s → P { s with env := e, trip := x, safety := f, panel := n }
  pending : ∀ s : State, P s → P (takePending s)
  reports : ∀ (s : State) (r : WindingReport), P s → P (originate (.winding r) s)

namespace TripRule

variable (hP : TripRule P) (hs : P s)
include hP hs

theorem raise (e : Event) : P (raise e s) := by
  rw [raise_same]
  exact hP.changed s s.env s.trip s.safety _ rfl rfl hs

theorem setTrip {x : TripUnit} (hseq : x.positionSeq = s.trip.positionSeq) (hsince : x.sincePosition = s.trip.sincePosition) :
    P (s.setTrip x) := hP.changed s s.env x s.safety s.panel hseq hsince hs

theorem partialEvaluation : P (partialEvaluation s) := by
  obtain ⟨e, he⟩ := partialEvaluation_eq s
  rw [he]
  exact hP.changed s e s.trip s.safety s.panel rfl rfl hs

theorem reportTrip (d : Depth) (o : WindingOutcome) : P (reportTrip d o s) := by
  unfold Machine.reportTrip
  split
  · exact hs
  · exact hP.reports s _ hs

theorem closeTrip (r : TripResult) : P (closeTrip r s) := by
  unfold Machine.closeTrip
  dsimp only
  have hclosed := hP.pending _ (hP.partialEvaluation (hP.setTrip hs (x := { s.trip with
    record := s.trip.record.closed r, calls := callsAfter r s.trip.record s.trip.calls, autoStartMs := none }) rfl rfl))
  split
  · exact hP.reportTrip (hP.raise hclosed _) _ _
  · exact hP.reportTrip hclosed _ _

theorem deliver (c : Cause) : P (deliver c s) := by
  obtain ⟨f, p, hd | ⟨-, hd⟩⟩ := deliver_cases c s <;> rw [hd]
  · exact hP.changed s s.env s.trip f p rfl rfl hs
  · exact hP.closeTrip (hP.changed s s.env s.trip f p rfl rfl hs) _

omit hs in
theorem deliverAll (cs : List Cause) {s : State} (hs : P s) : P (deliverAll cs s) := by
  induction cs generalizing s with
  | nil => exact hs
  | cons c cs ih => exact ih (hP.deliver hs c)

theorem enterStoppingOn (x : SampleSet) : P (enterStoppingOn x s) := by
  unfold Machine.enterStoppingOn
  split
  · exact hs
  · exact hP.reportTrip (hP.partialEvaluation (hP.setTrip hs (by rfl) (by rfl))) _ _

theorem enterRunning : P (enterRunning s) := hP.reportTrip (hP.partialEvaluation (hP.setTrip hs (by rfl) (by rfl))) _ _

theorem enterSuspended : P (enterSuspended s) := hP.reportTrip (hP.partialEvaluation (hP.setTrip hs (by rfl) (by rfl))) _ _

theorem evaluatePathOn (x : SampleSet) : P (evaluatePathOn x s) := by
  obtain he | ⟨-, he⟩ | he | ⟨-, he⟩ := evaluatePathOn_cases x s <;> rw [he]
  · exact hs
  · exact hP.closeTrip hs _
  · exact hP.deliver hs _
  · exact hP.enterStoppingOn hs x

theorem stateTest (x : SampleSet) : P (stateTest x s) := by
  unfold Machine.stateTest
  split
  · refine hP.evaluatePathOn ?_ x
    split
    · exact hP.enterRunning hs
    · split
      · exact hP.deliver hs _
      · exact hs
  · unfold runningTest
    split
    · exact hP.closeTrip hs _
    · exact hP.evaluatePathOn hs x
  · unfold stoppingTest
    split
    · exact hP.closeTrip hs _
    · split
      · exact hP.enterSuspended hs
      · exact hP.evaluatePathOn hs x
  · exact hs

theorem tripSample (x : SampleSet) : P (tripSample x s) := by
  have htest := hP.stateTest hs x
  unfold Machine.tripSample motionTest
  dsimp only
  split
  · exact hP.deliver (hP.setTrip htest (by rfl) (by rfl)) _
  · exact hP.setTrip htest (by rfl) (by rfl)

theorem fullEvaluation (hx : ∃ x, s.depth.sample = some x) : P (fullEvaluation s) := by
  obtain ⟨x, hx⟩ := hx
  obtain ⟨cs, e, n, hon, -⟩ := fullEvaluation_on hx
  rw [hon]
  exact hP.deliverAll cs (hP.changed s e s.trip s.safety n rfl rfl hs)

end TripRule

end

/-! A queue that WINDINGs alone have joined (R17) -/

section
variable {n : Nat} {q : Queue} {f : Frame}

/-- A queue of `n` entries that WINDINGs alone have joined holds one more at most, and a WINDING then. -/
def WindingJoined (n : Nat) (q : Queue) : Prop :=
  n + 2 ≤ 8 → q.entries.length ≤ n ∨ q.entries.length ≤ n + 1 ∧ ∃ e ∈ q.entries, e.frame.kind = .winding

/-- R17: a WINDING replaces the one in the queue. -/
theorem WindingJoined.takeIn (h : WindingJoined n q) (hf : f.kind = .winding) (stamp : Nat) :
    WindingJoined n (q.takeIn (sameReport f) f stamp).1 := by
  intro hroom
  have hsame (e : Entry) : sameReport f e.frame = true ↔ e.frame.kind = .winding := by
    unfold sameReport
    rw [hf]
    exact beq_iff_eq
  have hjoined : q.entries.length < 8 := by rcases h hroom with hl | ⟨hl, -⟩ <;> omega
  obtain ⟨e, he, hef⟩ := takeIn_holds q (sameReport f) f stamp hjoined
  refine .inr ⟨?_, e, he, by rw [hef, hf]⟩
  by_cases hany : q.entries.any (fun e => sameReport f e.frame) = true
  · rw [takeIn_replaces q _ f stamp hany]
    rcases h hroom with hl | ⟨hl, -⟩ <;> simp <;> omega
  · have hl : q.entries.length ≤ n := (h hroom).resolve_right fun ⟨_, e, he, hew⟩ =>
      hany (List.any_eq_true.2 ⟨e, he, (hsame e).2 hew⟩)
    exact (takeIn_length q _ f stamp hjoined).trans (by omega)

end

/-! A sample (R55 to R63) -/

section
variable {v u s : State}

/-- R76: what the Envelope Unit and the Trip Controller leave of a sample taken. -/
structure Sampled (v u : State) : Prop where
  depth   : u.depth = { v.depth with table := u.depth.table, correctionOn := u.depth.correctionOn,
                                     modePending := u.depth.modePending, clearPending := u.depth.clearPending }
  seq     : u.trip.positionSeq = v.trip.positionSeq
  since   : u.trip.sincePosition = v.trip.sincePosition
  windsA  : WindingJoined v.portA.tx.entries.length u.portA.tx
  windsB  : WindingJoined v.portB.tx.entries.length u.portB.tx

theorem Sampled.refl (v : State) : Sampled v v := ⟨rfl, rfl, rfl, fun _ => .inl le_rfl, fun _ => .inl le_rfl⟩

theorem sampled_rule (v : State) : TripRule (Sampled v) where
  changed s e x f n hseq hsince h := ⟨h.depth, hseq.trans h.seq, hsince.trans h.since, h.windsA, h.windsB⟩
  pending s h := by
    refine ⟨?_, h.seq, h.since, h.windsA, h.windsB⟩
    have hd := h.depth
    unfold takePending State.setDepth
    dsimp only
    split <;> split <;> rw [hd]
  reports s r h := by
    refine ⟨by simpa using h.depth, by simpa using h.seq, by simpa using h.since, ?_, ?_⟩
    · rw [originate_portA]
      split
      · exact h.windsA.takeIn rfl _
      · exact h.windsA
    · rw [originate_portB]
      split
      · exact h.windsB.takeIn rfl _
      · exact h.windsB

/-- R76: the sample whole, before the own records and the POSITION. -/
def sampleJudged (first : Bool) (s : State) : State :=
  let v := takeSample (countSampleTime s)
  if first then tripSample v.lastSample (fullEvaluation v) else fullEvaluation (tripSample s.lastSample v)

theorem sampleStep_eq (first : Bool) (s : State) : sampleStep first s = buildPosition (writeOwnRecords (sampleJudged first s)) :=
  rfl

theorem sampleJudged_sampled (first : Bool) (s : State) : Sampled (takeSample (countSampleTime s)) (sampleJudged first s) := by
  have hx : ∃ x, (takeSample (countSampleTime s)).depth.sample = some x := ⟨_, rfl⟩
  unfold sampleJudged
  generalize takeSample (countSampleTime s) = v at *
  have hrule := sampled_rule v
  cases first
  · exact hrule.fullEvaluation (hrule.tripSample (.refl v) _) (by rw [tripSample_sample]; exact hx)
  · exact hrule.tripSample (hrule.fullEvaluation (.refl v) hx) _

theorem sampleJudged_besideTrip (first : Bool) (s : State) :
    BesideTrip (takeSample (countSampleTime s)) (sampleJudged first s) := by
  have hx : ∃ x, (takeSample (countSampleTime s)).depth.sample = some x := ⟨_, rfl⟩
  unfold sampleJudged
  generalize takeSample (countSampleTime s) = v at *
  have hrule : TripRule (BesideTrip v) :=
    ⟨fun s e x f n _ _ h => h.trans (by constructor <;> rfl), fun s h => h.trans (takePending_besideTrip s),
      fun s r h => h.trans (originate_besideTrip s _)⟩
  cases first
  · exact hrule.fullEvaluation (hrule.tripSample (.refl v) _) (by rw [tripSample_sample]; exact hx)
  · exact hrule.tripSample (hrule.fullEvaluation (.refl v) hx) _

/-! The own records and the POSITION (R38, R123) -/

@[simp] theorem ownCarrying_setPicture (p : Picture) (s : State) : (s.setPicture p).ownCarrying = s.ownCarrying := rfl
@[simp] theorem ownCounterweight_setPicture (p : Picture) (s : State) :
    (s.setPicture p).ownCounterweight = s.ownCounterweight := rfl

theorem Agrees.ownRecords (h : Agrees s u) : u.ownCarrying = s.ownCarrying ∧ u.ownCounterweight = s.ownCounterweight := by
  unfold State.ownCarrying State.ownCounterweight State.destOrCall State.tripOpen State.tripState State.lastSample
  rw [h.cfg, h.depth, h.env, h.trip, h.safety, h.stations]
  exact ⟨rfl, rfl⟩

/-- R38: the records of the drum's own winder are those of the state, and no other winder's changes from `s`. -/
structure OwnWritten (s u : State) : Prop where
  carrying      : ∀ w, u.picture.carrying[w] = if s.cfg.winder = w then some u.ownCarrying else s.picture.carrying[w]
  counterweight : ∀ w, u.picture.counterweight[w] =
    if s.cfg.winder = w then some u.ownCounterweight else s.picture.counterweight[w]

theorem writeOwnRecords_ownWritten (s : State) : OwnWritten s (writeOwnRecords s) :=
  ⟨fun _ => getElem_put .., fun _ => getElem_put ..⟩

theorem OwnWritten.again (h : OwnWritten s u) {x : TripUnit} (hcfg : u.cfg = s.cfg) :
    OwnWritten s (writeOwnRecords (u.setTrip x)) := by
  obtain ⟨hcar, hcw⟩ := writeOwnRecords_ownWritten (u.setTrip x)
  constructor
  · intro w
    rw [hcar w]
    change (if u.cfg.winder = w then _ else u.picture.carrying[w]) = _
    rw [hcfg, h.carrying w]
    split <;> rfl
  · intro w
    rw [hcw w]
    change (if u.cfg.winder = w then _ else u.picture.counterweight[w]) = _
    rw [hcfg, h.counterweight w]
    split <;> rfl

theorem OwnWritten.of_agrees {t : State} (h : OwnWritten s u) (ha : Agrees u t) : OwnWritten s t := by
  constructor
  · intro w
    rw [ha.picture, ha.ownRecords.1]
    exact h.carrying w
  · intro w
    rw [ha.picture, ha.ownRecords.2]
    exact h.counterweight w

/-- R123: whether a POSITION is built. -/
def State.builds (s : State) : Bool := decide (s.phase = .run) && positionDue s.trip.sincePosition s.positionPeriod

theorem builds_iff (s : State) : s.builds = true ↔ s.phase = .run ∧
    ∀ n, s.trip.sincePosition = some n → (if 50 < s.lastSample.speed.natAbs ∨ s.tripOpen = true then 50 else 500) ≤ n := by
  have hperiod : s.positionPeriod = if 50 < s.lastSample.speed.natAbs ∨ s.tripOpen = true then 50 else 500 := by
    unfold State.positionPeriod moving
    simp only [Bool.or_eq_true, decide_eq_true_eq]
    rfl
  unfold State.builds
  rw [Bool.and_eq_true, decide_eq_true_iff, hperiod]
  refine and_congr_right fun _ => ?_
  cases s.trip.sincePosition <;> simp [positionDue]

/-- R123: the POSITION that a drum with these records builds. -/
def State.ownPosition (s : State) : Payload :=
  .position (positionReport s.cfg.winder s.trip.positionSeq s.ownCarrying s.ownCounterweight)

/-- R123: the state in which the next POSITION is built. -/
def sequenced (s : State) : State :=
  s.setTrip { s.trip with positionSeq := s.trip.positionSeq + 1, sincePosition := some 0 }

theorem Agrees.ownPosition (h : Agrees s u) : u.own u.ownPosition = s.own s.ownPosition := by
  unfold State.own State.ownPosition
  rw [h.cfg, h.trip, h.ownRecords.1, h.ownRecords.2]

theorem buildPosition_built (h : s.builds = true) :
    let z := writeOwnRecords (sequenced s)
    buildPosition s = originate z.ownPosition z := by
  unfold State.builds at h
  rw [Bool.and_eq_true, decide_eq_true_iff] at h
  exact if_pos h

theorem buildPosition_not (h : s.builds = false) : buildPosition s = s := by
  unfold State.builds at h
  refine if_neg fun hdue => ?_
  rw [decide_eq_true hdue.1, hdue.2] at h
  cases h

/-- R38, R123: what the own records and the POSITION make of the state after a sample. -/
structure Built (s b : State) : Prop where
  beside  : BesideTrip (s.setPicture b.picture) b
  written : OwnWritten s b
  trip    : b.trip = { s.trip with positionSeq := if s.builds then s.trip.positionSeq + 1 else s.trip.positionSeq,
                                   sincePosition := if s.builds then some 0 else s.trip.sincePosition }
  offered : s.builds = true → (s.portA.tx.entries.length < 8 → b.portA.tx.holds (b.own b.ownPosition)) ∧
    (s.cfg.repeater = true → s.portB.tx.entries.length < 8 → b.portB.tx.holds (b.own b.ownPosition))

theorem buildPosition_written (s : State) : Built s (buildPosition (writeOwnRecords s)) := by
  have hsame : (writeOwnRecords s).builds = s.builds := rfl
  cases hb : s.builds with
  | false =>
    rw [buildPosition_not (hsame.trans hb)]
    refine ⟨by constructor <;> rfl, writeOwnRecords_ownWritten s, ?_, fun h => absurd (hb.symm.trans h) nofun⟩
    rw [hb]
    rfl
  | true =>
    rw [buildPosition_built (hsame.trans hb)]
    have hrun : s.phase = .run := ((builds_iff s).1 hb).1
    let z := writeOwnRecords (sequenced (writeOwnRecords s))
    have hwritten : OwnWritten s z := (writeOwnRecords_ownWritten s).again rfl
    have hagrees : Agrees z (originate z.ownPosition z) := originate_agrees z _
    have hown := hagrees.ownPosition
    have hbeside : BesideTrip (s.setPicture z.picture) z := by constructor <;> rfl
    refine ⟨?_, hwritten.of_agrees hagrees, ?_, fun _ => ⟨fun ha => ?_, fun hrep hroom => ?_⟩⟩
    · change BesideTrip (s.setPicture (originate z.ownPosition z).picture) (originate z.ownPosition z)
      rw [hagrees.picture]
      exact hbeside.trans (originate_besideTrip z _)
    · change (originate z.ownPosition z).trip = _
      rw [hagrees.trip, hb]
      rfl
    · change (originate z.ownPosition z).portA.tx.holds _
      rw [hown]
      exact (originate_holdsA z _ hrun ha).1
    · change (originate z.ownPosition z).portB.tx.holds _
      rw [hown]
      exact (originate_holdsB z _ hrun hrep hroom).1

/-- R120: the call set holds the origins of the calls. -/
theorem stationIn_callSet (calls : List CallEntry) (n : Station) :
    stationIn (callSet calls) n = true ↔ ∃ e ∈ calls, e.origin = n := by
  have hfold (t : StationSet) : stationIn (calls.foldl (fun t e => stationJoin t e.origin) t) n = true ↔
      stationIn t n = true ∨ ∃ e ∈ calls, e.origin = n := by
    induction calls generalizing t with
    | nil => simp
    | cons e es ih =>
      rw [List.foldl_cons, ih, stationIn_join, Bool.or_eq_true, decide_eq_true_iff, List.exists_mem_cons_iff, or_assoc]
  refine (hfold 0).trans (or_iff_right ?_)
  simp [stationIn]

/-! The computations of a sample (R56 to R62) -/

theorem historyFull_iff {h : List Count} (hle : h.length ≤ 10) : historyFull h = true ↔ h.length = 10 := by
  unfold historyFull
  rw [decide_eq_true_iff]
  omega

theorem sampleSpeed_eq {h : List Count} (hle : h.length ≤ 10) (c : Count) (upc : Nat) : sampleSpeed h c upc =
    if h.length = 10 then clampInt (-32767) 32767 (((c - h.headD 0).toInt * upc).tdiv 100) else 0 := by
  cases h with
  | nil => rfl
  | cons x xs =>
    unfold sampleSpeed
    dsimp only
    rw [if_congr (historyFull_iff hle) rfl rfl]
    rfl

theorem nextHistory_eq {h : List Count} (hle : h.length ≤ 10) (c : Count) :
    nextHistory h c = (if h.length = 10 then h.tail else h) ++ [c] := by
  unfold nextHistory
  rw [if_congr (historyFull_iff hle) rfl rfl]
  split <;> rfl

theorem nextStationary_eq {h : List Count} (hle : h.length ≤ 10) (v : Int) (t : Nat) : nextStationary (historyFull h) v t =
    if h.length = 10 then if v.natAbs ≤ 50 then min 65535 (t + 10) else 0 else t := by
  unfold nextStationary
  rw [if_congr (historyFull_iff hle) rfl rfl]
  rfl

/-- R59: the correction, interpolated between the boundaries of the page. -/
theorem correctionAt_eq (table : Vector Int 64) (raw : Depth) :
    let c (page : Nat) : Int := table.toList.getD page 0
    let p := raw.val / 65536
    correctionAt table raw = if p < 63 then c p + ((c (p + 1) - c p) * (raw.val % 65536 : Nat)) / 65536 else c 63 := by
  intro c p
  have hc (i : Nat) (hi : i < 64) : c i = table[i] := by
    simp [c, List.getD, hi]
  have hp : p < 64 := by have := raw.isLt; omega
  unfold correctionAt
  dsimp only
  by_cases hlast : p < 63
  · rw [if_pos hlast, dif_pos (show (pageOf raw).val + 1 < 64 by unfold pageOf; dsimp only; omega), hc p hp,
      hc (p + 1) (by omega)]
    rfl
  · have hp63 : p = 63 := by omega
    rw [if_neg hlast, dif_neg (show ¬(pageOf raw).val + 1 < 64 by unfold pageOf; dsimp only; omega), hc 63 (by decide)]
    simp only [Fin.getElem_fin]
    congr 1

end

/-- R135: at a drum the end of a step leaves the queues and the gate unit. -/
theorem finish_drum {before e : State} (hd : e.isDrum = true) : (finish before e).portA = e.portA ∧
    (finish before e).portB = e.portB ∧ (finish before e).gate = e.gate := by
  rw [finish_of_no_gates (not_hasGates_of_isDrum hd)]
  rcases shaftLineOnChange_eq before e with h | h <;> rw [h] <;> simp [judgeLeaving]

/-- Settles O27. -/
theorem sampleSetAndPosition : Obligations.SampleSetAndPosition := by
  unfold Obligations.SampleSetAndPosition
  intro s first hlive hdrum hworking hle full v rawU raw c p k corU cwU still
  let x : SampleSet :=
    { count := s.depth.count, speed := v, stationary := still, raw := raw, corrected := clampDepth corU,
      counterweight := clampDepth cwU,
      clamped := rawU != raw.val || corU != (clampDepth corU).val || cwU != (clampDepth cwU).val,
      verified := s.depth.verified, correctionOn := s.depth.correctionOn, modePending := s.depth.modePending,
      clearPending := s.depth.clearPending }
  have hspeed : sampleSpeed s.depth.history s.depth.count s.cfg.upc = v := sampleSpeed_eq hle _ _
  have hstill : nextStationary (historyFull s.depth.history) v s.depth.stationary = still := nextStationary_eq hle _ _
  have hcor : correctedUnclamped s.depth.correctionOn s.depth.table raw = corU := by
    unfold correctedUnclamped
    rw [correctionAt_eq]
  have hsampled := sampleJudged_sampled first s
  have hbeside := sampleJudged_besideTrip first s
  have hstep := sampleStep_eq first s
  have hnew : (takeSample (countSampleTime s)).depth = { s.depth with
      history := (if full then s.depth.history.tail else s.depth.history) ++ [s.depth.count]
      stationary := still
      sample := some x } := by
    rw [← nextHistory_eq hle, ← hstill]
    simp only [x]
    rw [← hcor, ← hstill, ← hspeed]
    rfl
  generalize sampleJudged first s = e at *
  have hbuilt := buildPosition_written e
  have halike := buildPosition_alike e
  rw [← hstep] at hbuilt halike
  have hexec := exec_sample first hlive hdrum hworking
  generalize sampleStep first s = b at *
  have hlast : e.lastSample = x := lastSample_of (by rw [hsampled.depth, hnew])
  have hrest : b.depth = e.depth ∧ b.env = e.env ∧ b.safety = e.safety ∧ b.trip.record = e.trip.record ∧
      b.trip.calls = e.trip.calls ∧ b.cfg = e.cfg := by
    obtain ⟨u, rfl⟩ := halike
    exact ⟨rfl, rfl, rfl, rfl, rfl, rfl⟩
  obtain ⟨hdepth, henv, hsafety, hrecord, hcalls, hcfgb⟩ := hrest
  have hcfg : e.cfg = s.cfg := hbeside.cfg
  have hagrees : Agrees b (finish s b) := finish_agrees b s
  obtain ⟨hA, hB, hgate⟩ := finish_drum (before := s) (e := b) (by rw [State.isDrum, hcfgb, hcfg]; exact hdrum)
  have hwritten := hbuilt.written.of_agrees hagrees
  have hrecordt : (finish s b).trip.record = e.trip.record := by rw [hagrees.trip, hrecord]
  have hopen : (finish s b).tripOpen = e.tripOpen := by unfold State.tripOpen State.tripState; rw [hrecordt]
  have hlastt : (finish s b).lastSample = x := by
    rw [← hlast]
    unfold State.lastSample
    rw [hagrees.depth, hdepth]
  have hdeptht : (finish s b).depth = e.depth := hagrees.depth.trans hdepth
  have hcfgt : (finish s b).cfg = s.cfg := hagrees.cfg.trans (hcfgb.trans hcfg)
  have hstations : (finish s b).stations = s.stations :=
    hagrees.stations.trans (hbuilt.beside.stations.trans hbeside.stations)
  have hpicture : e.picture = s.picture := hbeside.picture
  have hseqe : e.trip.positionSeq = s.trip.positionSeq := hsampled.seq
  have hsincee : e.trip.sincePosition = s.trip.sincePosition.map (· + 10) := hsampled.since
  refine ⟨finish s b, hexec, ?_, ?_, ?_, ?_, ?_, ?_, hstations, ?_, ?_, ?_, hcfgt, ?_, fun w hw => ?_, ?_, ?_⟩
  · rw [hdeptht, hsampled.depth, hnew]
  · rw [hdeptht, hsampled.depth, hnew]
  · rw [hdeptht, hsampled.depth, hnew]
  · rw [hdeptht, hsampled.depth, hnew]
  · rw [hdeptht, hsampled.depth, hnew]
  · rw [hdeptht, hsampled.depth, hnew]
  · exact hgate.trans (hbuilt.beside.gate.trans hbeside.gate)
  · exact hagrees.seq.trans (hbuilt.beside.seq.trans hbeside.seq)
  · exact hagrees.inputs.trans (hbuilt.beside.inputs.trans hbeside.inputs)
  · exact hagrees.relay.trans (hbuilt.beside.relay.trans hbeside.relay)
  · have hne : e.cfg.winder ≠ w := by rw [hcfg]; exact fun h => hw h.symm
    rw [hwritten.carrying, hwritten.counterweight, if_neg hne, if_neg hne, hpicture]
    exact ⟨rfl, rfl⟩
  · rw [hwritten.counterweight, if_pos (congrArg Params.winder hcfg)]
    unfold State.ownCounterweight moving
    rw [hlastt]
    simp only [decide_eq_true_eq]
    rfl
  · intro built
    have hbuilds : e.builds = true ↔ built := by
      have hphase : e.phase = s.phase := by unfold State.phase; rw [hbeside.loader]; rfl
      rw [builds_iff, hlast, hsincee, hphase, ← hopen]
      refine and_congr_right fun _ => ?_
      cases s.trip.sincePosition <;> simp [x]
    have htrip := hbuilt.trip
    rw [← hagrees.trip, hseqe, hsincee, if_congr hbuilds rfl rfl, if_congr hbuilds rfl rfl] at htrip
    refine ⟨by rw [htrip], by rw [htrip], (finish s b).ownCarrying, ?_, ?_, ?_, fun hb => ?_⟩
    · rw [hwritten.carrying, if_pos (congrArg Params.winder hcfg)]
    · unfold State.ownCarrying State.destOrCall moving
      rw [hlastt, hcfgt, hstations]
      simp only [decide_eq_true_eq]
      rfl
    · exact stationIn_callSet _
    · have hseqt : (finish s b).trip.positionSeq = s.trip.positionSeq + 1 := by rw [htrip]; exact if_pos hb
      have hspeedt : (finish s b).ownCarrying.speed = v := by unfold State.ownCarrying; rw [hlastt]
      have hcwt : (finish s b).ownCounterweight.depth = clampDepth cwU := by unfold State.ownCounterweight; rw [hlastt]
      have hown := hagrees.ownPosition
      unfold State.ownPosition positionReport State.own at hown
      rw [hseqt, hspeedt, hcwt, hcfgt] at hown
      obtain ⟨hholdsA, hholdsB⟩ := hbuilt.offered (hbuilds.2 hb)
      unfold Offered State.own
      rw [hA, hB, hown]
      refine ⟨fun hroom => hholdsA ?_, fun hrep hroom => hholdsB (by rw [hcfg]; exact hrep) ?_⟩
      · have hroom : s.portA.tx.entries.length + 2 ≤ 8 := hroom
        have hle : e.portA.tx.entries.length ≤ s.portA.tx.entries.length + 1 :=
          (hsampled.windsA hroom).elim (Nat.le_succ_of_le ·) (·.1)
        omega
      · have hroom : s.portB.tx.entries.length + 2 ≤ 8 := hroom
        have hle : e.portB.tx.entries.length ≤ s.portB.tx.entries.length + 1 :=
          (hsampled.windsB hroom).elim (Nat.le_succ_of_le ·) (·.1)
        omega

end Sys2Proof.Machine
end

