-- ==== Sys2Proof/Proofs/EntryToRun.lean ====
section
/-! PROOFS. Sys2Proof/Proofs/EntryToRun.lean: frames that join the queues one behind another (R16), and the entry to RUN (R183,
R184, R147, R159). -/
set_option Elab.async false

namespace Sys2Proof.Machine

/-! Frames one behind another (R16, R17) -/

section
variable {s t u : State} {n m : Nat} {fs : List Frame}

/-- `t` is `s` with at most `n` entries more in each queue of a port in use, and where there is room for `n` the frames are
held. -/
def Queued (s : State) (n : Nat) (fs : List Frame) (t : State) : Prop :=
  ∀ p : PortId, (p = .b → s.cfg.repeater = true) →
    (t.port p).tx.entries.length ≤ (s.port p).tx.entries.length + n ∧
    ((s.port p).tx.entries.length + n ≤ 8 → ∀ f ∈ fs, (t.port p).tx.holds f)

theorem Queued.refl (s : State) : Queued s 0 [] s := fun _ _ => ⟨le_rfl, fun _ _ h => absurd h List.not_mem_nil⟩

theorem Queued.of_ports (h : Queued s n fs t) (hports : u.portA = t.portA ∧ u.portB = t.portB) : Queued s n fs u := by
  intro p hp
  have hport : u.port p = t.port p := by cases p <;> [exact hports.1; exact hports.2]
  rw [hport]
  exact h p hp

theorem Queued.mono (h : Queued s n fs t) {gs : List Frame} (hn : n ≤ m) (hsub : gs ⊆ fs) : Queued s m gs t := fun p hp =>
  ⟨by have := (h p hp).1; omega, fun hroom f hf => (h p hp).2 (by omega) f (hsub hf)⟩

theorem Queued.offered (h : Queued s n fs t) {f : Frame} (hf : f ∈ fs)
    (hn : n ≤ 2 ∨ s.portA.tx.entries.length + n ≤ 8 ∧ s.portB.tx.entries.length + n ≤ 8) : Offered s t f := by
  refine ⟨fun hroom => (h .a nofun).2 ?_ f hf, fun hrep hroom => (h .b fun _ => hrep).2 ?_ f hf⟩
  · have hroom : s.portA.tx.entries.length + 2 ≤ 8 := hroom
    change s.portA.tx.entries.length + n ≤ 8
    omega
  · have hroom : s.portB.tx.entries.length + 2 ≤ 8 := hroom
    change s.portB.tx.entries.length + n ≤ 8
    omega

theorem originate_port (hrun : s.phase = .run) (payload : Payload) (p : PortId) (hp : p = .b → s.cfg.repeater = true) :
    ((originate payload s).port p).tx = ((s.port p).tx.takeIn (sameReport (s.own payload)) (s.own payload) s.model.stamp).1 := by
  cases p with
  | a =>
    change (originate payload s).portA.tx = _
    rw [originate_portA, if_pos hrun]
    rfl
  | b =>
    change (originate payload s).portB.tx = _
    rw [originate_portB, if_pos ⟨hrun, hp rfl⟩]
    rfl

/-- R16, R17: a frame originated joins those before it, unless it is a report that replaces one of them. -/
theorem Queued.originate (h : Queued s n fs t) (hrun : t.phase = .run) (hcfg : t.cfg = s.cfg) (p : Payload)
    (hfs : ∀ f ∈ fs, sameReport (t.own p) f = false) : Queued s (n + 1) (t.own p :: fs) (originate p t) := by
  intro q hq
  obtain ⟨hlen, hheld⟩ := h q hq
  rw [originate_port hrun p q (by rw [hcfg]; exact hq)]
  have hjoined := takeIn_length_le (t.port q).tx (sameReport (t.own p)) (t.own p) t.model.stamp
  refine ⟨by omega, fun hroom f hf => ?_⟩
  have hl : (t.port q).tx.entries.length < 8 := by omega
  rcases List.mem_cons.1 hf with rfl | hf
  · exact takeIn_holds _ _ _ _ hl
  · exact takeIn_keeps _ _ _ _ hl (hheld (by omega) f hf) (hfs f hf)

/-- R18: a HALT replaces nothing. -/
theorem Queued.halt (h : Queued s n fs t) (hrun : t.phase = .run) (hcfg : t.cfg = s.cfg) (ws : WinderSet) (r : HaltReason) :
    Queued s (n + 1) (t.own (.halt ws r) :: fs) (Machine.originate (.halt ws r) t) := h.originate hrun hcfg _ fun _ _ => rfl

end

/-! The gate records and the sequencer at entry to RUN (R147, R159) -/

section
variable {s t u : State} {n : Nat} {fs : List Frame}

/-- R147: what the entry to RUN makes of a gate record. -/
def enteredRun (s : State) (w : Winder) : GateRecord :=
  if s.serves w then
    { state := if s.inputs.gateClosed[w] then if s.landingCondition w then .releasable else .locked else .opened
      settleMs := none }
  else s.gate.records[w]

theorem enteredRun_congr {w : Winder} (h : BesideGates s t) (hr : t.gate.records = s.gate.records) :
    enteredRun t w = enteredRun s w := by
  unfold enteredRun State.serves State.hasGates State.isLanding State.isLoading State.landingCondition State.currentRecord
  rw [h.cfg, h.inputs, h.picture, hr]

theorem gateEntersRun_eq (s : State) (w : Winder) : gateEntersRun s w = setGate w (enteredRun s w) s := by
  unfold gateEntersRun enteredRun
  split
  · split
    · split <;> rfl
    · rfl
  · exact (setGate_self s w).symm

theorem gatesEnterRun_records (s : State) (w : Winder) : (gatesEnterRun s).gate.records[w] = enteredRun s w := by
  have hother (u : State) (w v : Winder) (g : GateRecord) (hne : v ≠ w) : enteredRun (setGate w g u) v = enteredRun u v := by
    have hrecord : (setGate w g u).gate.records[v] = u.gate.records[v] := by
      rw [setGate_records, getElem_put, if_neg (Ne.symm hne)]
    unfold enteredRun
    rw [hrecord]
    rfl
  have hmem : w ∈ winders := by revert w; decide
  rw [gatesEnterRun, foldl_records gateEntersRun_eq hother winders (by decide), if_pos hmem]

/-- R159: the frames of an interlock found standing. -/
def standingFrames (s : State) (stands : Bool) (reason : HaltReason) : List Frame :=
  if stands then [s.own (.halt s.skipSet reason)] else []

theorem Queued.standingHalt (h : Queued s n fs t) (hrun : t.phase = .run) (hcfg : t.cfg = s.cfg) (stands : Bool)
    (reason : HaltReason) : Queued s (n + 1) (standingFrames s stands reason ++ fs) (standingHalt stands reason t) := by
  cases stands with
  | false => exact h.mono (Nat.le_succ n) (List.Subset.refl _)
  | true =>
    have hown : t.own (.halt t.skipSet reason) = s.own (.halt s.skipSet reason) := by
      unfold State.own State.skipSet
      rw [hcfg]
    have hqueued := h.halt hrun hcfg t.skipSet reason
    rw [hown] at hqueued
    exact hqueued

/-- R159: a loading station's sequencer at entry to RUN, before its HALTs. -/
def flaskEntersRun (s : State) : State :=
  (judgeDischarge s).setSeq { (judgeDischarge s).seq with skipMoved := (judgeDischarge s).skipMovesOpen }

theorem sequencerEntersRun_loading (hl : s.isLoading = true) : sequencerEntersRun s =
    standingHalt s.skipMovesOpen .skipMoved (standingHalt (!s.inputs.doorClosed) .flaskDoor
      (standingHalt s.inputs.spillage .spillage (flaskEntersRun s))) := by
  have hsame : (judgeDischarge s).skipMovesOpen = s.skipMovesOpen ∧ (judgeDischarge s).inputs = s.inputs := by
    unfold judgeDischarge
    split <;> exact ⟨rfl, rfl⟩
  have hinputs (b : Bool) (r : HaltReason) (u : State) : (standingHalt b r u).inputs = u.inputs := by
    unfold standingHalt
    split <;> simp
  unfold sequencerEntersRun
  rw [if_pos hl]
  dsimp only
  rw [hinputs]
  rw [show ((judgeDischarge s).setSeq { (judgeDischarge s).seq with skipMoved := (judgeDischarge s).skipMovesOpen }).inputs =
    s.inputs from hsame.2, hsame.1]
  unfold flaskEntersRun
  rw [hsame.1]

theorem standingHalt_seq (b : Bool) (r : HaltReason) (u : State) : (standingHalt b r u).seq = u.seq := by
  unfold standingHalt
  split <;> simp

/-- R150, R153, R159: the flask cycle and the skip-movement indication at entry to RUN. -/
theorem sequencerEntersRun_seq (hl : s.isLoading = true) (hrun : s.phase = .run) :
    (sequencerEntersRun s).seq.skipMoved = s.skipMovesOpen ∧ (s.seq.cycle = .waitSkip →
      (sequencerEntersRun s).seq.cycle = if s.dischargeCondition then .discharge else .waitSkip) := by
  rw [sequencerEntersRun_loading hl, standingHalt_seq, standingHalt_seq, standingHalt_seq]
  unfold flaskEntersRun judgeDischarge
  constructor
  · split <;> rfl
  · intro hwait
    by_cases hc : s.dischargeCondition = true
    · rw [if_pos (by simp [hl, hrun, hwait, hc]), if_pos hc]
      rfl
    · rw [if_neg (by simp [hc]), if_neg hc]
      exact hwait

/-- R159: the HALTs of the interlocks found standing are queued. -/
theorem sequencerEntersRun_queued (h : Queued s n fs t) (hl : t.isLoading = true) (hrun : t.phase = .run) (hcfg : t.cfg = s.cfg) :
    Queued s (n + 3) (standingFrames s t.skipMovesOpen .skipMoved ++ (standingFrames s (!t.inputs.doorClosed) .flaskDoor ++
      (standingFrames s t.inputs.spillage .spillage ++ fs))) (sequencerEntersRun t) := by
  rw [sequencerEntersRun_loading hl]
  have hflask : Moves [.seq] t (flaskEntersRun t) :=
    (judgeDischarge_moves t).trans (Move.seq (judgeDischarge t) { (judgeDischarge t).seq with
      skipMoved := (judgeDischarge t).skipMovesOpen } fun h => h.change).moves
  have hcfg1 (b : Bool) (r : HaltReason) (u : State) : (Machine.standingHalt b r u).cfg = u.cfg :=
    (standingHalt_moves u b r).cfg_eq
  have hrun1 (b : Bool) (r : HaltReason) (u : State) : (Machine.standingHalt b r u).phase = u.phase :=
    (standingHalt_moves u b r).phase_eq
  have h0 := h.of_ports hflask.ports_eq
  have h1 := h0.standingHalt (hflask.phase_eq.trans hrun) (hflask.cfg_eq.trans hcfg) t.inputs.spillage .spillage
  have h2 := h1.standingHalt ((hrun1 ..).trans (hflask.phase_eq.trans hrun)) ((hcfg1 ..).trans (hflask.cfg_eq.trans hcfg))
    (!t.inputs.doorClosed) .flaskDoor
  exact h2.standingHalt ((hrun1 ..).trans ((hrun1 ..).trans (hflask.phase_eq.trans hrun)))
    ((hcfg1 ..).trans ((hcfg1 ..).trans (hflask.cfg_eq.trans hcfg))) t.skipMovesOpen .skipMoved

/-! The entry to RUN (R183, R184) -/

/-- R184: the ANNOUNCE that a station originates. -/
def State.announced (s : State) : Payload := .announce s.announceBody s.cfg.segment s.cfg.digest

/-- R183, R184: the station in RUN, its ANNOUNCE originated and its gate records judged. -/
def gatesRunning (s : State) : State :=
  gatesEnterRun (originate s.announced (s.setLoader { s.loader with phase := .run, listenMs := none }))

/-- R183, R184: the station in RUN, before its first ASSENT. -/
def blocksRunning (s : State) : State :=
  if (gatesRunning s).hasSequencer then sequencerEntersRun (gatesRunning s) else gatesRunning s

theorem enterRun_eq (s : State) : enterRun s =
    if (originateAssent (blocksRunning s)).isDrum && (originateAssent (blocksRunning s)).anyMissing then
      raise .requiredStation (originateAssent (blocksRunning s))
    else originateAssent (blocksRunning s) := rfl

theorem gatesRunning_moves (s : State) :
    Moves [.offers, .records] (s.setLoader { s.loader with phase := .run, listenMs := none }) (gatesRunning s) :=
  .trans (originate_moves _ _).of (gatesEnterRun_moves _ (by simp [State.phase])).of

theorem gatesRunning_records (s : State) (w : Winder) (hs : s.serves w = true) : (gatesRunning s).gate.records[w] =
    { state := if s.inputs.gateClosed[w] then if s.landingCondition w then .releasable else .locked else .opened
      settleMs := none } := by
  have hmoves := originate_moves (s.setLoader { s.loader with phase := .run, listenMs := none }) s.announced
  rw [gatesRunning, gatesEnterRun_records, enteredRun_congr hmoves.besideGates hmoves.records_eq]
  exact if_pos hs

theorem gatesRunning_queued (s : State) : Queued s 1 [s.own s.announced] (gatesRunning s) := by
  have hqueued := (Queued.refl (s.setLoader { s.loader with phase := .run, listenMs := none })).originate rfl rfl
    s.announced fun f hf => absurd hf List.not_mem_nil
  refine Queued.of_ports (t := originate s.announced (s.setLoader { s.loader with phase := .run, listenMs := none })) ?_
    (gatesEnterRun_moves _ (by simp [State.phase])).ports_eq
  intro p hp
  have h := hqueued p hp
  cases p <;> exact h

/-- R159: the HALTs of the interlocks that a loading station finds standing. -/
def flaskHalts (s : State) : List Frame :=
  if s.isLoading then
    standingFrames s s.skipMovesOpen .skipMoved ++ (standingFrames s (!s.inputs.doorClosed) .flaskDoor ++
      standingFrames s s.inputs.spillage .spillage)
  else []

theorem mem_standingFrames {stands : Bool} {r : HaltReason} {f : Frame} (h : f ∈ standingFrames s stands r) :
    f.kind = .halt := by
  unfold standingFrames at h
  split at h
  · rw [List.mem_singleton.1 h]
    rfl
  · exact absurd h List.not_mem_nil

theorem mem_flaskHalts {f : Frame} (h : f ∈ flaskHalts s) : f.kind = .halt := by
  unfold flaskHalts at h
  split at h
  · rcases List.mem_append.1 h with h | h
    · exact mem_standingFrames h
    · rcases List.mem_append.1 h with h | h <;> exact mem_standingFrames h
  · exact absurd h List.not_mem_nil

theorem blocksRunning_moves (s : State) : Moves [.seq, .offers] (gatesRunning s) (blocksRunning s) :=
  .when (sequencerEntersRun_moves _)

theorem blocksRunning_queued (s : State) : Queued s 4 (flaskHalts s ++ [s.own s.announced]) (blocksRunning s) := by
  have hrunning := (gatesRunning_moves s).besideGates
  have hcfg : (gatesRunning s).cfg = s.cfg := hrunning.cfg
  have hrun : (gatesRunning s).phase = .run := by unfold State.phase; rw [hrunning.loader]; rfl
  have hloading : (gatesRunning s).isLoading = s.isLoading := by unfold State.isLoading; rw [hcfg]
  have hqueued := gatesRunning_queued s
  unfold blocksRunning flaskHalts
  by_cases hl : s.isLoading = true
  · have hseq : (gatesRunning s).hasSequencer = true := by unfold State.hasSequencer; rw [hloading, hl]; rfl
    have hopen : (gatesRunning s).skipMovesOpen = s.skipMovesOpen := by
      unfold State.skipMovesOpen State.currentRecord
      rw [hrunning.inputs, hrunning.picture, hcfg]
      rfl
    have hinputs : (gatesRunning s).inputs = s.inputs := hrunning.inputs
    have h := sequencerEntersRun_queued hqueued (hloading.trans hl) hrun hcfg
    rw [hopen, hinputs] at h
    rw [if_pos hseq, if_pos hl, List.append_assoc, List.append_assoc]
    exact h
  · have hdwell : (if (gatesRunning s).hasSequencer then sequencerEntersRun (gatesRunning s) else gatesRunning s).portA =
        (gatesRunning s).portA ∧ (if (gatesRunning s).hasSequencer then sequencerEntersRun (gatesRunning s) else
        gatesRunning s).portB = (gatesRunning s).portB := by
      split
      · unfold sequencerEntersRun
        rw [if_neg (by rw [hloading]; exact hl)]
        exact (judgeDwell_moves _).ports_eq
      · exact ⟨rfl, rfl⟩
    rw [if_neg hl]
    exact (hqueued.of_ports hdwell).mono (by decide) (List.Subset.refl _)

/-- R135, R183: the first ASSENT joins behind the ANNOUNCE and the HALTs. -/
theorem enterRun_queued (s : State) : Queued s 5
    ((if s.hasGates then [(blocksRunning s).assentFrame] else []) ++ (flaskHalts s ++ [s.own s.announced])) (enterRun s) := by
  have hrunning := (gatesRunning_moves s).besideGates
  have hmoves := blocksRunning_moves s
  have hcfg : (blocksRunning s).cfg = s.cfg := hmoves.cfg_eq.trans hrunning.cfg
  have hrun : (blocksRunning s).phase = .run := by
    rw [hmoves.phase_eq]
    unfold State.phase
    rw [hrunning.loader]
    rfl
  have hraised : (enterRun s).portA = (originateAssent (blocksRunning s)).portA ∧
      (enterRun s).portB = (originateAssent (blocksRunning s)).portB := by
    rw [enterRun_eq]
    split <;> simp
  refine Queued.of_ports ?_ hraised
  have hqueued := blocksRunning_queued s
  by_cases hg : s.hasGates = true
  · rw [if_pos hg, originateAssent_of _ ((hasGates_congr hcfg).trans hg) hrun]
    refine Queued.originate (t := (blocksRunning s).setGate { (blocksRunning s).gate with assentMs := some 0 })
      (hqueued.of_ports ⟨rfl, rfl⟩) hrun hcfg (.assent (blocksRunning s).assentContents) fun f hf => ?_
    have hkind : f.kind = .halt ∨ f.kind = .announce := by
      rcases List.mem_append.1 hf with h | h
      · exact .inl (mem_flaskHalts h)
      · rw [List.mem_singleton.1 h]
        exact .inr rfl
    change (f.kind == .assent) = false
    rcases hkind with h | h <;> rw [h] <;> rfl
  · rw [if_neg hg, originateAssent_not _ fun h => hg ((hasGates_congr hcfg).symm.trans h.1)]
    exact hqueued.mono (by decide) (List.Subset.refl _)

theorem enterRun_gate (s : State) : (enterRun s).gate = (originateAssent (blocksRunning s)).gate ∧
    (enterRun s).seq = (blocksRunning s).seq := by
  rw [enterRun_eq]
  split <;> simp

theorem enterRun_beside (s : State) :
    BesideGates (s.setLoader { s.loader with phase := .run, listenMs := none }) (enterRun s) :=
  (enterRun_moves_of_run s).besideGates

theorem enterRun_assentFrame (s : State) : (enterRun s).assentFrame = (blocksRunning s).assentFrame := by
  rw [← (originateAssent_agrees (blocksRunning s)).assentFrame, enterRun_eq]
  split
  · exact raise_assentFrame _ _
  · rfl

/-- R184, Table 10-2: REQUIRED STATION is raised while a required station is missing, and stands no longer. -/
theorem enterRun_requiredStation {t : State} (hd : s.isDrum = true) (hq : Quiet (enterRun s) t) :
    t.isPending .requiredStation = true ↔ s.anyMissing = true := by
  have hbeside := enterRun_beside s
  have hcfg : (enterRun s).cfg = s.cfg := hbeside.cfg
  have hmissing : (enterRun s).anyMissing = s.anyMissing := by
    unfold State.anyMissing State.missing
    rw [hcfg, hbeside.stations]
    rfl
  have hraised (hm : s.anyMissing = true) : (enterRun s).isPending .requiredStation = true := by
    have hagrees := originateAssent_agrees (blocksRunning s)
    rw [enterRun_eq] at hbeside hcfg hmissing ⊢
    have hboth : ((originateAssent (blocksRunning s)).isDrum && (originateAssent (blocksRunning s)).anyMissing) = true := by
      by_contra hnot
      rw [if_neg hnot] at hcfg hmissing
      exact hnot (by rw [isDrum_congr hcfg, hd, hmissing, hm]; rfl)
    rw [if_pos hboth] at hbeside ⊢
    refine isPending_raise_self _ _ ?_
    have hloader := hbeside.loader
    rw [raise_loader] at hloader
    unfold State.working State.phase
    rw [hloader]
    rfl
  have hbit : t.isPending .requiredStation =
      ((enterRun s).isPending .requiredStation && s.anyMissing) := by
    unfold State.isPending
    rw [hq.events, BitVec.getLsbD_and, BitVec.getLsbD_not, (leavingMask_drum ((isDrum_congr hcfg).trans hd)).2.2.2.2.1, hmissing,
      Bool.not_not]
    simp [Event.code]
  rw [hbit, Bool.and_eq_true]
  exact ⟨fun h => h.2, fun h => ⟨hraised h, h⟩⟩

theorem anyMissing_iff (s : State) : s.anyMissing = true ↔
    ∃ n : Station, stationIn s.cfg.required n = true ∧ s.stations.entries[n].state = .unknown := by
  simp [State.anyMissing, State.missing, stationNumbers]

theorem skipMovesOpen_iff (s : State) : s.skipMovesOpen = true ↔
    s.inputs.doorClosed = false ∧ ∃ x, s.currentRecord s.cfg.tipWinder = some x ∧ 50 < x.speed.natAbs := by
  unfold State.skipMovesOpen
  cases s.currentRecord s.cfg.tipWinder <;> simp

/-- R150, R153, R159: a loading station's flask cycle and skip-movement indication once in RUN. -/
theorem enterRun_flask (hl : s.isLoading = true) : ((enterRun s).seq.skipMoved = s.skipMovesOpen) ∧ (s.seq.cycle = .waitSkip →
    (enterRun s).seq.cycle = if s.dischargeCondition then .discharge else .waitSkip) := by
  have hrunning := (gatesRunning_moves s).besideGates
  have hcfg : (gatesRunning s).cfg = s.cfg := hrunning.cfg
  have hrun : (gatesRunning s).phase = .run := by unfold State.phase; rw [hrunning.loader]; rfl
  have hloading : (gatesRunning s).isLoading = true := by unfold State.isLoading; rw [hcfg]; exact hl
  have hopen : (gatesRunning s).skipMovesOpen = s.skipMovesOpen := by
    unfold State.skipMovesOpen State.currentRecord
    rw [hrunning.inputs, hrunning.picture, hcfg]
    rfl
  have hcond : (gatesRunning s).dischargeCondition = s.dischargeCondition := by
    unfold State.dischargeCondition State.skipPresent State.currentRecord
    rw [hrunning.inputs, hrunning.picture, hcfg]
    rfl
  have hseq : (gatesRunning s).seq = s.seq := (gatesRunning_moves s).seq_eq
  have hblocks : (enterRun s).seq = (sequencerEntersRun (gatesRunning s)).seq := by
    rw [(enterRun_gate s).2, blocksRunning, if_pos (by unfold State.hasSequencer; rw [hloading]; rfl)]
  obtain ⟨hmoved, hcycle⟩ := sequencerEntersRun_seq hloading hrun
  rw [hblocks]
  exact ⟨hmoved.trans hopen, fun hw => (hcycle (by rw [hseq]; exact hw)).trans (by rw [hcond])⟩

end

/-- Settles O10. -/
theorem listenTimerEntersRun : Obligations.ListenTimerEntersRun := by
  unfold Obligations.ListenTimerEntersRun
  intro s n hlive hn
  have hexec : exec .listenTimerExpiry s = .next (finish s
      (if s.phase = .listen ∧ reached s.loader.listenMs Config.listenTime then enterRun s else s)) := by
    change execListenTimerExpiry s = _
    exact act_of_live hlive
  refine ⟨fun hreached hlisten hA hB => ?_, fun hnot => ?_⟩
  · rw [if_pos ⟨hlisten, (reached_iff hn Config.listenTime).2 hreached⟩] at hexec
    have hbeside := enterRun_beside s
    have hquiet : Quiet (enterRun s) (finish s (enterRun s)) := by
      refine finish_quiet s _ (fun h => absurd (hlisten.symm.trans h) (by decide)) fun _ h => ?_
      unfold State.shaftLine at h ⊢
      rwa [hbeside.stations] at h
    have hagrees := hquiet.toAgrees
    have hroom : s.portA.tx.entries.length + 5 ≤ 8 ∧ s.portB.tx.entries.length + 5 ≤ 8 := by
      rw [hA, hB]
      decide
    have hqueued := (enterRun_queued s).of_ports ⟨hquiet.portA', hquiet.portB'⟩
    have hoffered (f : Frame) (hf : f ∈ _) : Offered s (finish s (enterRun s)) f := hqueued.offered hf (.inr hroom)
    refine ⟨finish s (enterRun s), hexec, ?_, ?_, ?_, fun hg => ?_, fun w hw => ?_, fun hd => ?_, fun hl => ?_, ?_, ?_, ?_,
      ?_, ?_⟩
    · unfold State.phase
      rw [hagrees.loader, hbeside.loader]
      rfl
    · rw [hagrees.loader, hbeside.loader]
      rfl
    · exact hoffered _ (List.mem_append_right _ (List.mem_append_right _ (List.mem_singleton.2 rfl)))
    · rw [hagrees.assentFrame, enterRun_assentFrame, hquiet.gate, (enterRun_gate s).1]
      refine ⟨?_, hoffered _ (List.mem_append_left _ (by rw [if_pos hg]; exact List.mem_singleton_self _))⟩
      have hrunning := (gatesRunning_moves s).besideGates
      have hmoves := blocksRunning_moves s
      rw [originateAssent_of _ ((hasGates_congr (hmoves.cfg_eq.trans hrunning.cfg)).trans hg) (by
        rw [hmoves.phase_eq]
        unfold State.phase
        rw [hrunning.loader]
        rfl)]
      simp
    · rw [hquiet.gate, (enterRun_gate s).1, originateAssent_gate_records, (blocksRunning_moves s).records_eq]
      exact gatesRunning_records s w hw
    · exact (enterRun_requiredStation hd hquiet).trans (anyMissing_iff s)
    · intro halt moves
      obtain ⟨hmoved, hcycle⟩ := enterRun_flask hl
      have hhalt (stands : Bool) (r : HaltReason) (hstands : stands = true)
          (hmem : standingFrames s stands r ⊆ flaskHalts s) : Offered s (finish s (enterRun s)) (halt r) := by
        refine hoffered _ (List.mem_append_right _ (List.mem_append_left _ (hmem ?_)))
        rw [hstands]
        exact List.mem_singleton.2 (by simp [halt, State.skipSet, winderJoin])
      have hall : flaskHalts s = standingFrames s s.skipMovesOpen .skipMoved ++
          (standingFrames s (!s.inputs.doorClosed) .flaskDoor ++ standingFrames s s.inputs.spillage .spillage) := if_pos hl
      refine ⟨fun hs => hhalt _ .spillage hs ?_, fun hdoor => hhalt (!s.inputs.doorClosed) .flaskDoor (by rw [hdoor]; rfl) ?_,
        fun hdoor hm => hhalt _ .skipMoved ((skipMovesOpen_iff s).2 ⟨hdoor, hm⟩) ?_, ?_, ?_⟩
      · rw [hall]
        exact fun f hf => List.mem_append_right _ (List.mem_append_right _ hf)
      · rw [hall]
        exact fun f hf => List.mem_append_right _ (List.mem_append_left _ hf)
      · rw [hall]
        exact fun f hf => List.mem_append_left _ hf
      · rw [hagrees.seq, hmoved]
        exact skipMovesOpen_iff s
      · rw [hagrees.seq]
        exact hcycle
    · exact hagrees.picture.trans hbeside.picture
    · exact hagrees.stations.trans hbeside.stations
    · exact hagrees.trip.trans hbeside.trip
    · exact hagrees.safety.trans hbeside.safety
    · exact hagrees.depth.trans hbeside.depth
  · rw [if_neg fun h => hnot ⟨(reached_iff hn Config.listenTime).1 h.2, h.1⟩] at hexec
    exact ⟨_, hexec, finish_self s⟩

end Sys2Proof.Machine
end

