-- ==== Sys2Proof/Proofs/RecordFields.lean ====
section
/-! PROOFS. Sys2Proof/Proofs/RecordFields.lean: the fields of an accepted record (Tables 11-1 and 11-2, R182). -/
set_option Elab.async false

namespace Sys2Proof.Machine

/-! One field of the record (R182) -/

section
variable {b : List Byte} {i n : Nat}

theorem natOf_lt (l : List Byte) : natOf l < 256 ^ l.length := by
  induction l using List.reverseRecOn with
  | nil => exact Nat.one_pos
  | append_singleton l x ih =>
    have hx : x.toNat < 256 := x.isLt
    have hone : natOf (l ++ [x]) = natOf l * 256 + x.toNat := by simp [natOf]
    rw [hone, List.length_append, List.length_singleton, pow_succ]
    omega

theorem field_lt (b : List Byte) (i n : Nat) : field b i n < 256 ^ n :=
  (natOf_lt _).trans_le (Nat.pow_le_pow_right (by decide) (by simp))

theorem erased_iff (h : i + n ≤ b.length) : erased b i n = true ↔ ∀ k, k < n → b.getD (i + k) 0 = 0xFF#8 := by
  unfold erased
  rw [List.all_eq_true]
  constructor
  · intro hall k hk
    have hmem : b[i + k]'(by omega) ∈ (b.drop i).take n :=
      List.mem_take_iff_getElem.2 ⟨k, by simp; omega, by simp⟩
    simpa [List.getD_eq_getElem?_getD, List.getElem?_eq_getElem (show i + k < b.length by omega)] using hall _ hmem
  · intro hall x hx
    obtain ⟨k, hk, rfl⟩ := List.mem_take_iff_getElem.1 hx
    have hk' : k < n := by simp at hk; omega
    have hb := hall k hk'
    rw [List.getD_eq_getElem?_getD, List.getElem?_eq_getElem (show i + k < b.length by omega)] at hb
    simpa using hb

theorem clampField_val (lo hi v : Nat) (h : lo ≤ hi) : (clampField lo hi v).1 = max lo (min hi v) ∧
    ((clampField lo hi v).2 = false ↔ lo ≤ v ∧ v ≤ hi) := by
  unfold clampField
  split
  · simp; omega
  · split <;> simp <;> omega

/-- Table 11-2: the row's parameter brought into range. -/
def ParamRow.read (r : ParamRow) (b : List Byte) : Ranged Nat := paramField b r.at_ r.bytes r.lo r.hi r.dflt

theorem ParamRow.read_val (r : ParamRow) (hb : r.at_ + r.bytes ≤ b.length) (hr : r.lo ≤ r.hi) :
    (r.isErased b → (r.read b).1 = r.dflt) ∧
    (¬r.isErased b → (r.read b).1 = max r.lo (min r.hi (field b r.at_ r.bytes))) ∧
    ((r.read b).2 = false ↔ (¬r.isErased b → r.lo ≤ field b r.at_ r.bytes ∧ field b r.at_ r.bytes ≤ r.hi)) := by
  have he : erased b r.at_ r.bytes = true ↔ r.isErased b := erased_iff hb
  obtain ⟨hval, hin⟩ := clampField_val r.lo r.hi (field b r.at_ r.bytes) hr
  unfold ParamRow.read paramField
  by_cases h : r.isErased b
  · rw [if_pos (he.2 h)]
    simp [h]
  · rw [if_neg fun h' => h (he.1 h')]
    exact ⟨fun h' => absurd h' h, fun _ => hval, hin.trans ⟨fun h' _ => h', fun h' => h' h⟩⟩

theorem depthField_val (b : List Byte) (i : Nat) : (depthField b i).1.val = min 4194303 (field b i 3) ∧
    ((depthField b i).2 = false ↔ field b i 3 ≤ 4194303) := by
  unfold depthField clampDepth
  refine ⟨?_, by simp⟩
  split
  · simp; omega
  · split <;> simp <;> omega

theorem smallField_val (b : List Byte) (i : Nat) : (smallField b i).1.val = min 3 (field b i 1) ∧
    ((smallField b i).2 = false ↔ field b i 1 ≤ 3) := by
  unfold smallField
  split <;> simp <;> omega

theorem stationField_val (b : List Byte) (i : Nat) : (stationField b i).1.val = min 63 (field b i 1) ∧
    ((stationField b i).2 = false ↔ field b i 1 ≤ 63) := by
  unfold stationField
  split <;> simp <;> omega

theorem segmentField_val (repeater : Bool) (b : List Byte) :
    (segmentField repeater b).1.val = min (if repeater then 2 else 3) (field b 5 1) ∧
    ((segmentField repeater b).2 = false ↔ field b 5 1 ≤ if repeater then 2 else 3) := by
  obtain ⟨hval, hin⟩ := smallField_val b 5
  unfold segmentField
  cases repeater
  · simp [hval, hin]
  · by_cases h : 2 < field b 5 1
    · simp [h]; omega
    · simp [h, hval, hin]; omega

theorem signedField_two (b : List Byte) (i : Nat) : signedField b i 2 = signed16 b i := by
  have hlt : field b i 2 < 65536 := field_lt b i 2
  unfold signedField signed16
  rw [BitVec.toInt_eq_toNat_cond, BitVec.toNat_ofNat, Nat.mod_eq_of_lt hlt]
  split <;> split <;> omega

theorem signedField_three (b : List Byte) (i : Nat) : signedField b i 3 =
    if field b i 3 < 8388608 then (field b i 3 : Int) else field b i 3 - 16777216 := by
  have hlt : field b i 3 < 16777216 := field_lt b i 3
  unfold signedField
  rw [BitVec.toInt_eq_toNat_cond, BitVec.toNat_ofNat, Nat.mod_eq_of_lt hlt]
  split <;> split <;> omega

theorem correctionField_val (b : List Byte) (k : Nat) :
    (correctionField b k).1 = max (-4095) (min 4095 (signed16 b (126 + 2 * k))) ∧
    ((correctionField b k).2 = false ↔ -4095 ≤ signed16 b (126 + 2 * k) ∧ signed16 b (126 + 2 * k) ≤ 4095) := by
  unfold correctionField clampInt
  rw [signedField_two]
  dsimp only
  constructor
  · split
    · omega
    · split <;> omega
  · simp

theorem winderSetField_val (b : List Byte) (i : Nat) : (winderSetField b i).toNat = field b i 1 % 16 := by
  simp [winderSetField]

end

/-! The record whole (Tables 11-1 and 11-2) -/

section
variable {b : List Byte} {n : Station} {role : Role}

theorem recordRole_iff (b : List Byte) : (recordRole b = some .drum ↔ field b 2 1 = 1) ∧
    (recordRole b = some .landing ↔ field b 2 1 = 2) ∧ (recordRole b = some .loading ↔ field b 2 1 = 3) := by
  unfold recordRole
  split <;> simp_all

/-- R181: what is known of a record that is accepted. -/
theorem judgeRecord_some {c : Params} {clamped : Bool} (h : judgeRecord b = some (c, clamped)) : ∃ n role,
    stationOf (field b 1 1) = some n ∧ recordRole b = some role ∧ recordParams b n role = (c, clamped) := by
  unfold judgeRecord at h
  split at h
  · split at h
    · dsimp only at h
      split at h
      · cases h
      · exact ⟨_, _, ‹_›, ‹_›, Option.some.inj h⟩
    · cases h
  · cases h

/-- Every row of Table 11-2 that the role uses gives its parameter. -/
theorem recordParams_rows (b : List Byte) (n : Station) (role : Role) :
    ∀ r ∈ paramRows role (role == .landing && strap b 1), r.value (recordParams b n role).1 = (r.read b).1 := by
  have hempty (r : ParamRow) (h : r ∈ ([] : List ParamRow)) : r.value (recordParams b n role).1 = (r.read b).1 :=
    absurd h List.not_mem_nil
  cases role with
  | drum =>
    change ∀ r ∈ paramRows .drum false, _
    simp only [paramRows, List.cons_append, List.nil_append, List.forall_mem_cons, Bool.false_eq_true, if_false]
    exact ⟨rfl, rfl, rfl, rfl, rfl, rfl, rfl, rfl, rfl, rfl, rfl, rfl, rfl, rfl, rfl, rfl, rfl, rfl, rfl, hempty⟩
  | landing =>
    change ∀ r ∈ paramRows .landing (strap b 1), _
    cases htip : strap b 1 with
    | false => exact List.forall_mem_cons.2 ⟨rfl, hempty⟩
    | true =>
      refine List.forall_mem_cons.2 ⟨rfl, List.forall_mem_cons.2 ⟨?_, hempty⟩⟩
      change (usedField (strap b 1) (paramField b 29 1 2 30 8) 8).1 = _
      rw [htip]
      rfl
  | loading =>
    change ∀ r ∈ paramRows .loading false, _
    exact List.forall_mem_cons.2 ⟨rfl, List.forall_mem_cons.2 ⟨rfl, hempty⟩⟩

theorem any_ofFn_eq_false {m : Nat} (f : Fin m → Ranged Int) :
    (Vector.ofFn f).any (·.2) = false ↔ ∀ k, (f k).2 = false := by
  simp only [Vector.any_eq_false, Vector.getElem_ofFn, Bool.not_eq_true]
  exact ⟨fun h k => h k.1 k.2, fun h i hi => h ⟨i, hi⟩⟩

/-- R182: the record is marked clamped by the fields that its role uses. -/
theorem recordParams_clamped (b : List Byte) (n : Station) (role : Role) : (recordParams b n role).2 = false ↔
    (segmentField (strap b 0) b).2 = false ∧ (smallField b 7).2 = false ∧
    (∀ r ∈ paramRows role (role == .landing && strap b 1), (r.read b).2 = false) ∧
    (role = .drum → (smallField b 3).2 = false ∧ ∀ k : Fin 64, (correctionField b k.val).2 = false) ∧
    (role ≠ .drum → (depthField b 8).2 = false ∧ (depthField b 13).2 = false ∧ (depthField b 16).2 = false ∧
      (depthField b 19).2 = false ∧ (depthField b 22).2 = false) ∧
    (role = .loading → (stationField b 27).2 = false) ∧
    (role = .landing → strap b 1 = true → (stationField b 28).2 = false) ∧
    (role = .loading ∨ role = .landing ∧ strap b 1 = true → (smallField b 26).2 = false) := by
  cases role with
  | drum =>
    change _ ↔ _ ∧ _ ∧ (∀ r ∈ paramRows .drum false, _) ∧ _
    simp [recordParams, any_ofFn_eq_false, paramRows, usedField, ParamRow.read]
    constructor <;> (intro h; simp [h])
  | landing =>
    change _ ↔ _ ∧ _ ∧ (∀ r ∈ paramRows .landing (strap b 1), _) ∧ _
    cases htip : strap b 1 <;> simp [recordParams, any_ofFn_eq_false, paramRows, usedField, ParamRow.read, htip] <;>
      constructor <;> (intro h; simp [h])
  | loading =>
    change _ ↔ _ ∧ _ ∧ (∀ r ∈ paramRows .loading false, _) ∧ _
    simp [recordParams, any_ofFn_eq_false, paramRows, usedField, ParamRow.read]
    constructor <;> (intro h; simp [h])

theorem paramRows_bounds (role : Role) (tip : Bool) :
    ∀ r ∈ paramRows role tip, r.at_ + r.bytes ≤ 256 ∧ r.lo ≤ r.hi := by
  cases role <;> cases tip <;> decide

/-- R182: a parameter of Table 11-2 that the role uses is brought into range from its bytes. -/
theorem recordParams_row (hb : b.length = 256) {r : ParamRow} (hr : r ∈ paramRows role (role == .landing && strap b 1)) :
    (r.isErased b → r.value (recordParams b n role).1 = r.dflt) ∧
    (¬r.isErased b → r.value (recordParams b n role).1 = max r.lo (min r.hi (field b r.at_ r.bytes))) ∧
    ((r.read b).2 = false ↔ (¬r.isErased b → r.lo ≤ field b r.at_ r.bytes ∧ field b r.at_ r.bytes ≤ r.hi)) := by
  obtain ⟨hplace, hrange⟩ := paramRows_bounds role _ r hr
  rw [recordParams_rows b n role r hr]
  exact r.read_val (hplace.trans_eq hb.symm) hrange

theorem recordParams_corrections (b : List Byte) (n : Station) (k : Fin 64) :
    (recordParams b n .drum).1.corrections[k] = (correctionField b k.val).1 := by
  simp [recordParams, usedField]

theorem recordParams_markers (h : role ≠ .drum) (w : Winder) :
    (recordParams b n role).1.markers[w] = (depthField b (13 + 3 * w.val)).1 := by
  have hmarkers : (recordParams b n role).1.markers =
      #v[(depthField b 13).1, (depthField b 16).1, (depthField b 19).1, (depthField b 22).1] := by
    cases role
    · exact absurd rfl h
    · rfl
    · rfl
  rw [hmarkers]
  fin_cases w <;> rfl

end

/-- Settles O9. -/
theorem recordFields : Obligations.RecordFields := by
  unfold Obligations.RecordFields
  intro b c clamped hb hjudged drum loading tip
  obtain ⟨n, role, hn, hrole, hparams⟩ := judgeRecord_some hjudged
  obtain rfl : (recordParams b n role).1 = c := by rw [hparams]
  obtain rfl : (recordParams b n role).2 = clamped := by rw [hparams]
  obtain ⟨hdrum, hlanding, hloading⟩ := recordRole_iff b
  rw [hrole, Option.some_inj] at hdrum hlanding hloading
  have hstation : n.val = field b 1 1 := by
    unfold stationOf at hn
    split at hn
    · rw [← Option.some_inj.1 hn]
    · cases hn
  have htip : tip ↔ role = .landing ∧ strap b 1 = true := and_congr hlanding.symm Iff.rfl
  have hkept : (recordParams b n role).1.role = some role := rfl
  have hrow {role' : Role} {r : ParamRow} (hrole' : (recordParams b n role).1.role = some role')
      (hr : r ∈ paramRows role' (role' == .landing && (recordParams b n role).1.tipFlag)) :
      r ∈ paramRows role (role == .landing && strap b 1) := by
    obtain rfl := Option.some_inj.1 hrole'
    exact hr
  refine ⟨?_, ?_, ?_, hstation, ?_, rfl, rfl, rfl, rfl, (segmentField_val _ b).1, (smallField_val b 7).1, fun hrep => ?_,
    fun role' r hrole' hr => ?_, fun hd => ?_, fun hd => ?_, fun hl => ?_, fun ht => ?_, fun hw => ?_, ?_⟩
  · rw [hkept, Option.some_inj]
    exact hdrum
  · rw [hkept, Option.some_inj]
    exact hloading
  · rw [hkept, Option.some_inj]
    exact hlanding
  · exact (BitVec.toNat_ofNat ..).trans (Nat.mod_eq_of_lt (field_lt b 254 2))
  · change (if strap b 0 then winderSetField b 6 else Params.reset.reach).toNat = _
    rw [if_pos (show strap b 0 = true from hrep)]
    exact winderSetField_val b 6
  · obtain ⟨hdflt, hval, -⟩ := recordParams_row (n := n) hb (hrow hrole' hr)
    exact ⟨hdflt, hval⟩
  · obtain rfl := hdrum.2 hd
    refine ⟨(smallField_val b 3).1, ?_, signedField_three b 78, fun k => ?_⟩
    · exact (BitVec.toNat_ofNat ..).trans (Nat.mod_eq_of_lt (field_lt b 31 8))
    · rw [recordParams_corrections]
      exact (correctionField_val b k.val).1
  · have hgates : role ≠ .drum := mt hdrum.1 hd
    refine ⟨?_, ?_, fun w => ?_⟩
    · cases role
      · exact absurd rfl hgates
      · exact winderSetField_val b 25
      · exact winderSetField_val b 25
    · cases role
      · exact absurd rfl hgates
      · exact (depthField_val b 8).1
      · exact (depthField_val b 8).1
    · rw [recordParams_markers hgates]
      exact (depthField_val b _).1
  · obtain rfl := hloading.2 hl
    exact (stationField_val b 27).1
  · obtain ⟨rfl, hstrap⟩ := htip.1 ht
    change (usedField (strap b 1) (stationField b 28) _).1.val = _
    rw [hstrap]
    exact (stationField_val b 28).1
  · rcases hw with hl | ht
    · obtain rfl := hloading.2 hl
      exact (smallField_val b 26).1
    · obtain ⟨rfl, hstrap⟩ := htip.1 ht
      change (usedField (strap b 1) (smallField b 26) _).1.val = _
      rw [hstrap]
      exact (smallField_val b 26).1
  · rw [recordParams_clamped]
    refine and_congr (segmentField_val _ b).2 (and_congr (smallField_val b 7).2 (and_congr ?_ (and_congr ?_ (and_congr ?_
      (and_congr ?_ (and_congr ?_ ?_))))))
    · refine ⟨fun h role' r hrole' hr => ((recordParams_row (n := n) hb (hrow hrole' hr)).2.2).1 (h r (hrow hrole' hr)),
        fun h r hr => ((recordParams_row (n := n) hb hr).2.2).2 (h role r rfl hr)⟩
    · rw [hdrum]
      exact imp_congr_right fun _ => and_congr (smallField_val b 3).2 (forall_congr' fun k => (correctionField_val b k.val).2)
    · rw [Ne, hdrum]
      refine imp_congr_right fun _ => and_congr (depthField_val b 8).2 ?_
      have hplaces : (∀ w : Winder, field b (13 + 3 * w.val) 3 ≤ 4194303) ↔ field b 13 3 ≤ 4194303 ∧
          field b 16 3 ≤ 4194303 ∧ field b 19 3 ≤ 4194303 ∧ field b 22 3 ≤ 4194303 := by
        simp [Fin.forall_fin_succ]
      rw [hplaces, (depthField_val b 13).2, (depthField_val b 16).2, (depthField_val b 19).2, (depthField_val b 22).2]
    · rw [hloading, (stationField_val b 27).2]
    · rw [← (stationField_val b 28).2, htip, and_imp]
    · rw [hloading, ← htip, (smallField_val b 26).2]

end Sys2Proof.Machine
end

