-- ==== Sys2Proof/Proofs/RecordJudged.lean ====
section
/-! PROOFS. Sys2Proof/Proofs/RecordJudged.lean: the end of the read (R180 to R183): the record refused, and the record
accepted. -/
set_option Elab.async false

namespace Sys2Proof.Machine

/-! The levels of the data in line (R180) -/

section
variable {b : List Byte} {s t u v : State} {n : Station} {role : Role}

theorem byteOfLevels_spiLevels (x : Byte) : byteOfLevels (spiLevels x) = x := by
  revert x
  decide +kernel

theorem clockIn_flatMap (b : List Byte) (rest : List Level) : clockIn b.length (b.flatMap spiLevels ++ rest) = b := by
  induction b with
  | nil => rfl
  | cons x xs ih =>
    have htake : ((x :: xs).flatMap spiLevels ++ rest).take 8 = spiLevels x := rfl
    have hdrop : ((x :: xs).flatMap spiLevels ++ rest).drop 8 = xs.flatMap spiLevels ++ rest := rfl
    rw [List.length_cons, clockIn, htake, hdrop, ih, byteOfLevels_spiLevels]

/-- R180: the levels of 256 bytes are read as those bytes. -/
theorem recordBuffer_flatMap (hb : b.length = 256) : recordBuffer (b.flatMap spiLevels) = b := by
  rw [recordBuffer, ← hb]
  exact clockIn_flatMap b _

theorem exec_recordReadComplete (hb : b.length = 256) (hlive : s.live = true) (hreading : s.loader.reading = true) :
    exec (.recordReadComplete (b.flatMap spiLevels)) s = .next (finish s (bufferJudged b s)) := by
  have hexec : exec (.recordReadComplete (b.flatMap spiLevels)) s =
      .next (finish s (if s.loader.reading then readComplete (b.flatMap spiLevels) s else s)) := by
    change execRecordReadComplete _ s = _
    exact act_of_live hlive
  rw [hexec, if_pos hreading, readComplete_eq]
  exact congrArg (fun x => Host.Outcome.next (finish s (bufferJudged x s))) (recordBuffer_flatMap hb)

/-! The grounds of refusal (R181) -/

theorem stationOf_none (k : Nat) : stationOf k = none ↔ 63 < k := by
  unfold stationOf
  split <;> simp <;> omega

theorem recordRole_none (b : List Byte) :
    recordRole b = none ↔ ¬(field b 2 1 = 1 ∨ field b 2 1 = 2 ∨ field b 2 1 = 3) := by
  unfold recordRole
  split <;> simp_all

theorem paramsRefused_iff (b : List Byte) (n : Station) (role : Role) : paramsRefused (recordParams b n role).1 = true ↔
    (role = .drum ∧ (paramField b 73 3 0 4194303 4194303).1 ≤ (paramField b 70 3 0 4194303 0).1) ∨
    (role ≠ .drum ∧ BitVec.ofNat 4 (field b 25 1) = 0) := by
  cases role with
  | drum =>
    change decide ((paramField b 73 3 0 4194303 4194303).1 ≤ (paramField b 70 3 0 4194303 0).1) = true ↔ _
    simp
  | landing =>
    change (winderSetField b 25 == 0) = true ↔ _
    simp [winderSetField]
  | loading =>
    change (winderSetField b 25 == 0) = true ↔ _
    simp [winderSetField]

theorem judgeRecord_none (b : List Byte) : judgeRecord b = none ↔
    (crc16 (b.take 254)).toNat ≠ field b 254 2 ∨ field b 0 1 ≠ 1 ∨ 63 < field b 1 1 ∨
    ¬(field b 2 1 = 1 ∨ field b 2 1 = 2 ∨ field b 2 1 = 3) ∨
    (field b 2 1 = 1 ∧ (paramField b 73 3 0 4194303 4194303).1 ≤ (paramField b 70 3 0 4194303 0).1) ∨
    ((field b 2 1 = 2 ∨ field b 2 1 = 3) ∧ BitVec.ofNat 4 (field b 25 1) = 0) := by
  unfold judgeRecord recordCrcAgrees
  by_cases hcrc : (crc16 (b.take 254)).toNat = field b 254 2
  · by_cases hversion : field b 0 1 = 1
    · rw [if_pos (by simp [hcrc, hversion]), ← stationOf_none, ← recordRole_none]
      cases hn : stationOf (field b 1 1) with
      | none => simp
      | some n =>
        cases hrole : recordRole b with
        | none => simp
        | some role =>
          obtain ⟨hdrum, hlanding, hloading⟩ := recordRole_iff b
          rw [hrole, Option.some_inj] at hdrum hlanding hloading
          have hrefused := paramsRefused_iff b n role
          have hgates : role ≠ .drum ↔ field b 2 1 = 2 ∨ field b 2 1 = 3 := by
            rw [← hlanding, ← hloading]
            cases role <;> decide
          rw [hgates, hdrum] at hrefused
          dsimp only
          rw [← hrefused]
          simp [hcrc, hversion]
    · rw [if_neg (by simp [hversion])]
      simp [hversion]
  · rw [if_neg (by simp [hcrc])]
    simp [hcrc]

/-! Outside RUN nothing is reported (R16) -/

/-- `u` is `v` but for the depth unit, the envelope, the trip, the causes and the event lines. -/
structure Unreported (v u : State) : Prop extends BesideTrip v u where
  portA' : u.portA = v.portA
  portB' : u.portB = v.portB

theorem Unreported.refl (v : State) : Unreported v v := ⟨.refl v, rfl, rfl⟩

theorem unreported_rule (h : v.phase ≠ .run) : TripRule (Unreported v) where
  changed s e x f n _ _ hs := ⟨hs.toBesideTrip.trans (by constructor <;> rfl), hs.portA', hs.portB'⟩
  pending s hs := ⟨hs.toBesideTrip.trans (takePending_besideTrip s), hs.portA', hs.portB'⟩
  reports s r hs := by
    have hphase : s.phase ≠ .run := by unfold State.phase; rw [hs.loader]; exact h
    have hsame : originate (.winding r) s = s := if_neg hphase
    rw [hsame]
    exact hs

end

/-- Settles O7. -/
theorem refusedRecord : Obligations.RefusedRecord := by
  unfold Obligations.RefusedRecord
  intro b s hb hlive hreading
  refine ⟨judgeRecord_none b, fun hnone => ?_, fun x hx => ?_⟩
  · let v := recordRefused (s.setLoader { s.loader with buffer := b })
    have hjudged : bufferJudged b s = deliver (Cause.plain .config) v := by
      unfold bufferJudged
      rw [hnone]
      rfl
    have hexec := exec_recordReadComplete hb hlive hreading
    rw [hjudged] at hexec
    have hphase : v.phase ≠ .run := by
      change Phase.configFault ≠ .run
      decide
    have hv : v.loader = { s.loader with buffer := b, phase := .configFault, reading := false, clamped := false } := rfl
    obtain ⟨hbeside, hportA, hportB⟩ := (unreported_rule hphase).deliver (.refl v) (Cause.plain .config)
    have hagrees := finish_agrees (deliver (Cause.plain .config) v) s
    have hcount : (deliver (Cause.plain .config) v).depth.count = s.depth.count := by
      rw [((sampled_rule v).deliver (.refl v) (Cause.plain .config)).depth]
      rfl
    have hcauses := deliver_causes v (Cause.plain .config)
    generalize deliver (Cause.plain .config) v = e at *
    have hloader : e.loader = v.loader := hbeside.loader
    have hstill := finish_still (before := s) (e := e) (by unfold State.phase; rw [hloader]; exact hphase)
    have hphaset : (finish s e).phase = .configFault := by
      unfold State.phase
      rw [hagrees.loader, hloader]
      rfl
    refine ⟨_, hexec, hphaset, hagrees.cfg.trans hbeside.cfg, ?_, hagrees.picture.trans hbeside.picture,
      hagrees.stations.trans hbeside.stations, hagrees.inputs.trans hbeside.inputs, ?_, ?_, fun p => ?_,
      fun hstart hx hnum => ?_⟩
    · rw [hagrees.loader, hloader, hv]
    · rw [hagrees.depth, hcount]
    · unfold State.brakeTrip
      rw [hphaset]
      simp
    · have hrelay : (finish s e).relay = v.relay := hagrees.relay.trans hbeside.relay
      cases p with
      | a =>
        change (finish s e).portA.attempt = none ∧ (finish s e).portA.tx.entries = [] ∧ (finish s e).relay.up.entries = []
        rw [hstill.1, hportA, hrelay]
        exact ⟨rfl, rfl, rfl⟩
      | b =>
        change (finish s e).portB.attempt = none ∧ (finish s e).portB.tx.entries = [] ∧ (finish s e).relay.down.entries = []
        rw [hstill.2.1, hportB, hrelay]
        exact ⟨rfl, rfl, rfl⟩
    · rw [hagrees.safety, hcauses]
      have hvs : v.safety.causes = [CauseRecord.start] := hstart
      have hrecord : causeRecord (Cause.plain .config) v =
          { kind := .config, depth := none, speed := none, number := 0, origin := none, time := s.seconds } := by
        unfold causeRecord
        rw [show v.depth.sample = none from hx, show v.trip.record.number = 0 from hnum]
        rfl
      rw [hvs, hrecord, if_neg (by decide)]
      rfl
  · obtain ⟨n, role, -, -, hparams⟩ := judgeRecord_some (c := x.1) (clamped := x.2) hx
    rw [show x = recordParams b n role from hparams.symm]
    exact (BitVec.toNat_ofNat ..).trans (Nat.mod_eq_of_lt (field_lt b 254 2))

/-! The record accepted (R183) -/

section
variable {s u v : State}

/-- R183: the drum's blocks before the first sample. -/
def drumPrepared (s : State) : State := setEntry s.cfg.station ownEntry (depthEndsInit s)

theorem drumEndsInit_eq (s : State) : drumEndsInit s =
    if (sampleStep true (drumPrepared s)).inputs.localEstop then
      deliver (Cause.plain .estopLocal) (sampleStep true (drumPrepared s))
    else sampleStep true (drumPrepared s) := rfl

/-- With no trip open a delivery changes the cause list and the events alone. -/
theorem deliver_of_idle (h : s.tripState = .idle) (c : Cause) : ∃ f p, deliver c s = { s with safety := f, panel := p } := by
  obtain ⟨f, p, hd | ⟨ho, -⟩⟩ := deliver_cases c s
  · exact ⟨f, p, hd⟩
  · unfold State.tripOpen at ho
    rw [h] at ho
    cases ho

theorem deliver_length (c : Cause) (s : State) : (deliver c s).safety.causes.length ≤ s.safety.causes.length + 1 := by
  rw [deliver_causes]
  split <;> simp

/-- What a sample makes of a drum with no trip open. -/
structure IdleSampled (v u : State) : Prop where
  idle   : u.tripState = .idle
  depth  : u.depth = v.depth
  causes : u.safety.causes.length ≤ v.safety.causes.length + 1

theorem deliver_idleSampled (h : v.tripState = .idle) (c : Cause) : IdleSampled v (deliver c v) := by
  have hlen := deliver_length c v
  obtain ⟨f, p, hd⟩ := deliver_of_idle h c
  exact ⟨by rw [hd]; exact h, by rw [hd], hlen⟩

theorem fullEvaluation_idle {x : SampleSet} (hx : v.depth.sample = some x) (h : v.tripState = .idle) :
    IdleSampled v (fullEvaluation v) := by
  rw [fullEvaluation_unsupervised hx (supervised_of_idle h)]
  generalize (outsideShaft v.cfg x.corrected && !v.env.outside) = crossed
  cases crossed with
  | false => exact ⟨h, rfl, Nat.le_succ _⟩
  | true =>
    rw [deliverAll_overwind (.inr rfl)]
    generalize ({ v.env with vPerm := 0, vThr := 50, limitWord := 0, warning := false, count := 0,
                             outside := outsideShaft v.cfg x.corrected } : Envelope) = e
    obtain ⟨hidle, hdepth, hcauses⟩ := deliver_idleSampled (v := v.setEnv e) h (Cause.plain .overwind)
    exact ⟨hidle, hdepth, hcauses⟩

/-- R115: motion is unauthorised with an empty cause list alone. -/
theorem motionTest_idle (h : v.tripState = .idle) : (motionTest v).tripState = .idle ∧ (motionTest v).depth = v.depth ∧
    (motionTest v).safety.causes.length ≤ max 1 v.safety.causes.length := by
  unfold motionTest
  dsimp only
  split
  · rename_i hnow
    have hempty : v.safety.causes = [] := by
      rw [Bool.and_eq_true, State.unauthorisedNow, Bool.and_eq_true, Bool.and_eq_true] at hnow
      obtain ⟨⟨⟨-, hempty⟩, -⟩, -⟩ := hnow
      exact List.isEmpty_iff.1 hempty
    obtain ⟨hidle, hdepth, hcauses⟩ := deliver_idleSampled
      (v := v.setTrip { v.trip with unauthorised := v.unauthorisedNow }) h (Cause.plain .unauthorisedMotion)
    refine ⟨hidle, hdepth, hcauses.trans ?_⟩
    change v.safety.causes.length + 1 ≤ _
    rw [hempty]
    decide
  · exact ⟨h, rfl, Nat.le_max_right _ _⟩

/-- What the first sample of a drum leaves. -/
structure FirstSampled (v u : State) : Prop extends IdleSampled (takeSample v) u where
  loader   : u.loader = v.loader
  cfg      : u.cfg = v.cfg
  inputs   : u.inputs = v.inputs
  relay    : u.relay = v.relay
  stations : u.stations = v.stations
  portA    : u.portA = v.portA
  portB    : u.portB = v.portB

/-- R183: the first sample of a drum, taken in LISTEN with no trip open. -/
theorem sampleStep_listen (h : v.tripState = .idle) (hphase : v.phase ≠ .run) : FirstSampled v (sampleStep true v) := by
  let w := takeSample (countSampleTime v)
  have hx : ∃ x, w.depth.sample = some x := ⟨_, rfl⟩
  have hrule := unreported_rule (v := w) hphase
  have hquiet : Unreported w (sampleJudged true v) := hrule.tripSample (hrule.fullEvaluation (.refl w) hx) _
  have hfull : IdleSampled w (fullEvaluation w) := by
    obtain ⟨x, hx⟩ := hx
    exact fullEvaluation_idle hx h
  have hjudged : sampleJudged true v = motionTest (fullEvaluation w) := tripSample_of_idle _ hfull.idle
  obtain ⟨hidle, hdepth, hcauses⟩ := motionTest_idle hfull.idle
  rw [← hjudged] at hidle hdepth hcauses
  rw [sampleStep_eq]
  generalize sampleJudged true v = e at *
  have hbuild : buildPosition (writeOwnRecords e) = writeOwnRecords e := by
    refine buildPosition_not (Bool.eq_false_iff.2 fun hb => hphase ?_)
    have hrun := ((builds_iff _).1 hb).1
    unfold State.phase at hrun ⊢
    rw [show (writeOwnRecords e).loader = w.loader from hquiet.loader] at hrun
    exact hrun
  rw [hbuild]
  have hlen : e.safety.causes.length ≤ v.safety.causes.length + 1 := by
    have := hfull.causes
    change _ ≤ v.safety.causes.length + 1 at this
    omega
  exact ⟨⟨hidle, hdepth.trans hfull.depth, hlen⟩, hquiet.loader, hquiet.cfg, hquiet.inputs, hquiet.relay, hquiet.stations,
    hquiet.portA', hquiet.portB'⟩

theorem deliver_recorded (c : Cause) (s : State) (hroom : s.safety.causes.length < 8) :
    ∃ r ∈ (deliver c s).safety.causes, r.kind = c.kind := by
  rw [deliver_causes]
  by_cases hl : listed c s.safety.causes = true
  · obtain ⟨r, hr, hkind, -⟩ := (listed_iff c _).1 hl
    exact ⟨r, by rw [if_pos (.inl hl)]; exact hr, hkind⟩
  · rw [if_neg (by simp [hl]; omega)]
    exact ⟨causeRecord c s, List.mem_append_right _ (List.mem_singleton_self _), rfl⟩

/-- CONFIG CLAMPED is removed by no condition. -/
theorem leavingMask_configClamped (s : State) : (leavingMask s).getLsbD Event.configClamped.code = false := by
  unfold leavingMask commonLeaving drumLeaving gateLeaving
  split <;> split <;> simp only [BitVec.getLsbD_or, getLsbD_maskIf] <;> simp [Event.code]

/-- What the end of INIT makes of the blocks of a drum `v` whose record is accepted. -/
structure DrumEnded (v u : State) : Prop where
  loader   : u.loader = { v.loader with loadDue := false }
  cfg      : u.cfg = v.cfg
  inputs   : u.inputs = v.inputs
  relay    : u.relay = v.relay
  stations : u.stations.entries[v.cfg.station] = ownEntry
  portA    : u.portA = v.portA
  portB    : u.portB = v.portB
  sample   : u.depth.sample.isSome = true
  mode     : u.depth.correctionOn = v.requestedMode
  offset   : u.depth.zeroOffset = if v.loader.loadDue then v.cfg.zeroOffset else v.depth.zeroOffset
  table    : u.depth.table = if v.loader.loadDue then v.cfg.corrections else v.depth.table
  estop    : v.inputs.localEstop = true → v.safety.causes.length < 7 → ∃ r ∈ u.safety.causes, r.kind = .estopLocal

theorem drumEndsInit_ended (h : v.tripState = .idle) (hphase : v.phase = .listen) : DrumEnded v (drumEndsInit v) := by
  have hprepared : (drumPrepared v).loader = { v.loader with loadDue := false } ∧
      (drumPrepared v).depth = { v.depth with
        correctionOn := v.requestedMode
        zeroOffset := if v.loader.loadDue then v.cfg.zeroOffset else v.depth.zeroOffset
        table := if v.loader.loadDue then v.cfg.corrections else v.depth.table } := by
    unfold drumPrepared depthEndsInit
    cases hdue : v.loader.loadDue with
    | true => exact ⟨rfl, rfl⟩
    | false =>
      refine ⟨?_, rfl⟩
      change v.loader = _
      rw [← hdue]
  have hsame : (drumPrepared v).tripState = v.tripState ∧ (drumPrepared v).inputs = v.inputs ∧
      (drumPrepared v).cfg = v.cfg ∧ (drumPrepared v).relay = v.relay ∧ (drumPrepared v).portA = v.portA ∧
      (drumPrepared v).portB = v.portB ∧ (drumPrepared v).safety = v.safety ∧
      (drumPrepared v).stations.entries[v.cfg.station] = ownEntry := by
    unfold drumPrepared depthEndsInit
    cases v.loader.loadDue <;> exact ⟨rfl, rfl, rfl, rfl, rfl, rfl, rfl, by simp [setEntry, put, State.setDepth]⟩
  obtain ⟨hloader, hdepth⟩ := hprepared
  obtain ⟨hidle, hinputs, hcfg, hrelay, hA, hB, hsafety, hentry⟩ := hsame
  have hlisten : (drumPrepared v).phase ≠ .run := by
    unfold State.phase at hphase ⊢
    rw [hloader]
    change v.loader.phase ≠ .run
    rw [hphase]
    decide
  have hfirst := sampleStep_listen (hidle.trans h) hlisten
  rw [drumEndsInit_eq]
  generalize drumPrepared v = p at *
  generalize sampleStep true p = q at *
  have hended (r : State) (hr : Unreported q r) (hd : r.depth = q.depth)
      (hestop : v.inputs.localEstop = true → v.safety.causes.length < 7 → ∃ c ∈ r.safety.causes, c.kind = .estopLocal) :
      DrumEnded v r := by
    have hdepthr : r.depth = (takeSample p).depth := hd.trans hfirst.depth
    refine ⟨hr.loader.trans (hfirst.loader.trans hloader), hr.cfg.trans (hfirst.cfg.trans hcfg),
      hr.inputs.trans (hfirst.inputs.trans hinputs), hr.relay.trans (hfirst.relay.trans hrelay), ?_,
      hr.portA'.trans (hfirst.portA.trans hA), hr.portB'.trans (hfirst.portB.trans hB), ?_, ?_, ?_, ?_, hestop⟩
    · rw [hr.stations, hfirst.stations, hentry]
    · rw [hdepthr]; rfl
    · rw [hdepthr]
      change p.depth.correctionOn = _
      rw [hdepth]
    · rw [hdepthr]
      change p.depth.zeroOffset = _
      rw [hdepth]
    · rw [hdepthr]
      change p.depth.table = _
      rw [hdepth]
  have hstop : q.inputs.localEstop = v.inputs.localEstop := by rw [hfirst.inputs, hinputs]
  split
  · have hphaseq : q.phase ≠ .run := by unfold State.phase; rw [hfirst.loader]; exact hlisten
    refine hended _ ((unreported_rule hphaseq).deliver (.refl q) _) (deliver_idleSampled hfirst.idle _).depth
      fun _ hlen => deliver_recorded (Cause.plain .estopLocal) q ?_
    have hcauses : q.safety.causes.length ≤ p.safety.causes.length + 1 := hfirst.causes
    rw [hsafety] at hcauses
    omega
  · rename_i hnot
    exact hended q (.refl q) rfl fun he => absurd (hstop.trans he) hnot

end

/-- Settles O8. -/
theorem acceptedRecord : Obligations.AcceptedRecord := by
  unfold Obligations.AcceptedRecord
  intro b s x hb hlive hreading hidle hjudged
  let v := recordApplied x (s.setLoader { s.loader with buffer := b })
  let r := if v.isDrum then drumEndsInit v else v
  let e := if x.2 then raise .configClamped r else r
  have haccepted : bufferJudged b s = e := by
    unfold bufferJudged
    rw [hjudged]
    rfl
  have hexec := exec_recordReadComplete hb hlive hreading
  rw [haccepted] at hexec
  have hdrum : v.isDrum = true ↔ x.1.role = some .drum := by
    change (x.1.role == some .drum) = true ↔ _
    exact beq_iff_eq
  have hended (hd : v.isDrum = true) : DrumEnded v r := by
    change DrumEnded v (if v.isDrum then drumEndsInit v else v)
    rw [if_pos hd]
    exact drumEndsInit_ended hidle rfl
  have hsame : r.loader = { v.loader with loadDue := if x.1.role = some .drum then false else s.loader.loadDue } ∧
      r.cfg = v.cfg ∧ r.inputs = v.inputs ∧ r.relay = v.relay ∧ r.portA = v.portA ∧ r.portB = v.portB := by
    by_cases hd : v.isDrum = true
    · rw [if_pos (hdrum.1 hd)]
      obtain h := hended hd
      exact ⟨h.loader, h.cfg, h.inputs, h.relay, h.portA, h.portB⟩
    · have hr : r = v := if_neg hd
      rw [if_neg (mt hdrum.2 hd), hr]
      exact ⟨rfl, rfl, rfl, rfl, rfl, rfl⟩
  have hworking : r.working = true := by
    unfold State.working State.phase
    rw [hsame.1]
    rfl
  have he : e.loader = r.loader ∧ e.cfg = r.cfg ∧ e.inputs = r.inputs ∧ e.relay = r.relay ∧ e.portA = r.portA ∧
      e.portB = r.portB ∧ e.stations = r.stations ∧ e.depth = r.depth ∧ e.safety = r.safety := by
    change (if x.2 then raise .configClamped r else r).loader = _ ∧ _
    simp only [e]
    split <;> simp
  have hclamped (hx : x.2 = true) : e.isPending .configClamped = true := by
    change (if x.2 then raise .configClamped r else r).isPending .configClamped = true
    rw [if_pos hx]
    exact isPending_raise_self r .configClamped hworking
  clear_value e
  clear_value r
  obtain ⟨hloader, hcfg, hinputs, hrelay, hA, hB⟩ := hsame
  obtain ⟨eloader, ecfg, einputs, erelay, eA, eB, estations, edepth, esafety⟩ := he
  have hagrees := finish_agrees e s
  have hloadert : (finish s e).loader = r.loader := hagrees.loader.trans eloader
  have hstill := finish_still (before := s) (e := e) (by
    unfold State.phase
    rw [eloader, hloader]
    exact nofun)
  refine ⟨finish s e, hexec, ?_, ?_, ?_, ?_, hagrees.cfg.trans (ecfg.trans hcfg), ?_, fun hx => ?_,
    hagrees.inputs.trans (einputs.trans hinputs), ?_, ?_, hagrees.relay.trans (erelay.trans hrelay), ?_, fun hd => ?_⟩
  · unfold State.phase
    rw [hloadert, hloader]
    rfl
  · rw [hloadert, hloader]
    rfl
  · rw [hloadert, hloader]
    rfl
  · rw [hloadert, hloader]
    rfl
  · rw [hloadert, hloader]
    rfl
  · exact (finish_ends s e).pending_of (hclamped hx) (leavingMask_configClamped e)
  · rw [hstill.1, eA, hA]
    rfl
  · rw [hstill.2.1, eB, hB]
    rfl
  · rw [hloadert, hloader]
  · obtain h := hended (hdrum.2 hd)
    rw [hagrees.stations, hagrees.depth, hagrees.safety, estations, edepth, esafety]
    exact ⟨h.stations, h.sample, h.mode, h.offset, h.table, h.estop⟩

end Sys2Proof.Machine
end

