-- ==== Sys2Proof/Proofs/FlaskInputs.lean ====
section
/-! PROOFS. Sys2Proof/Proofs/FlaskInputs.lean: the flask inputs of a loading station (R150 to R153), in a state whose entry orders
are not fresh. -/
set_option Elab.async false

namespace Sys2Proof.Machine

/-! A HALT that is lost (R18) -/

/-- A loading station in RUN whose door and served gate are closed, the skip seen moving, and whose transmit queue is crowded. -/
def crowdedFlask : State where
  pending := []
  loader := { State.reset.loader with powered := true, oscillating := false, pinHeld := false, phase := .run }
  cfg := { Params.reset with role := some .loading, served := 1 }
  inputs := { Inputs.reset with gateClosed := Vector.replicate 4 true, lockEngaged := Vector.replicate 4 true,
                                doorClosed := true }
  clock := State.reset.clock
  portA := crowdedPort
  portB := State.reset.portB
  relay := State.reset.relay
  picture := { State.reset.picture with carrying := Vector.replicate 4 (some { State.reset.ownCarrying with speed := 60 }) }
  stations := State.reset.stations
  depth := State.reset.depth
  env := State.reset.env
  trip := State.reset.trip
  safety := State.reset.safety
  gate := State.reset.gate
  seq := State.reset.seq
  panel := State.reset.panel
  model := State.reset.model

/-- The next state of an answer has a frame nowhere in the transmit queue of Port A. -/
def withoutFrame (f : Frame) : Answer → Bool
  | .next t => t.portA.tx.entries.all (fun e => e.frame != f)
  | _ => false

/-- The door that opens puts three frames to the queue: the HALTs FLASK_DOOR and SKIP_MOVED and the ASSENT. The queue is full for
the third, whose removal of the newest entry of greater class takes every entry of that order, the first HALT among them. -/
theorem crowdedFlask_withoutHalt :
    withoutFrame (crowdedFlask.own (.halt 1 .flaskDoor)) (exec (.doorClosedChange false) crowdedFlask) = true := by decide

/-- Refutes O49: a door that opens with the skip moving originates the HALTs FLASK_DOOR and SKIP_MOVED and an ASSENT, three frames
where the statement asks for room for two; in a state whose entry orders are not fresh the third takes the first out of the
queue. -/
theorem not_flaskInputs : ¬ Obligations.FlaskInputs := by
  unfold Obligations.FlaskInputs
  intro h
  obtain ⟨-, hserving⟩ := h crowdedFlask (by decide) (by decide)
  obtain ⟨-, -, -, -, -, hopens, -⟩ := hserving (.inl rfl)
  obtain ⟨t, hexec, -, -, -, hdoor, -⟩ := hopens rfl
  obtain ⟨-, hoffered⟩ := hdoor (by decide)
  obtain ⟨e, he, hframe⟩ := (hoffered rfl).1 (by decide)
  have hnone := crowdedFlask_withoutHalt
  rw [hexec] at hnone
  have hother := List.all_eq_true.mp hnone e he
  rw [hframe] at hother
  exact absurd hother (by decide)

end Sys2Proof.Machine
end

