-- ==== Sys2Proof/Proofs/SequencerRules.lean ====
section
/-! PROOFS. Sys2Proof/Proofs/SequencerRules.lean: what each operation of the Loading Sequencer makes of the sequencer's state
(R150 to R158), the skip being seen as its record shows it. -/
set_option Elab.async false

namespace Sys2Proof.Machine

/-! The automatic GO (R155, R156, R158) -/

section
variable {s : State}

/-- R155: the sequencer once the automatic GO has been originated. -/
def Sequencer.signalled (q : Sequencer) : Sequencer :=
  { q with auto := { q.auto with status := .awaiting, number := none, replyMs := some 0 } }

/-- R156: the conditions of the automatic GO of a loading station hold. -/
structure State.LoadGoes (s : State) : Prop where
  loading : s.isLoading = true
  cycle   : s.seq.cycle = .loaded
  mark    : s.seq.sendMark = true
  may     : s.mayGo = true

/-- R158: the conditions of the automatic GO of a tip hold. -/
structure State.TipGoes (s : State) : Prop where
  isTip : s.isTip = true
  ready : s.seq.tip = .ready
  clear : s.clearFlag s.cfg.tipWinder = true
  may   : s.mayGo = true

theorem judgeTipGo_of (h : s.TipGoes) :
    judgeTipGo s = (originateGo s).setSeq { (originateGo s).seq with tip := .returnSent } :=
  if_pos (by simp [h.isTip, h.ready, h.clear, h.may])

theorem judgeTipGo_still (h : ¬s.TipGoes) : judgeTipGo s = s := by
  refine if_neg fun hc => h ?_
  simp only [Bool.and_eq_true, beq_iff_eq] at hc
  obtain ⟨⟨⟨htip, hready⟩, hclear⟩, hmay⟩ := hc
  exact ⟨htip, hready, hclear, hmay⟩

theorem judgeLoadGo_still (h : ¬s.LoadGoes) : judgeLoadGo s = s := by
  refine if_neg fun hc => h ?_
  simp only [Bool.and_eq_true, beq_iff_eq] at hc
  obtain ⟨⟨⟨hloading, hcycle⟩, hmark⟩, hmay⟩ := hc
  exact ⟨hloading, hcycle, hmark, hmay⟩

theorem not_loadGoes_of_isTip (h : s.isTip = true) : ¬s.LoadGoes := fun hl => by
  have := not_isLoading_of_isTip h
  rw [hl.loading] at this
  cases this

theorem judgeGo_of_loadGoes (h : s.LoadGoes) :
    judgeGo s = (originateGo s).setSeq { (originateGo s).seq with cycle := .waitDepart } :=
  judgeGo_loaded h.loading h.cycle h.mark h.may

theorem judgeGo_of_tipGoes (h : s.TipGoes) :
    judgeGo s = (originateGo s).setSeq { (originateGo s).seq with tip := .returnSent } := by
  rw [judgeGo, judgeLoadGo_still (not_loadGoes_of_isTip h.isTip), judgeTipGo_of h]

theorem judgeGo_still (hl : ¬s.LoadGoes) (ht : ¬s.TipGoes) : judgeGo s = s := by
  rw [judgeGo, judgeLoadGo_still hl, judgeTipGo_still ht]

theorem judgeGo_of_not_mayGo (h : ¬s.mayGo = true) : judgeGo s = s := judgeGo_still (fun hl => h hl.may) fun ht => h ht.may

theorem judgeGo_seq_of_loadGoes (h : s.LoadGoes) : (judgeGo s).seq = { s.seq.signalled with cycle := .waitDepart } := by
  rw [judgeGo_of_loadGoes h, State.setSeq_seq, originateGo_seq]
  rfl

theorem judgeGo_seq_of_tipGoes (h : s.TipGoes) : (judgeGo s).seq = { s.seq.signalled with tip := .returnSent } := by
  rw [judgeGo_of_tipGoes h, State.setSeq_seq, originateGo_seq]
  rfl

/-! The automatic signal record ends (R155) -/

/-- R155: what the end of the automatic signal record makes of the sequencer of `s`: told while it calls, the cycle returns to
LOADED or READY and the retry timer runs. -/
structure Told (s : State) (q : Sequencer) : Prop where
  calling : s.calling = true →
    q.auto = { status := .none, number := s.seq.auto.number, replyMs := none, retryMs := some 0 } ∧
    (s.isLoading = true → q.cycle = .loaded ∧ (s.seq.cycle = .waitDepart → q.sendMark = true)) ∧
    (s.isLoading = false → q.tip = .ready)
  silent : ¬s.calling = true → q = { s.seq with auto := { s.seq.auto with status := .none, replyMs := none } }

theorem tellCycle_silent (hc : ¬s.calling = true) : tellCycle s = s := if_neg hc

theorem tellCycle_seq_of_loading (hc : s.calling = true) (hl : s.isLoading = true) : (tellCycle s).seq =
    { s.seq with
      auto := { s.seq.auto with retryMs := some 0 }
      cycle := .loaded
      sendMark := s.seq.sendMark || s.seq.cycle == .waitDepart } := by
  unfold tellCycle
  rw [if_pos hc]
  dsimp only
  rw [if_pos hl]
  rfl

theorem tellCycle_seq_of_tip (hc : s.calling = true) (hl : s.isLoading = false) : (tellCycle s).seq =
    { s.seq with auto := { s.seq.auto with retryMs := some 0 }, tip := .ready } := by
  unfold tellCycle
  rw [if_pos hc]
  dsimp only
  rw [if_neg (by simp [hl])]
  rfl

/-- R155: the automatic signal record is NONE, its reply timer stopped. -/
def recordNone (s : State) : State := s.setSeq { s.seq with auto := { s.seq.auto with status := .none, replyMs := none } }

theorem autoEnds_told (s : State) : Told s (autoEnds s).seq := by
  change Told s (tellCycle (recordNone s)).seq
  constructor
  · intro hc
    cases hl : s.isLoading with
    | true =>
      rw [tellCycle_seq_of_loading (s := recordNone s) hc hl]
      exact ⟨rfl, fun _ => ⟨rfl, fun hw => by simp [recordNone, hw]⟩, nofun⟩
    | false =>
      rw [tellCycle_seq_of_tip (s := recordNone s) hc hl]
      exact ⟨rfl, nofun, fun _ => rfl⟩
  · intro hc
    rw [tellCycle_silent (s := recordNone s) hc]
    rfl

theorem autoEnds_arrival (s : State) : (autoEnds s).seq.arrival = s.seq.arrival ∧ (autoEnds s).seq.dwellMs = s.seq.dwellMs := by
  unfold autoEnds tellCycle
  split
  · dsimp only
    split <;> exact ⟨rfl, rfl⟩
  · exact ⟨rfl, rfl⟩

/-- R155: an accepted POSITION of the skip winder ends an ACCEPTED record. -/
structure State.EndsBy (s : State) (r : PositionReport) : Prop where
  serving : s.serving = true
  sequencer : s.hasSequencer = true
  winder : r.winder = s.cfg.tipWinder
  accepted : s.seq.auto.status = .accepted
  ends : r.state = .idle ∨ s.seq.auto.number ≠ some r.number

theorem autoPosition_of {r : PositionReport} (h : s.EndsBy r) : autoPosition r s = autoEnds s := by
  refine if_pos ?_
  simpa [h.serving, h.sequencer, h.winder, h.accepted] using h.ends

theorem autoPosition_still {r : PositionReport} (h : ¬s.EndsBy r) : autoPosition r s = s := by
  refine if_neg fun hc => h ?_
  simp only [Bool.and_eq_true, Bool.or_eq_true, beq_iff_eq, bne_iff_ne] at hc
  obtain ⟨⟨⟨⟨hserving, hseq⟩, hw⟩, hacc⟩, hends⟩ := hc
  exact ⟨hserving, hseq, hw, hacc, hends⟩

theorem autoPosition_of_status {r : PositionReport} (h : s.seq.auto.status ≠ .accepted) : autoPosition r s = s :=
  autoPosition_still fun he => h he.accepted

end

section
variable {s t : State}

theorem calling_congr (hseq : t.seq = s.seq) (hcfg : t.cfg = s.cfg) : t.calling = s.calling := by
  unfold State.calling State.isLoading
  rw [hseq, hcfg]

theorem autoEnds_seq_congr (hseq : t.seq = s.seq) (hcfg : t.cfg = s.cfg) : (autoEnds t).seq = (autoEnds s).seq := by
  have hcall : (recordNone t).calling = (recordNone s).calling := by
    refine calling_congr ?_ hcfg
    unfold recordNone
    rw [hseq]
    rfl
  have hloading : t.isLoading = s.isLoading := by unfold State.isLoading; rw [hcfg]
  change (tellCycle (recordNone t)).seq = (tellCycle (recordNone s)).seq
  cases hc : (recordNone s).calling with
  | false =>
    rw [tellCycle_silent (by rw [hcall, hc]; simp), tellCycle_silent (by simp [hc])]
    unfold recordNone
    rw [hseq]
    rfl
  | true =>
    cases hl : s.isLoading with
    | true =>
      rw [tellCycle_seq_of_loading (hcall.trans hc) (hloading.trans hl), tellCycle_seq_of_loading hc hl]
      unfold recordNone
      rw [hseq]
      rfl
    | false =>
      rw [tellCycle_seq_of_tip (hcall.trans hc) (hloading.trans hl), tellCycle_seq_of_tip hc hl]
      unfold recordNone
      rw [hseq]
      rfl

theorem endsBy_congr {r : PositionReport} (hseq : t.seq = s.seq) (hcfg : t.cfg = s.cfg) (hloader : t.loader = s.loader)
    (h : s.EndsBy r) : t.EndsBy r := by
  refine ⟨?_, ?_, by rw [hcfg]; exact h.winder, by rw [hseq]; exact h.accepted, by rw [hseq]; exact h.ends⟩
  · have hserving := h.serving
    unfold State.serving State.phase at hserving ⊢
    rwa [hloader]
  · have hsequencer := h.sequencer
    unfold State.hasSequencer State.isLoading State.isTip State.isLanding at hsequencer ⊢
    rwa [hcfg]

theorem autoPosition_seq_congr (r : PositionReport) (hseq : t.seq = s.seq) (hcfg : t.cfg = s.cfg)
    (hloader : t.loader = s.loader) : (autoPosition r t).seq = (autoPosition r s).seq := by
  by_cases h : s.EndsBy r
  · rw [autoPosition_of h, autoPosition_of (endsBy_congr hseq hcfg hloader h), autoEnds_seq_congr hseq hcfg]
  · rw [autoPosition_still h, autoPosition_still fun ht => h (endsBy_congr hseq.symm hcfg.symm hloader.symm ht), hseq]

end

/-! The skip seen at the flask (R150 to R153, R156) -/

section
variable {s : State}

theorem dischargeCondition_iff : s.dischargeCondition = true ↔ s.skipPresent = true ∧ s.inputs.flaskFull = true ∧
    s.inputs.flaskEmpty = false ∧ s.inputs.doorClosed = true ∧ s.inputs.spillage = false := by
  simp [State.dischargeCondition, and_assoc]

theorem judgeDischarge_of_absent (h : s.skipPresent = false) : judgeDischarge s = s :=
  if_neg (by simp [State.dischargeCondition, h])

/-- R150: in WAIT_SKIP a discharge begins exactly in RUN where its condition holds. -/
theorem judgeDischarge_seq (hl : s.isLoading = true) (hc : s.seq.cycle = .waitSkip) :
    (judgeDischarge s).seq = if s.phase = .run ∧ s.dischargeCondition = true then
      { s.seq with cycle := .discharge, complete := false } else s.seq := by
  unfold judgeDischarge
  by_cases h : s.phase = .run ∧ s.dischargeCondition = true
  · rw [if_pos (by simp [hl, hc, h.1, h.2]), if_pos h]
    rfl
  · rw [if_neg (by simpa [hl, hc] using h), if_neg h]

/-- R151, R152: the sequencer once a discharge has been aborted. -/
def Sequencer.abortedAt (q : Sequencer) (doorClosed : Bool) : Sequencer :=
  if doorClosed then { q with cycle := .waitSkip, complete := false, doorMs := none }
  else { q with cycle := .doorClosing, complete := false, doorMs := some 0 }

/-- R152: the door reads closed after an incomplete discharge, with the skip not present. -/
theorem doorReadsClosed_absent (h : s.skipPresent = false) (hc : s.seq.cycle = .doorClosing)
    (hcomplete : s.seq.complete = false) : doorReadsClosed s = s.setSeq { s.seq with doorMs := none, cycle := .waitSkip } := by
  unfold doorReadsClosed
  rw [if_pos hc, if_neg (by simp [hcomplete])]
  exact judgeDischarge_of_absent h

/-- R151, R152: a discharge aborted with the skip no longer present. -/
theorem endDischarge_absent (h : s.skipPresent = false) (hc : s.seq.cycle = .discharge) :
    endDischarge false s = s.setSeq (s.seq.abortedAt s.inputs.doorClosed) := by
  unfold endDischarge Sequencer.abortedAt
  rw [if_pos hc]
  by_cases hd : s.inputs.doorClosed = true
  · exact (if_pos hd).trans ((doorReadsClosed_absent
      (s := s.setSeq { s.seq with cycle := .doorClosing, complete := false, doorMs := some 0 }) h rfl rfl).trans
      (congrArg s.setSeq (if_pos hd).symm))
  · exact (if_neg hd).trans (congrArg s.setSeq (if_neg hd).symm)

/-- R156: the skip departs, being no longer present. -/
theorem skipDeparts_absent (h : s.skipPresent = false) : skipDeparts s = s.setSeq { s.seq with
    cycle := .waitSkip, auto := { s.seq.auto with status := .none, replyMs := none, retryMs := none } } :=
  judgeDischarge_of_absent h

/-- R150 to R156: what a change of the skip's record makes of the flask cycle, before the skip-movement indication is judged. -/
def flaskSeen (s : State) : Sequencer :=
  match s.seq.cycle with
  | .waitSkip => (judgeDischarge s).seq
  | .discharge => if s.skipPresent then s.seq else s.seq.abortedAt s.inputs.doorClosed
  | .doorClosing => s.seq
  | .loaded => if s.skipDeparted then (skipDeparts s).seq else s.seq
  | .waitDepart => if s.skipDeparted then (skipDeparts s).seq else s.seq

theorem judgeDischarge_eq (s : State) : judgeDischarge s = s.setSeq (judgeDischarge s).seq := by
  unfold judgeDischarge
  split <;> rfl

theorem skipDeparts_eq (s : State) : skipDeparts s = s.setSeq (skipDeparts s).seq := by
  unfold skipDeparts enterWaitSkip
  exact judgeDischarge_eq _

/-- R149 to R156: a change of the skip's record at a loading station. -/
theorem skipRecordChange_loading (hs : s.serving = true) (hl : s.isLoading = true) :
    skipRecordChange s = judgeSkipMoved (s.setSeq (flaskSeen s)) := by
  unfold skipRecordChange flaskSeen
  rw [if_pos hs, if_pos hl]
  congr 1
  cases hc : s.seq.cycle with
  | waitSkip => exact judgeDischarge_eq s
  | discharge =>
    dsimp only
    cases hp : s.skipPresent with
    | true => rfl
    | false => exact endDischarge_absent hp hc
  | doorClosing => rfl
  | loaded => dsimp only; split; exacts [skipDeparts_eq s, rfl]
  | waitDepart => dsimp only; split; exacts [skipDeparts_eq s, rfl]

theorem judgeSkipMoved_seq (s : State) : (judgeSkipMoved s).seq = { s.seq with skipMoved := s.skipMovesOpen } := by
  unfold judgeSkipMoved interlock
  dsimp only
  split <;> simp

/-- R156: what departs is not present. -/
theorem skipPresent_of_departed (h : s.skipDeparted = true) : s.skipPresent = false := by
  unfold State.skipDeparted at h
  unfold State.skipPresent
  cases hx : s.currentRecord s.cfg.tipWinder with
  | none => rfl
  | some x =>
    rw [hx] at h
    dsimp only at h ⊢
    rw [Bool.or_eq_true] at h
    rcases h with h | h
    · have hrun : x.state = .running := by
        unfold Carrying.runsAway at h
        simp only [Bool.and_eq_true, beq_iff_eq] at h
        exact h.1
      simp [hrun]
    · rw [Carrying.stands]
      revert h
      cases decide ((s.cfg.level.val : Int) - s.cfg.landingHw ≤ x.depth.val) <;>
        cases decide ((x.depth.val : Int) ≤ s.cfg.level.val + s.cfg.landingHw) <;> simp

/-! The skip seen at a tip (R157) -/

theorem skipRecordChange_tip (hs : s.serving = true) (ht : s.isTip = true) : skipRecordChange s =
    if s.seq.tip = .tipWait then judgeDwell s else if s.skipLeaves then tipLeaves s else s := by
  unfold skipRecordChange
  rw [if_pos hs, if_neg (by simp [not_isLoading_of_isTip ht]), if_pos ht]
  cases s.seq.tip <;> rfl

theorem judgeDwell_of (hs : s.serving = true) (ht : s.isTip = true) (hw : s.seq.tip = .tipWait) (ha : s.arrivalStands = true) :
    judgeDwell s = s.setSeq { s.seq with tip := .dwell, dwellMs := some 0, arrival := none } :=
  if_pos (by simp [hs, ht, hw, ha])

theorem judgeDwell_still (h : s.arrivalStands = false) : judgeDwell s = s := if_neg (by simp [h])

theorem arrivalStands_iff : s.arrivalStands = true ↔ ∃ x, s.currentRecord s.cfg.tipWinder = some x ∧
    x.stands s.cfg.level s.cfg.landingHw = true ∧ x.state = .idle ∧ s.seq.arrival = some x.number := by
  unfold State.arrivalStands
  cases s.currentRecord s.cfg.tipWinder <;> simp [and_assoc]

theorem stands_iff {x : Carrying} {l : Depth} {hw : Nat} : x.stands l hw = true ↔
    x.speed.natAbs ≤ 50 ∧ (l.val : Int) - hw ≤ x.depth.val ∧ (x.depth.val : Int) ≤ l.val + hw := by
  simp [Carrying.stands, and_assoc]

end

/-! The skip's record changes (R36, R37) -/

section
variable {s u t : State} {r : PositionReport} {x : Option Carrying}

theorem recordChange_of_skip (hseq : s.hasSequencer = true) (was : Bool) :
    recordChange was s.cfg.tipWinder s = judgeGo (skipRecordChange (conditionJudged was s.cfg.tipWinder s)) := by
  have hmoves := conditionJudged_moves s was s.cfg.tipWinder
  have hsame : (conditionJudged was s.cfg.tipWinder s).hasSequencer = s.hasSequencer := by
    unfold State.hasSequencer
    rw [hmoves.isLoading_eq, hmoves.isTip_eq]
  refine congrArg judgeGo (if_pos ?_)
  rw [hsame, hseq, hmoves.cfg_eq]
  simp

/-- `u` is a state in which a station that was as `s` shows the record `x` of the skip, its gate record judged and its sequencer
yet to act. -/
structure Shown (s : State) (x : Option Carrying) (u : State) : Prop where
  seq    : u.seq = s.seq
  cfg    : u.cfg = s.cfg
  inputs : u.inputs = s.inputs
  loader : u.loader = s.loader
  portA  : u.portA = s.portA
  portB  : u.portB = s.portB
  record : u.currentRecord s.cfg.tipWinder = x

theorem Shown.phase (h : Shown s x u) : u.phase = s.phase := by unfold State.phase; rw [h.loader]

theorem Shown.serving (h : Shown s x u) : u.serving = s.serving := by unfold State.serving; rw [h.phase]

theorem Shown.isLoading (h : Shown s x u) : u.isLoading = s.isLoading := by unfold State.isLoading; rw [h.cfg]

theorem Shown.isTip (h : Shown s x u) : u.isTip = s.isTip := by unfold State.isTip State.isLanding; rw [h.cfg]

theorem Shown.record' (h : Shown s x u) : u.currentRecord u.cfg.tipWinder = x := by rw [h.cfg]; exact h.record

theorem Shown.mayGo_iff (h : Shown s x u) :
    u.mayGo = true ↔ s.phase = .run ∧ s.inputs.auto = true ∧ s.seq.auto.retryMs = none := by
  rw [Machine.mayGo_iff, h.phase, h.inputs, h.seq]

/-- The condition of the gate is judged on a record written beside the sequencer. -/
theorem Shown.judged {v : State} (h : Shown s x v) (was : Bool) : Shown s x (conditionJudged was s.cfg.tipWinder v) := by
  have hmoves := conditionJudged_moves v was s.cfg.tipWinder
  refine ⟨hmoves.seq_eq.trans h.seq, hmoves.cfg_eq.trans h.cfg, ?_, hmoves.loader_eq.trans h.loader,
    hmoves.ports_eq.1.trans h.portA, hmoves.ports_eq.2.trans h.portB, ?_⟩
  · exact hmoves.besideGates.inputs.trans h.inputs
  · unfold State.currentRecord
    rw [hmoves.picture_eq]
    exact h.record

theorem hasSequencer_congr (hcfg : u.cfg = s.cfg) : u.hasSequencer = s.hasSequencer := by
  unfold State.hasSequencer State.isLoading State.isTip State.isLanding
  rw [hcfg]

theorem hasGates_of_hasSequencer (h : s.hasSequencer = true) : s.hasGates = true := by
  unfold State.hasSequencer State.isTip at h
  unfold State.hasGates
  cases hl : s.isLanding <;> simp_all

/-- What the signal, call and automatic signal records make of a POSITION. -/
def recordsSeen (r : PositionReport) (s : State) : State := autoPosition r (callPosition r (signalPosition r s))

theorem recordsSeen_seq (r : PositionReport) (s : State) : (recordsSeen r s).seq = (autoPosition r s).seq := by
  have hsignal := signalPosition_moves s r
  have hcall := callPosition_moves (signalPosition r s) r
  exact autoPosition_seq_congr r (hcall.seq_eq.trans hsignal.seq_eq) (hcall.cfg_eq.trans hsignal.cfg_eq)
    (hcall.loader_eq.trans hsignal.loader_eq)

/-- R36: an accepted POSITION of the skip winder. -/
theorem exec_position_skip {h : Heading} (ht : Taken h (.position r) s) (hseq : s.hasSequencer = true)
    (hacc : s.acceptsPosition r = true) (hw : r.winder = s.cfg.tipWinder) :
    ∃ u, exec (.positionTaken h r) s = .next (finish s (recordsSeen r (judgeGo (skipRecordChange u)))) ∧
      Shown s (some (carryingOf r)) u ∧ Moves [.relay, .picture, .records, .event 4, .event 3] s u := by
  have hrelayed := relayFrame_moves s h.port (frameOf h (.position r))
  let v := writeRecords r.winder (some (carryingOf r)) (some (counterweightOf r)) (s.relayed h (.position r))
  have hv : Shown s (some (carryingOf r)) v := by
    refine ⟨relayed_seq .., relayed_cfg .., relayed_inputs .., relayed_loader .., relayed_portA .., relayed_portB .., ?_⟩
    rw [← hw, currentRecord_iff]
    exact ⟨(getElem_put _ _ _ _).trans (if_pos rfl), rfl⟩
  have hskip : v.cfg.tipWinder = r.winder := (congrArg Params.tipWinder hv.cfg).trans hw.symm
  have hseen : positionSeen r (s.relayed h (.position r)) = judgeGo (skipRecordChange
      (conditionJudged ((s.relayed h (.position r)).landingCondition r.winder) s.cfg.tipWinder v)) := by
    have hchange := recordChange_of_skip (s := v) ((hasSequencer_congr hv.cfg).trans hseq)
      ((s.relayed h (.position r)).landingCondition r.winder)
    rw [hskip] at hchange
    rw [← hw]
    exact hchange
  have hwritten : Moves [.picture] (s.relayed h (.position r)) v := (Move.picture _ _ _ _ fun _ => rfl).moves
  have hjudged := conditionJudged_moves v ((s.relayed h (.position r)).landingCondition r.winder) s.cfg.tipWinder
  refine ⟨_, ?_, hv.judged _, .trans hrelayed.of (.trans hwritten.of hjudged.of)⟩
  rw [exec_position_gates ht (hasGates_of_hasSequencer hseq) hacc, hseen]
  rfl

/-- R37: the expiry of the skip's record. -/
theorem exec_expiry_skip {y : Carrying} (hlive : s.live = true) (hw : s.working = true) (hseq : s.hasSequencer = true)
    (hy : s.picture.carrying[s.cfg.tipWinder] = some y) (hcurrent : y.current = true) (hage : y.staleness ≤ y.age) :
    ∃ u, exec (.conveyanceRecordExpiry s.cfg.tipWinder) s = .next (finish s (judgeGo (skipRecordChange u))) ∧
      Shown s none u := by
  obtain ⟨n, hn⟩ := recordGone_same s.cfg.tipWinder s
  have hv : Shown s none (recordGone s.cfg.tipWinder s) := by
    rw [hn]
    refine ⟨rfl, rfl, rfl, rfl, rfl, rfl, ?_⟩
    rw [Option.eq_none_iff_forall_ne_some]
    intro z hz
    obtain ⟨hz, hnow⟩ := (currentRecord_iff _ _ _).1 hz
    obtain ⟨z', -, rfl⟩ := Option.map_eq_some_iff.mp ((((getElem_put _ _ _ _).trans (if_pos rfl)).symm.trans hz))
    cases hnow
  have hchange := recordChange_of_skip (s := recordGone s.cfg.tipWinder s) ((hasSequencer_congr hv.cfg).trans hseq)
    (s.landingCondition s.cfg.tipWinder)
  rw [hv.cfg] at hchange
  refine ⟨_, ?_, hv.judged (s.landingCondition s.cfg.tipWinder)⟩
  rw [exec_conveyanceRecordExpiry hlive hw hy hcurrent hage, expireRecord_eq, hchange]

end

end Sys2Proof.Machine
end

