-- ==== Sys2Proof/Proofs/TipDwell.lean ====
section
/-! PROOFS. Sys2Proof/Proofs/TipDwell.lean: the arrival number, the dwell and the leaving of the tip states (R157). -/
set_option Elab.async false

namespace Sys2Proof.Machine

section
variable {s u : State} {r : PositionReport}

/-! What is left at a tip that does not call -/

theorem calling_of_isTip (ht : s.isTip = true) : s.calling = true ↔ s.seq.tip = .ready ∨ s.seq.tip = .returnSent := by
  rw [calling_iff, if_neg (by simp [not_isLoading_of_isTip ht])]

/-- A sequencer in which the automatic signal record alone may be another. -/
def BesideAuto (q q' : Sequencer) : Prop := ∃ a, q' = { q with auto := a }

theorem autoEnds_besideAuto (h : ¬s.calling = true) : BesideAuto s.seq (autoEnds s).seq := ⟨_, (autoEnds_told s).silent h⟩

theorem autoPosition_besideAuto (r : PositionReport) (h : ¬s.calling = true) : BesideAuto s.seq (autoPosition r s).seq := by
  unfold autoPosition
  split
  · exact autoEnds_besideAuto h
  · exact ⟨s.seq.auto, rfl⟩

/-- Table 8-2: a WINDING that matches the automatic signal record ends it, makes it ACCEPTED, or leaves it. -/
theorem autoReport_cases (r : WindingReport) (s : State) :
    autoReport r s = s ∨ autoReport r s = autoEnds s ∨ autoReport r s = autoAccepts r.number s := by
  unfold autoReport
  split
  · exact .inr (.inl rfl)
  · exact .inl rfl
  · exact .inr (.inl rfl)
  · split
    · exact .inr (.inl rfl)
    · exact .inl rfl
  · exact .inl rfl
  · split
    · exact .inr (.inr rfl)
    · exact .inl rfl
  · exact .inr (.inr rfl)
  · exact .inr (.inr rfl)

theorem autoReport_besideAuto (r : WindingReport) (h : ¬s.calling = true) : BesideAuto s.seq (autoReport r s).seq := by
  rcases autoReport_cases r s with he | he | he <;> rw [he]
  · exact ⟨s.seq.auto, rfl⟩
  · exact autoEnds_besideAuto h
  · exact ⟨_, rfl⟩

theorem autoReport_arrival (r : WindingReport) (s : State) :
    (autoReport r s).seq.arrival = s.seq.arrival ∧ (autoReport r s).seq.dwellMs = s.seq.dwellMs := by
  rcases autoReport_cases r s with he | he | he <;> rw [he]
  · exact ⟨rfl, rfl⟩
  · exact autoEnds_arrival s
  · exact ⟨rfl, rfl⟩

/-! The skip seen at a tip (R157) -/

theorem Shown.skipLeaves {x : Carrying} (h : Shown s (some x) u) : u.skipLeaves = !x.stands s.cfg.level s.cfg.landingHw := by
  unfold State.skipLeaves
  rw [h.record', h.cfg]

theorem Shown.skipLeaves_none (h : Shown s none u) : u.skipLeaves = false := by
  unfold State.skipLeaves
  rw [h.record']

theorem Shown.arrivalStands {x : Carrying} (h : Shown s (some x) u) : u.arrivalStands = true ↔
    x.stands s.cfg.level s.cfg.landingHw = true ∧ x.state = .idle ∧ s.seq.arrival = some x.number := by
  rw [arrivalStands_iff, h.record', h.cfg, h.seq]
  simp

theorem Shown.arrivalStands_none (h : Shown s none u) : u.arrivalStands = false := by
  unfold State.arrivalStands
  rw [h.record']

/-- The sequencer in DWELL as it is entered. -/
def Sequencer.dwells (q : Sequencer) : Sequencer := { q with tip := .dwell, dwellMs := some 0, arrival := none }

/-- The sequencer in TIP_WAIT as it is entered. -/
def Sequencer.waits (q : Sequencer) : Sequencer := { q with tip := .tipWait, dwellMs := none, auto := AutoRecord.reset }

/-- R157, R158: what the skip's record makes of the tip's sequencer, where the automatic GO is not sent. -/
theorem Shown.tip_seq {x : Option Carrying} (h : Shown s x u) (ht : s.isTip = true) (hs : s.serving = true) :
    (skipRecordChange u).seq = if s.seq.tip = .tipWait then if u.arrivalStands then s.seq.dwells else s.seq
      else if u.skipLeaves then s.seq.waits else s.seq := by
  rw [skipRecordChange_tip (h.serving.trans hs) (h.isTip.trans ht), h.seq]
  by_cases hw : s.seq.tip = .tipWait
  · rw [if_pos hw, if_pos hw]
    cases ha : u.arrivalStands with
    | true =>
      rw [judgeDwell_of (h.serving.trans hs) (h.isTip.trans ht) (by rw [h.seq]; exact hw) ha, State.setSeq_seq, h.seq]
      rfl
    | false => rw [judgeDwell_still ha, h.seq]; rfl
  · rw [if_neg hw, if_neg hw]
    cases u.skipLeaves with
    | true => rw [← h.seq]; rfl
    | false => exact h.seq

theorem judgeGo_still_of_tip (ht : s.isTip = true) (h : s.seq.tip ≠ .ready) : judgeGo s = s :=
  judgeGo_still (not_loadGoes_of_isTip ht) fun hgoes => h hgoes.ready

/-- R157: a POSITION that leaves the tip in TIP_WAIT or DWELL leaves its sequencer as the record does, but for the automatic
signal record. -/
theorem position_tip {q : Sequencer} (h : Shown s (some (carryingOf r)) u) (ht : s.isTip = true)
    (hq : (skipRecordChange u).seq = q) (htip : q.tip = .tipWait ∨ q.tip = .dwell) :
    BesideAuto q (recordsSeen r (judgeGo (skipRecordChange u))).seq := by
  have htip' : (skipRecordChange u).isTip = true := by
    rw [(skipRecordChange_moves u).isTip_eq, h.isTip, ht]
  rw [recordsSeen_seq, judgeGo_still_of_tip htip' (by rw [hq]; rcases htip with hc | hc <;> simp [hc])]
  rw [← hq]
  refine autoPosition_besideAuto r ?_
  rw [calling_of_isTip htip', hq]
  rcases htip with hc | hc <;> simp [hc]

end

/-! A WINDING taken at a tip (R157) -/

section
variable {s : State} {r : WindingReport}

theorem reportsArrival_iff (hr : r.state ≠ .refusal) : s.reportsArrival r = true ↔
    r.dest = s.cfg.station ∧ r.cls = .ore ∧ r.auto = true ∧ (r.state ≠ .trip .idle ∨ r.outcome = .result .arrived) := by
  unfold State.reportsArrival
  cases hst : r.state with
  | refusal => exact absurd hst hr
  | trip st => cases st <;> simp [and_assoc]

/-- R157: what a WINDING of the skip winder makes of TIP_WAIT. -/
def Sequencer.arrivalTold (q : Sequencer) (n : TripNumber) (arrives stands : Bool) : Sequencer :=
  if arrives then if stands then q.dwells else { q with arrival := some n }
  else if q.arrival = some n then { q with arrival := none } else q

/-- R157: the skip already stands at the tip, with no trip and the number of a WINDING. -/
def State.stoodAt (s : State) (n : TripNumber) : Bool := (s.setSeq { s.seq with arrival := some n }).arrivalStands

theorem arrivalReport_seq (ht : s.isTip = true) (hs : s.serving = true) (hwait : s.seq.tip = .tipWait)
    (hw : r.winder = s.cfg.tipWinder) (hr : r.state ≠ .refusal) :
    (arrivalReport r s).seq = s.seq.arrivalTold r.number (s.reportsArrival r) (s.stoodAt r.number) := by
  unfold arrivalReport Sequencer.arrivalTold
  rw [if_pos (by simp [ht, hwait, hw, hr])]
  cases s.reportsArrival r with
  | true =>
    rw [if_pos rfl, if_pos rfl]
    cases ha : s.stoodAt r.number with
    | true => rw [judgeDwell_of (s := s.setSeq { s.seq with arrival := some r.number }) hs ht hwait ha]; rfl
    | false => rw [judgeDwell_still (s := s.setSeq { s.seq with arrival := some r.number }) ha]; rfl
  | false =>
    rw [if_neg Bool.false_ne_true, if_neg Bool.false_ne_true]
    split <;> rfl

theorem arrivalReport_still (h : s.seq.tip ≠ .tipWait ∨ r.winder ≠ s.cfg.tipWinder ∨ r.state = .refusal) :
    arrivalReport r s = s := by
  refine if_neg fun hc => ?_
  simp only [Bool.and_eq_true, beq_iff_eq, bne_iff_ne] at hc
  obtain ⟨⟨⟨-, hwait⟩, hw⟩, hr⟩ := hc
  rcases h with h | h | h
  · exact h hwait
  · exact h hw
  · exact hr h

theorem stoodAt_iff (n : TripNumber) : s.stoodAt n = true ↔
    ∃ x, s.picture.carrying[s.cfg.tipWinder] = some x ∧ x.current = true ∧ x.speed.natAbs ≤ 50 ∧
      (s.cfg.level.val : Int) - s.cfg.landingHw ≤ x.depth.val ∧ x.depth.val ≤ (s.cfg.level.val : Int) + s.cfg.landingHw ∧
      x.state = .idle ∧ x.number = n := by
  have hcurrent (x : Carrying) : (s.setSeq { s.seq with arrival := some n }).currentRecord s.cfg.tipWinder = some x ↔
      s.picture.carrying[s.cfg.tipWinder] = some x ∧ x.current = true := currentRecord_iff s _ x
  unfold State.stoodAt
  rw [arrivalStands_iff]
  simp only [State.setSeq_cfg, State.setSeq_seq, hcurrent, stands_iff, Option.some.injEq, and_assoc, eq_comm (a := n)]

/-- R155, R157: a WINDING taken at a tip leaves the arrival number and the dwell timer as the report of an arrival does, and in a
state that does not call the whole sequencer but the automatic signal record. -/
theorem winding_tip {h : Heading} (htaken : Taken h (.winding r) s) (ht : s.isTip = true) (hs : s.serving = true) :
    ∃ t, exec (.windingTaken h r) s = .next t ∧
      (s.seq.tip = .tipWait → r.winder = s.cfg.tipWinder → r.state ≠ .refusal →
        BesideAuto (s.seq.arrivalTold r.number (s.reportsArrival r) (s.stoodAt r.number)) t.seq) ∧
      (s.seq.tip ≠ .tipWait ∨ r.winder ≠ s.cfg.tipWinder ∨ r.state = .refusal →
        t.seq.arrival = s.seq.arrival ∧ t.seq.dwellMs = s.seq.dwellMs) := by
  have hseq : s.hasSequencer = true := by unfold State.hasSequencer; rw [ht, Bool.or_true]
  have hexec : exec (.windingTaken h r) s =
      .next (finish s (sequencerReport r (signalReport r (s.relayed h (.winding r))))) :=
    exec_taken_gates htaken (hasGates_of_hasSequencer hseq)
  let u := signalReport r (s.relayed h (.winding r))
  have hsignal := signalReport_moves (s.relayed h (.winding r)) r
  have hu : u.seq = s.seq := hsignal.seq_eq.trans (relayed_seq ..)
  have hcfg : u.cfg = s.cfg := hsignal.cfg_eq.trans (relayed_cfg ..)
  have hpicture : u.picture = s.picture := hsignal.picture_eq.trans (relayed_picture ..)
  have hloader : u.loader = s.loader := hsignal.loader_eq.trans (relayed_loader ..)
  have htip : u.isTip = true := by unfold State.isTip State.isLanding at ht ⊢; rwa [hcfg]
  have hserving : u.serving = true := by unfold State.serving State.phase at hs ⊢; rwa [hloader]
  have hreport : (sequencerReport r u).seq =
      (if (arrivalReport r u).matchesAuto r then autoReport r (arrivalReport r u) else arrivalReport r u).seq :=
    congrArg State.seq (if_pos (by rw [hserving, hasSequencer_congr hcfg, hseq]; rfl))
  refine ⟨_, hexec, fun hwait hw hr => ?_, fun hnot => ?_⟩
  · rw [(finish_agrees _ s).seq]
    change BesideAuto _ (sequencerReport r u).seq
    have harrival := arrivalReport_seq htip hserving (by rw [hu]; exact hwait) (by rw [hcfg]; exact hw) hr
    have hstood : u.stoodAt r.number = s.stoodAt r.number := by
      unfold State.stoodAt State.arrivalStands State.currentRecord
      simp only [State.setSeq_cfg, State.setSeq_seq, State.setSeq_picture, hcfg, hpicture]
    have harrives : u.reportsArrival r = s.reportsArrival r := by unfold State.reportsArrival; rw [hcfg]
    rw [hu, hstood, harrives] at harrival
    have hsilent : ¬(arrivalReport r u).calling = true := by
      rw [calling_of_isTip (by rw [(arrivalReport_moves u r).isTip_eq]; exact htip), harrival]
      unfold Sequencer.arrivalTold Sequencer.dwells
      split <;> split <;> simp [hwait]
    rw [hreport, ← harrival]
    split
    · exact autoReport_besideAuto r hsilent
    · exact ⟨_, rfl⟩
  · rw [(finish_agrees _ s).seq]
    change (sequencerReport r u).seq.arrival = _ ∧ (sequencerReport r u).seq.dwellMs = _
    rw [hreport, arrivalReport_still (by rw [hu, hcfg]; exact hnot), ← hu]
    split
    · exact autoReport_arrival r u
    · exact ⟨rfl, rfl⟩

end

/-- Settles O52. -/
theorem tipDwell : Obligations.TipDwell := by
  unfold Obligations.TipDwell
  intro s ht hphase lo hi dwells
  have hserving : s.serving = true := by
    unfold State.serving
    rcases hphase with h | h <;> rw [h] <;> rfl
  have hseq : s.hasSequencer = true := by unfold State.hasSequencer; rw [ht, Bool.or_true]
  refine ⟨fun h r htaken => ?_, fun h r htaken hacc hw => ?_, fun x hlive hx hcurrent hage => ?_⟩
  · intro arrives stands
    obtain ⟨t, hexec, htold, hstays⟩ := winding_tip htaken ht hserving
    refine ⟨t, hexec, fun hwait hw hr => ?_, hstays⟩
    obtain ⟨a, ha⟩ := htold hwait hw hr
    have harrives : s.reportsArrival r = true ↔ arrives := reportsArrival_iff hr
    have hstands : s.stoodAt r.number = true ↔ stands := stoodAt_iff r.number
    refine ⟨fun hyes hstood => ?_, fun hyes hnot => ?_, fun hno => ?_⟩
    · rw [Sequencer.arrivalTold, if_pos (harrives.2 hyes), if_pos (hstands.2 hstood)] at ha
      change t.seq.tip = _ ∧ t.seq.dwellMs = _ ∧ t.seq.arrival = _
      rw [ha]
      exact ⟨rfl, rfl, rfl⟩
    · rw [Sequencer.arrivalTold, if_pos (harrives.2 hyes), if_neg (mt hstands.1 hnot)] at ha
      rw [ha]
      exact ⟨hwait, rfl⟩
    · rw [Sequencer.arrivalTold, if_neg (mt harrives.1 hno)] at ha
      rw [ha]
      split
      · exact ⟨hwait, rfl⟩
      · exact ⟨hwait, rfl⟩
  · intro stands
    obtain ⟨u, hexec, hshown, -⟩ := exec_position_skip htaken hseq hacc hw
    have hstands : (carryingOf r).stands s.cfg.level s.cfg.landingHw = true ↔ stands := stands_iff
    have hrecord := hshown.tip_seq ht hserving
    refine ⟨_, hexec, fun hwait hstood hidle harrival => ?_, fun hwait hnot => ?_, fun hne hgone => ?_,
      fun hdwell hstood => ?_⟩
    · rw [if_pos hwait, if_pos (hshown.arrivalStands.2 ⟨hstands.2 hstood, hidle, harrival⟩)] at hrecord
      obtain ⟨a, ha⟩ := position_tip hshown ht hrecord (.inr rfl)
      change (finish s _).seq.tip = _ ∧ (finish s _).seq.dwellMs = _ ∧ (finish s _).seq.arrival = _
      rw [(finish_agrees _ s).seq, ha]
      exact ⟨rfl, rfl, rfl⟩
    · rw [if_pos hwait, if_neg fun h => hnot
        ⟨hstands.1 (hshown.arrivalStands.1 h).1, (hshown.arrivalStands.1 h).2.1, (hshown.arrivalStands.1 h).2.2⟩] at hrecord
      obtain ⟨a, ha⟩ := position_tip hshown ht hrecord (.inl hwait)
      rw [(finish_agrees _ s).seq, ha]
      exact ⟨hwait, rfl⟩
    · have hleaves : u.skipLeaves = true := by
        rw [hshown.skipLeaves, Bool.not_eq_true']
        exact Bool.eq_false_iff.2 (mt hstands.1 hgone)
      rw [if_neg hne, if_pos hleaves] at hrecord
      have htip : (skipRecordChange u).isTip = true := by rw [(skipRecordChange_moves u).isTip_eq, hshown.isTip, ht]
      rw [(finish_agrees _ s).seq, recordsSeen_seq, judgeGo_still_of_tip htip (by rw [hrecord]; exact nofun),
        autoPosition_of_status (by rw [hrecord]; exact nofun), hrecord]
      exact ⟨rfl, rfl, rfl⟩
    · rw [if_neg (by simp [hdwell]), if_neg (by simp [hshown.skipLeaves, hstands.2 hstood])] at hrecord
      obtain ⟨a, ha⟩ := position_tip hshown ht hrecord (.inr hdwell)
      rw [(finish_agrees _ s).seq, ha]
      exact ⟨hdwell, rfl⟩
  · have hw : s.working = true := by
      unfold State.working
      rcases hphase with h | h <;> rw [h] <;> rfl
    obtain ⟨u, hexec, hshown⟩ := exec_expiry_skip hlive hw hseq hx hcurrent hage
    have hrecord := hshown.tip_seq ht hserving
    rw [hshown.arrivalStands_none, hshown.skipLeaves_none, if_neg Bool.false_ne_true, if_neg Bool.false_ne_true,
      ite_self] at hrecord
    have htip : (skipRecordChange u).isTip = true := by rw [(skipRecordChange_moves u).isTip_eq, hshown.isTip, ht]
    refine ⟨_, hexec, fun hne => ?_⟩
    rw [(finish_agrees _ s).seq, judgeGo_still_of_tip htip (by rw [hrecord]; exact hne), hrecord]
    exact ⟨rfl, rfl⟩

end Sys2Proof.Machine
end

