-- ==== Sys2Proof/Proofs/SkipAtTheFlask.lean ====
section
/-! PROOFS. Sys2Proof/Proofs/SkipAtTheFlask.lean: a POSITION of the skip winder and the expiry of its record at a loading station
(R149 to R153, R156). -/
set_option Elab.async false

namespace Sys2Proof.Machine

/-! Outside RUN nothing is offered -/

section
variable {s t : State} {bs : List Block} {f : Frame} {fs : List Frame} {n : Nat}

theorem Moves.silent (h : Moves bs s t) (hrun : s.phase ≠ .run)
    (hb : ∀ b ∈ bs, b ∉ [Block.ports, .queues, .relay, .phase] := by decide) : t.portA = s.portA ∧ t.portB = s.portB := by
  have hkept : (t.portA = s.portA ∧ t.portB = s.portB) ∧ t.phase ≠ .run := by
    refine h.keeps (P := fun t => (t.portA = s.portA ∧ t.portB = s.portB) ∧ t.phase ≠ .run)
      (fun b hm v w hmove hv => ⟨?_, ?_⟩) ⟨⟨rfl, rfl⟩, hrun⟩
    · by_cases hoffer : b = .offers
      · subst hoffer
        cases hmove with
        | originate _ p =>
          rw [show originate p v = v from if_neg hv.2]
          exact hv.1
      · have hb' := hb b hm
        obtain ⟨hA, hB, -⟩ := hmove.queues_eq (by simp only [List.mem_cons, not_or] at hb' ⊢; tauto)
        exact ⟨hA.trans hv.1.1, hB.trans hv.1.2⟩
    · rw [hmove.phase_eq fun hp => hb b hm (by rw [hp]; decide)]
      exact hv.2
  exact hkept.1

/-! Frames behind one another, to the end of the step (R16, R17, R135) -/

theorem Queued.originateGo (h : Queued s n fs t) (hrun : t.phase = .run) (hcfg : t.cfg = s.cfg) :
    Queued s (n + 1) (t.own t.autoGo :: fs) (originateGo t) :=
  (h.originate hrun hcfg t.autoGo fun _ _ => rfl).of_ports ⟨rfl, rfl⟩

theorem Queued.judgeGo (h : Queued s n fs t) (hcfg : t.cfg = s.cfg) : Queued s (n + 1) fs (judgeGo t) := by
  have hgo (hmay : t.mayGo = true) (q : Sequencer) : Queued s (n + 1) fs ((Machine.originateGo t).setSeq q) :=
    ((h.originateGo (Machine.mayGo_iff.1 hmay).1 hcfg).mono le_rfl (List.subset_cons_self _ _)).of_ports ⟨rfl, rfl⟩
  by_cases hl : t.LoadGoes
  · rw [judgeGo_of_loadGoes hl]
    exact hgo hl.may _
  · by_cases ht : t.TipGoes
    · rw [judgeGo_of_tipGoes ht]
      exact hgo ht.may _
    · rw [judgeGo_still hl ht]
      exact h.mono (Nat.le_succ n) (List.Subset.refl _)

theorem QueueEnds.length_le {q q' : Queue} (h : QueueEnds f q q') : q'.entries.length ≤ q.entries.length + 1 := by
  rcases h with rfl | ⟨m, rfl⟩
  · exact Nat.le_succ _
  · exact takeIn_length_le _ _ _ _

theorem QueueEnds.holds {q q' : Queue} {g : Frame} (h : QueueEnds f q q') (hroom : q.entries.length < 8) (hg : q.holds g)
    (hne : sameReport f g = false) : q'.holds g := by
  rcases h with rfl | ⟨m, rfl⟩
  · exact hg
  · exact takeIn_keeps _ _ _ _ hroom hg hne

/-- R135: the ASSENT at the end of a step joins behind the frames originated in it. -/
theorem Queued.ends {u : State} (h : Queued s n fs t) (hends : Ends t u) (hfs : ∀ f ∈ fs, f.kind ≠ .assent) :
    Queued s (n + 1) fs u := by
  intro p hp
  obtain ⟨hlen, hheld⟩ := h p hp
  have hqueue : QueueEnds t.assentFrame (t.port p).tx (u.port p).tx := by cases p <;> [exact hends.txA; exact hends.txB]
  have hjoined := hqueue.length_le
  refine ⟨by omega, fun hroom g hg => hqueue.holds (by omega) (hheld (by omega) g hg) ?_⟩
  change (g.kind == .assent) = false
  simpa using hfs g hg

/-- An event that no step raises at its end, and that is not pending when a command has acted, is not pending. -/
theorem Ends.not_pending_of {u : State} (h : Ends t u) {e : Event} (hp : t.isPending e = false)
    (he : Event.shaftLine.code ≠ e.code ∧ Event.txOverflow.code ≠ e.code) : u.isPending e = false := by
  obtain ⟨more, hmore, hevents⟩ := h.events
  have hbit : t.panel.pendingEvents.getLsbD e.code = false := hp
  have hnone : more.getLsbD e.code = false := by
    refine hmore.getLsbD_eq_false ?_
    rw [BitVec.getLsbD_or, Event.getLsbD_mask, Event.getLsbD_mask, decide_eq_false he.1, decide_eq_false he.2]
    rfl
  unfold State.isPending
  rw [hevents, BitVec.getLsbD_and, BitVec.getLsbD_or, hbit, hnone]
  rfl

end

/-! What stands after the flask cycle (R155, R156) -/

section
variable {s u : State} {r : PositionReport}

/-- A station that does not call sends no automatic GO. -/
theorem judgeGo_of_silent (h : ¬s.calling = true) : judgeGo s = s := by
  refine judgeGo_still (fun hl => h ((calling_iff s).2 ?_)) fun ht => h ((calling_of_isTip ht.isTip).2 (.inl ht.ready))
  rw [if_pos hl.loading]
  exact .inl hl.cycle

/-- A POSITION at a station that does not call leaves its sequencer as the record does, but for the automatic signal record. -/
theorem recordsSeen_silent (r : PositionReport) (h : ¬s.calling = true) : BesideAuto s.seq (recordsSeen r (judgeGo s)).seq := by
  rw [recordsSeen_seq, judgeGo_of_silent h]
  exact autoPosition_besideAuto r h

theorem judgeGo_skipMoved (s : State) : (judgeGo s).seq.skipMoved = s.seq.skipMoved := by
  by_cases hl : s.LoadGoes
  · rw [judgeGo_seq_of_loadGoes hl]
    rfl
  · by_cases ht : s.TipGoes
    · rw [judgeGo_seq_of_tipGoes ht]
      rfl
    · rw [judgeGo_still hl ht]

theorem autoPosition_skipMoved (r : PositionReport) (s : State) : (autoPosition r s).seq.skipMoved = s.seq.skipMoved := by
  unfold autoPosition autoEnds tellCycle
  split
  · split
    · dsimp only
      split <;> rfl
    · rfl
  · rfl

theorem recordsSeen_skipMoved (r : PositionReport) (s : State) :
    (recordsSeen r (judgeGo s)).seq.skipMoved = s.seq.skipMoved := by
  rw [recordsSeen_seq, autoPosition_skipMoved, judgeGo_skipMoved]

theorem recordsSeen_moves (r : PositionReport) (s : State) :
    Moves (.signal :: .seq :: callBlocks) s (recordsSeen r s) :=
  .trans (signalPosition_moves s r).of (.trans (callPosition_moves _ r).of (autoPosition_moves _ r).of)

/-! The skip's record and the flask (R149 to R153) -/

variable {x : Option Carrying}

theorem Shown.skipPresent {y : Carrying} (h : Shown s (some y) u) : u.skipPresent = true ↔
    y.skip = true ∧ y.stands s.cfg.level s.cfg.landingHw = true ∧ y.state = .idle := by
  unfold State.skipPresent
  rw [h.record', h.cfg]
  simp [and_assoc]

theorem Shown.skipPresent_none (h : Shown s none u) : u.skipPresent = false := by
  unfold State.skipPresent
  rw [h.record']

theorem Shown.skipDeparted {y : Carrying} (h : Shown s (some y) u) : u.skipDeparted = true ↔
    y.runsAway s.cfg.level = true ∨ ¬((s.cfg.level.val : Int) - s.cfg.landingHw ≤ y.depth.val ∧
      (y.depth.val : Int) ≤ s.cfg.level.val + s.cfg.landingHw) := by
  unfold State.skipDeparted
  rw [h.record', h.cfg]
  simp [imp_iff_not_or]

theorem Shown.skipDeparted_none (h : Shown s none u) : u.skipDeparted = false := by
  unfold State.skipDeparted
  rw [h.record']

theorem Shown.skipMovesOpen {y : Carrying} (h : Shown s (some y) u) : u.skipMovesOpen = true ↔
    s.inputs.doorClosed = false ∧ 50 < y.speed.natAbs := by
  rw [skipMovesOpen_iff, h.record', h.inputs]
  simp

theorem Shown.skipMovesOpen_none (h : Shown s none u) : u.skipMovesOpen = false := by
  rw [← Bool.not_eq_true, skipMovesOpen_iff, h.record']
  simp

theorem runsAway_iff {y : Carrying} {l : Depth} : y.runsAway l = true ↔ y.state = .running ∧
    ((0 < y.speed ∧ l.val < y.depth.val) ∨ (y.speed < 0 ∧ y.depth.val < l.val)) := by
  simp only [Carrying.runsAway, Bool.and_eq_true, Bool.or_eq_true, beq_iff_eq, decide_eq_true_eq]
  exact Iff.rfl

theorem Shown.flaskSeen_waitSkip (h : Shown s x u) (hl : s.isLoading = true) (hc : s.seq.cycle = .waitSkip) :
    flaskSeen u = if s.phase = .run ∧ u.dischargeCondition = true then
      { s.seq with cycle := .discharge, complete := false } else s.seq := by
  unfold flaskSeen
  rw [h.seq, hc]
  dsimp only
  rw [judgeDischarge_seq (h.isLoading.trans hl) (by rw [h.seq, hc]), h.phase, h.seq]

theorem Shown.flaskSeen_discharge (h : Shown s x u) (hc : s.seq.cycle = .discharge) :
    flaskSeen u = if u.skipPresent then s.seq else s.seq.abortedAt s.inputs.doorClosed := by
  unfold flaskSeen
  rw [h.seq, hc, h.inputs]

theorem Shown.flaskSeen_doorClosing (h : Shown s x u) (hc : s.seq.cycle = .doorClosing) : flaskSeen u = s.seq := by
  unfold flaskSeen
  rw [h.seq, hc]

/-- R156: the sequencer once the skip has departed. -/
def Sequencer.departs (q : Sequencer) : Sequencer :=
  { q with cycle := .waitSkip, auto := { q.auto with status := .none, replyMs := none, retryMs := none } }

theorem Shown.flaskSeen_calling (h : Shown s x u) (hc : s.seq.cycle = .loaded ∨ s.seq.cycle = .waitDepart) :
    flaskSeen u = if u.skipDeparted then s.seq.departs else s.seq := by
  have hgone : (if u.skipDeparted then (skipDeparts u).seq else u.seq) = if u.skipDeparted then u.seq.departs else u.seq := by
    cases hd : u.skipDeparted with
    | false => rfl
    | true => rw [skipDeparts_absent (skipPresent_of_departed hd)]; rfl
  unfold flaskSeen
  rw [hgone, h.seq]
  rcases hc with hc | hc <;> rw [hc]

theorem flaskSeen_skipMoved (u : State) : (flaskSeen u).skipMoved = u.seq.skipMoved := by
  have hdischarge (v : State) : (judgeDischarge v).seq.skipMoved = v.seq.skipMoved := by
    unfold judgeDischarge
    split <;> rfl
  unfold flaskSeen Sequencer.abortedAt skipDeparts enterWaitSkip
  split
  · exact hdischarge u
  · split
    · rfl
    · split <;> rfl
  · rfl
  · split
    · exact hdischarge _
    · rfl
  · split
    · exact hdischarge _
    · rfl

theorem Shown.loading_change (h : Shown s x u) (hl : s.isLoading = true) (hs : s.serving = true) :
    skipRecordChange u = judgeSkipMoved (u.setSeq (flaskSeen u)) :=
  skipRecordChange_loading (h.serving.trans hs) (h.isLoading.trans hl)

theorem Shown.loading_seq (h : Shown s x u) (hl : s.isLoading = true) (hs : s.serving = true) :
    (skipRecordChange u).seq = { flaskSeen u with skipMoved := u.skipMovesOpen } := by
  rw [h.loading_change hl hs, judgeSkipMoved_seq]
  rfl

theorem Shown.loading_calling (h : Shown s x u) (hl : s.isLoading = true) (hs : s.serving = true) :
    (skipRecordChange u).calling = true ↔ (flaskSeen u).cycle = .loaded ∨ (flaskSeen u).cycle = .waitDepart := by
  rw [calling_iff, if_pos (by rw [(skipRecordChange_moves u).isLoading_eq, h.isLoading, hl]), h.loading_seq hl hs]

/-- R153: the skip-movement indication that rises sends its HALT and raises its event. -/
theorem judgeSkipMoved_of {v : State} (hnow : v.skipMovesOpen = true) (hwas : v.seq.skipMoved = false) : judgeSkipMoved v =
    interlock .skipMoved .skipMoved (v.setSeq { v.seq with skipMoved := true }) := by
  unfold judgeSkipMoved
  dsimp only
  rw [hnow, hwas]
  rfl

theorem judgeSkipMoved_still {v : State} (h : v.skipMovesOpen = false ∨ v.seq.skipMoved = true) : judgeSkipMoved v =
    v.setSeq { v.seq with skipMoved := v.skipMovesOpen } := by
  refine if_neg ?_
  rcases h with h | h <;> rw [h] <;> simp

/-! The indication, its event and its HALT (R153) -/

/-- R153: the indication that has risen sends its HALT and raises its event. -/
theorem Shown.moves_open (h : Shown s x u) (hl : s.isLoading = true) (hs : s.serving = true) (hw : s.working = true)
    (hopen : u.skipMovesOpen = true) (hwas : s.seq.skipMoved = false) :
    (skipRecordChange u).isPending .skipMoved = true ∧
      (s.phase = .run → Queued s 1 [s.own (.halt s.skipSet .skipMoved)] (skipRecordChange u)) := by
  have hwas' : (u.setSeq (flaskSeen u)).seq.skipMoved = false := by
    rw [State.setSeq_seq, flaskSeen_skipMoved, h.seq, hwas]
  let v := (u.setSeq (flaskSeen u)).setSeq { (u.setSeq (flaskSeen u)).seq with skipMoved := true }
  have hchange : skipRecordChange u = raise .skipMoved (originate (.halt v.skipSet .skipMoved) v) := by
    rw [h.loading_change hl hs, judgeSkipMoved_of (v := u.setSeq (flaskSeen u)) hopen hwas']
    rfl
  have hcfg : v.cfg = s.cfg := h.cfg
  rw [hchange]
  refine ⟨isPending_raise_self _ _ ?_, fun hrun => ?_⟩
  · have hphase : (originate (.halt v.skipSet .skipMoved) v).phase = s.phase :=
      (originate_moves v _).phase_eq.trans h.phase
    unfold State.working
    rw [hphase]
    exact hw
  · have hstart : Queued s 0 [] v := (Queued.refl s).of_ports ⟨h.portA, h.portB⟩
    have hqueued := hstart.halt (h.phase.trans hrun) hcfg v.skipSet .skipMoved
    have hown : v.own (.halt v.skipSet .skipMoved) = s.own (.halt s.skipSet .skipMoved) := by
      unfold State.own State.skipSet
      rw [hcfg]
    rw [hown] at hqueued
    exact hqueued.of_ports (by simp)

/-- R153: an indication that does not rise raises nothing. -/
theorem Shown.moves_still (h : Shown s x u) (hl : s.isLoading = true) (hs : s.serving = true)
    (hwas : s.seq.skipMoved = true) : (skipRecordChange u).isPending .skipMoved = u.isPending .skipMoved := by
  have hwas' : (u.setSeq (flaskSeen u)).seq.skipMoved = true := by
    rw [State.setSeq_seq, flaskSeen_skipMoved, h.seq, hwas]
  rw [h.loading_change hl hs, judgeSkipMoved_still (.inr hwas')]
  rfl

/-- R151, R152: what an aborted discharge leaves. -/
theorem abortedAt_leaves (q : Sequencer) (closed : Bool) :
    (q.abortedAt closed).complete = false ∧
      (closed = false → (q.abortedAt closed).cycle = .doorClosing ∧ (q.abortedAt closed).doorMs = some 0) ∧
      (closed = true → (q.abortedAt closed).cycle = .waitSkip ∧ (q.abortedAt closed).doorMs = none) := by
  unfold Sequencer.abortedAt
  cases closed <;> exact ⟨rfl, fun h => by cases h <;> exact ⟨rfl, rfl⟩, fun h => by cases h <;> exact ⟨rfl, rfl⟩⟩

theorem abortedAt_cycle (q : Sequencer) (closed : Bool) :
    (q.abortedAt closed).cycle = .doorClosing ∨ (q.abortedAt closed).cycle = .waitSkip := by
  unfold Sequencer.abortedAt
  cases closed
  · exact .inl rfl
  · exact .inr rfl

theorem doorOpen_of_cycle {t : State} (h : t.seq.cycle ≠ .discharge) : t.doorOpen = false := by
  simp [State.doorOpen, h]

/-- R150 to R152: a POSITION in a state of the cycle that does not call leaves the cycle that the record leaves. -/
theorem Shown.position_cycle (h : Shown s x u) (hl : s.isLoading = true) (hs : s.serving = true) (r : PositionReport)
    {q : Sequencer} (hq : flaskSeen u = q) (hcycle : q.cycle ≠ .loaded ∧ q.cycle ≠ .waitDepart) :
    let t := finish s (recordsSeen r (judgeGo (skipRecordChange u)))
    t.seq.cycle = q.cycle ∧ t.seq.doorMs = q.doorMs ∧ t.seq.complete = q.complete := by
  have hsilent : ¬(skipRecordChange u).calling = true := by
    rw [h.loading_calling hl hs, hq]
    tauto
  obtain ⟨a, ha⟩ := recordsSeen_silent r hsilent
  dsimp only
  rw [(finish_agrees _ s).seq, ha, h.loading_seq hl hs, hq]
  exact ⟨rfl, rfl, rfl⟩

end

/-- Settles O50. -/
theorem skipSeenAtTheFlask : Obligations.SkipSeenAtTheFlask := by
  unfold Obligations.SkipSeenAtTheFlask
  intro s hl hphase inRun silent lo hi aborted
  have hserving : s.serving = true := by
    unfold State.serving
    rcases hphase with h | h <;> rw [h] <;> rfl
  have hw : s.working = true := by
    unfold State.working
    rcases hphase with h | h <;> rw [h] <;> rfl
  have hseq : s.hasSequencer = true := by unfold State.hasSequencer; rw [hl]; rfl
  have haborted (t : State) (hcycle : t.seq.cycle = (s.seq.abortedAt s.inputs.doorClosed).cycle)
      (hdoor : t.seq.doorMs = (s.seq.abortedAt s.inputs.doorClosed).doorMs)
      (hcomplete : t.seq.complete = (s.seq.abortedAt s.inputs.doorClosed).complete) : aborted t := by
    obtain ⟨hc, hopen, hclosed⟩ := abortedAt_leaves s.seq s.inputs.doorClosed
    refine ⟨doorOpen_of_cycle ?_, hcomplete.trans hc, ?_, ?_⟩
    · rw [hcycle]
      rcases abortedAt_cycle s.seq s.inputs.doorClosed with h | h <;> rw [h] <;> decide
    · rw [hcycle, hdoor]
      exact hopen
    · rw [hcycle, hdoor]
      exact hclosed
  have hnotCalling : (s.seq.abortedAt s.inputs.doorClosed).cycle ≠ .loaded ∧
      (s.seq.abortedAt s.inputs.doorClosed).cycle ≠ .waitDepart := by
    rcases abortedAt_cycle s.seq s.inputs.doorClosed with h | h <;> rw [h] <;> decide
  refine ⟨fun h r htaken hacc hwinder => ?_, fun y hlive hy hcurrent hage => ?_⟩
  · intro inWindow present level departed moved
    obtain ⟨u, hexec, hshown, hmoves⟩ := exec_position_skip htaken hseq hacc hwinder
    have hchange := skipRecordChange_moves u
    have hgo := judgeGo_moves (skipRecordChange u)
    have hrecords := recordsSeen_moves r (judgeGo (skipRecordChange u))
    have hends := finish_ends s (recordsSeen r (judgeGo (skipRecordChange u)))
    have hpresent : u.skipPresent = true ↔ present := by
      rw [hshown.skipPresent, stands_iff]
      exact ⟨fun ⟨hs, ⟨hv, hlo, hhi⟩, hi⟩ => ⟨hs, hv, ⟨hlo, hhi⟩, hi⟩,
        fun ⟨hs, hv, ⟨hlo, hhi⟩, hi⟩ => ⟨hs, ⟨hv, hlo, hhi⟩, hi⟩⟩
    have hdeparted : u.skipDeparted = true ↔ departed := by
      rw [hshown.skipDeparted, runsAway_iff, or_comm]
      exact Iff.rfl
    have hmoved : u.skipMovesOpen = true ↔ moved := hshown.skipMovesOpen
    have hafter := hshown.position_cycle hl hserving r rfl
    refine ⟨_, hexec, fun hnot => ?_, fun hc => ?_, fun hc hp => ?_, fun hc hp => ?_, fun hc => ?_, fun hc hd => ?_, ?_,
      fun hm hwas => ⟨?_, fun hrun hroom => ?_⟩, fun hwas hnone => ?_⟩
    · have hu : u.phase ≠ .run := by rw [hshown.phase]; exact hnot
      have hwphase : (skipRecordChange u).phase ≠ .run := by rw [hchange.phase_eq]; exact hu
      have hgphase : (judgeGo (skipRecordChange u)).phase ≠ .run := by rw [hgo.phase_eq]; exact hwphase
      have hrphase : (recordsSeen r (judgeGo (skipRecordChange u))).phase ≠ .run := by rw [hrecords.phase_eq]; exact hgphase
      obtain ⟨hA, hB, -⟩ := finish_still (before := s) hrphase
      rw [hA, hB, (hrecords.silent hgphase).1, (hrecords.silent hgphase).2, (hgo.silent hwphase).1, (hgo.silent hwphase).2,
        (hchange.silent hu).1, (hchange.silent hu).2, hshown.portA, hshown.portB]
      exact ⟨rfl, rfl⟩
    · have hflask := hshown.flaskSeen_waitSkip hl hc
      have hcond : (s.phase = .run ∧ u.dischargeCondition = true) ↔ (inRun ∧ present ∧ s.inputs.flaskFull = true ∧
          s.inputs.flaskEmpty = false ∧ s.inputs.doorClosed = true ∧ s.inputs.spillage = false) := by
        rw [dischargeCondition_iff, hpresent, hshown.inputs]
      rw [hflask] at hafter
      by_cases hd : s.phase = .run ∧ u.dischargeCondition = true
      · rw [if_pos hd] at hafter
        rw [if_pos (hcond.1 hd)]
        exact (hafter ⟨nofun, nofun⟩).1
      · rw [if_neg hd] at hafter
        rw [if_neg (mt hcond.2 hd)]
        exact ((hafter (by rw [hc]; decide)).1).trans hc
    · rw [hshown.flaskSeen_discharge hc, if_pos (hpresent.2 hp)] at hafter
      exact ((hafter (by rw [hc]; decide)).1).trans hc
    · rw [hshown.flaskSeen_discharge hc, if_neg (mt hpresent.1 hp)] at hafter
      obtain ⟨hcycle, hdoor, hcomplete⟩ := hafter hnotCalling
      exact haborted _ hcycle hdoor hcomplete
    · rw [hshown.flaskSeen_doorClosing hc] at hafter
      obtain ⟨hcycle, hdoor, -⟩ := hafter (by rw [hc]; decide)
      exact ⟨hcycle.trans hc, hdoor⟩
    · have hrecord := hshown.loading_seq hl hserving
      have hcalls := hshown.loading_calling hl hserving
      rw [hshown.flaskSeen_calling hc, if_pos (hdeparted.2 hd)] at hrecord hcalls
      have hsilent : ¬(skipRecordChange u).calling = true := by
        rw [hcalls]
        simp [Sequencer.departs]
      rw [hends.seq, recordsSeen_seq, judgeGo_of_silent hsilent, autoPosition_of_status (by rw [hrecord]; exact nofun), hrecord]
      exact ⟨rfl, rfl, rfl, rfl⟩
    · rw [hends.seq, recordsSeen_skipMoved, hshown.loading_seq hl hserving]
      exact hmoved
    · refine hends.pending_of ?_ (leavingMask_of_gates ?_ (by simp))
      · rw [hrecords.isPending_eq, hgo.isPending_eq]
        exact (hshown.moves_open hl hserving hw (hmoved.2 hm) hwas).1
      · rw [hrecords.hasGates_eq, hgo.hasGates_eq, hchange.hasGates_eq, hmoves.hasGates_eq]
        exact hasGates_of_hasSequencer hseq
    · have hhalt : s.own (.halt s.skipSet .skipMoved) = s.own (.halt (BitVec.twoPow 4 s.cfg.tipWinder.val) .skipMoved) := by
        simp [State.skipSet, winderJoin]
      have hqueued := (hshown.moves_open hl hserving hw (hmoved.2 hm) hwas).2 hrun
      have hthree := ((hqueued.judgeGo (hchange.cfg_eq.trans hshown.cfg)).of_ports hrecords.ports_eq).ends hends
        fun f hf => by rw [List.mem_singleton.1 hf]; exact nofun
      have hroom' : (s.port .a).tx.entries.length + 3 ≤ 8 := by
        change s.portA.tx.entries.length + 3 ≤ 8
        omega
      rw [← hhalt]
      exact (hthree .a nofun).2 hroom' _ (List.mem_singleton.2 rfl)
    · refine hends.not_pending_of ?_ (by decide)
      rw [hrecords.isPending_eq, hgo.isPending_eq, hshown.moves_still hl hserving hwas, hmoves.isPending_eq]
      exact hnone
  · obtain ⟨u, hexec, hshown⟩ := exec_expiry_skip hlive hw hseq hy hcurrent hage
    have hchange := skipRecordChange_moves u
    have hgo := judgeGo_moves (skipRecordChange u)
    have hseqs : (finish s (judgeGo (skipRecordChange u))).seq = (judgeGo (skipRecordChange u)).seq := (finish_agrees _ s).seq
    have hrecord := hshown.loading_seq hl hserving
    rw [hshown.skipMovesOpen_none] at hrecord
    have hloading : (skipRecordChange u).isLoading = true := by rw [hchange.isLoading_eq, hshown.isLoading, hl]
    have hnotTip : ¬(skipRecordChange u).TipGoes := fun hgoes => by
      rw [not_isLoading_of_isTip hgoes.isTip] at hloading
      cases hloading
    have hstands (hnot : ¬(skipRecordChange u).LoadGoes) : (finish s (judgeGo (skipRecordChange u))).seq =
        { flaskSeen u with skipMoved := false } := by
      rw [hseqs, judgeGo_still hnot hnotTip, hrecord]
    have hunloaded (hne : (flaskSeen u).cycle ≠ .loaded) : ¬(skipRecordChange u).LoadGoes := fun hgoes =>
      hne (by rw [← hgoes.cycle, hrecord])
    refine ⟨_, hexec, fun hnot => ?_, ?_, fun hc => ?_, fun hc => ?_, fun hc => ?_⟩
    · have hu : u.phase ≠ .run := by rw [hshown.phase]; exact hnot
      have hwphase : (skipRecordChange u).phase ≠ .run := by rw [hchange.phase_eq]; exact hu
      have hgphase : (judgeGo (skipRecordChange u)).phase ≠ .run := by rw [hgo.phase_eq]; exact hwphase
      obtain ⟨hA, hB, -⟩ := finish_still (before := s) hgphase
      rw [hA, hB, (hgo.silent hwphase).1, (hgo.silent hwphase).2, (hchange.silent hu).1, (hchange.silent hu).2, hshown.portA,
        hshown.portB]
      exact ⟨rfl, rfl⟩
    · rw [hseqs, judgeGo_skipMoved, hrecord]
    · have hflask := hshown.flaskSeen_discharge hc
      rw [hshown.skipPresent_none, if_neg Bool.false_ne_true] at hflask
      have hleft := hstands (hunloaded (by rw [hflask]; exact hnotCalling.1))
      rw [hflask] at hleft
      exact haborted _ (by rw [hleft]) (by rw [hleft]) (by rw [hleft])
    · have hflask : (flaskSeen u).cycle = s.seq.cycle := by
        rcases hc with hc | hc | hc
        · rw [hshown.flaskSeen_waitSkip hl hc, if_neg]
          rw [dischargeCondition_iff, hshown.skipPresent_none]
          simp
        · rw [hshown.flaskSeen_doorClosing hc]
        · rw [hshown.flaskSeen_calling (.inr hc), hshown.skipDeparted_none, if_neg Bool.false_ne_true]
      rw [hstands (hunloaded (by rw [hflask]; rcases hc with hc | hc | hc <;> rw [hc] <;> decide))]
      exact hflask
    · have hflask := hshown.flaskSeen_calling (.inl hc)
      rw [hshown.skipDeparted_none, if_neg Bool.false_ne_true] at hflask
      rw [hflask] at hrecord hstands
      have hmay : (skipRecordChange u).mayGo = true ↔
          s.phase = .run ∧ s.inputs.auto = true ∧ s.seq.auto.retryMs = none := by
        rw [mayGo_iff, hchange.phase_eq, hchange.besideGates.inputs, hshown.phase, hshown.inputs, hrecord]
      by_cases hgoes : (skipRecordChange u).LoadGoes
      · rw [hseqs, judgeGo_seq_of_loadGoes hgoes, if_pos]
        exact ⟨(hmay.1 hgoes.may).1, by rw [← hgoes.mark, hrecord], (hmay.1 hgoes.may).2⟩
      · rw [hstands hgoes, if_neg]
        · exact hc
        · rintro ⟨hrun, hmark, hauto⟩
          exact hgoes ⟨hloading, by rw [hrecord]; exact hc, by rw [hrecord]; exact hmark, hmay.2 ⟨hrun, hauto⟩⟩

end Sys2Proof.Machine
end

