-- ==== Sys2Proof/Proofs/AutomaticSignal.lean ====
section
/-! PROOFS. Sys2Proof/Proofs/AutomaticSignal.lean: the automatic signal record (R155, R156, R158, Table 8-2). -/
set_option Elab.async false

namespace Sys2Proof.Machine

section
variable {s u w : State}

/-! The automatic signal record ends (R155) -/

/-- R155: what the end of the automatic signal record makes of it and of the cycle of `s`. -/
structure Ended (s : State) (q : Sequencer) : Prop where
  calling : s.calling = true →
    q.auto = { status := .none, number := s.seq.auto.number, replyMs := none, retryMs := some 0 } ∧
    (s.isLoading = true → q.cycle = .loaded ∧ (s.seq.cycle = .waitDepart → q.sendMark = true)) ∧
    (s.isLoading = false → q.tip = .ready)
  silent : ¬s.calling = true → q.auto = { s.seq.auto with status := .none, replyMs := none }

/-- `w` has the automatic signal record of `s`, calls where `s` does, and stands where `s` calls. -/
structure Stays (s w : State) : Prop where
  cfg     : w.cfg = s.cfg
  inputs  : w.inputs = s.inputs
  loader  : w.loader = s.loader
  auto    : w.seq.auto = s.seq.auto
  calling : w.calling = s.calling
  cycle   : s.calling = true → w.seq.cycle = s.seq.cycle
  tip     : s.calling = true → w.seq.tip = s.seq.tip
  mark    : s.calling = true → w.seq.sendMark = s.seq.sendMark

theorem Stays.isLoading (h : Stays s w) : w.isLoading = s.isLoading := by unfold State.isLoading; rw [h.cfg]

theorem Stays.isTip (h : Stays s w) : w.isTip = s.isTip := by unfold State.isTip State.isLanding; rw [h.cfg]

theorem Stays.phase (h : Stays s w) : w.phase = s.phase := by unfold State.phase; rw [h.loader]

theorem Stays.ended (h : Stays s w) : Ended s (autoEnds w).seq := by
  have htold := autoEnds_told w
  refine ⟨fun hc => ?_, fun hc => ?_⟩
  · have hends := htold.calling (h.calling.trans hc)
    rwa [h.auto, h.cycle hc, h.isLoading] at hends
  · rw [htold.silent (by rwa [h.calling]), h.auto]

theorem Stays.mayGo_iff (h : Stays s w) :
    w.mayGo = true ↔ s.phase = .run ∧ s.inputs.auto = true ∧ s.seq.auto.retryMs = none := by
  rw [Machine.mayGo_iff, h.phase, h.inputs, h.auto]

/-- R156, R158: the conditions of the automatic GO, with the clear flag of `w`. -/
theorem Stays.goes_iff (h : Stays s w) (hseq : s.hasSequencer = true) : w.LoadGoes ∨ w.TipGoes ↔
    s.phase = .run ∧ s.inputs.auto = true ∧ s.seq.auto.retryMs = none ∧
      (if s.isLoading then s.seq.cycle = .loaded ∧ s.seq.sendMark = true
       else s.seq.tip = .ready ∧ w.clearFlag s.cfg.tipWinder = true) := by
  cases hl : s.isLoading with
  | true =>
    have hcalls (hc : s.seq.cycle = .loaded) : s.calling = true := (calling_iff s).2 (by rw [if_pos hl]; exact .inl hc)
    have hcalls' (hc : w.seq.cycle = .loaded) : s.calling = true := by
      rw [← h.calling]
      exact (calling_iff w).2 (by rw [if_pos (h.isLoading.trans hl)]; exact .inl hc)
    rw [if_pos rfl]
    constructor
    · rintro (hgo | hgo)
      · obtain ⟨hrun, hauto, hretry⟩ := h.mayGo_iff.1 hgo.may
        have hc := hcalls' hgo.cycle
        exact ⟨hrun, hauto, hretry, by rw [← h.cycle hc]; exact hgo.cycle, by rw [← h.mark hc]; exact hgo.mark⟩
      · have hnot := not_isLoading_of_isTip hgo.isTip
        rw [h.isLoading, hl] at hnot
        cases hnot
    · rintro ⟨hrun, hauto, hretry, hc, hm⟩
      exact .inl ⟨h.isLoading.trans hl, (h.cycle (hcalls hc)).trans hc, (h.mark (hcalls hc)).trans hm,
        h.mayGo_iff.2 ⟨hrun, hauto, hretry⟩⟩
  | false =>
    have ht : s.isTip = true := by
      unfold State.hasSequencer at hseq
      rwa [hl, Bool.false_or] at hseq
    have hcalls (hc : s.seq.tip = .ready) : s.calling = true := (calling_of_isTip ht).2 (.inl hc)
    have hcalls' (hc : w.seq.tip = .ready) : s.calling = true := by
      rw [← h.calling]
      exact (calling_of_isTip (h.isTip.trans ht)).2 (.inl hc)
    rw [if_neg Bool.false_ne_true]
    constructor
    · rintro (hgo | hgo)
      · have hnot := hgo.loading
        rw [h.isLoading, hl] at hnot
        cases hnot
      · obtain ⟨hrun, hauto, hretry⟩ := h.mayGo_iff.1 hgo.may
        exact ⟨hrun, hauto, hretry, (h.tip (hcalls' hgo.ready)).symm.trans hgo.ready, by rw [← h.cfg]; exact hgo.clear⟩
    · rintro ⟨hrun, hauto, hretry, hc, hclear⟩
      exact .inr ⟨h.isTip.trans ht, (h.tip (hcalls hc)).trans hc, by rw [h.cfg]; exact hclear,
        h.mayGo_iff.2 ⟨hrun, hauto, hretry⟩⟩

theorem Stays.refl (s : State) : Stays s s := ⟨rfl, rfl, rfl, rfl, rfl, fun _ => rfl, fun _ => rfl, fun _ => rfl⟩

theorem Stays.trans {v : State} (h : Stays s w) (h' : Stays w v) : Stays s v where
  cfg := h'.cfg.trans h.cfg
  inputs := h'.inputs.trans h.inputs
  loader := h'.loader.trans h.loader
  auto := h'.auto.trans h.auto
  calling := h'.calling.trans h.calling
  cycle hc := (h'.cycle (h.calling.trans hc)).trans (h.cycle hc)
  tip hc := (h'.tip (h.calling.trans hc)).trans (h.tip hc)
  mark hc := (h'.mark (h.calling.trans hc)).trans (h.mark hc)

/-! A WINDING of an automatic trip (Table 8-2) -/

variable {r : WindingReport}

theorem autoReport_refusal (hr : r.state = .refusal) :
    autoReport r s = if s.seq.auto.status = .awaiting then autoEnds s else s := by
  unfold autoReport
  cases hst : s.seq.auto.status <;> simp only [hr] <;> rfl

theorem autoReport_open {st : TripState} (hr : r.state = .trip st) (hst : st ≠ .idle) :
    autoReport r s = if s.seq.auto.status = .none ∧ ¬s.calling = true then s else autoAccepts r.number s := by
  unfold autoReport
  cases hstatus : s.seq.auto.status with
  | none =>
    cases hc : s.calling with
    | true => cases st <;> simp_all
    | false => cases st <;> simp_all
  | awaiting => cases st <;> simp_all
  | accepted => cases st <;> simp_all

theorem autoReport_idle (hr : r.state = .trip .idle) : autoReport r s =
    if s.seq.auto.status = .awaiting ∨ (s.seq.auto.status = .accepted ∧ s.seq.auto.number = some r.number) then autoEnds s
    else s := by
  unfold autoReport
  cases hstatus : s.seq.auto.status <;> simp only [hr] <;> simp

theorem matchesAuto_iff :
    s.matchesAuto r = true ↔ r.winder = s.cfg.tipWinder ∧ r.origin = s.cfg.station ∧ r.auto = true := by
  simp [State.matchesAuto, and_assoc]

/-- A tip in TIP_WAIT or DWELL does not call. -/
theorem calling_of_waiting (ht : s.isTip = true) (h : s.seq.tip = .tipWait ∨ s.seq.tip = .dwell) : ¬s.calling = true := by
  rw [calling_of_isTip ht]
  rcases h with h | h <;> simp [h]

theorem stays_of_silent (hcfg : w.cfg = s.cfg) (hinputs : w.inputs = s.inputs) (hloader : w.loader = s.loader)
    (hauto : w.seq.auto = s.seq.auto) (hs : ¬s.calling = true) (hw : ¬w.calling = true) : Stays s w :=
  ⟨hcfg, hinputs, hloader, hauto, by rw [Bool.eq_false_iff.2 hs, Bool.eq_false_iff.2 hw], fun h => absurd h hs,
    fun h => absurd h hs, fun h => absurd h hs⟩

theorem arrivalTold_leaves (q : Sequencer) (n : TripNumber) (arrives stands : Bool) (hq : q.tip = .tipWait) :
    (q.arrivalTold n arrives stands).auto = q.auto ∧ (q.arrivalTold n arrives stands).cycle = q.cycle ∧
      ((q.arrivalTold n arrives stands).tip = .tipWait ∨ (q.arrivalTold n arrives stands).tip = .dwell) := by
  unfold Sequencer.arrivalTold
  split
  · split
    · exact ⟨rfl, rfl, .inr rfl⟩
    · exact ⟨rfl, rfl, .inl hq⟩
  · split
    · exact ⟨rfl, rfl, .inl hq⟩
    · exact ⟨rfl, rfl, .inl hq⟩

/-- R157: the report of an arrival leaves the automatic signal record, the flask cycle, and whether the station calls. -/
theorem arrivalReport_stays (r : WindingReport) (hs : s.serving = true) :
    Stays s (arrivalReport r s) ∧ (arrivalReport r s).seq.cycle = s.seq.cycle := by
  by_cases hacts : s.isTip = true ∧ s.seq.tip = .tipWait ∧ r.winder = s.cfg.tipWinder ∧ r.state ≠ .refusal
  · obtain ⟨ht, hwait, hw, hr⟩ := hacts
    have hmoves := arrivalReport_moves s r
    have hseq := arrivalReport_seq ht hs hwait hw hr
    obtain ⟨hauto, hcycle, htip⟩ := arrivalTold_leaves s.seq r.number (s.reportsArrival r) (s.stoodAt r.number) hwait
    rw [← hseq] at hauto hcycle htip
    exact ⟨stays_of_silent hmoves.cfg_eq hmoves.besideGates.inputs hmoves.loader_eq hauto (calling_of_waiting ht (.inl hwait))
      (calling_of_waiting (hmoves.isTip_eq.trans ht) htip), hcycle⟩
  · have hstill : arrivalReport r s = s := by
      refine if_neg fun hc => hacts ?_
      simp only [Bool.and_eq_true, beq_iff_eq, bne_iff_ne] at hc
      tauto
    rw [hstill]
    exact ⟨.refl s, rfl⟩

/-- Table 8-2: a WINDING taken at a station with a sequencer. -/
theorem exec_winding_skip {h : Heading} (ht : Taken h (.winding r) s) (hseq : s.hasSequencer = true) (hs : s.serving = true) :
    ∃ v t, exec (.windingTaken h r) s = .next t ∧ BesideGates (s.relayed h (.winding r)) t ∧ Stays s v ∧
      v.seq.cycle = s.seq.cycle ∧ t.seq = (if v.matchesAuto r then autoReport r v else v).seq := by
  have hexec : exec (.windingTaken h r) s =
      .next (finish s (sequencerReport r (signalReport r (s.relayed h (.winding r))))) :=
    exec_taken_gates ht (hasGates_of_hasSequencer hseq)
  let u := signalReport r (s.relayed h (.winding r))
  have hsignal := signalReport_moves (s.relayed h (.winding r)) r
  have hreported := sequencerReport_moves u r
  have hbeside := hsignal.besideGates.trans hreported.besideGates
  have hu : u.seq = s.seq := hsignal.seq_eq.trans (relayed_seq ..)
  have hcfg : u.cfg = s.cfg := hsignal.cfg_eq.trans (relayed_cfg ..)
  have hloader : u.loader = s.loader := hsignal.loader_eq.trans (relayed_loader ..)
  have hinputs : u.inputs = s.inputs := hsignal.besideGates.inputs.trans (relayed_inputs ..)
  have hstart : Stays s u := by
    exact ⟨hcfg, hinputs, hloader, by rw [hu], calling_congr hu hcfg, fun _ => by rw [hu], fun _ => by rw [hu],
      fun _ => by rw [hu]⟩
  have hserving : u.serving = true := by unfold State.serving State.phase at hs ⊢; rwa [hloader]
  obtain ⟨hstays, hcycle⟩ := arrivalReport_stays r hserving
  have hreport : (sequencerReport r u).seq =
      (if (arrivalReport r u).matchesAuto r then autoReport r (arrivalReport r u) else arrivalReport r u).seq :=
    congrArg State.seq (if_pos (by rw [hserving, hasSequencer_congr hcfg, hseq]; rfl))
  exact ⟨arrivalReport r u, _, hexec, hbeside.trans (finish_agrees _ s).besideGates, hstart.trans hstays, by rw [hcycle, hu],
    ((finish_agrees _ s).seq).trans hreport⟩

/-! A POSITION of the skip winder (R155, R156, R158) -/

variable {x : Option Carrying}

theorem Shown.after_cfg (h : Shown s x u) : (skipRecordChange u).cfg = s.cfg ∧ (skipRecordChange u).inputs = s.inputs ∧
    (skipRecordChange u).loader = s.loader := by
  have hchange := skipRecordChange_moves u
  exact ⟨hchange.cfg_eq.trans h.cfg, hchange.besideGates.inputs.trans h.inputs, hchange.loader_eq.trans h.loader⟩

/-- In the states of the flask cycle that do not call, the skip's record leaves the automatic signal record and begins no
calling. -/
theorem Shown.flaskSeen_silent (h : Shown s x u) (hl : s.isLoading = true) (hc : ¬s.calling = true) :
    (flaskSeen u).auto = s.seq.auto ∧ ¬((flaskSeen u).cycle = .loaded ∨ (flaskSeen u).cycle = .waitDepart) := by
  rw [calling_iff, if_pos hl] at hc
  cases hcycle : s.seq.cycle with
  | waitSkip =>
    rw [h.flaskSeen_waitSkip hl hcycle]
    split
    · exact ⟨rfl, by simp⟩
    · exact ⟨rfl, hc⟩
  | discharge =>
    rw [h.flaskSeen_discharge hcycle]
    split
    · exact ⟨rfl, hc⟩
    · unfold Sequencer.abortedAt
      split <;> exact ⟨rfl, by simp⟩
  | doorClosing =>
    rw [h.flaskSeen_doorClosing hcycle]
    exact ⟨rfl, hc⟩
  | loaded => exact absurd (.inl hcycle) hc
  | waitDepart => exact absurd (.inr hcycle) hc

theorem Shown.stays_loading (h : Shown s x u) (hl : s.isLoading = true) (hs : s.serving = true)
    (hnot : ¬(s.calling = true ∧ u.skipDeparted = true)) : Stays s (skipRecordChange u) := by
  obtain ⟨hcfg, hinputs, hloader⟩ := h.after_cfg
  have hseq := h.loading_seq hl hs
  by_cases hc : s.calling = true
  · have hcalls : s.seq.cycle = .loaded ∨ s.seq.cycle = .waitDepart := by rwa [calling_iff, if_pos hl] at hc
    rw [h.flaskSeen_calling hcalls, if_neg fun hd => hnot ⟨hc, hd⟩] at hseq
    have hcall : (skipRecordChange u).calling = true := by
      rw [calling_iff, if_pos (by unfold State.isLoading at hl ⊢; rwa [hcfg]), hseq]
      exact hcalls
    exact ⟨hcfg, hinputs, hloader, by rw [hseq], hcall.trans hc.symm, fun _ => by rw [hseq], fun _ => by rw [hseq],
      fun _ => by rw [hseq]⟩
  · obtain ⟨hauto, hsilent⟩ := h.flaskSeen_silent hl hc
    refine stays_of_silent hcfg hinputs hloader (by rw [hseq]; exact hauto) hc ?_
    rw [h.loading_calling hl hs]
    exact hsilent

theorem Shown.stays_tip (h : Shown s x u) (ht : s.isTip = true) (hs : s.serving = true)
    (hnot : ¬(s.seq.tip ≠ .tipWait ∧ u.skipLeaves = true)) : Stays s (skipRecordChange u) := by
  obtain ⟨hcfg, hinputs, hloader⟩ := h.after_cfg
  have hseq := h.tip_seq ht hs
  by_cases hwait : s.seq.tip = .tipWait
  · rw [if_pos hwait] at hseq
    have hleft : (skipRecordChange u).seq.auto = s.seq.auto ∧
        ((skipRecordChange u).seq.tip = .tipWait ∨ (skipRecordChange u).seq.tip = .dwell) := by
      rw [hseq]
      split
      · exact ⟨rfl, .inr rfl⟩
      · exact ⟨rfl, .inl hwait⟩
    refine stays_of_silent hcfg hinputs hloader hleft.1 (calling_of_waiting ht (.inl hwait)) (calling_of_waiting ?_ hleft.2)
    rw [(skipRecordChange_moves u).isTip_eq, h.isTip, ht]
  · rw [if_neg hwait, if_neg fun hd => hnot ⟨hwait, hd⟩] at hseq
    exact ⟨hcfg, hinputs, hloader, by rw [hseq], calling_congr hseq hcfg, fun _ => by rw [hseq], fun _ => by rw [hseq],
      fun _ => by rw [hseq]⟩

/-- R156, R157: the skip has gone: the automatic signal record is NONE, its timers stopped, and the cycle waits. -/
theorem Shown.gone_loading (h : Shown s x u) (hl : s.isLoading = true) (hs : s.serving = true) (hc : s.calling = true)
    (hd : u.skipDeparted = true) (r : PositionReport) : (recordsSeen r (judgeGo (skipRecordChange u))).seq =
      { s.seq.departs with skipMoved := u.skipMovesOpen } := by
  have hrecord := h.loading_seq hl hs
  have hcalls := h.loading_calling hl hs
  rw [h.flaskSeen_calling (by rwa [calling_iff, if_pos hl] at hc), if_pos hd] at hrecord hcalls
  rw [recordsSeen_seq, judgeGo_of_silent (by rw [hcalls]; simp [Sequencer.departs]),
    autoPosition_of_status (by rw [hrecord]; exact nofun), hrecord]

theorem Shown.gone_tip (h : Shown s x u) (ht : s.isTip = true) (hs : s.serving = true) (hwait : s.seq.tip ≠ .tipWait)
    (hd : u.skipLeaves = true) (r : PositionReport) :
    (recordsSeen r (judgeGo (skipRecordChange u))).seq = s.seq.waits := by
  have hrecord := h.tip_seq ht hs
  rw [if_neg hwait, if_pos hd] at hrecord
  have htip : (skipRecordChange u).isTip = true := by rw [(skipRecordChange_moves u).isTip_eq, h.isTip, ht]
  rw [recordsSeen_seq, judgeGo_still_of_tip htip (by rw [hrecord]; exact nofun),
    autoPosition_of_status (by rw [hrecord]; exact nofun), hrecord]

theorem BesideGates.clearFlag {t : State} (h : BesideGates s t) (hr : t.gate.records = s.gate.records) (w : Winder) :
    t.clearFlag w = s.clearFlag w := by
  unfold State.clearFlag State.serves State.hasGates State.isLanding State.isLoading State.serving State.phase
  rw [h.cfg, h.loader, h.inputs, hr]

/-- R155, R158: what a POSITION makes of a station from which the skip has not gone. -/
theorem goes_seq {r : PositionReport} (hgo : w.LoadGoes ∨ w.TipGoes) : (recordsSeen r (judgeGo w)).seq =
    if w.isLoading then { w.seq.signalled with cycle := .waitDepart } else { w.seq.signalled with tip := .returnSent } := by
  rw [recordsSeen_seq]
  rcases hgo with hgo | hgo
  · rw [autoPosition_of_status (by rw [judgeGo_seq_of_loadGoes hgo]; exact nofun), judgeGo_seq_of_loadGoes hgo,
      if_pos hgo.loading]
  · rw [autoPosition_of_status (by rw [judgeGo_seq_of_tipGoes hgo]; exact nofun), judgeGo_seq_of_tipGoes hgo,
      if_neg (by simp [not_isLoading_of_isTip hgo.isTip])]

theorem still_seq {r : PositionReport} (h : ¬(w.LoadGoes ∨ w.TipGoes)) :
    (recordsSeen r (judgeGo w)).seq = (autoPosition r w).seq := by
  rw [recordsSeen_seq, judgeGo_still (fun hl => h (.inl hl)) fun ht => h (.inr ht)]

theorem Stays.endsBy_iff {r : PositionReport} (h : Stays s w) (hs : s.serving = true) (hseq : s.hasSequencer = true)
    (hw : r.winder = s.cfg.tipWinder) : w.EndsBy r ↔
      s.seq.auto.status = .accepted ∧ (r.state = .idle ∨ s.seq.auto.number ≠ some r.number) := by
  constructor
  · intro hends
    rw [← h.auto]
    exact ⟨hends.accepted, hends.ends⟩
  · rintro ⟨hacc, hends⟩
    refine ⟨?_, ?_, ?_, ?_, ?_⟩
    · unfold State.serving at hs ⊢
      rwa [h.phase]
    · rw [hasSequencer_congr h.cfg]
      exact hseq
    · rw [h.cfg]
      exact hw
    · rw [h.auto]
      exact hacc
    · rw [h.auto]
      exact hends

end

/-- Settles O51. -/
theorem automaticSignalReports : Obligations.AutomaticSignalReports := by
  unfold Obligations.AutomaticSignalReports
  intro s hseq hphase a calling told
  have hs : s.serving = true := by
    unfold State.serving
    rcases hphase with h | h <;> rw [h] <;> rfl
  have hcalling : s.calling = true ↔ calling := calling_iff s
  refine ⟨fun h r htaken => ?_, fun h r htaken hacc hw => ?_⟩
  · intro accepted stands
    obtain ⟨v, t, hexec, hbeside, hstays, hcycle, hreport⟩ := exec_winding_skip htaken hseq hs
    have hstand (ht : t.seq = v.seq) : stands t := by
      change t.seq.auto = _ ∧ t.seq.cycle = _
      rw [ht]
      exact ⟨hstays.auto, hcycle⟩
    have hmatches : v.matchesAuto r = true ↔ r.winder = s.cfg.tipWinder ∧ r.origin = s.cfg.station ∧ r.auto = true := by
      rw [matchesAuto_iff, hstays.cfg]
    have htold (ht : t.seq = (autoEnds v).seq) : told t := by
      have hended := hstays.ended
      refine ⟨fun hc => ?_, fun hc => ⟨?_, ?_⟩⟩
      · rw [ht]
        exact hended.calling (hcalling.2 hc)
      · rw [ht]
        exact hended.silent (mt hcalling.1 hc)
      · rw [ht, (autoEnds_told v).silent (by rw [hstays.calling]; exact mt hcalling.1 hc)]
        exact hcycle
    refine ⟨t, hexec, hbeside, fun hnot => hstand ?_, fun hwinder horigin hauto => ?_⟩
    · rw [hreport, if_neg (mt hmatches.1 hnot)]
    · rw [if_pos (hmatches.2 ⟨hwinder, horigin, hauto⟩)] at hreport
      refine ⟨fun hr => ⟨fun hst => htold ?_, fun hst => hstand ?_⟩,
        fun st hr hst => ⟨fun hnone hc => hstand ?_, fun hyes => ?_⟩,
        fun hr => ⟨fun hst => hstand ?_, fun hst => htold ?_, fun hst => ⟨fun hn => htold ?_, fun hn => hstand ?_⟩⟩⟩
      · rw [hreport, autoReport_refusal hr, hstays.auto, if_pos hst]
      · rw [hreport, autoReport_refusal hr, hstays.auto, if_neg hst]
      · rw [hreport, autoReport_open hr hst, hstays.auto, hstays.calling, if_pos ⟨hnone, mt hcalling.1 hc⟩]
      · change t.seq.auto = _ ∧ t.seq.cycle = _
        rw [hreport, autoReport_open hr hst, hstays.auto, hstays.calling, if_neg]
        · refine ⟨?_, hcycle⟩
          change { v.seq.auto with status := .accepted, number := some r.number, replyMs := none } = _
          rw [hstays.auto]
        · rintro ⟨hnone, hc⟩
          exact hyes.elim (fun h => h hnone) fun h => hc (hcalling.2 h)
      · rw [hreport, autoReport_idle hr, hstays.auto, if_neg]
        rw [hst]
        simp
      · rw [hreport, autoReport_idle hr, hstays.auto, if_pos (.inl hst)]
      · rw [hreport, autoReport_idle hr, hstays.auto, if_pos (.inr ⟨hst, hn⟩)]
      · rw [hreport, autoReport_idle hr, hstays.auto, if_neg]
        rw [hst]
        simpa using hn
  · intro level inWindow away gone ends
    obtain ⟨u, hexec, hshown, -⟩ := exec_position_skip htaken hseq hacc hw
    have hdeparted : u.skipDeparted = true ↔ (¬inWindow ∨ away) := by
      rw [hshown.skipDeparted, runsAway_iff, or_comm]
      exact Iff.rfl
    have hleaves : u.skipLeaves = true ↔ ¬(r.speed.natAbs ≤ 50 ∧ inWindow) := by
      rw [hshown.skipLeaves, Bool.not_eq_true', Bool.eq_false_iff]
      exact not_congr stands_iff
    have htip (hl : s.isLoading = false) : s.isTip = true := by
      unfold State.hasSequencer at hseq
      rwa [hl, Bool.false_or] at hseq
    have hstays (hnot : ¬gone) : Stays s (skipRecordChange u) := by
      cases hl : s.isLoading with
      | true =>
        refine hshown.stays_loading hl hs fun hd => hnot ?_
        exact (if_pos hl).mpr ⟨hcalling.1 hd.1, hdeparted.1 hd.2⟩
      | false =>
        refine hshown.stays_tip (htip hl) hs fun hd => hnot ?_
        exact (if_neg (Bool.eq_false_iff.1 hl)).mpr ⟨hd.1, hleaves.1 hd.2⟩
    have hgo := judgeGo_moves (skipRecordChange u)
    have hrecords := recordsSeen_moves r (judgeGo (skipRecordChange u))
    have hend := finish_agrees (recordsSeen r (judgeGo (skipRecordChange u))) s
    have hclear : (finish s (recordsSeen r (judgeGo (skipRecordChange u)))).clearFlag s.cfg.tipWinder =
        (skipRecordChange u).clearFlag s.cfg.tipWinder :=
      ((hgo.besideGates.trans hrecords.besideGates).trans hend.besideGates).clearFlag
        ((hend.records.trans hrecords.records_eq).trans hgo.records_eq) _
    refine ⟨_, hexec, ?_⟩
    rw [hclear, hend.seq]
    intro goes
    have hgoes (hnot : ¬gone) : (skipRecordChange u).LoadGoes ∨ (skipRecordChange u).TipGoes ↔ goes :=
      (hstays hnot).goes_iff hseq
    have hends (hnot : ¬gone) : (skipRecordChange u).EndsBy r ↔ ends := (hstays hnot).endsBy_iff hs hseq hw
    refine ⟨fun hgone => ?_, fun hnot hyes => ?_, fun hnot hno hyes hc => ?_, fun hnot hno hyes hc => ?_,
      fun hnot hno hyes => ?_⟩
    · cases hl : s.isLoading with
      | true =>
        obtain ⟨hc, hd⟩ := (if_pos hl).mp hgone
        rw [hshown.gone_loading hl hs (hcalling.2 hc) (hdeparted.2 hd)]
        exact ⟨rfl, rfl, rfl, fun _ => rfl, nofun⟩
      | false =>
        obtain ⟨hne, hd⟩ := (if_neg (Bool.eq_false_iff.1 hl)).mp hgone
        rw [hshown.gone_tip (htip hl) hs hne (hleaves.2 hd)]
        exact ⟨rfl, rfl, rfl, nofun, fun _ => rfl⟩
    · have hstay := hstays hnot
      rw [goes_seq ((hgoes hnot).2 hyes), hstay.isLoading]
      cases hl : s.isLoading with
      | true =>
        rw [if_pos rfl]
        exact ⟨by rw [Sequencer.signalled, hstay.auto], fun _ => rfl, nofun⟩
      | false =>
        rw [if_neg Bool.false_ne_true]
        exact ⟨by rw [Sequencer.signalled, hstay.auto], nofun, fun _ => rfl⟩
    · have hseqs : (finish s (recordsSeen r (judgeGo (skipRecordChange u)))).seq = (autoEnds (skipRecordChange u)).seq := by
        rw [hend.seq, still_seq (mt (hgoes hnot).1 hno), autoPosition_of ((hends hnot).2 hyes)]
      refine ⟨fun hc => ?_, fun hsilent => absurd hc hsilent⟩
      rw [hseqs]
      exact (hstays hnot).ended.calling (hcalling.2 hc)
    · rw [still_seq (mt (hgoes hnot).1 hno), autoPosition_of ((hends hnot).2 hyes)]
      exact (hstays hnot).ended.silent (mt hcalling.1 hc)
    · rw [still_seq (mt (hgoes hnot).1 hno), autoPosition_still (mt (hends hnot).1 hyes)]
      exact ⟨(hstays hnot).auto, fun hc => ⟨(hstays hnot).cycle (hcalling.2 hc), (hstays hnot).tip (hcalling.2 hc)⟩⟩

end Sys2Proof.Machine
end

