-- ==== Sys2Proof/Proofs/SequencerTimers.lean ====
section
/-! PROOFS. Sys2Proof/Proofs/SequencerTimers.lean: the timers of the Loading Sequencer, the auto input, and the clear flag that
rises at a tip in READY (R152, R155, R156, R158). -/
set_option Elab.async false

namespace Sys2Proof.Machine

section
variable {s e t : State}

/-! The automatic GO that follows (R155) -/

theorem autoGo_congr (hcfg : e.cfg = s.cfg) : e.own e.autoGo = s.own s.autoGo := by
  unfold State.own State.autoGo State.partner State.isLoading
  rw [hcfg]

theorem SameLine.queued (h : SameLine s e) : Queued s 0 [] e := (Queued.refl s).of_ports ⟨h.portA, h.portB⟩

/-- A frame originated by a command, and the ASSENT that may follow it, find room for two. -/
theorem Queued.offered_at_end {f : Frame} (h : Queued s 1 [f] e) (hends : Ends e t) (hf : f.kind ≠ .assent) : Offered s t f :=
  (h.ends hends fun g hg => by rw [List.mem_singleton.1 hg]; exact hf).offered (List.mem_singleton.2 rfl) (.inl le_rfl)

theorem SameLine.originateGo_queued (h : SameLine s e) (hrun : e.phase = .run) : Queued s 1 [s.own s.autoGo] (originateGo e) := by
  have hqueued := h.queued.originateGo hrun h.cfg
  rwa [autoGo_congr h.cfg] at hqueued

/-- R156, R158: where the conditions of the automatic GO hold, it is offered. -/
theorem SameLine.go_offered (h : SameLine s e) (hgo : e.LoadGoes ∨ e.TipGoes) (hends : Ends (judgeGo e) t) :
    Offered s t (s.own s.autoGo) := by
  have hsent (hmay : e.mayGo = true) (q : Sequencer) : Queued s 1 [s.own s.autoGo] ((originateGo e).setSeq q) :=
    (h.originateGo_queued (mayGo_iff.1 hmay).1).of_ports ⟨rfl, rfl⟩
  rcases hgo with hgo | hgo
  · rw [judgeGo_of_loadGoes hgo] at hends
    exact (hsent hgo.may _).offered_at_end hends nofun
  · rw [judgeGo_of_tipGoes hgo] at hends
    exact (hsent hgo.may _).offered_at_end hends nofun

/-- The automatic GO leaves the retry timer and the dwell timer. -/
theorem judgeGo_timers (s : State) :
    (judgeGo s).seq.auto.retryMs = s.seq.auto.retryMs ∧ (judgeGo s).seq.dwellMs = s.seq.dwellMs := by
  by_cases hl : s.LoadGoes
  · rw [judgeGo_seq_of_loadGoes hl]
    exact ⟨rfl, rfl⟩
  · by_cases ht : s.TipGoes
    · rw [judgeGo_seq_of_tipGoes ht]
      exact ⟨rfl, rfl⟩
    · rw [judgeGo_still hl ht]
      exact ⟨rfl, rfl⟩

/-! The clear flag that rises at a tip (R158) -/

theorem clearFlag_congr {w : Winder} (hcfg : e.cfg = s.cfg) (hloader : e.loader = s.loader)
    (hlock : e.inputs.lockEngaged[w] = s.inputs.lockEngaged[w]) (hrecord : e.gate.records[w] = s.gate.records[w]) :
    e.clearFlag w = s.clearFlag w := by
  unfold State.clearFlag State.serves State.hasGates State.isLanding State.isLoading State.serving State.phase
  rw [hcfg, hloader, hlock, hrecord]

/-- A gate that opens sends its HALT only where that lets no clear flag rise. -/
theorem gateOpens_ports {w v : Winder} (hwas : s.clearFlag v = false) (hnow : (gateOpens w s).clearFlag v = true) :
    (gateOpens w s).portA = s.portA ∧ (gateOpens w s).portB = s.portB := by
  have hbeside := (gateOpens_moves s w).besideGates
  unfold gateOpens at hnow ⊢
  cases hst : s.gateState w with
  | locked =>
    rw [hst] at hnow
    dsimp only at hnow
    have hrecords : (forceGate w s).gate.records = put s.gate.records w (GateRecord.inState .forced) := by
      unfold forceGate
      rw [raise_gate, originate_gate]
      rfl
    exfalso
    by_cases hv : w = v
    · subst hv
      have hclear := ((clearFlag_iff _ _).1 hnow).2
      rw [hrecords, getElem_put, if_pos rfl] at hclear
      simp [GateRecord.inState] at hclear
    · have hsame : (forceGate w s).clearFlag v = s.clearFlag v := by
        have hforced : gateOpens w s = forceGate w s := by unfold gateOpens; rw [hst]
        rw [hforced] at hbeside
        exact clearFlag_congr hbeside.cfg hbeside.loader (by rw [hbeside.inputs])
          (by rw [hrecords, getElem_put, if_neg hv])
      rw [hsame, hwas] at hnow
      cases hnow
  | releasable => exact ⟨rfl, rfl⟩
  | opened => exact ⟨rfl, rfl⟩
  | forced => exact ⟨rfl, rfl⟩

/-- A state in which a gate input or the acknowledge key has been acted on, before the automatic GO is judged: the line and the
sequencer are those of `s`, and the ports too where the clear flag of the skip winder has risen. -/
structure Acted (s e : State) : Prop where
  cfg    : e.cfg = s.cfg
  loader : e.loader = s.loader
  seq    : e.seq = s.seq
  auto   : e.inputs.auto = s.inputs.auto
  ports  : e.clearFlag s.cfg.tipWinder = true → e.portA = s.portA ∧ e.portB = s.portB

theorem Acted.phase (h : Acted s e) : e.phase = s.phase := by unfold State.phase; rw [h.loader]

theorem Acted.tipGoes_iff (h : Acted s e) (ht : s.isTip = true) (hready : s.seq.tip = .ready) : e.TipGoes ↔
    e.clearFlag s.cfg.tipWinder = true ∧ s.phase = .run ∧ s.inputs.auto = true ∧ s.seq.auto.retryMs = none := by
  have hmay : e.mayGo = true ↔ s.phase = .run ∧ s.inputs.auto = true ∧ s.seq.auto.retryMs = none := by
    rw [mayGo_iff, h.phase, h.auto, h.seq]
  constructor
  · intro hgo
    exact ⟨by rw [← h.cfg]; exact hgo.clear, hmay.1 hgo.may⟩
  · rintro ⟨hclear, hgoes⟩
    refine ⟨?_, by rw [h.seq]; exact hready, by rw [h.cfg]; exact hclear, hmay.2 hgoes⟩
    unfold State.isTip State.isLanding at ht ⊢
    rwa [h.cfg]

/-- R158: `t` is a next state of `s` in which the automatic GO has been originated exactly if the clear flag of the skip winder
has risen and the other conditions hold. -/
structure GoesIfClear (s t : State) : Prop where
  goes : t.clearFlag s.cfg.tipWinder = true → s.phase = .run → s.inputs.auto = true → s.seq.auto.retryMs = none →
    Offered s t (s.own s.autoGo) ∧ t.seq.tip = .returnSent ∧
      t.seq.auto = { s.seq.auto with status := .awaiting, number := none, replyMs := some 0 }
  stands : t.clearFlag s.cfg.tipWinder = false ∨ s.phase ≠ .run ∨ s.inputs.auto = false ∨ s.seq.auto.retryMs ≠ none →
    t.seq = s.seq

theorem goesIfClear_of_not (hclear : t.clearFlag s.cfg.tipWinder = false) (hseq : t.seq = s.seq) : GoesIfClear s t :=
  ⟨fun h => absurd (hclear.symm.trans h) (by decide), fun _ => hseq⟩

theorem Acted.leaves (h : Acted s e) (ht : s.isTip = true) (hready : s.seq.tip = .ready) :
    GoesIfClear s (finish s (judgeGo e)) := by
  have hends := finish_ends s (judgeGo e)
  have hgo := judgeGo_moves e
  have hclear : (finish s (judgeGo e)).clearFlag s.cfg.tipWinder = e.clearFlag s.cfg.tipWinder :=
    (hgo.besideGates.trans hends.toAgrees.besideGates).clearFlag (hends.records.trans hgo.records_eq) _
  have hnotLoad : ¬e.LoadGoes := not_loadGoes_of_isTip (by unfold State.isTip State.isLanding at ht ⊢; rwa [h.cfg])
  constructor <;> rw [hclear, hends.seq]
  · intro hrises hrun hauto hretry
    have hgoes := (h.tipGoes_iff ht hready).2 ⟨hrises, hrun, hauto, hretry⟩
    obtain ⟨hA, hB⟩ := h.ports hrises
    refine ⟨SameLine.go_offered ⟨h.loader, h.cfg, hA, hB⟩ (.inr hgoes) hends, ?_, ?_⟩
    · rw [judgeGo_seq_of_tipGoes hgoes]
    · rw [judgeGo_seq_of_tipGoes hgoes, Sequencer.signalled, h.seq]
  · intro hnot
    have hstill : ¬e.TipGoes := fun hgoes => by
      obtain ⟨hrises, hrun, hauto, hretry⟩ := (h.tipGoes_iff ht hready).1 hgoes
      rcases hnot with hnot | hnot | hnot | hnot
      · rw [hrises] at hnot
        cases hnot
      · exact hnot hrun
      · rw [hauto] at hnot
        cases hnot
      · exact hnot hretry
    rw [judgeGo_still hnotLoad hstill, h.seq]

end

theorem onInput_same {set f : State → State} (s : State) : onInput false set f s = .next s := by
  unfold onInput
  rw [Bool.and_false, if_neg Bool.false_ne_true]

section
variable {s : State} {w : Winder}

/-- R128 to R131, R158: a gate switch that changes at a tip in READY. -/
theorem gateSwitch_goesIfClear (closed : Bool) (hlive : s.live = true) (ht : s.isTip = true) (hready : s.seq.tip = .ready)
    (hclear : s.clearFlag s.cfg.tipWinder = false) :
    ∃ t, exec (.gateSwitchChange w closed) s = .next t ∧ GoesIfClear s t := by
  by_cases hsame : s.inputs.gateClosed[w] = closed
  · have hexec : exec (.gateSwitchChange w closed) s = .next s := by
      change execGateSwitchChange w closed s = _
      unfold execGateSwitchChange
      rw [bne_eq_false_iff_eq.2 hsame, onInput_same]
    exact ⟨s, hexec, goesIfClear_of_not hclear rfl⟩
  · let v := s.setInputs { s.inputs with gateClosed := put s.inputs.gateClosed w closed }
    have hexec : exec (.gateSwitchChange w closed) s =
        .next (finish s (if v.gateActs w then judgeGo (if closed then gateCloses w v else gateOpens w v) else v)) := by
      change execGateSwitchChange w closed s = _
      unfold execGateSwitchChange
      rw [onInput_of_live hlive (bne_iff_ne.2 hsame)]
    refine ⟨_, hexec, ?_⟩
    by_cases hacts : v.gateActs w = true
    · rw [if_pos hacts]
      refine Acted.leaves ?_ ht hready
      cases closed with
      | true =>
        have hmoves := gateCloses_moves v w
        rw [if_pos rfl]
        exact ⟨hmoves.cfg_eq, hmoves.loader_eq, hmoves.seq_eq, by rw [hmoves.besideGates.inputs]; rfl,
          fun _ => hmoves.ports_eq⟩
      | false =>
        have hmoves := gateOpens_moves v w
        rw [if_neg Bool.false_ne_true]
        exact ⟨hmoves.cfg_eq, hmoves.loader_eq, hmoves.seq_eq, by rw [hmoves.besideGates.inputs]; rfl, gateOpens_ports hclear⟩
    · rw [if_neg hacts]
      have hagrees := finish_agrees v s
      exact goesIfClear_of_not ((hagrees.besideGates.clearFlag hagrees.records _).trans hclear) hagrees.seq

/-- R134, R158: a lock contact that changes at a tip in READY. -/
theorem lockContact_goesIfClear (engaged : Bool) (hlive : s.live = true) (ht : s.isTip = true) (hready : s.seq.tip = .ready)
    (hclear : s.clearFlag s.cfg.tipWinder = false) :
    ∃ t, exec (.lockContactChange w engaged) s = .next t ∧ GoesIfClear s t := by
  by_cases hsame : s.inputs.lockEngaged[w] = engaged
  · have hexec : exec (.lockContactChange w engaged) s = .next s := by
      change execLockContactChange w engaged s = _
      unfold execLockContactChange
      rw [bne_eq_false_iff_eq.2 hsame, onInput_same]
    exact ⟨s, hexec, goesIfClear_of_not hclear rfl⟩
  · let v := s.setInputs { s.inputs with lockEngaged := put s.inputs.lockEngaged w engaged }
    have hexec : exec (.lockContactChange w engaged) s =
        .next (finish s (if v.gateActs w then judgeGo (lockChanges engaged w v) else v)) := by
      change execLockContactChange w engaged s = _
      unfold execLockContactChange
      rw [onInput_of_live hlive (bne_iff_ne.2 hsame)]
    refine ⟨_, hexec, ?_⟩
    by_cases hacts : v.gateActs w = true
    · have hmoves := lockChanges_moves v engaged w
      rw [if_pos hacts]
      exact Acted.leaves ⟨hmoves.cfg_eq, hmoves.loader_eq, hmoves.seq_eq, by rw [hmoves.besideGates.inputs]; rfl,
        fun _ => hmoves.ports_eq⟩ ht hready
    · rw [if_neg hacts]
      have hagrees := finish_agrees v s
      have hnot : v.clearFlag s.cfg.tipWinder = false := by
        by_cases hw : w = s.cfg.tipWinder
        · rw [← Bool.not_eq_true, ← hw]
          intro hrises
          obtain ⟨⟨hserves, hserving⟩, -⟩ := (clearFlag_iff _ _).1 hrises
          exact hacts (Bool.and_eq_true_iff.2 ⟨hserves, hserving⟩)
        · have hlock : v.inputs.lockEngaged[s.cfg.tipWinder] = s.inputs.lockEngaged[s.cfg.tipWinder] :=
            (getElem_put _ _ _ _).trans (if_neg hw)
          exact (clearFlag_congr (s := s) (e := v) rfl rfl hlock rfl).trans hclear
      exact goesIfClear_of_not ((hagrees.besideGates.clearFlag hagrees.records _).trans hnot) hagrees.seq

/-- R131, R158: the acknowledge key at a tip in READY. -/
theorem acknowledgeKey_goesIfClear (hlive : s.live = true) (ht : s.isTip = true) (hready : s.seq.tip = .ready) :
    ∃ t, exec .acknowledgeKey s = .next t ∧ GoesIfClear s t := by
  have hexec : exec .acknowledgeKey s =
      .next (finish s (judgeGo (acknowledgeGates (clearDropFlags (acknowledgeEvent s))))) := by
    change execAcknowledgeKey s = _
    unfold execAcknowledgeKey
    rw [act_of_live hlive]
  obtain ⟨⟨n, hn⟩, -, -⟩ := acknowledgeEvent_leaves s
  have hmoves := acknowledgeGates_moves (clearDropFlags (acknowledgeEvent s))
  refine ⟨_, hexec, Acted.leaves ⟨?_, ?_, ?_, ?_, fun _ => ?_⟩ ht hready⟩
  · rw [hmoves.cfg_eq, hn]
    rfl
  · rw [hmoves.loader_eq, hn]
    rfl
  · rw [hmoves.seq_eq, hn]
    rfl
  · rw [hmoves.besideGates.inputs, hn]
    rfl
  · rw [hmoves.ports_eq.1, hmoves.ports_eq.2, hn]
    exact ⟨rfl, rfl⟩

end

/-! The commands of the timers and of the auto input (R152, R155, R156, R158) -/

section
variable {s v : State}

theorem interlock_agrees (reason : HaltReason) (e : Event) (v : State) : Agrees v (interlock reason e v) :=
  (originate_agrees v _).trans (raise_agrees _ e)

theorem interlock_pending (reason : HaltReason) (e : Event) (hw : v.working = true) :
    (interlock reason e v).isPending e = true := by
  refine isPending_raise_self _ _ ?_
  unfold State.working at hw ⊢
  rwa [(originate_moves v _).phase_eq]

theorem Queued.interlock {n : Nat} {fs : List Frame} (h : Queued s n fs v) (hrun : v.phase = .run) (hcfg : v.cfg = s.cfg)
    (reason : HaltReason) (e : Event) :
    Queued s (n + 1) (v.own (.halt v.skipSet reason) :: fs) (Machine.interlock reason e v) :=
  (h.halt hrun hcfg v.skipSet reason).of_ports (by simp [Machine.interlock])

/-- The sequencer with its door timer stopped. -/
def doorStopped (s : State) : State := s.setSeq { s.seq with doorMs := none }

/-- The sequencer with its retry timer stopped. -/
def retryStopped (s : State) : State := s.setSeq { s.seq with auto := { s.seq.auto with retryMs := none } }

/-- The sequencer in READY, its dwell timer stopped. -/
def dwellEnded (s : State) : State := s.setSeq { s.seq with tip := .ready, dwellMs := none }

/-- The auto input read. -/
def autoRead (on : Bool) (s : State) : State := s.setInputs { s.inputs with auto := on }

theorem exec_doorTimerExpiry {n : Nat} (hlive : s.live = true) (hc : s.seq.cycle = .doorClosing) (hdoor : s.seq.doorMs = some n)
    (hn : s.cfg.doorTimeout * 1000 ≤ n) :
    exec .doorTimerExpiry s = .next (finish s (interlock .flaskDoor .flaskDoor (doorStopped s))) := by
  change execDoorTimerExpiry s = _
  unfold execDoorTimerExpiry
  rw [act_of_live hlive, if_pos ⟨hc, (reached_iff hdoor _).2 hn⟩]
  rfl

theorem exec_autoReplyTimerExpiry {n : Nat} (hlive : s.live = true) (hst : s.seq.auto.status = .awaiting)
    (hreply : s.seq.auto.replyMs = some n) (hn : 2000 ≤ n) :
    exec .autoReplyTimerExpiry s = .next (finish s (originateGo s)) := by
  change execAutoReplyTimerExpiry s = _
  unfold execAutoReplyTimerExpiry
  rw [act_of_live hlive, if_pos ⟨hst, (reached_iff hreply _).2 hn⟩]

theorem exec_retryTimerExpiry {n : Nat} (hlive : s.live = true) (hretry : s.seq.auto.retryMs = some n) (hn : 2000 ≤ n) :
    exec .retryTimerExpiry s = .next (finish s (judgeGo (retryStopped s))) := by
  change execRetryTimerExpiry s = _
  unfold execRetryTimerExpiry
  rw [act_of_live hlive, if_pos ((reached_iff hretry Config.retryTime).2 hn)]
  rfl

theorem exec_dwellTimerExpiry {n : Nat} (hlive : s.live = true) (ht : s.seq.tip = .dwell) (hdwell : s.seq.dwellMs = some n)
    (hn : s.cfg.dwell * 1000 ≤ n) : exec .dwellTimerExpiry s = .next (finish s (judgeGo (dwellEnded s))) := by
  change execDwellTimerExpiry s = _
  unfold execDwellTimerExpiry
  rw [act_of_live hlive, if_pos ⟨ht, (reached_iff hdwell _).2 hn⟩]
  rfl

theorem exec_autoInputChange {on : Bool} (hlive : s.live = true) (hne : s.inputs.auto ≠ on) :
    exec (.autoInputChange on) s = .next (finish s (judgeGo (autoRead on s))) := by
  change execAutoInputChange on s = _
  unfold execAutoInputChange
  rw [onInput_of_live hlive (by simpa using hne)]
  rfl

/-- R155: the automatic GO leaves the station but for its sequencer. -/
theorem originateGo_agrees (s : State) : Agrees (s.setSeq s.seq.signalled) (originateGo s) := by
  have h := originate_agrees s s.autoGo
  exact ⟨h.pending, h.loader, h.cfg, h.inputs, h.clock, h.portA, h.portB, h.relay, h.picture, h.stations, h.depth, h.env,
    h.trip, h.safety, h.records, h.signal, h.calls, originateGo_seq s, h.draws⟩

theorem setSeq_sameLine (s : State) (q : Sequencer) : SameLine s (s.setSeq q) := ⟨rfl, rfl, rfl, rfl⟩

theorem setSeq_besideGates (s : State) (q : Sequencer) : BesideGates s (s.setSeq q) := by constructor <;> rfl

theorem autoRead_sameLine (on : Bool) (s : State) : SameLine s (autoRead on s) := ⟨rfl, rfl, rfl, rfl⟩

/-- What a judging of the automatic GO leaves of the gates, to the end of the step. -/
theorem judged_besideGates (before : State) {u e : State} (h : BesideGates u e) : BesideGates u (finish before (judgeGo e)) :=
  (h.trans (judgeGo_moves e).besideGates).trans (finish_agrees _ before).besideGates

/-- R156: the automatic GO of a loading station is offered, and the cycle waits for the departure. -/
theorem SameLine.load_offered {e : State} (h : SameLine s e) (hgo : e.LoadGoes) :
    let t := finish s (judgeGo e)
    Offered s t (s.own s.autoGo) ∧ t.seq.cycle = .waitDepart ∧
      t.seq.auto.status = .awaiting ∧ t.seq.auto.replyMs = some 0 := by
  refine ⟨h.go_offered (.inl hgo) (finish_ends s _), ?_⟩
  rw [(finish_agrees _ s).seq, judgeGo_seq_of_loadGoes hgo]
  exact ⟨rfl, rfl, rfl⟩

/-- R158: the automatic GO of a tip is offered, and the cycle waits for the return. -/
theorem SameLine.tip_offered {e : State} (h : SameLine s e) (hgo : e.TipGoes) :
    let t := finish s (judgeGo e)
    Offered s t (s.own s.autoGo) ∧ t.seq.tip = .returnSent ∧
      t.seq.auto = { e.seq.auto with status := .awaiting, number := none, replyMs := some 0 } := by
  refine ⟨h.go_offered (.inr hgo) (finish_ends s _), ?_⟩
  rw [(finish_agrees _ s).seq, judgeGo_seq_of_tipGoes hgo]
  exact ⟨rfl, rfl⟩

end

/-- Settles O53. -/
theorem sequencerTimersAndAutoInput : Obligations.SequencerTimersAndAutoInput := by
  unfold Obligations.SequencerTimersAndAutoInput
  intro s hlive hw go
  refine ⟨fun n hl hc hdoor hn => ?_, fun n hst hreply hn => ?_, fun n hretry hn => ?_, fun n hdwell htimer hn => ?_,
    fun on hne => ?_, fun w on c hcommand ht hready hclear => ?_⟩
  · have hends := finish_ends s (interlock .flaskDoor .flaskDoor (doorStopped s))
    refine ⟨_, exec_doorTimerExpiry hlive hc hdoor hn, (interlock_agrees _ _ _).trans hends.toAgrees,
      hends.pending_of (interlock_pending _ _ hw) (leavingMask_of_gates ?_ (by simp)), fun hrun => ?_⟩
    · rw [(interlock_moves _ _ _).hasGates_eq]
      exact hasGates_of_hasSequencer (by unfold State.hasSequencer; rw [show (doorStopped s).isLoading = true from hl]; rfl)
    · have hframe : s.own (.halt (BitVec.twoPow 4 s.cfg.tipWinder.val) .flaskDoor) = s.own (.halt s.skipSet .flaskDoor) := by
        simp [State.skipSet, winderJoin]
      rw [hframe]
      have hqueued := (SameLine.queued (e := doorStopped s) (setSeq_sameLine s _)).interlock hrun rfl .flaskDoor .flaskDoor
      exact hqueued.offered_at_end hends nofun
  · have hends := finish_ends s (originateGo s)
    refine ⟨_, exec_autoReplyTimerExpiry hlive hst hreply hn, ?_, fun hrun => ?_⟩
    · have hset := (originateGo_agrees s).trans hends.toAgrees
      have hsent : s.seq.signalled = { s.seq with auto := { s.seq.auto with number := none, replyMs := some 0 } } := by
        rw [Sequencer.signalled, ← hst]
      rw [hsent] at hset
      exact hset
    · exact (SameLine.originateGo_queued ⟨rfl, rfl, rfl, rfl⟩ hrun).offered_at_end hends nofun
  · have hquiet (hnot : s.phase ≠ .run ∨ s.inputs.auto = false) : judgeGo (retryStopped s) = retryStopped s := by
      refine judgeGo_of_not_mayGo fun hmay => ?_
      obtain ⟨hrun, hauto, -⟩ := mayGo_iff.1 hmay
      exact hnot.elim (fun h => h hrun) fun h => by rw [show s.inputs.auto = true from hauto] at h; cases h
    refine ⟨_, exec_retryTimerExpiry hlive hretry hn, judged_besideGates s (setSeq_besideGates s _), ?_,
      fun hl hc hmark hrun hauto => ?_, fun ht hready hclear hrun hauto => ?_, fun hnot => ?_⟩
    · rw [(finish_agrees _ s).seq, (judgeGo_timers _).1]
      rfl
    · exact (setSeq_sameLine s _).load_offered ⟨hl, hc, hmark, mayGo_iff.2 ⟨hrun, hauto, rfl⟩⟩
    · obtain ⟨hoffered, htip, hsignal⟩ :=
        (setSeq_sameLine s _).tip_offered (e := retryStopped s) ⟨ht, hready, hclear, mayGo_iff.2 ⟨hrun, hauto, rfl⟩⟩
      exact ⟨hoffered, htip, by rw [hsignal], by rw [hsignal]⟩
    · rw [hquiet hnot]
      exact (setSeq_besideGates s _).quiet rfl Iff.rfl
  · refine ⟨_, exec_dwellTimerExpiry hlive hdwell htimer hn, judged_besideGates s (setSeq_besideGates s _), ?_,
      fun ht hclear hrun hauto hretry => ?_, fun hl hnot => ?_⟩
    · rw [(finish_agrees _ s).seq, (judgeGo_timers _).2]
      rfl
    · obtain ⟨hoffered, htip, hsignal⟩ :=
        (setSeq_sameLine s _).tip_offered (e := dwellEnded s) ⟨ht, rfl, hclear, mayGo_iff.2 ⟨hrun, hauto, hretry⟩⟩
      exact ⟨hoffered, htip, by rw [hsignal], by rw [hsignal]⟩
    · rw [(finish_agrees _ s).seq, judgeGo_of_not_mayGo fun hmay => ?_]
      · rfl
      · obtain ⟨hrun, hauto, -⟩ := mayGo_iff.1 hmay
        exact hnot.elim (fun h => h hrun) fun h => by rw [show s.inputs.auto = true from hauto] at h; cases h
  · intro e
    refine ⟨_, exec_autoInputChange hlive hne, judged_besideGates s (.refl e), fun hon hl hc hmark hrun hretry => ?_,
      fun hon ht hready hclear hrun hretry => ?_, fun hnot => ?_⟩
    · obtain ⟨hoffered, hcycle, -⟩ :=
        (autoRead_sameLine on s).load_offered ⟨hl, hc, hmark, mayGo_iff.2 ⟨hrun, hon, hretry⟩⟩
      exact ⟨hoffered, hcycle⟩
    · obtain ⟨hoffered, htip, -⟩ :=
        (autoRead_sameLine on s).tip_offered ⟨ht, hready, hclear, mayGo_iff.2 ⟨hrun, hon, hretry⟩⟩
      exact ⟨hoffered, htip⟩
    · have hstill : judgeGo (autoRead on s) = autoRead on s := judgeGo_of_not_mayGo fun hmay => by
        obtain ⟨hrun, hon, hretry⟩ := mayGo_iff.1 hmay
        rcases hnot with hnot | hnot | hnot
        · rw [show on = true from hon] at hnot
          cases hnot
        · exact hnot hrun
        · exact hnot hretry
      rw [hstill]
      exact finish_quiet s (autoRead on s) (fun _ => rfl) fun _ h => h
  · have hgoes : ∃ t, exec c s = .next t ∧ GoesIfClear s t := by
      rcases hcommand with rfl | rfl | rfl
      · exact gateSwitch_goesIfClear on hlive ht hready hclear
      · exact lockContact_goesIfClear on hlive ht hready hclear
      · exact acknowledgeKey_goesIfClear hlive ht hready
    obtain ⟨t, hexec, hleaves⟩ := hgoes
    exact ⟨t, hexec, hleaves.goes, hleaves.stands⟩

end Sys2Proof.Machine
end
